-- ==== Sys2Proof/Word.lean ====
section
/-! DEFINITION. The word types of the processor (00_scope.md rules R8 and R9): a general-purpose register, a control
register, an address and the pc are 32-bit vectors; memory is made of 8-bit bytes. -/

namespace Sys2Proof

/-- A 32-bit word; arithmetic on it is modulo 2^32 (rule R9). -/
abbrev Word := BitVec 32

/-- An 8-bit byte, the unit of memory (rule R90). -/
abbrev Byte := BitVec 8

/-- The number of a general-purpose register, 0 to 31 (rule R20). -/
abbrev RegNum := BitVec 5

/-- The number of a register set, 0 to 63; set 0 is the normal set (rule R23). -/
abbrev SetNum := BitVec 6

end Sys2Proof
end

