-- ==== Sys2Proof/Config.lean ====
section
/-! DEFINITION. What system generation fixes (00_scope.md rule R7) and the values no rule fixes. The configuration is a
field of the state, so a statement about every state is a statement about every configuration (DESIGN CHOICE, log 1). -/

namespace Sys2Proof

/-- The three cores of rule R1. No rule of the spec depends on which one it is. -/
inductive CoreKind where
  | f
  | s
  | e
deriving DecidableEq, Repr

/-- What an address range is connected to (20_memory.md rules R90, R93 and R105). -/
inductive RegionKind where
  /-- ordinary memory, which the caches may hold -/
  | memory
  /-- tightly-coupled memory, which is never cached -/
  | tightlyCoupled
  /-- a peripheral, whose registers no file of the spec gives -/
  | device
deriving DecidableEq, Repr

/-- One range of physical addresses, `base` to `base + size - 1`, and the master ports that reach it (rule R91). -/
structure Region where
  base : Nat
  size : Nat
  kind : RegionKind
  fetch : Bool
  data : Bool
deriving DecidableEq, Repr

/-- A range of `custom` selectors with logic attached (47_custom_nop_unimplemented.md rule R390); `stateful` logic keeps
state of its own. -/
structure CustomRange where
  lo : BitVec 8
  hi : BitVec 8
  stateful : Bool
deriving DecidableEq, Repr

/-- Which of the eight optional instructions the core implements (rule R395). -/
structure Implemented where
  mul : Bool
  muli : Bool
  mulxss : Bool
  mulxsu : Bool
  mulxuu : Bool
  div : Bool
  divu : Bool
  initda : Bool
deriving DecidableEq, Repr

/-- The parameters of rule R7, under the names of its table. Sizes of the TLB are given by their logarithms (log 37). -/
structure Config where
  core : CoreKind
  resetAddr : Word
  exceptionAddr : Word
  breakAddr : Word
  fastTlbMissAddr : Word
  hasMmu : Bool
  hasMpu : Bool
  hasEic : Bool
  numShadow : BitVec 6
  implemented : Implemented
  /-- `ILLEGAL_INSN_DETECT` as chosen; `Config.illegalInsn` forces it with an MMU or MPU -/
  illegalInsnDetect : Bool
  /-- `ILLEGAL_MEM_DETECT` as chosen; `Config.illegalMem` forces it with an MMU or MPU -/
  illegalMemDetect : Bool
  divErrorDetect : Bool
  /-- `EXTRA_EXC_INFO` as chosen; `Config.excInfo` forces it with an MMU or MPU -/
  extraExcInfo : Bool
  cpuid : Word
  /-- bit `n`: interrupt input `irq n` is connected (46_other_control.md rule R355; log 5) -/
  irqConnected : Word
  /-- what the bits of ienable without a connected input hold; its other bits mean nothing (rule R355; log 5) -/
  ienableUnconnected : Word
  addrBits : Nat
  bit31Bypass : Bool
  icacheBytes : Nat
  icacheLine : Nat
  dcacheBytes : Nat
  dcacheLine : Nat
  /-- log2 of the number of TLB lines, `TLB_ENTRIES / TLB_WAYS` -/
  tlbLineBits : Nat
  /-- log2 of `TLB_WAYS` -/
  tlbWayBits : Nat
  pidBits : Nat
  pfnBits : Nat
  mpuIRegions : Nat
  mpuDRegions : Nat
  /-- log2 of `MPU_MIN_REGION` -/
  mpuMinRegionLog2 : Nat
  mpuUseLimit : Bool
  hasDebug : Bool
  hasResetRequest : Bool
  /-- what is connected where; `N_ITCM` and `N_DTCM` count the tightly-coupled regions of the list
  (`Config.coupledPorts`) -/
  map : List Region
  /-- the selectors of `custom` with logic attached -/
  customs : List CustomRange
deriving DecidableEq, Repr

/-! ## Free values: uninterpreted, nothing can be proved of one -/

/-- Draw `n` of a 32-bit value that the spec leaves open: a quotient that no rule gives (rule R253, log 18), what a debug
module leaves in bt, ba and bstatus (60_exceptions.md rule R442, log 30). -/
opaque Config.freeWord : Nat → Word

/-- Draw `n` of a choice: are the old attributes number `k` of an MPU region used, or newer ones
(70_reset_and_hazards.md rule R501, log 22)? -/
opaque Config.mpuWindowChoice : Nat → Nat → Bool

/-- Draw `n` of the byte that a device supplies at a physical address (20_memory.md rules R93 and R104, log 18). -/
opaque Config.deviceByte : (n address : Nat) → Byte

/-- The line that line number `index` of the data cache or the instruction cache holds after reset, if it holds one: an
address in it, and does it hold stores that memory does not have (70_reset_and_hazards.md rule R485, log 9)? -/
opaque Config.lineAtReset : (isData : Bool) → (index : Nat) → Option (Word × Bool)

/-- Byte `k` of that line (log 9). -/
opaque Config.byteAtReset : (isData : Bool) → (index k : Nat) → Byte

/-- The result of custom logic `n` for the operand values it is supplied, the register numbers of fields A, B and C, and,
where it may depend on what the logic holds, the number of the draw (rule R390, log 2). -/
opaque Config.customResult : (n : BitVec 8) → (a b : Option Word) → (rA rB rC : RegNum) → (history : Option Nat) → Word

end Sys2Proof
end

