-- ==== Sys2Proof/Machine/Features.lean ====
section
/-! DEFINITION. What follows from the configuration: which options are in force, the vectors, the significant bits of
the fields whose width is configured, the cache geometry. -/

namespace Sys2Proof

/-- With an MMU or an MPU the processor has two modes (60_exceptions.md rule R470) and the three detection options are
always on (rule R406). -/
def Config.hasModes (c : Config) : Bool := c.hasMmu || c.hasMpu

/-- `ILLEGAL_INSN_DETECT` in force (30_encoding.md rule R175). -/
def Config.illegalInsn (c : Config) : Bool := c.hasModes || c.illegalInsnDetect

/-- `ILLEGAL_MEM_DETECT` in force (20_memory.md rule R100). -/
def Config.illegalMem (c : Config) : Bool := c.hasModes || c.illegalMemDetect

/-- `EXTRA_EXC_INFO` in force (10_state.md rule R47). -/
def Config.excInfo (c : Config) : Bool := c.hasModes || c.extraExcInfo

/-- Shadow register sets are present. -/
def Config.hasShadow (c : Config) : Bool := c.numShadow != 0

/-- The EIC interface together with shadow register sets, on which RSIE, ANI and sstatus depend (10_state.md rules R31,
R60 and R70). -/
def Config.hasNesting (c : Config) : Bool := c.hasEic && c.hasShadow

/-- The config register is present: 92_eei_decisions.md D12 with ECC absent. -/
def Config.hasConfigReg (c : Config) : Bool := c.hasMpu || c.hasNesting

/-- Where a vector at a physical address is reached: with an MMU, in the kernel partition (20_memory.md rule R94). -/
def Config.vectorPc (c : Config) (addr : Word) : Word := if c.hasMmu then 0xC0000000 + addr else addr

/-- A mask of the `n` low bits, in a field of width `w`. -/
def lowMask (w n : Nat) : BitVec w := BitVec.ofNat w (2 ^ n - 1)

/-- The number of bits that number `n + 1` things, 0 to `n`. -/
def bitsFor (n : Nat) : Nat := if n = 0 then 0 else Nat.log2 n + 1

/-- The significant bits of CRS and PRS (10_state.md rule R37). -/
def Config.setMask (c : Config) : BitVec 6 := lowMask 6 (bitsFor c.numShadow.toNat)

/-- The significant bits of tlbmisc.PID (10_state.md rule R55). -/
def Config.pidMask (c : Config) : BitVec 14 := lowMask 14 c.pidBits

/-- The significant bits of PFN (10_state.md rule R49). -/
def Config.pfnMask (c : Config) : BitVec 20 := lowMask 20 c.pfnBits

/-- The significant bits of tlbmisc.WAY (10_state.md rule R52). -/
def Config.wayMask (c : Config) : BitVec 4 := lowMask 4 c.tlbWayBits

/-- The line portion of a VPN (20_memory.md rule R132). -/
def Config.lineMask (c : Config) : BitVec 20 := lowMask 20 c.tlbLineBits

/-- The significant bits of mpubase.BASE, which holds address bits 30:6: none below the minimum region size, none above
the address space (10_state.md rule R61). -/
def Config.baseMask (c : Config) : BitVec 25 := lowMask 25 (c.addrBits - 6) &&& ~~~ lowMask 25 (c.mpuMinRegionLog2 - 6)

/-- The significant bits of the extent field of mpuacc: MASK has the bits of BASE, LIMIT one more at the top
(10_state.md rule R62). -/
def Config.extentMask (c : Config) : BitVec 26 :=
  if c.mpuUseLimit then lowMask 26 (c.addrBits - 6 + 1) &&& ~~~ lowMask 26 (c.mpuMinRegionLog2 - 6)
  else c.baseMask.setWidth 26

/-- The significant bits of mpubase.INDEX (10_state.md rule R61). DESIGN CHOICE, log 17: where the two sides have
different numbers of regions, the bits that the larger number needs are significant for both. -/
def Config.indexMask (c : Config) : BitVec 5 := lowMask 5 (bitsFor (max c.mpuIRegions c.mpuDRegions - 1))

/-- ienable with a value written to the bits whose interrupt inputs are connected, the others as the configuration has them
(46_other_control.md rule R355; log 5). -/
def Config.ienableOf (c : Config) (v : Word) : Word :=
  (v &&& c.irqConnected) ||| (c.ienableUnconnected &&& ~~~c.irqConnected)

/-- The physical address of a data address without an MMU: bit 31 is no address bit, and the rest is cut to the width of
the address space (20_memory.md rules R92 and R108; log 33). -/
def Config.plainAddress (c : Config) (va : Word) : Nat := (va.extractLsb' 0 31).toNat % 2 ^ c.addrBits

/-- The address whose index bits select a cache line: with an MMU the virtual address (20_memory.md rules R106 and R119),
without one the physical address, so that one byte has one line (rule R110; DEDUCED, log 20). -/
def Config.indexAddress (c : Config) (va : Word) : Nat := if c.hasMmu then va.toNat else c.plainAddress va

/-- The data cache exists (20_memory.md rule R106). -/
def Config.hasDcache (c : Config) : Bool := c.dcacheBytes != 0 && c.dcacheLine != 0

/-- The instruction cache exists. -/
def Config.hasIcache (c : Config) : Bool := c.icacheBytes != 0 && c.icacheLine != 0

/-- The data cache line that the index bits of an address select, if there is a data cache (20_memory.md rules R106
and R116). -/
def Config.dIndex (c : Config) (va : Word) : Option Nat :=
  if c.hasDcache then some (c.indexAddress va / c.dcacheLine % (c.dcacheBytes / c.dcacheLine)) else none

/-- The instruction cache line that the index bits of an address select, if there is an instruction cache. -/
def Config.iIndex (c : Config) (va : Word) : Option Nat :=
  if c.hasIcache then some (c.indexAddress va / c.icacheLine % (c.icacheBytes / c.icacheLine)) else none

/-- The data cache has line number `k` under the address `k * DCACHE_LINE`, at which the loop of 70_reset_and_hazards.md rule
R485 empties it: not so where, without an MMU, the address space is smaller than the cache and no address selects the
number (DEDUCED, log 20). -/
def Config.hasDLine (c : Config) (k : Nat) : Bool := c.dIndex (BitVec.ofNat 32 (k * c.dcacheLine)) == some k

/-- The instruction cache has line number `k` under the address `k * ICACHE_LINE`. -/
def Config.hasILine (c : Config) (k : Nat) : Bool := c.iIndex (BitVec.ofNat 32 (k * c.icacheLine)) == some k

/-- What an address that was stored to and one given to `flushi` must share: the instruction cache line, or, without an
instruction cache, the word itself, because 70_reset_and_hazards.md rule R503 wants `flushi` there too (log 21). -/
def Config.flushNumber (c : Config) (va : Word) : Nat := (c.iIndex va).getD (c.indexAddress va / 4)

/-- The physical address at which the data cache line holding a byte begins. -/
def Config.dBase (c : Config) (pa : Nat) : Nat := pa / c.dcacheLine * c.dcacheLine

/-- The physical address at which the instruction cache line holding a byte begins. -/
def Config.iBase (c : Config) (pa : Nat) : Nat := pa / c.icacheLine * c.icacheLine

/-- A region holds the byte at a physical address. -/
def Region.holds (r : Region) (a : Nat) : Bool := r.base ≤ a && a < r.base + r.size

/-- A physical address lies in the physical address space, which is `ADDR_BITS` wide (00_scope.md rule R7, 20_memory.md
rule R92): nothing is connected outside it, whatever the map lists (DEDUCED, log 33). -/
def Config.inPhysicalSpace (c : Config) (a : Nat) : Bool := a < 2 ^ c.addrBits

/-- What a master reaches at one byte (20_memory.md rules R91 and R93). DESIGN CHOICE, log 19: of overlapping regions the
first of the list decides. -/
def Config.byteRegion (c : Config) (reaches : Region → Bool) (a : Nat) : Option RegionKind :=
  (c.map.find? (fun r => reaches r && c.inPhysicalSpace a && r.holds a)).map (·.kind)

/-- What a master reaches at `n` bytes; `none` is an unmapped address. DESIGN CHOICE, log 19: an access whose bytes are not
all of one kind (in memory and in a device, or partly in no region) counts as unmapped. -/
def Config.regionOf (c : Config) (reaches : Region → Bool) (pa n : Nat) : Option RegionKind :=
  if (List.range n).all (fun k => c.byteRegion reaches (pa + k) == c.byteRegion reaches pa) then c.byteRegion reaches pa
  else none

/-- What the data master reaches at `n` bytes. -/
def Config.dataRegion (c : Config) (pa n : Nat) : Option RegionKind := c.regionOf (·.data) pa n

/-- What the instruction master reaches at four bytes; it connects only to memory (rule R91). -/
def Config.fetchRegion (c : Config) (pa : Nat) : Option RegionKind :=
  c.regionOf (fun r => r.fetch && r.kind != .device) pa 4

/-- A device answers the data master at a physical address. -/
def Config.isDevice (c : Config) (a : Nat) : Bool := c.byteRegion (·.data) a == some .device

/-- The custom logic attached to a selector (47_custom_nop_unimplemented.md rule R390). -/
def Config.customLogic (c : Config) (n : BitVec 8) : Option CustomRange :=
  c.customs.find? (fun r => r.lo ≤ n && n ≤ r.hi)

/-- The tightly-coupled ports of one side, `N_ITCM` and `N_DTCM` of rule R7: the tightly-coupled regions that the fetch
or the data master reaches, one port each (DESIGN CHOICE, log 1). -/
def Config.coupledPorts (c : Config) (reaches : Region → Bool) : Nat :=
  c.map.countP (fun r => r.kind == .tightlyCoupled && reaches r)

/-- The configurations that rule R7 allows: never an MMU together with an MPU, vectors at instruction addresses and in
low physical memory with an MMU, division errors detected only where something divides, field widths and sizes within the
ranges the sources give, up to four tightly-coupled ports on each side, a map that lies in the physical address space. DESIGN CHOICE, log 1: an address space of at least
64 bytes (`6 ≤ addrBits`), and instruction cache lines of any multiple of four bytes, for both of which the source gives
no such bound. -/
def Config.legal (c : Config) : Bool :=
  !(c.hasMmu && c.hasMpu)
    && [c.resetAddr, c.exceptionAddr, c.breakAddr, c.fastTlbMissAddr].all
        (fun v => v &&& 3#32 == 0 && (!c.hasMmu || v.toNat < 2 ^ 29))
    && 6 ≤ c.addrBits && c.addrBits ≤ (if c.hasMmu then 32 else 31)
    && [0, 4, 16, 32].contains c.dcacheLine && (c.dcacheBytes == 0 || c.dcacheLine != 0)
    && (c.dcacheBytes == 0 || 512 ≤ c.dcacheBytes && c.dcacheBytes ≤ 65536)
    && (c.icacheBytes == 0 || 512 ≤ c.icacheBytes && c.icacheBytes ≤ 65536)
    && c.icacheLine % 4 == 0 && (c.icacheBytes == 0 || c.icacheLine != 0)
    && c.coupledPorts (·.fetch) ≤ 4 && c.coupledPorts (·.data) ≤ 4
    && (!c.divErrorDetect || c.implemented.div || c.implemented.divu)
    && 8 ≤ c.pidBits && c.pidBits ≤ 14 && c.pfnBits ≤ 20 && c.tlbWayBits ≤ 4 && c.tlbLineBits ≤ 20
    && c.mpuIRegions ≤ 32 && c.mpuDRegions ≤ 32 && 6 ≤ c.mpuMinRegionLog2
    && c.map.all (fun r => r.base + r.size ≤ 2 ^ c.addrBits)

end Sys2Proof
end

