-- ==== Sys2Proof/Machine/Memory.lean ====
section
/-! DEFINITION. Memory: a list of (physical address, byte) pairs in one canonical form, addresses strictly rising and no
byte equal to what an unlisted address reads as (20_memory.md rules R90, R95 and R96). -/

namespace Sys2Proof.Machine

/-- Memory as a list of (physical address, byte). -/
abbrev Memory := List Host.Cell

/-- What an address that is not listed reads as (DESIGN CHOICE, log 6: the spec gives memory no value at reset). -/
def Memory.unlisted : Byte := 0

/-- The byte at an address. -/
def Memory.read : Memory → Nat → Byte
  | [], _ => Memory.unlisted
  | (b, v) :: rest, a => if b = a then v else Memory.read rest a

/-- The memory without an entry for an address. -/
def Memory.erase : Memory → Nat → Memory
  | [], _ => []
  | (b, v) :: rest, a => if b = a then Memory.erase rest a else (b, v) :: Memory.erase rest a

/-- The memory with an entry placed before the first greater address. -/
def Memory.insert : Memory → Nat → Byte → Memory
  | [], a, v => [(a, v)]
  | (b, w) :: rest, a, v => if a < b then (a, v) :: (b, w) :: rest else (b, w) :: Memory.insert rest a v

/-- The memory after one byte is written. -/
def Memory.write (m : Memory) (a : Nat) (v : Byte) : Memory :=
  if v = Memory.unlisted then Memory.erase m a else Memory.insert (Memory.erase m a) a v

/-- The memory after consecutive bytes are written, the first at `a`. -/
def Memory.writeBytes (m : Memory) (a : Nat) : List Byte → Memory
  | [] => m
  | v :: rest => Memory.writeBytes (Memory.write m a v) (a + 1) rest

/-- The memory after a list of cells is written, in order. -/
def Memory.writeCells (m : Memory) (cells : List Host.Cell) : Memory :=
  cells.foldl (fun acc cell => Memory.write acc cell.1 cell.2) m

/-- The memory `dst` after the `n` bytes from address `a` are copied into it from the byte source `src`: how a cache line
is filled and written back. -/
def Memory.copy (dst : Memory) (src : Nat → Byte) (a n : Nat) : Memory :=
  Memory.writeBytes dst a ((List.range n).map (fun k => src (a + k)))

/-- The canonical form: addresses strictly rising, no entry that an unlisted address would read as. -/
def Memory.wf : Memory → Bool
  | [] => true
  | [(_, v)] => v != Memory.unlisted
  | (a, v) :: (b, w) :: rest => v != Memory.unlisted && a < b && Memory.wf ((b, w) :: rest)

end Sys2Proof.Machine
end

