-- ==== Sys2Proof/Machine/State.lean ====
section
/-! DEFINITION. The state of the machine: plain data, every piece of state the spec names (INVENTORY.md, '## State'),
and its value after reset. -/

namespace Sys2Proof.Machine

/-- The 32 general-purpose registers of one register set (10_state.md rule R20). -/
abbrev RegSet := Vector Word 32

/-- The normal register set and room for 63 shadow sets (10_state.md rule R23). -/
abbrev RegFile := Vector RegSet 64

/-- The fields of status, estatus, bstatus and sstatus (10_state.md rule R31), highest first. -/
structure Status where
  rsie : Bool
  nmi : Bool
  prs : BitVec 6
  crs : BitVec 6
  il : BitVec 6
  ih : Bool
  eh : Bool
  u : Bool
  pie : Bool
deriving DecidableEq, Repr

/-- The fields of pteaddr (10_state.md rule R48). -/
structure Pteaddr where
  ptbase : BitVec 10
  vpn : BitVec 20
deriving DecidableEq, Repr

/-- The fields of tlbacc that are stored; IG reads as zero (10_state.md rule R49). -/
structure Tlbacc where
  c : Bool
  r : Bool
  w : Bool
  x : Bool
  g : Bool
  pfn : BitVec 20
deriving DecidableEq, Repr

/-- The fields of tlbmisc that are stored; RD is write-only, EE is absent with ECC (10_state.md rules R50 to R58). -/
structure Tlbmisc where
  way : BitVec 4
  we : Bool
  pid : BitVec 14
  dbl : Bool
  bad : Bool
  perm : Bool
  d : Bool
deriving DecidableEq, Repr

/-- The fields of config; ECCEN and ECCEXE are absent with ECC (10_state.md rule R60). -/
structure ConfigReg where
  pe : Bool
  ani : Bool
deriving DecidableEq, Repr

/-- The fields of mpubase (10_state.md rule R61). -/
structure Mpubase where
  base : BitVec 25
  index : BitVec 5
  d : Bool
deriving DecidableEq, Repr

/-- The fields of mpuacc that are stored; `extent` is MASK or LIMIT, RD and WR are write-only (10_state.md rules R62 to
R67). -/
structure Mpuacc where
  extent : BitVec 26
  c : Bool
  perm : BitVec 3
deriving DecidableEq, Repr

/-- An entry of the TLB: tag VPN, PID and G, data PFN, C, R, W and X (20_memory.md rule R133). -/
structure TlbEntry where
  vpn : BitVec 20
  pid : BitVec 14
  g : Bool
  pfn : BitVec 20
  c : Bool
  r : Bool
  w : Bool
  x : Bool
deriving DecidableEq, Repr

/-- The attributes of an MPU region (20_memory.md rule R146). -/
structure MpuRegion where
  base : BitVec 25
  extent : BitVec 26
  c : Bool
  perm : BitVec 3
deriving DecidableEq, Repr

/-- Attributes an MPU region had before a region write that the pipeline may not have seen yet
(70_reset_and_hazards.md rule R501): which list, which region, and the old attributes. -/
structure OldRegion where
  isData : Bool
  index : Nat
  attrs : MpuRegion
deriving DecidableEq, Repr

/-- A valid line of a cache: the line number its index bits give, the physical address it begins at, whether it holds
stores that memory does not have, and its bytes at their physical addresses (20_memory.md rules R106 and R116). -/
structure CacheLine where
  index : Nat
  base : Nat
  dirty : Bool
  data : Memory
deriving DecidableEq, Repr

/-- A word that was stored to and whose new value an instruction fetch may not see yet (20_memory.md rule R115): the
word's number (physical address divided by 4), the data cache line that must be flushed, the instruction cache line
or, without an instruction cache, the word that must still be given to `flushi`; then a `flushp` is still due. -/
structure CodeHazard where
  word : Nat
  dLine : Option Nat
  iLine : Option Nat
deriving DecidableEq, Repr

/-- What the external interrupt controller presents (10_state.md rule R75). -/
structure EicRequest where
  rha : Word
  rrs : SetNum
  ril : BitVec 6
  rnmi : Bool
deriving DecidableEq, Repr

/-- The levels of the processor's inputs at an instruction boundary. `recognise` is the model's own: is an interrupt
that may be taken here taken here (60_exceptions.md rule R421; DESIGN CHOICE, log 11)? When no inputs are left it is. -/
structure Pins where
  irq : Word
  eic : Option EicRequest
  recognise : Bool
  reset : Bool
  cpuResetRequest : Bool
  debugRequest : Bool
deriving DecidableEq, Repr

/-- What a debug module writes to the registers reserved for debugging: bt and ba of the normal register set, and bstatus
(60_exceptions.md rule R442). -/
structure DebugWrites where
  bt : Word
  ba : Word
  bstatus : Word
deriving DecidableEq, Repr

/-- What the world outside does before one step (log 10): the input levels, the bytes other bus masters write to memory,
the cache lines (line number, physical address) that leave a cache on their own (93_implementation_defined.md U13), and
what the debug module, if there is one, writes to the registers reserved for it (60_exceptions.md rule R442). -/
structure Boundary where
  pins : Pins
  busWrites : List Host.Cell
  evictData : List (Nat × Nat)
  evictInstr : List (Nat × Nat)
  debugger : Option DebugWrites
deriving DecidableEq, Repr

/-- The state of the machine. -/
structure State where
  /-- the configuration, which no step changes (00_scope.md rule R7) -/
  cfg : Config
  /-- the program counter (10_state.md rule R26) -/
  pc : Word
  /-- the register file `xs` (10_state.md rule R20) -/
  regs : RegFile
  /-- control register 0 (10_state.md rule R31) -/
  status : Status
  /-- control register 1 (10_state.md rule R42) -/
  estatus : Status
  /-- control register 2 (10_state.md rule R43) -/
  bstatus : Status
  /-- control register 3 (10_state.md rule R44) -/
  ienable : Word
  /-- exception.CAUSE, control register 7 (10_state.md rule R47) -/
  cause : BitVec 5
  /-- control register 12 (10_state.md rule R59) -/
  badaddr : Word
  /-- control register 8 (10_state.md rule R48) -/
  pteaddr : Pteaddr
  /-- control register 9 (10_state.md rule R49) -/
  tlbacc : Tlbacc
  /-- control register 10 (10_state.md rule R50) -/
  tlbmisc : Tlbmisc
  /-- control register 13 (10_state.md rule R60) -/
  config : ConfigReg
  /-- control register 14 (10_state.md rule R61) -/
  mpubase : Mpubase
  /-- control register 15 (10_state.md rule R62) -/
  mpuacc : Mpuacc
  /-- the TLB; way `k` of line `l` is entry `l * TLB_WAYS + k` (10_state.md rule R72) -/
  tlb : List TlbEntry
  /-- the MPU instruction regions (10_state.md rule R73) -/
  mpuInstr : List MpuRegion
  /-- the MPU data regions (10_state.md rule R73) -/
  mpuData : List MpuRegion
  /-- attributes of regions written since the last pipeline flush (70_reset_and_hazards.md rule R501) -/
  mpuOld : List OldRegion
  /-- memory (10_state.md rule R71) -/
  mem : Memory
  /-- the valid lines of the data cache (10_state.md rule R74) -/
  dcache : List CacheLine
  /-- the valid lines of the instruction cache (10_state.md rule R74) -/
  icache : List CacheLine
  /-- stored words that a fetch may see old (20_memory.md rule R115) -/
  hazards : List CodeHazard
  /-- under the control of the debug module (10_state.md rule R76) -/
  paused : Bool
  /-- the input levels at this boundary (10_state.md rule R75) -/
  pins : Pins
  /-- the inputs of the coming boundaries; when there is none left the levels stay (log 10) -/
  inputs : List Boundary
  /-- how many free values have been drawn (log 34) -/
  draws : Nat
deriving DecidableEq, Repr

/-- Why the machine stops with no outcome: the spec calls what happens here undefined. -/
inductive Fault where
  /-- An access or a fetch where nothing is connected (20_memory.md rule R93, 92_eei_decisions.md D4): raised by loads,
  stores and instruction fetch. Safe. -/
  | unmappedAddress
  /-- A fetch of a word that was stored to without the flush sequence (20_memory.md rule R115, D17): raised by
  instruction fetch. Safe. -/
  | staleFetch
  /-- More than one TLB entry matches (20_memory.md rule R134, D29): raised by address translation. Safe. -/
  | tlbMultipleMatch
  /-- A fetch at a pc that is no multiple of four, which no run reaches from reset (20_memory.md rule R158): raised by
  instruction fetch. Safe. -/
  | misalignedFetch
deriving DecidableEq, Repr

/-- Why the model gives no outcome: the spec gives no effect, or leaves it to a unit it does not describe. -/
inductive Refusal where
  /-- An instruction whose meaning is not written: raised by an arm of `exec`. Safe. -/
  | notModelled (mnemonic : String)
  /-- A word that is no instruction, or `rdprs`, `wrprs` with no shadow sets, with illegal instruction detection off
  (92_eei_decisions.md D8 and D42): raised by the step and the two instructions. Safe. -/
  | illegalUnchecked
  /-- A misaligned load or store with detection off (D5): raised by loads and stores. Safe. -/
  | misalignedUnchecked
  /-- A misaligned jump target with detection off (D5): raised by control transfers. Safe. -/
  | misalignedTarget
  /-- `rdctl` or `wrctl` of a reserved or absent control register (D9). Safe. -/
  | reservedControl
  /-- A register set above `NUM_SHADOW` (93_implementation_defined.md U18): raised by `eret`, `bret`, `wrctl` of status
  and an external interrupt, which would install it, and by `rdprs` and `wrprs`, which would use it. Safe. -/
  | noSuchRegisterSet
  /-- A `wrctl` to mpuacc that reads or writes an MPU region that does not exist (log 24). Safe. -/
  | noSuchMpuRegion
  /-- A `wrctl` to mpuacc with RD and WR both 1 (U16). Safe. -/
  | mpuReadAndWrite
  /-- An access that matches an MPU region whose PERM has no stated meaning (U15). Safe. -/
  | mpuUndefinedPermission
  /-- `flushda` or `initda` where the matching MPU region grants the mode less than read and write (20_memory.md rule
  R150, D37): raised by the two instructions. Safe. -/
  | mpuFlushPermission
  /-- A `custom` instruction whose selector has no logic attached (92_eei_decisions.md D18, U26). Safe. -/
  | customUnattached
deriving DecidableEq, Repr

/-! ## Reset values -/

/-- A status register with every field 0. -/
def Status.zero : Status :=
  { rsie := false, nmi := false, prs := 0, crs := 0, il := 0, ih := false, eh := false, u := false, pie := false }

/-- status after reset, 0x00800000: RSIE is 1, every other field 0 (10_state.md rule R80). -/
def Status.afterReset : Status := { Status.zero with rsie := true }

/-- No input asserted; an interrupt is taken at the first boundary that allows it (DESIGN CHOICE, logs 10 and 11). -/
def Pins.idle : Pins :=
  { irq := 0, eic := none, recognise := true, reset := false, cpuResetRequest := false, debugRequest := false }

/-- The configuration of 92_eei_decisions.md D43, with custom logic on every selector (DESIGN CHOICE, logs 1 and 2) and
the whole 31-bit space as memory (DESIGN CHOICE, log 19). -/
def firstConfig : Config :=
  { core := .f, resetAddr := 0, exceptionAddr := 0x20, breakAddr := 0x40, fastTlbMissAddr := 0x60, hasMmu := false,
    hasMpu := false, hasEic := false, numShadow := 0,
    implemented := { mul := true, muli := true, mulxss := true, mulxsu := true, mulxuu := true, div := true,
                     divu := true, initda := true },
    illegalInsnDetect := true, illegalMemDetect := true, divErrorDetect := true, extraExcInfo := true, cpuid := 0,
    irqConnected := 0xFFFFFFFF, ienableUnconnected := 0,
    addrBits := 31, bit31Bypass := true, icacheBytes := 0, icacheLine := 0, dcacheBytes := 0, dcacheLine := 0,
    tlbLineBits := 0, tlbWayBits := 0, pidBits := 8, pfnBits := 20, mpuIRegions := 0, mpuDRegions := 0,
    mpuMinRegionLog2 := 6, mpuUseLimit := false, hasDebug := false, hasResetRequest := false,
    map := [{ base := 0, size := 2 ^ 31, kind := .memory, fetch := true, data := true }],
    customs := [{ lo := 0, hi := 255, stateful := false }] }

/-- A TLB entry that no lookup matches: its VPN is of the kernel partition (DESIGN CHOICE, log 7). -/
def TlbEntry.unused : TlbEntry :=
  { vpn := 0xC0000, pid := 0, g := false, pfn := 0, c := false, r := false, w := false, x := false }

/-- An MPU region with every attribute 0 (DESIGN CHOICE, log 8). -/
def MpuRegion.zero : MpuRegion := { base := 0, extent := 0, c := false, perm := 0 }

/-- What line number `index` of a cache with `n`-byte lines holds after reset, if it holds anything: free values
(70_reset_and_hazards.md rule R485; log 9). -/
def CacheLine.afterReset (isData : Bool) (n index : Nat) : Option CacheLine :=
  (Config.lineAtReset isData index).map (fun held =>
    { index := index
      base := held.1.toNat / n * n
      dirty := isData && held.2
      data := Memory.writeBytes [] (held.1.toNat / n * n) ((List.range n).map (Config.byteAtReset isData index)) })

/-- The data cache after reset: anything at all in every line that the cache has (20_memory.md rule R118; log 9). -/
def dcacheAtReset (c : Config) : List CacheLine :=
  ((List.range (c.dcacheBytes / c.dcacheLine)).filterMap (CacheLine.afterReset true c.dcacheLine)).filter
    (fun l => c.hasDLine l.index)

/-- The instruction cache after reset: anything at all, but nothing in the reset vector's line (10_state.md rule R80,
20_memory.md rule R118; log 9). -/
def icacheAtReset (c : Config) : List CacheLine :=
  ((List.range (c.icacheBytes / c.icacheLine)).filterMap (CacheLine.afterReset false c.icacheLine)).filter
    (fun l => c.hasILine l.index && c.iIndex (c.vectorPc c.resetAddr) != some l.index)

/-- The machine with configuration `c` right after reset (10_state.md rule R83). -/
def State.resetOf (c : Config) : State :=
  { cfg := c, pc := c.vectorPc c.resetAddr, regs := Vector.replicate 64 (Vector.replicate 32 0),
    status := .afterReset, estatus := .zero, bstatus := .zero, ienable := c.ienableOf 0, cause := 0, badaddr := 0,
    pteaddr := { ptbase := 0, vpn := 0 },
    tlbacc := { c := false, r := false, w := false, x := false, g := false, pfn := 0 },
    tlbmisc := { way := 0, we := false, pid := 0, dbl := false, bad := false, perm := false, d := false },
    config := { pe := false, ani := false }, mpubase := { base := 0, index := 0, d := false },
    mpuacc := { extent := 0, c := false, perm := 0 },
    tlb := List.replicate (2 ^ (c.tlbLineBits + c.tlbWayBits)) .unused,
    mpuInstr := List.replicate c.mpuIRegions .zero, mpuData := List.replicate c.mpuDRegions .zero, mpuOld := [],
    mem := [], dcache := dcacheAtReset c, icache := icacheAtReset c, hazards := [], paused := false, pins := .idle,
    inputs := [], draws := 0 }

/-- The machine right after reset. -/
def State.reset : State := State.resetOf firstConfig

end Sys2Proof.Machine
end

