-- ==== Sys2Proof/Machine/Cache.lean ====
section
/-! DEFINITION. The caches and how data accesses and fetches go through them (20_memory.md rules R106 to R118; DESIGN
CHOICE, log 20: explicit caches without capacity, whose lines leave on their own only where an input says so). A line is
found by its line number and the physical address it begins at. -/

namespace Sys2Proof.Machine

/-- Where an access goes: the physical address, the cache line it uses, `none` when it bypasses the cache, and whether a
device answers it. -/
structure DataPath where
  pa : Nat
  line : Option Nat
  device : Bool := false
deriving DecidableEq, Repr

/-- The line of a cache with a line number and a base. -/
def findLine (lines : List CacheLine) (index base : Nat) : Option CacheLine :=
  lines.find? (fun l => l.index == index && l.base == base)

/-- A clean line of `n` bytes read over the bus: the whole line (20_memory.md rule R104). -/
def newLine (bus : Nat → Byte) (index base n : Nat) : CacheLine :=
  { index := index, base := base, dirty := false, data := Memory.copy [] bus base n }

/-! ## Data accesses -/

/-- The byte that the data master reads at physical address `a`: a free value from a device, else what memory holds
(20_memory.md rules R93 and R104; log 18). DESIGN CHOICE, log 20: what a line fill reads at addresses where nothing is
connected is what `mem` has there. -/
def State.busByte (s : State) (a : Nat) : Byte :=
  if s.cfg.isDevice a then Config.deviceByte s.draws a else s.mem.read a

/-- The byte a data access reads at physical address `a` when it uses data cache line `index`. -/
def State.cachedByte (s : State) (index a : Nat) : Byte :=
  match findLine s.dcache index (s.cfg.dBase a) with
  | some l => l.data.read a
  | none => s.busByte a

/-- The byte a data access reads at physical address `a`: through a data cache line, or over the bus. -/
def State.dataByte (s : State) (line : Option Nat) (a : Nat) : Byte :=
  match line with
  | some index => s.cachedByte index a
  | none => s.busByte a

/-- The state after what an access reads over the bus: a data cache line that was missing, or a device. Free values are
drawn for both (log 34). -/
def State.fillData (s : State) (p : DataPath) : State :=
  match p.line with
  | some index =>
    match findLine s.dcache index (s.cfg.dBase p.pa) with
    | some _ => s
    | none =>
      { s with
        dcache := newLine s.busByte index (s.cfg.dBase p.pa) s.cfg.dcacheLine :: s.dcache
        draws := s.draws + 1 }
  | none => if p.device then { s with draws := s.draws + 1 } else s

/-- A dirty line after bytes are written to it. -/
def CacheLine.store (l : CacheLine) (a : Nat) (bytes : List Byte) : CacheLine :=
  { l with dirty := true, data := l.data.writeBytes a bytes }

/-- The state after bytes are stored: into the data cache line, which becomes dirty, into memory, or to a device, which
changes nothing of the processor's (20_memory.md rules R104 and R106; log 18). -/
def State.storeData (s : State) (p : DataPath) (bytes : List Byte) : State :=
  match p.line with
  | some index =>
    let t := s.fillData p
    { t with dcache := t.dcache.map (fun l =>
        if l.index == index && l.base == s.cfg.dBase p.pa then l.store p.pa bytes else l) }
  | none => if p.device then s else { s with mem := s.mem.writeBytes p.pa bytes }

/-! ## Cache management (rule R116) -/

/-- Memory after a line that holds stores is written back to it; the bytes at which a device answers go to the device, and
memory there stays (log 18). DESIGN CHOICE, log 20: the bytes at which nothing is connected are copied to `mem` too
(20_memory.md rule R93 says nothing of it). -/
def CacheLine.writeBack (c : Config) (mem : Memory) (l : CacheLine) : Memory :=
  if l.dirty then Memory.copy mem (fun a => if c.isDevice a then mem.read a else l.data.read a) l.base c.dcacheLine
  else mem

/-- The state after the data cache lines that satisfy a test leave the cache, those that hold stores written back. -/
def State.flushLines (s : State) (test : CacheLine → Bool) : State :=
  { s with
    mem := (s.dcache.filter test).foldl (CacheLine.writeBack s.cfg) s.mem
    dcache := s.dcache.filter (fun l => !test l) }

/-- The state after the data cache lines that satisfy a test leave the cache, the stores they hold lost. -/
def State.dropLines (s : State) (test : CacheLine → Bool) : State :=
  { s with dcache := s.dcache.filter (fun l => !test l) }

/-- The state after the instruction cache lines that satisfy a test leave the cache. -/
def State.dropInstrLines (s : State) (test : CacheLine → Bool) : State :=
  { s with icache := s.icache.filter (fun l => !test l) }

/-- The line has a line number, whatever it holds: the test of `flushd`, `initd`, `flushi` and `initi`. -/
def CacheLine.hasIndex (l : CacheLine) (index : Nat) : Bool := l.index == index

/-- The line has a line number and holds an address: the test of `flushda` and `initda`. -/
def CacheLine.isAt (l : CacheLine) (index base : Nat) : Bool := l.index == index && l.base == base

/-! ## Stores and instruction fetch (rule R115, D17; log 21) -/

/-- The state after a store through `p` from virtual address `va` is noted: its word may be fetched old until it is
flushed from the data cache (where it went there), `flushi` has run for it (also where there is no instruction cache), and
the pipeline is flushed (70_reset_and_hazards.md rule R503). -/
def State.noteStore (s : State) (va : Word) (p : DataPath) : State :=
  let h : CodeHazard := { word := p.pa / 4, dLine := p.line, iLine := some (s.cfg.flushNumber va) }
  { s with hazards := if h ∈ s.hazards then s.hazards else h :: s.hazards }

/-- The hazards after the data cache lines with a number, where `base` is given only the one beginning there, are
flushed. -/
def hazardsAfterFlush (cfg : Config) (hs : List CodeHazard) (index : Nat) (base : Option Nat) : List CodeHazard :=
  hs.map (fun h =>
    if h.dLine == some index && (match base with | some b => cfg.dBase (4 * h.word) == b | none => true) then
      { h with dLine := none }
    else h)

/-- The hazards after `flushi` of an address with a flush number: one whose store is in memory by now is dealt with. -/
def hazardsAfterInvalidate (hs : List CodeHazard) (number : Nat) : List CodeHazard :=
  hs.map (fun h => if h.dLine.isNone && h.iLine == some number then { h with iLine := none } else h)

/-- The hazards after `flushp`: the ones that were dealt with in both caches are over. -/
def hazardsAfterFlushp (hs : List CodeHazard) : List CodeHazard :=
  hs.filter (fun h => h.dLine.isSome || h.iLine.isSome)

/-- `DCacheFlushLineByIndex` (46_other_control.md rule R360); without a data cache nothing happens (rule R117). -/
def State.flushIndex (s : State) (index : Option Nat) : State :=
  match index with
  | some k => { s.flushLines (·.hasIndex k) with hazards := hazardsAfterFlush s.cfg s.hazards k none }
  | none => s

/-- `DCacheFlushLineByAddress` (rule R361). -/
def State.flushAddress (s : State) (index : Option Nat) (pa : Nat) : State :=
  match index with
  | some k =>
    { s.flushLines (·.isAt k (s.cfg.dBase pa)) with
      hazards := hazardsAfterFlush s.cfg s.hazards k (some (s.cfg.dBase pa)) }
  | none => s

/-- `DCacheInvalidateLineByIndex` (rule R363). -/
def State.dropIndex (s : State) (index : Option Nat) : State :=
  match index with
  | some k => s.dropLines (·.hasIndex k)
  | none => s

/-- `DCacheInvalidateLineByAddress` (rule R364). -/
def State.dropAddress (s : State) (index : Option Nat) (pa : Nat) : State :=
  match index with
  | some k => s.dropLines (·.isAt k (s.cfg.dBase pa))
  | none => s

/-- `ICacheInvalidateLine` (rules R362 and R365); without an instruction cache only the record of stored words changes
(log 21). -/
def State.invalidateInstr (s : State) (va : Word) : State :=
  let t := { s with hazards := hazardsAfterInvalidate s.hazards (s.cfg.flushNumber va) }
  match s.cfg.iIndex va with
  | some k => t.dropInstrLines (·.hasIndex k)
  | none => t

/-- A fetch of the word at a physical address may see an old value. -/
def State.isStale (s : State) (pa : Nat) : Bool := s.hazards.any (fun h => h.word == pa / 4)

end Sys2Proof.Machine
end

