-- ==== Sys2Proof/Machine/Fields.lean ====
section
/-! DEFINITION. The control registers as words: the bit positions of their fields, and which fields a configuration
implements (10_state.md section 4). PRESUMED, log 13: the positions that the file marks as general knowledge. -/

namespace Sys2Proof.Machine

/-! ## status, estatus, bstatus, sstatus (rules R31 and R70) -/

/-- The word of a status register; bits 31:24 read 0. -/
def Status.toWord (t : Status) : Word :=
  0#8 ++ BitVec.ofBool t.rsie ++ BitVec.ofBool t.nmi ++ t.prs ++ t.crs ++ t.il ++ BitVec.ofBool t.ih
    ++ BitVec.ofBool t.eh ++ BitVec.ofBool t.u ++ BitVec.ofBool t.pie

/-- The fields in a word; bits 31:24 are ignored, SRS of an sstatus among them (rule R351). -/
def Status.ofWord (v : Word) : Status :=
  { rsie := v.getLsbD 23, nmi := v.getLsbD 22, prs := v.extractLsb' 16 6, crs := v.extractLsb' 10 6,
    il := v.extractLsb' 4 6, ih := v.getLsbD 3, eh := v.getLsbD 2, u := v.getLsbD 1, pie := v.getLsbD 0 }

/-- The implemented part of a status value: an absent field reads 0, an absent RSIE reads 1 (rule R31, D13). -/
def Status.implement (c : Config) (t : Status) : Status :=
  { rsie := t.rsie || !c.hasNesting
    nmi := t.nmi && c.hasEic
    prs := t.prs &&& c.setMask
    crs := t.crs &&& c.setMask
    il := if c.hasEic then t.il else 0
    ih := t.ih && c.hasEic
    eh := t.eh && c.hasMmu
    u := t.u && c.hasModes
    pie := t.pie }

/-- A status value that names only register sets the core has (rule R37). -/
def Status.setsExist (c : Config) (t : Status) : Bool := t.crs ≤ c.numShadow && t.prs ≤ c.numShadow

/-- The word the processor stores as sstatus: status with SRS in bit 31 (rule R70). -/
def Status.toSstatus (t : Status) (srs : Bool) : Word := t.toWord ||| (if srs then 0x80000000 else 0)

/-! ## MMU registers -/

/-- pteaddr, `PTBASE : VPN : 00` (rule R48). -/
def Pteaddr.toWord (p : Pteaddr) : Word := p.ptbase ++ p.vpn ++ 0#2

/-- The fields in a word written to pteaddr. -/
def Pteaddr.ofWord (v : Word) : Pteaddr := { ptbase := v.extractLsb' 22 10, vpn := v.extractLsb' 2 20 }

/-- tlbacc with IG as zero (rule R49). -/
def Tlbacc.toWord (a : Tlbacc) : Word :=
  0#7 ++ BitVec.ofBool a.c ++ BitVec.ofBool a.r ++ BitVec.ofBool a.w ++ BitVec.ofBool a.x ++ BitVec.ofBool a.g ++ a.pfn

/-- The fields in a word written to tlbacc; IG is ignored, PFN has its configured width. -/
def Tlbacc.ofWord (c : Config) (v : Word) : Tlbacc :=
  { c := v.getLsbD 24, r := v.getLsbD 23, w := v.getLsbD 22, x := v.getLsbD 21, g := v.getLsbD 20,
    pfn := v.extractLsb' 0 20 &&& c.pfnMask }

/-- tlbmisc with RD as 0 (rules R50 and R53). -/
def Tlbmisc.toWord (m : Tlbmisc) : Word :=
  0#8 ++ m.way ++ 0#1 ++ BitVec.ofBool m.we ++ m.pid ++ BitVec.ofBool m.dbl ++ BitVec.ofBool m.bad
    ++ BitVec.ofBool m.perm ++ BitVec.ofBool m.d

/-- tlbmisc after a word is written to it: WAY, WE and PID change, the flags are read-only (rules R52 to R58). -/
def Tlbmisc.write (c : Config) (m : Tlbmisc) (v : Word) : Tlbmisc :=
  { m with way := v.extractLsb' 20 4 &&& c.wayMask, we := v.getLsbD 18, pid := v.extractLsb' 4 14 &&& c.pidMask }

/-- The write-only RD flag in a word written to tlbmisc (rule R53). -/
def tlbmiscRd (v : Word) : Bool := v.getLsbD 19

/-! ## exception, config -/

/-- The exception register: CAUSE in bits 6:2 (rule R47). -/
def causeWord (cause : BitVec 5) : Word := 0#25 ++ cause ++ 0#2

/-- config (rule R60). -/
def ConfigReg.toWord (r : ConfigReg) : Word := 0#30 ++ BitVec.ofBool r.ani ++ BitVec.ofBool r.pe

/-- The implemented fields in a word written to config: PE with an MPU, ANI with the EIC interface and shadow sets. -/
def ConfigReg.ofWord (c : Config) (v : Word) : ConfigReg :=
  { pe := v.getLsbD 0 && c.hasMpu, ani := v.getLsbD 1 && c.hasNesting }

/-! ## MPU registers -/

/-- mpubase (rule R61). -/
def Mpubase.toWord (b : Mpubase) : Word := 0#1 ++ b.base ++ b.index ++ BitVec.ofBool b.d

/-- The significant fields in a word written to mpubase. -/
def Mpubase.ofWord (c : Config) (v : Word) : Mpubase :=
  { base := v.extractLsb' 6 25 &&& c.baseMask, index := v.extractLsb' 1 5 &&& c.indexMask, d := v.getLsbD 0 }

/-- mpuacc with RD and WR as 0 (rules R62 and R67). -/
def Mpuacc.toWord (a : Mpuacc) : Word := a.extent ++ BitVec.ofBool a.c ++ a.perm ++ 0#2

/-- The significant fields in a word written to mpuacc. -/
def Mpuacc.ofWord (c : Config) (v : Word) : Mpuacc :=
  { extent := v.extractLsb' 6 26 &&& c.extentMask, c := v.getLsbD 5, perm := v.extractLsb' 2 3 }

/-- The write-only RD flag in a word written to mpuacc (rule R67). -/
def mpuaccRd (v : Word) : Bool := v.getLsbD 1

/-- The write-only WR flag in a word written to mpuacc (rule R67). -/
def mpuaccWr (v : Word) : Bool := v.getLsbD 0

/-! ## TLB entries and tlbacc (20_memory.md rules R135 and R136) -/

/-- The TLB entry that a write of tlbacc makes. -/
def Tlbacc.entry (a : Tlbacc) (vpn : BitVec 20) (pid : BitVec 14) : TlbEntry :=
  { vpn := vpn, pid := pid, g := a.g, pfn := a.pfn, c := a.c, r := a.r, w := a.w, x := a.x }

/-- What a TLB read loads into tlbacc. -/
def TlbEntry.toTlbacc (e : TlbEntry) : Tlbacc := { c := e.c, r := e.r, w := e.w, x := e.x, g := e.g, pfn := e.pfn }

end Sys2Proof.Machine
end

