-- ==== Sys2Proof/Machine/Ops.lean ====
section
/-! DEFINITION. The operations the instructions share: the register file, moving on, taking an exception, a break, an
external interrupt or a reset, and returning from an exception. -/

namespace Sys2Proof.Machine

/-- The outcome of an instruction or of a step. -/
abbrev Result := Host.Outcome State Fault Refusal

/-! ## The register file (10_state.md rules R20 to R24) -/

/-- Register `i` of set `s`; r0 of the normal set reads 0 (rule R21). -/
def RegFile.get (f : RegFile) (s : SetNum) (i : RegNum) : Word :=
  if s = 0 ∧ i = 0 then 0 else (f[s.toNat]'s.isLt)[i.toNat]'i.isLt

/-- The register file after register `i` of set `s` is written; r0 of the normal set is never written (rule R21). -/
def RegFile.put (f : RegFile) (s : SetNum) (i : RegNum) (v : Word) : RegFile :=
  if s = 0 ∧ i = 0 then f
  else f.set s.toNat ((f[s.toNat]'s.isLt).set i.toNat v i.isLt) s.isLt

/-- `xs[s][i]` (00_scope.md rule R10). -/
def State.xs (s : State) (set : SetNum) (i : RegNum) : Word := s.regs.get set i

/-- `x[i]`: register `i` of the current set (00_scope.md rule R10). -/
def State.x (s : State) (i : RegNum) : Word := s.regs.get s.status.crs i

/-- The register file after an instruction writes register `i` of the current set; a write to r0 has no effect in any
set (10_state.md rules R21 and R24). -/
def State.regsWith (s : State) (i : RegNum) (v : Word) : RegFile :=
  if i = 0 then s.regs else s.regs.put s.status.crs i v

/-- `x[i] <- v` (00_scope.md rule R10). -/
def State.setX (s : State) (i : RegNum) (v : Word) : State := { s with regs := s.regsWith i v }

/-- `xs[set][i] <- v`, which `wrprs` and exception entry use (10_state.md rule R24). -/
def State.setXs (s : State) (set : SetNum) (i : RegNum) (v : Word) : State := { s with regs := s.regs.put set i v }

/-- `pc <- pc + 4` (10_state.md rule R27), modulo 2^32 (rule R28, D3). -/
def State.advance (s : State) : State := { s with pc := s.pc + 4 }

/-- `x[i] <- v; pc <- pc + 4`: the end of an instruction with a result. -/
def State.retire (s : State) (i : RegNum) (v : Word) : State := { s with pc := s.pc + 4, regs := s.regsWith i v }

/-- `pc <- t`. -/
def State.goto (s : State) (t : Word) : State := { s with pc := t }

/-- The state after `n` free values are drawn (log 34). -/
def State.drawn (s : State) (n : Nat) : State := { s with draws := s.draws + n }

/-- Prefetched instructions are discarded, so every region write has taken effect (70_reset_and_hazards.md rule R501). -/
def State.flushPipeline (s : State) : State := { s with mpuOld := [] }

/-! ## Exceptions through the general and the fast TLB miss vector (60_exceptions.md rule R401) -/

/-- The exceptions of rule R401 that enter as rule R410 says, each with the address its handler needs. -/
inductive Exc where
  | internalInterrupt
  | supervisorOnlyInstrAddress
  | tlbMissInstr (va : Word)
  | tlbExecute (va : Word)
  | mpuInstr
  | supervisorOnlyInstr
  | trap
  | illegalInstr
  | unimplemented
  | supervisorOnlyData (va : Word)
  | misalignedData (va : Word)
  | misalignedDest (target : Word)
  | division
  | tlbMissData (va : Word)
  | tlbRead (va : Word)
  | tlbWrite (va : Word)
  | mpuData (va : Word)
deriving DecidableEq, Repr

/-- The cause code (rule R402). -/
def Exc.cause : Exc → BitVec 5
  | .internalInterrupt => 2
  | .supervisorOnlyInstrAddress => 9
  | .tlbMissInstr _ => 12
  | .tlbExecute _ => 13
  | .mpuInstr => 16
  | .supervisorOnlyInstr => 10
  | .trap => 3
  | .illegalInstr => 5
  | .unimplemented => 4
  | .supervisorOnlyData _ => 11
  | .misalignedData _ => 6
  | .misalignedDest _ => 7
  | .division => 8
  | .tlbMissData _ => 12
  | .tlbRead _ => 14
  | .tlbWrite _ => 15
  | .mpuData _ => 17

/-- The data address that goes to badaddr (rule R413): rows 19, 20 and 24 to 28 of rule R401. -/
def Exc.dataAddress? : Exc → Option Word
  | .supervisorOnlyData va => some va
  | .misalignedData va => some va
  | .tlbMissData va => some va
  | .tlbRead va => some va
  | .tlbWrite va => some va
  | .mpuData va => some va
  | _ => none

/-- The destination address that goes to badaddr: row 21 of rule R401. -/
def Exc.destination? : Exc → Option Word
  | .misalignedDest t => some t
  | _ => none

/-- Is it a TLB miss. -/
def Exc.isTlbMiss : Exc → Bool
  | .tlbMissInstr _ => true
  | .tlbMissData _ => true
  | _ => false

/-- Is it a TLB permission violation. -/
def Exc.isTlbPermission : Exc → Bool
  | .tlbExecute _ => true
  | .tlbRead _ => true
  | .tlbWrite _ => true
  | _ => false

/-- The address whose page goes to pteaddr.VPN (rule R412). -/
def Exc.page? : Exc → Option (BitVec 20)
  | .tlbMissInstr va => some (va.extractLsb' 12 20)
  | .tlbExecute va => some (va.extractLsb' 12 20)
  | .tlbMissData va => some (va.extractLsb' 12 20)
  | .tlbRead va => some (va.extractLsb' 12 20)
  | .tlbWrite va => some (va.extractLsb' 12 20)
  | _ => none

/-- The exceptions that set tlbmisc.BAD (10_state.md rule R57). -/
def Exc.isBadAddress : Exc → Bool
  | .supervisorOnlyInstrAddress => true
  | .supervisorOnlyData _ => true
  | .misalignedData _ => true
  | .misalignedDest _ => true
  | _ => false

/-- The exceptions that set tlbmisc.D (10_state.md rule R58). -/
def Exc.isDataAccess : Exc → Bool
  | .supervisorOnlyData _ => true
  | .misalignedData _ => true
  | .tlbMissData _ => true
  | .tlbRead _ => true
  | .tlbWrite _ => true
  | _ => false

/-- The bits of a data address that badaddr keeps: all with an MMU, never bit 31 without one, and with neither MMU nor
MPU only those of the address space (10_state.md rule R59; log 32). -/
def badDataAddress (c : Config) (va : Word) : Word :=
  if c.hasMmu then va
  else if c.hasMpu then va &&& 0x7FFFFFFF
  else va &&& 0x7FFFFFFF &&& lowMask 32 c.addrBits

/-- The bits of an instruction address that badaddr keeps (10_state.md rule R59; log 32). -/
def badInstrAddress (c : Config) (t : Word) : Word := if c.hasModes then t else t &&& lowMask 32 c.addrBits

/-- badaddr after an exception: unchanged but for the rows of rule R401 that write it (rule R413). -/
def Exc.newBadaddr (e : Exc) (s : State) : Word :=
  match e.dataAddress?, e.destination? with
  | some va, _ => badDataAddress s.cfg va
  | none, some t => badInstrAddress s.cfg t
  | none, none => s.badaddr

/-- tlbmisc after an exception taken with an MMU (rule R412): the flags describe this exception; WE is set by a
permission violation, and by a miss when no exception was active. -/
def Exc.newTlbmisc (e : Exc) (eh : Bool) (m : Tlbmisc) : Tlbmisc :=
  { m with
    d := e.isDataAccess
    dbl := e.isTlbMiss && eh
    perm := e.isTlbPermission
    bad := e.isBadAddress
    we := m.we || e.isTlbPermission || (e.isTlbMiss && !eh) }

/-- pteaddr after an exception taken with an MMU (rule R412): VPN is written only when no exception was active. -/
def Exc.newPteaddr (e : Exc) (eh : Bool) (p : Pteaddr) : Pteaddr :=
  match e.page? with
  | some vpn => if eh then p else { p with vpn := vpn }
  | none => p

/-- Where the pc goes: the fast TLB miss vector for a miss when no exception was active, else the general vector
(rules R400 and R410). -/
def Exc.vector (e : Exc) (eh : Bool) (c : Config) : Word :=
  c.vectorPc (if e.isTlbMiss && !eh then c.fastTlbMissAddr else c.exceptionAddr)

/-- status after an exception (rule R410): the register set in use goes to PRS unless an exception was active. -/
def Status.inHandler (t : Status) (c : Config) : Status :=
  { t with prs := if t.eh then t.prs else t.crs, crs := 0, pie := false, u := false, eh := t.eh || c.hasMmu }

/-- TAKING AN EXCEPTION (rules R410 to R413 and R415): `TakeGeneral`. The return address is the pc of the instruction
that raised it, or that would have executed next, plus 4. DEDUCED, log 26: the order and the parts whose list the source
lost. -/
def takeGeneral (e : Exc) (s : State) : State :=
  { s with
    estatus := if s.status.eh then s.estatus else s.status
    regs := if s.status.eh then s.regs else s.regs.put 0 29 (s.pc + 4)
    status := s.status.inHandler s.cfg
    tlbmisc := if s.cfg.hasMmu then e.newTlbmisc s.status.eh s.tlbmisc else s.tlbmisc
    pteaddr := if s.cfg.hasMmu then e.newPteaddr s.status.eh s.pteaddr else s.pteaddr
    cause := if s.cfg.excInfo then e.cause else s.cause
    badaddr := if s.cfg.excInfo then e.newBadaddr s else s.badaddr
    mpuOld := []
    pc := e.vector s.status.eh s.cfg }

/-- `raise e`: the instruction is abandoned and the exception taken (00_scope.md rule R12). -/
def raise (e : Exc) (s : State) : Result := .next (takeGeneral e s)

/-! ## Break, external interrupt, reset -/

/-- The register file after a break: ba of the normal set, and with a debug module bt, a free value (rules R441 and R442;
log 30). The return from the break havocs ba and bstatus as well (`State.released`). -/
def State.breakRegs (s : State) : RegFile :=
  (if s.cfg.hasDebug then s.regs.put 0 25 (Config.freeWord s.draws) else s.regs).put 0 30 (s.pc + 4)

/-- TAKING A BREAK, by the break instruction or the debug module (rule R441): `TakeBreak`. config.PE keeps its value: with
the MPU enabled the break handler's accesses are checked as any supervisor code's (DESIGN CHOICE, log 30). -/
def takeBreak (s : State) : State :=
  { s with
    bstatus := s.status
    regs := s.breakRegs
    draws := if s.cfg.hasDebug then s.draws + 1 else s.draws
    status := { s.status with pie := false, u := false, eh := s.status.eh || s.cfg.hasMmu,
                              prs := s.status.crs, crs := 0 }
    paused := s.cfg.hasDebug
    mpuOld := []
    pc := s.cfg.vectorPc s.cfg.breakAddr }

/-- The registers reserved for debugging, bt and ba of the normal set and bstatus, as a debug module writes them (rule R442).
DESIGN CHOICE, log 30: bstatus takes the implemented fields of the word. -/
def State.debugged (s : State) (d : DebugWrites) : State :=
  { s with
    regs := (s.regs.put 0 25 d.bt).put 0 30 d.ba
    bstatus := (Status.ofWord d.bstatus).implement s.cfg }

/-- The debug module, in a core that has one, writes its registers at an instruction boundary, or not (rule R442). -/
def State.debuggerActs (s : State) (d : Option DebugWrites) : State :=
  match d with
  | some w => if s.cfg.hasDebug then s.debugged w else s
  | none => s

/-- The debug module in control gives it up. Each break leaves bt, ba and bstatus with any values (rule R442), here once the
return has used them (DESIGN CHOICE, log 30). -/
def State.released (s : State) : State :=
  if s.paused then
    { s.debugged { bt := Config.freeWord s.draws, ba := Config.freeWord (s.draws + 1),
                   bstatus := Config.freeWord (s.draws + 2) } with
      draws := s.draws + 3, paused := false }
  else s

/-- status after an external interrupt (rule R428). -/
def Status.inInterrupt (t : Status) (q : EicRequest) (ani : Bool) : Status :=
  { rsie := false, nmi := q.rnmi, prs := if t.eh then t.prs else t.crs, crs := q.rrs, il := q.ril, ih := true,
    eh := t.eh, u := false, pie := t.pie && !(q.rnmi || !ani) }

/-- The register file after an external interrupt taken with no exception active: ea, and sstatus with SRS for a shadow
set, of the requested set (rule R428). -/
def State.interruptRegs (s : State) (q : EicRequest) : RegFile :=
  let saved := if q.rrs = 0 then s.regs else s.regs.put q.rrs 30 (s.status.toSstatus (q.rrs != s.status.crs))
  saved.put q.rrs 29 (s.pc + 4)

/-- TAKING AN EXTERNAL INTERRUPT (rule R428): `TakeExternal`. Rows of rule R414 for a field the core lacks do not apply:
RSIE, which reads 1 without shadow register sets, is cleared only where it is implemented. -/
def takeExternal (q : EicRequest) (s : State) : State :=
  { s with
    estatus := if s.status.eh || q.rrs != 0 then s.estatus else s.status
    regs := if s.status.eh then s.regs else s.interruptRegs q
    status := (s.status.inInterrupt q s.config.ani).implement s.cfg
    mpuOld := []
    pc := q.rha }

/-- A RESET (70_reset_and_hazards.md rules R480 to R482): the control registers take their reset values (10_state.md rule
R82), CAUSE says which reset it was, the instruction cache loses the lines the reset vector selects, and nothing else
changes (DEDUCED, log 29), the record of stored words that a fetch may see old among it (DESIGN CHOICE, log 21). -/
def takeReset (cause : BitVec 5) (s : State) : State :=
  let fresh := State.resetOf s.cfg
  { s with
    pc := fresh.pc, status := fresh.status, estatus := fresh.estatus, bstatus := fresh.bstatus
    cause := if s.cfg.excInfo then cause else s.cause
    badaddr := fresh.badaddr, pteaddr := fresh.pteaddr, tlbacc := fresh.tlbacc, tlbmisc := fresh.tlbmisc
    config := fresh.config, mpubase := fresh.mpubase, mpuacc := fresh.mpuacc, mpuOld := [], paused := false
    icache := match s.cfg.iIndex fresh.pc with
      | some index => s.icache.filter (fun l => !l.hasIndex index)
      | none => s.icache }

/-! ## Control transfer and return (45_program_control.md rule R321, 46_other_control.md rules R351 and R353) -/

/-- A control transfer to `t` that ends in `k`: a target that is no multiple of four raises the misaligned destination
exception and nothing else happens; with detection off the model refuses (rule R102, D5; log 15). -/
def transfer (t : Word) (s : State) (k : Result) : Result :=
  if t &&& 3#32 = 0 then k
  else if s.cfg.illegalMem then raise (.misalignedDest t) s
  else .refused .misalignedTarget

/-- An instruction of supervisor mode (rule R452): in user mode it raises the exception and has no effect. -/
def supervisorOnly (s : State) (k : Result) : Result := if s.status.u then raise .supervisorOnlyInstr s else k

/-- RETURNING: status takes the implemented fields of a saved status and execution goes on at `t`. A saved status that
names a register set the core lacks is refused (93_implementation_defined.md U18; log 28). `after` is the
state with what else the return changes. -/
def returnFrom (saved : Status) (t : Word) (after s : State) : Result :=
  transfer t s
    (if (saved.implement s.cfg).setsExist s.cfg then
      .next { after with status := saved.implement s.cfg, pc := t, mpuOld := [] }
    else .refused .noSuchRegisterSet)

/-- The status that `eret` restores: estatus in the normal register set, sstatus in a shadow set (rule R351). -/
def State.savedStatus (s : State) : Status :=
  if s.status.crs = 0 then s.estatus else .ofWord (s.xs s.status.crs 30)

end Sys2Proof.Machine
end

