-- ==== Sys2Proof/Machine/Operands.lean ====
section
/-! DEFINITION. The operand forms: immediates, effective addresses, branch and jump targets (30_encoding.md rule R167). -/

namespace Sys2Proof.Machine

/-- `sext_32(IMM16)`. -/
def sext16 (imm : BitVec 16) : Word := imm.signExtend 32

/-- `zext_32(IMM16)`. -/
def zext16 (imm : BitVec 16) : Word := imm.setWidth 32

/-- `IMM16 : 0x0000`, the immediate of the "hi" forms. -/
def high16 (imm : BitVec 16) : Word := imm ++ 0#16

/-- The effective address `x[A] + sext_32(IMM16)`, modulo 2^32 (40_data_transfer.md rule R200). -/
def State.effective (s : State) (rA : RegNum) (imm : BitVec 16) : Word := s.x rA + sext16 imm

/-- A branch target, `pc + 4 + sext_32(IMM16)` (45_program_control.md rule R330). -/
def State.branchTarget (s : State) (imm : BitVec 16) : Word := s.pc + 4 + sext16 imm

/-- A jump target, `pc[31:28] : IMM26 : 00` (45_program_control.md rule R324). -/
def State.jumpTarget (s : State) (imm : BitVec 26) : Word := s.pc.extractLsb' 28 4 ++ imm ++ 0#2

/-- The number of bits a shift or rotate moves: the five low bits of rB (44_shift_rotate.md rule R300). -/
def shiftCount (v : Word) : Nat := (v.extractLsb' 0 5).toNat

end Sys2Proof.Machine
end

