-- ==== Sys2Proof/Machine/Arithmetic.lean ====
section
/-! DEFINITION. Arithmetic and logical instructions (41_arithmetic_logical.md rules R230 to R256). -/

namespace Sys2Proof.Machine

/-- An instruction that a core may leave out raises the unimplemented instruction exception there
(47_custom_nop_unimplemented.md rule R395). -/
def ifImplemented (present : Bool) (s : State) (k : Result) : Result := if present then k else raise .unimplemented s

/-- The high 32 bits of a 64-bit product (rules R248 to R250). -/
def highWord (p : Int) : Word := BitVec.ofInt 32 (p / 2 ^ 32)

/-- A division by zero, or of 0x80000000 by -1 where the division is signed (rule R253). -/
def divisionError (signed : Bool) (a b : Word) : Bool := b == 0 || (signed && a == 0x80000000 && b == 0xFFFFFFFF)

/-- A divide: an operand pair with no representable quotient raises the division error, or with detection off leaves a
free value in the destination (rule R253, D6; log 18). -/
def divideInto (signed : Bool) (quotient : Word) (rC : RegNum) (a b : Word) (s : State) : Result :=
  if divisionError signed a b then
    if s.cfg.divErrorDetect then raise .division s
    else .next ((s.drawn 1).retire rC (Config.freeWord s.draws))
  else .next (s.retire rC quotient)

/-- `and rC, rA, rB` (rule R232). -/
def execAnd (rC rA rB : RegNum) (s : State) : Result := .next (s.retire rC (s.x rA &&& s.x rB))

/-- `or rC, rA, rB` (rule R233). -/
def execOr (rC rA rB : RegNum) (s : State) : Result := .next (s.retire rC (s.x rA ||| s.x rB))

/-- `xor rC, rA, rB` (rule R234). -/
def execXor (rC rA rB : RegNum) (s : State) : Result := .next (s.retire rC (s.x rA ^^^ s.x rB))

/-- `nor rC, rA, rB` (rule R235). -/
def execNor (rC rA rB : RegNum) (s : State) : Result := .next (s.retire rC (~~~(s.x rA ||| s.x rB)))

/-- `andi rB, rA, IMM16` (rule R236): the immediate is zero-extended. -/
def execAndi (rB rA : RegNum) (imm : BitVec 16) (s : State) : Result := .next (s.retire rB (s.x rA &&& zext16 imm))

/-- `ori rB, rA, IMM16` (rule R237): the immediate is zero-extended. -/
def execOri (rB rA : RegNum) (imm : BitVec 16) (s : State) : Result := .next (s.retire rB (s.x rA ||| zext16 imm))

/-- `xori rB, rA, IMM16` (rule R238): the immediate is zero-extended. -/
def execXori (rB rA : RegNum) (imm : BitVec 16) (s : State) : Result := .next (s.retire rB (s.x rA ^^^ zext16 imm))

/-- `andhi rB, rA, IMM16` (rule R239): the immediate fills the high half. -/
def execAndhi (rB rA : RegNum) (imm : BitVec 16) (s : State) : Result := .next (s.retire rB (s.x rA &&& high16 imm))

/-- `orhi rB, rA, IMM16` (rule R240): the immediate fills the high half. -/
def execOrhi (rB rA : RegNum) (imm : BitVec 16) (s : State) : Result := .next (s.retire rB (s.x rA ||| high16 imm))

/-- `xorhi rB, rA, IMM16` (rule R241): the immediate fills the high half. -/
def execXorhi (rB rA : RegNum) (imm : BitVec 16) (s : State) : Result := .next (s.retire rB (s.x rA ^^^ high16 imm))

/-- `add rC, rA, rB` (rule R242), modulo 2^32. -/
def execAdd (rC rA rB : RegNum) (s : State) : Result := .next (s.retire rC (s.x rA + s.x rB))

/-- `sub rC, rA, rB` (rule R243), modulo 2^32. -/
def execSub (rC rA rB : RegNum) (s : State) : Result := .next (s.retire rC (s.x rA - s.x rB))

/-- `addi rB, rA, IMM16` (rule R244), modulo 2^32. -/
def execAddi (rB rA : RegNum) (imm : BitVec 16) (s : State) : Result := .next (s.retire rB (s.x rA + sext16 imm))

/-- `mul rC, rA, rB` (rule R246): the low 32 bits of the product. -/
def execMul (rC rA rB : RegNum) (s : State) : Result :=
  ifImplemented s.cfg.implemented.mul s (.next (s.retire rC (s.x rA * s.x rB)))

/-- `muli rB, rA, IMM16` (rule R247). -/
def execMuli (rB rA : RegNum) (imm : BitVec 16) (s : State) : Result :=
  ifImplemented s.cfg.implemented.muli s (.next (s.retire rB (s.x rA * sext16 imm)))

/-- `mulxss rC, rA, rB` (rule R248): signed by signed. -/
def execMulxss (rC rA rB : RegNum) (s : State) : Result :=
  ifImplemented s.cfg.implemented.mulxss s (.next (s.retire rC (highWord ((s.x rA).toInt * (s.x rB).toInt))))

/-- `mulxuu rC, rA, rB` (rule R249): unsigned by unsigned. -/
def execMulxuu (rC rA rB : RegNum) (s : State) : Result :=
  ifImplemented s.cfg.implemented.mulxuu s (.next (s.retire rC (highWord ((s.x rA).toNat * (s.x rB).toNat))))

/-- `mulxsu rC, rA, rB` (rule R250): signed by unsigned. -/
def execMulxsu (rC rA rB : RegNum) (s : State) : Result :=
  ifImplemented s.cfg.implemented.mulxsu s (.next (s.retire rC (highWord ((s.x rA).toInt * (s.x rB).toNat))))

/-- `div rC, rA, rB` (rule R251): signed, the quotient truncated toward zero. -/
def execDiv (rC rA rB : RegNum) (s : State) : Result :=
  ifImplemented s.cfg.implemented.div s
    (divideInto true (BitVec.ofInt 32 ((s.x rA).toInt.tdiv (s.x rB).toInt)) rC (s.x rA) (s.x rB) s)

/-- `divu rC, rA, rB` (rule R252): unsigned. -/
def execDivu (rC rA rB : RegNum) (s : State) : Result :=
  ifImplemented s.cfg.implemented.divu s
    (divideInto false (BitVec.ofNat 32 ((s.x rA).toNat / (s.x rB).toNat)) rC (s.x rA) (s.x rB) s)

end Sys2Proof.Machine
end

