-- ==== Sys2Proof/Machine/Flags.lean ====
section
/-! DEFINITION. The processor has no arithmetic flags (10_state.md rule R29): a comparison writes its Boolean result, 0
or 1, to a register, and a conditional branch evaluates the same relations (43_comparison.md rules R270 and R271). -/

namespace Sys2Proof.Machine

/-- The six relations of the comparison and branch instructions. -/
inductive Relation where
  | eq
  | ne
  | ge
  | geu
  | lt
  | ltu
deriving DecidableEq, Repr

/-- Does the relation hold between two words: `ge` and `lt` are signed, `geu` and `ltu` unsigned. -/
def Relation.holds (r : Relation) (a b : Word) : Bool :=
  match r with
  | .eq => a == b
  | .ne => a != b
  | .ge => b.toInt ≤ a.toInt
  | .geu => b.toNat ≤ a.toNat
  | .lt => a.toInt < b.toInt
  | .ltu => a.toNat < b.toNat

/-- A Boolean result as a word: 1 or 0 (rule R271). -/
def boolWord (b : Bool) : Word := if b then 1 else 0

end Sys2Proof.Machine
end

