-- ==== Sys2Proof/Machine/Comparison.lean ====
section
/-! DEFINITION. Comparison instructions (43_comparison.md rules R270 to R283): the Boolean result goes to a register. -/

namespace Sys2Proof.Machine

/-- `cmpeq rC, rA, rB` (rule R272). -/
def execCmpeq (rC rA rB : RegNum) (s : State) : Result :=
  .next (s.retire rC (boolWord (Relation.eq.holds (s.x rA) (s.x rB))))

/-- `cmpne rC, rA, rB` (rule R273). -/
def execCmpne (rC rA rB : RegNum) (s : State) : Result :=
  .next (s.retire rC (boolWord (Relation.ne.holds (s.x rA) (s.x rB))))

/-- `cmpge rC, rA, rB` (rule R274). -/
def execCmpge (rC rA rB : RegNum) (s : State) : Result :=
  .next (s.retire rC (boolWord (Relation.ge.holds (s.x rA) (s.x rB))))

/-- `cmpgeu rC, rA, rB` (rule R275). -/
def execCmpgeu (rC rA rB : RegNum) (s : State) : Result :=
  .next (s.retire rC (boolWord (Relation.geu.holds (s.x rA) (s.x rB))))

/-- `cmplt rC, rA, rB` (rule R276). -/
def execCmplt (rC rA rB : RegNum) (s : State) : Result :=
  .next (s.retire rC (boolWord (Relation.lt.holds (s.x rA) (s.x rB))))

/-- `cmpltu rC, rA, rB` (rule R277). -/
def execCmpltu (rC rA rB : RegNum) (s : State) : Result :=
  .next (s.retire rC (boolWord (Relation.ltu.holds (s.x rA) (s.x rB))))

/-- `cmpeqi rB, rA, IMM16` (rule R278): the immediate is sign-extended. -/
def execCmpeqi (rB rA : RegNum) (imm : BitVec 16) (s : State) : Result :=
  .next (s.retire rB (boolWord (Relation.eq.holds (s.x rA) (sext16 imm))))

/-- `cmpnei rB, rA, IMM16` (rule R279): the immediate is sign-extended. -/
def execCmpnei (rB rA : RegNum) (imm : BitVec 16) (s : State) : Result :=
  .next (s.retire rB (boolWord (Relation.ne.holds (s.x rA) (sext16 imm))))

/-- `cmpgei rB, rA, IMM16` (rule R280): the immediate is sign-extended. -/
def execCmpgei (rB rA : RegNum) (imm : BitVec 16) (s : State) : Result :=
  .next (s.retire rB (boolWord (Relation.ge.holds (s.x rA) (sext16 imm))))

/-- `cmpgeui rB, rA, IMM16` (rule R281): the immediate is zero-extended. -/
def execCmpgeui (rB rA : RegNum) (imm : BitVec 16) (s : State) : Result :=
  .next (s.retire rB (boolWord (Relation.geu.holds (s.x rA) (zext16 imm))))

/-- `cmplti rB, rA, IMM16` (rule R282): the immediate is sign-extended. -/
def execCmplti (rB rA : RegNum) (imm : BitVec 16) (s : State) : Result :=
  .next (s.retire rB (boolWord (Relation.lt.holds (s.x rA) (sext16 imm))))

/-- `cmpltui rB, rA, IMM16` (rule R283): the immediate is zero-extended. -/
def execCmpltui (rB rA : RegNum) (imm : BitVec 16) (s : State) : Result :=
  .next (s.retire rB (boolWord (Relation.ltu.holds (s.x rA) (zext16 imm))))

end Sys2Proof.Machine
end

