-- ==== Sys2Proof/Syntax.lean ====
section
/-! DEFINITION. The instructions of the processor: one constructor of `Instr` per row of spec/opcode_table.json, its
operands in the order of the assembler syntax (30_encoding.md rule R180). -/

namespace Sys2Proof

/-- The control registers by name (10_state.md rule R30). `eccinj` is number 11; `reserved n` stands for a number that
the list gives no name (6 and 16 to 31). -/
inductive CtlReg where
  | status
  | estatus
  | bstatus
  | ienable
  | ipending
  | cpuid
  | exception
  | pteaddr
  | tlbacc
  | tlbmisc
  | eccinj
  | badaddr
  | config
  | mpubase
  | mpuacc
  | reserved (n : BitVec 5)
deriving DecidableEq, Repr

/-- An operand of `custom` (47_custom_nop_unimplemented.md rule R390): a general-purpose register, or a register of the
custom logic's own file. -/
inductive CustomReg where
  | r (n : RegNum)
  | c (n : RegNum)
deriving DecidableEq, Repr

/-- The instruction set: the 87 rows of spec/opcode_table.json. Immediates have the width of their field. -/
inductive Instr where
  -- data transfer (40_data_transfer.md): rB, IMM16(rA)
  | ldw (rB rA : RegNum) (imm : BitVec 16)
  | stw (rB rA : RegNum) (imm : BitVec 16)
  | ldwio (rB rA : RegNum) (imm : BitVec 16)
  | stwio (rB rA : RegNum) (imm : BitVec 16)
  | ldh (rB rA : RegNum) (imm : BitVec 16)
  | ldhu (rB rA : RegNum) (imm : BitVec 16)
  | ldb (rB rA : RegNum) (imm : BitVec 16)
  | ldbu (rB rA : RegNum) (imm : BitVec 16)
  | sth (rB rA : RegNum) (imm : BitVec 16)
  | stb (rB rA : RegNum) (imm : BitVec 16)
  | ldhio (rB rA : RegNum) (imm : BitVec 16)
  | ldhuio (rB rA : RegNum) (imm : BitVec 16)
  | ldbio (rB rA : RegNum) (imm : BitVec 16)
  | ldbuio (rB rA : RegNum) (imm : BitVec 16)
  | sthio (rB rA : RegNum) (imm : BitVec 16)
  | stbio (rB rA : RegNum) (imm : BitVec 16)
  -- arithmetic and logical (41_arithmetic_logical.md): rC, rA, rB or rB, rA, IMM16
  | and (rC rA rB : RegNum)
  | or (rC rA rB : RegNum)
  | xor (rC rA rB : RegNum)
  | nor (rC rA rB : RegNum)
  | andi (rB rA : RegNum) (imm : BitVec 16)
  | ori (rB rA : RegNum) (imm : BitVec 16)
  | xori (rB rA : RegNum) (imm : BitVec 16)
  | andhi (rB rA : RegNum) (imm : BitVec 16)
  | orhi (rB rA : RegNum) (imm : BitVec 16)
  | xorhi (rB rA : RegNum) (imm : BitVec 16)
  | add (rC rA rB : RegNum)
  | sub (rC rA rB : RegNum)
  | addi (rB rA : RegNum) (imm : BitVec 16)
  | mul (rC rA rB : RegNum)
  | muli (rB rA : RegNum) (imm : BitVec 16)
  | mulxss (rC rA rB : RegNum)
  | mulxuu (rC rA rB : RegNum)
  | mulxsu (rC rA rB : RegNum)
  | div (rC rA rB : RegNum)
  | divu (rC rA rB : RegNum)
  -- comparison (43_comparison.md)
  | cmpeq (rC rA rB : RegNum)
  | cmpne (rC rA rB : RegNum)
  | cmpge (rC rA rB : RegNum)
  | cmpgeu (rC rA rB : RegNum)
  | cmplt (rC rA rB : RegNum)
  | cmpltu (rC rA rB : RegNum)
  | cmpeqi (rB rA : RegNum) (imm : BitVec 16)
  | cmpnei (rB rA : RegNum) (imm : BitVec 16)
  | cmpgei (rB rA : RegNum) (imm : BitVec 16)
  | cmpgeui (rB rA : RegNum) (imm : BitVec 16)
  | cmplti (rB rA : RegNum) (imm : BitVec 16)
  | cmpltui (rB rA : RegNum) (imm : BitVec 16)
  -- shift and rotate (44_shift_rotate.md)
  | rol (rC rA rB : RegNum)
  | ror (rC rA rB : RegNum)
  | roli (rC rA : RegNum) (imm : BitVec 5)
  | sll (rC rA rB : RegNum)
  | slli (rC rA : RegNum) (imm : BitVec 5)
  | srl (rC rA rB : RegNum)
  | srli (rC rA : RegNum) (imm : BitVec 5)
  | sra (rC rA rB : RegNum)
  | srai (rC rA : RegNum) (imm : BitVec 5)
  -- program control (45_program_control.md)
  | call (imm : BitVec 26)
  | callr (rA : RegNum)
  | ret
  | jmp (rA : RegNum)
  | jmpi (imm : BitVec 26)
  | nextpc (rC : RegNum)
  | br (imm : BitVec 16)
  | beq (rA rB : RegNum) (imm : BitVec 16)
  | bne (rA rB : RegNum) (imm : BitVec 16)
  | bge (rA rB : RegNum) (imm : BitVec 16)
  | bgeu (rA rB : RegNum) (imm : BitVec 16)
  | blt (rA rB : RegNum) (imm : BitVec 16)
  | bltu (rA rB : RegNum) (imm : BitVec 16)
  -- other control (46_other_control.md); `brk` is the mnemonic `break`
  | trap (imm : BitVec 5)
  | eret
  | brk (imm : BitVec 5)
  | bret
  | rdctl (rC : RegNum) (n : CtlReg)
  | wrctl (n : CtlReg) (rA : RegNum)
  | flushd (rA : RegNum) (imm : BitVec 16)
  | flushda (rA : RegNum) (imm : BitVec 16)
  | flushi (rA : RegNum)
  | initd (rA : RegNum) (imm : BitVec 16)
  | initda (rA : RegNum) (imm : BitVec 16)
  | initi (rA : RegNum)
  | flushp
  | sync
  | rdprs (rB rA : RegNum) (imm : BitVec 16)
  | wrprs (rC rA : RegNum)
  -- custom (47_custom_nop_unimplemented.md): selector, result, operands
  | custom (n : BitVec 8) (c a b : CustomReg)
deriving DecidableEq, Repr

end Sys2Proof
end

