-- ==== Sys2Proof/WellFormed.lean ====
section
/-! DEFINITION. Which terms of `Instr` are instructions: every field has the width of the encoding, so the only check
left is that a control register written by number is one that has no name (10_state.md rules R30 and R69). -/

namespace Sys2Proof

/-- `reserved n` is used only for the numbers of rule R69 that the list of rule R30 gives no name: 6 and 16 to 31. -/
def CtlReg.wellFormed : CtlReg → Bool
  | .reserved n => n == 6#5 || 16#5 ≤ n
  | _ => true

/-- The control register that an instruction names, if it names one (rules R354 and R355). -/
def Instr.ctlReg? : Instr → Option CtlReg
  | .rdctl _ n => some n
  | .wrctl n _ => some n
  | _ => none

/-- A term that the assembler syntax of rule R180 can write. -/
def Instr.wellFormed (i : Instr) : Bool :=
  match i.ctlReg? with
  | some n => n.wellFormed
  | none => true

end Sys2Proof
end

