-- ==== Sys2Proof/Decode.lean ====
section
/-! DEFINITION. From words to instructions and back (30_encoding.md rules R160 to R175). PRESUMED, log 13: every opcode
number and bit position of that file is marked there as taken from general knowledge. -/

namespace Sys2Proof

/-- Why a word is no instruction (rule R175): a reserved opcode or opcode extension, or fewer than four bytes. -/
inductive DecodeError where
  | reservedOp (op : BitVec 6)
  | reservedOpx (opx : BitVec 6)
  | tooShort
deriving DecidableEq, Repr

/-! ## Fields of an instruction word (rules R162 to R165) -/

/-- Field A, bits 31:27. -/
def fieldA (w : Word) : BitVec 5 := w.extractLsb' 27 5
/-- Field B, bits 26:22. -/
def fieldB (w : Word) : BitVec 5 := w.extractLsb' 22 5
/-- Field C, bits 21:17. -/
def fieldC (w : Word) : BitVec 5 := w.extractLsb' 17 5
/-- Field OPX, bits 16:11. -/
def fieldOpx (w : Word) : BitVec 6 := w.extractLsb' 11 6
/-- Field IMM5, bits 10:6. -/
def fieldImm5 (w : Word) : BitVec 5 := w.extractLsb' 6 5
/-- Field IMM16, bits 21:6. -/
def fieldImm16 (w : Word) : BitVec 16 := w.extractLsb' 6 16
/-- Field IMM26, bits 31:6. -/
def fieldImm26 (w : Word) : BitVec 26 := w.extractLsb' 6 26
/-- Field OP, bits 5:0. -/
def fieldOp (w : Word) : BitVec 6 := w.extractLsb' 0 6
/-- Field readra of `custom`, bit 16 (rule R165). -/
def fieldReadra (w : Word) : Bool := w.getLsbD 16
/-- Field readrb of `custom`, bit 15 (rule R165). -/
def fieldReadrb (w : Word) : Bool := w.getLsbD 15
/-- Field writerc of `custom`, bit 14 (rule R165). -/
def fieldWriterc (w : Word) : Bool := w.getLsbD 14
/-- Field N of `custom`, bits 13:6 (rule R165). -/
def fieldN (w : Word) : BitVec 8 := w.extractLsb' 6 8

/-! ## Control register numbers (10_state.md rule R30) -/

/-- The control register with a number. -/
def CtlReg.ofNumber (n : BitVec 5) : CtlReg :=
  match n.toNat with
  | 0 => .status
  | 1 => .estatus
  | 2 => .bstatus
  | 3 => .ienable
  | 4 => .ipending
  | 5 => .cpuid
  | 7 => .exception
  | 8 => .pteaddr
  | 9 => .tlbacc
  | 10 => .tlbmisc
  | 11 => .eccinj
  | 12 => .badaddr
  | 13 => .config
  | 14 => .mpubase
  | 15 => .mpuacc
  | _ => .reserved n

/-- The number of a control register. -/
def CtlReg.number : CtlReg → BitVec 5
  | .status => 0
  | .estatus => 1
  | .bstatus => 2
  | .ienable => 3
  | .ipending => 4
  | .cpuid => 5
  | .exception => 7
  | .pteaddr => 8
  | .tlbacc => 9
  | .tlbmisc => 10
  | .eccinj => 11
  | .badaddr => 12
  | .config => 13
  | .mpubase => 14
  | .mpuacc => 15
  | .reserved n => n

/-! ## Decoding: OP and OPX alone select the instruction (rules R166 and R173; DESIGN CHOICE, log 12) -/

/-- An operand of `custom`: a general-purpose register when its flag bit is set, else one of the custom logic. -/
def CustomReg.ofFlag (flag : Bool) (n : BitVec 5) : CustomReg :=
  if flag then .r n else .c n

/-- Is the operand of `custom` a general-purpose register: the value of its flag bit. -/
def CustomReg.flag : CustomReg → Bool
  | .r _ => true
  | .c _ => false

/-- The register number in the operand of `custom`. -/
def CustomReg.number : CustomReg → BitVec 5
  | .r n => n
  | .c n => n

/-- The custom layout of rule R165. -/
def decodeCustom (w : Word) : Instr :=
  .custom (fieldN w) (.ofFlag (fieldWriterc w) (fieldC w)) (.ofFlag (fieldReadra w) (fieldA w))
    (.ofFlag (fieldReadrb w) (fieldB w))

/-- R-type instructions by OPX (rule R171). -/
def decodeOpx (w : Word) : Except DecodeError Instr :=
  match (fieldOpx w).toNat with
  | 0x01 => .ok .eret
  | 0x02 => .ok (.roli (fieldC w) (fieldA w) (fieldImm5 w))
  | 0x03 => .ok (.rol (fieldC w) (fieldA w) (fieldB w))
  | 0x04 => .ok .flushp
  | 0x05 => .ok .ret
  | 0x06 => .ok (.nor (fieldC w) (fieldA w) (fieldB w))
  | 0x07 => .ok (.mulxuu (fieldC w) (fieldA w) (fieldB w))
  | 0x08 => .ok (.cmpge (fieldC w) (fieldA w) (fieldB w))
  | 0x09 => .ok .bret
  | 0x0B => .ok (.ror (fieldC w) (fieldA w) (fieldB w))
  | 0x0C => .ok (.flushi (fieldA w))
  | 0x0D => .ok (.jmp (fieldA w))
  | 0x0E => .ok (.and (fieldC w) (fieldA w) (fieldB w))
  | 0x10 => .ok (.cmplt (fieldC w) (fieldA w) (fieldB w))
  | 0x12 => .ok (.slli (fieldC w) (fieldA w) (fieldImm5 w))
  | 0x13 => .ok (.sll (fieldC w) (fieldA w) (fieldB w))
  | 0x14 => .ok (.wrprs (fieldC w) (fieldA w))
  | 0x16 => .ok (.or (fieldC w) (fieldA w) (fieldB w))
  | 0x17 => .ok (.mulxsu (fieldC w) (fieldA w) (fieldB w))
  | 0x18 => .ok (.cmpne (fieldC w) (fieldA w) (fieldB w))
  | 0x1A => .ok (.srli (fieldC w) (fieldA w) (fieldImm5 w))
  | 0x1B => .ok (.srl (fieldC w) (fieldA w) (fieldB w))
  | 0x1C => .ok (.nextpc (fieldC w))
  | 0x1D => .ok (.callr (fieldA w))
  | 0x1E => .ok (.xor (fieldC w) (fieldA w) (fieldB w))
  | 0x1F => .ok (.mulxss (fieldC w) (fieldA w) (fieldB w))
  | 0x20 => .ok (.cmpeq (fieldC w) (fieldA w) (fieldB w))
  | 0x24 => .ok (.divu (fieldC w) (fieldA w) (fieldB w))
  | 0x25 => .ok (.div (fieldC w) (fieldA w) (fieldB w))
  | 0x26 => .ok (.rdctl (fieldC w) (CtlReg.ofNumber (fieldImm5 w)))
  | 0x27 => .ok (.mul (fieldC w) (fieldA w) (fieldB w))
  | 0x28 => .ok (.cmpgeu (fieldC w) (fieldA w) (fieldB w))
  | 0x29 => .ok (.initi (fieldA w))
  | 0x2D => .ok (.trap (fieldImm5 w))
  | 0x2E => .ok (.wrctl (CtlReg.ofNumber (fieldImm5 w)) (fieldA w))
  | 0x30 => .ok (.cmpltu (fieldC w) (fieldA w) (fieldB w))
  | 0x31 => .ok (.add (fieldC w) (fieldA w) (fieldB w))
  | 0x34 => .ok (.brk (fieldImm5 w))
  | 0x36 => .ok .sync
  | 0x39 => .ok (.sub (fieldC w) (fieldA w) (fieldB w))
  | 0x3A => .ok (.srai (fieldC w) (fieldA w) (fieldImm5 w))
  | 0x3B => .ok (.sra (fieldC w) (fieldA w) (fieldB w))
  | _ => .error (.reservedOpx (fieldOpx w))

/-- The instruction of a word (rules R166 and R170); a reserved opcode is rejected by name (rule R175). -/
def decodeWord (w : Word) : Except DecodeError Instr :=
  match (fieldOp w).toNat with
  | 0x00 => .ok (.call (fieldImm26 w))
  | 0x01 => .ok (.jmpi (fieldImm26 w))
  | 0x03 => .ok (.ldbu (fieldB w) (fieldA w) (fieldImm16 w))
  | 0x04 => .ok (.addi (fieldB w) (fieldA w) (fieldImm16 w))
  | 0x05 => .ok (.stb (fieldB w) (fieldA w) (fieldImm16 w))
  | 0x06 => .ok (.br (fieldImm16 w))
  | 0x07 => .ok (.ldb (fieldB w) (fieldA w) (fieldImm16 w))
  | 0x08 => .ok (.cmpgei (fieldB w) (fieldA w) (fieldImm16 w))
  | 0x0B => .ok (.ldhu (fieldB w) (fieldA w) (fieldImm16 w))
  | 0x0C => .ok (.andi (fieldB w) (fieldA w) (fieldImm16 w))
  | 0x0D => .ok (.sth (fieldB w) (fieldA w) (fieldImm16 w))
  | 0x0E => .ok (.bge (fieldA w) (fieldB w) (fieldImm16 w))
  | 0x0F => .ok (.ldh (fieldB w) (fieldA w) (fieldImm16 w))
  | 0x10 => .ok (.cmplti (fieldB w) (fieldA w) (fieldImm16 w))
  | 0x13 => .ok (.initda (fieldA w) (fieldImm16 w))
  | 0x14 => .ok (.ori (fieldB w) (fieldA w) (fieldImm16 w))
  | 0x15 => .ok (.stw (fieldB w) (fieldA w) (fieldImm16 w))
  | 0x16 => .ok (.blt (fieldA w) (fieldB w) (fieldImm16 w))
  | 0x17 => .ok (.ldw (fieldB w) (fieldA w) (fieldImm16 w))
  | 0x18 => .ok (.cmpnei (fieldB w) (fieldA w) (fieldImm16 w))
  | 0x1B => .ok (.flushda (fieldA w) (fieldImm16 w))
  | 0x1C => .ok (.xori (fieldB w) (fieldA w) (fieldImm16 w))
  | 0x1E => .ok (.bne (fieldA w) (fieldB w) (fieldImm16 w))
  | 0x20 => .ok (.cmpeqi (fieldB w) (fieldA w) (fieldImm16 w))
  | 0x23 => .ok (.ldbuio (fieldB w) (fieldA w) (fieldImm16 w))
  | 0x24 => .ok (.muli (fieldB w) (fieldA w) (fieldImm16 w))
  | 0x25 => .ok (.stbio (fieldB w) (fieldA w) (fieldImm16 w))
  | 0x26 => .ok (.beq (fieldA w) (fieldB w) (fieldImm16 w))
  | 0x27 => .ok (.ldbio (fieldB w) (fieldA w) (fieldImm16 w))
  | 0x28 => .ok (.cmpgeui (fieldB w) (fieldA w) (fieldImm16 w))
  | 0x2B => .ok (.ldhuio (fieldB w) (fieldA w) (fieldImm16 w))
  | 0x2C => .ok (.andhi (fieldB w) (fieldA w) (fieldImm16 w))
  | 0x2D => .ok (.sthio (fieldB w) (fieldA w) (fieldImm16 w))
  | 0x2E => .ok (.bgeu (fieldA w) (fieldB w) (fieldImm16 w))
  | 0x2F => .ok (.ldhio (fieldB w) (fieldA w) (fieldImm16 w))
  | 0x30 => .ok (.cmpltui (fieldB w) (fieldA w) (fieldImm16 w))
  | 0x32 => .ok (decodeCustom w)
  | 0x33 => .ok (.initd (fieldA w) (fieldImm16 w))
  | 0x34 => .ok (.orhi (fieldB w) (fieldA w) (fieldImm16 w))
  | 0x35 => .ok (.stwio (fieldB w) (fieldA w) (fieldImm16 w))
  | 0x36 => .ok (.bltu (fieldA w) (fieldB w) (fieldImm16 w))
  | 0x37 => .ok (.ldwio (fieldB w) (fieldA w) (fieldImm16 w))
  | 0x38 => .ok (.rdprs (fieldB w) (fieldA w) (fieldImm16 w))
  | 0x3A => decodeOpx w
  | 0x3B => .ok (.flushd (fieldA w) (fieldImm16 w))
  | 0x3C => .ok (.xorhi (fieldB w) (fieldA w) (fieldImm16 w))
  | _ => .error (.reservedOp (fieldOp w))

/-- The word of four bytes in memory order, little-endian (20_memory.md rule R95). -/
def wordOfBytes (b0 b1 b2 b3 : Byte) : Word := b3 ++ b2 ++ b1 ++ b0

/-- Byte `k` of a word in memory order. -/
def byteOfWord (w : Word) (k : Nat) : Byte := w.extractLsb' (8 * k) 8

/-- The instruction at the head of a list of bytes and the rest of the list. Every instruction is four bytes long
(rule R160). -/
def decodeBytes : List Byte → Except DecodeError (Instr × List Byte)
  | b0 :: b1 :: b2 :: b3 :: rest => (decodeWord (wordOfBytes b0 b1 b2 b3)).map (fun i => (i, rest))
  | _ => .error .tooShort

/-! ## Encoding: unused fields carry the values of rule R172 -/

/-- I-type word (rule R162). -/
def iWord (a b : BitVec 5) (imm : BitVec 16) (op : BitVec 6) : Word := a ++ b ++ imm ++ op

/-- R-type word (rule R163). -/
def rWord (a b c : BitVec 5) (opx : BitVec 6) (imm : BitVec 5) : Word := a ++ b ++ c ++ opx ++ imm ++ 0x3A#6

/-- J-type word (rule R164). -/
def jWord (imm : BitVec 26) (op : BitVec 6) : Word := imm ++ op

/-- Custom word (rule R165). -/
def customWord (n : BitVec 8) (c a b : CustomReg) : Word :=
  a.number ++ b.number ++ c.number ++ BitVec.ofBool a.flag ++ BitVec.ofBool b.flag ++ BitVec.ofBool c.flag ++ n
    ++ 0x32#6

/-- The word an assembler emits for an instruction. -/
def encode : Instr → Word
  | .ldw rB rA imm => iWord rA rB imm 0x17
  | .stw rB rA imm => iWord rA rB imm 0x15
  | .ldwio rB rA imm => iWord rA rB imm 0x37
  | .stwio rB rA imm => iWord rA rB imm 0x35
  | .ldh rB rA imm => iWord rA rB imm 0x0F
  | .ldhu rB rA imm => iWord rA rB imm 0x0B
  | .ldb rB rA imm => iWord rA rB imm 0x07
  | .ldbu rB rA imm => iWord rA rB imm 0x03
  | .sth rB rA imm => iWord rA rB imm 0x0D
  | .stb rB rA imm => iWord rA rB imm 0x05
  | .ldhio rB rA imm => iWord rA rB imm 0x2F
  | .ldhuio rB rA imm => iWord rA rB imm 0x2B
  | .ldbio rB rA imm => iWord rA rB imm 0x27
  | .ldbuio rB rA imm => iWord rA rB imm 0x23
  | .sthio rB rA imm => iWord rA rB imm 0x2D
  | .stbio rB rA imm => iWord rA rB imm 0x25
  | .and rC rA rB => rWord rA rB rC 0x0E 0
  | .or rC rA rB => rWord rA rB rC 0x16 0
  | .xor rC rA rB => rWord rA rB rC 0x1E 0
  | .nor rC rA rB => rWord rA rB rC 0x06 0
  | .andi rB rA imm => iWord rA rB imm 0x0C
  | .ori rB rA imm => iWord rA rB imm 0x14
  | .xori rB rA imm => iWord rA rB imm 0x1C
  | .andhi rB rA imm => iWord rA rB imm 0x2C
  | .orhi rB rA imm => iWord rA rB imm 0x34
  | .xorhi rB rA imm => iWord rA rB imm 0x3C
  | .add rC rA rB => rWord rA rB rC 0x31 0
  | .sub rC rA rB => rWord rA rB rC 0x39 0
  | .addi rB rA imm => iWord rA rB imm 0x04
  | .mul rC rA rB => rWord rA rB rC 0x27 0
  | .muli rB rA imm => iWord rA rB imm 0x24
  | .mulxss rC rA rB => rWord rA rB rC 0x1F 0
  | .mulxuu rC rA rB => rWord rA rB rC 0x07 0
  | .mulxsu rC rA rB => rWord rA rB rC 0x17 0
  | .div rC rA rB => rWord rA rB rC 0x25 0
  | .divu rC rA rB => rWord rA rB rC 0x24 0
  | .cmpeq rC rA rB => rWord rA rB rC 0x20 0
  | .cmpne rC rA rB => rWord rA rB rC 0x18 0
  | .cmpge rC rA rB => rWord rA rB rC 0x08 0
  | .cmpgeu rC rA rB => rWord rA rB rC 0x28 0
  | .cmplt rC rA rB => rWord rA rB rC 0x10 0
  | .cmpltu rC rA rB => rWord rA rB rC 0x30 0
  | .cmpeqi rB rA imm => iWord rA rB imm 0x20
  | .cmpnei rB rA imm => iWord rA rB imm 0x18
  | .cmpgei rB rA imm => iWord rA rB imm 0x08
  | .cmpgeui rB rA imm => iWord rA rB imm 0x28
  | .cmplti rB rA imm => iWord rA rB imm 0x10
  | .cmpltui rB rA imm => iWord rA rB imm 0x30
  | .rol rC rA rB => rWord rA rB rC 0x03 0
  | .ror rC rA rB => rWord rA rB rC 0x0B 0
  | .roli rC rA imm => rWord rA 0 rC 0x02 imm
  | .sll rC rA rB => rWord rA rB rC 0x13 0
  | .slli rC rA imm => rWord rA 0 rC 0x12 imm
  | .srl rC rA rB => rWord rA rB rC 0x1B 0
  | .srli rC rA imm => rWord rA 0 rC 0x1A imm
  | .sra rC rA rB => rWord rA rB rC 0x3B 0
  | .srai rC rA imm => rWord rA 0 rC 0x3A imm
  | .call imm => jWord imm 0x00
  | .callr rA => rWord rA 0 31 0x1D 0
  | .ret => rWord 31 0 0 0x05 0
  | .jmp rA => rWord rA 0 0 0x0D 0
  | .jmpi imm => jWord imm 0x01
  | .nextpc rC => rWord 0 0 rC 0x1C 0
  | .br imm => iWord 0 0 imm 0x06
  | .beq rA rB imm => iWord rA rB imm 0x26
  | .bne rA rB imm => iWord rA rB imm 0x1E
  | .bge rA rB imm => iWord rA rB imm 0x0E
  | .bgeu rA rB imm => iWord rA rB imm 0x2E
  | .blt rA rB imm => iWord rA rB imm 0x16
  | .bltu rA rB imm => iWord rA rB imm 0x36
  | .trap imm => rWord 0 0 29 0x2D imm
  | .eret => rWord 29 30 0 0x01 0
  | .brk imm => rWord 0 0 30 0x34 imm
  | .bret => rWord 30 0 30 0x09 0
  | .rdctl rC n => rWord 0 0 rC 0x26 n.number
  | .wrctl n rA => rWord rA 0 0 0x2E n.number
  | .flushd rA imm => iWord rA 0 imm 0x3B
  | .flushda rA imm => iWord rA 0 imm 0x1B
  | .flushi rA => rWord rA 0 0 0x0C 0
  | .initd rA imm => iWord rA 0 imm 0x33
  | .initda rA imm => iWord rA 0 imm 0x13
  | .initi rA => rWord rA 0 0 0x29 0
  | .flushp => rWord 0 0 0 0x04 0
  | .sync => rWord 0 0 0 0x36 0
  | .rdprs rB rA imm => iWord rA rB imm 0x38
  | .wrprs rC rA => rWord rA 0 rC 0x14 0
  | .custom n c a b => customWord n c a b

/-- The bytes of an instruction in memory order. -/
def encodeBytes (i : Instr) : List Byte := [0, 1, 2, 3].map (byteOfWord (encode i))

/-- What the decoder reads from an instruction whose bits are `w`, of which the opcode table gives `nbits`: the
operand bits above them are 0. The word is laid out as four bytes in memory order and decoded from them. -/
def decodeTableWord (nbits w : Nat) : Option Instr :=
  let word : Word := BitVec.ofNat 32 (w % 2 ^ nbits)
  match decodeBytes ([0, 1, 2, 3].map (byteOfWord word)) with
  | .ok (i, _) => some i
  | .error _ => none

end Sys2Proof
end

