-- ==== Sys2Proof/Machine/Custom.lean ====
section
/-! DEFINITION. Custom instructions (47_custom_nop_unimplemented.md rule R390). What the logic computes is user logic,
an uninterpreted constant of the configuration (D18; DESIGN CHOICE, log 2). -/

namespace Sys2Proof.Machine

/-- What the logic is supplied for an operand: the general-purpose register, or nothing. -/
def State.customOperand (s : State) : CustomReg → Option Word
  | .r n => some (s.x n)
  | .c _ => none

/-- The result may depend on what the logic holds: its logic keeps state, or the form names one of its registers. -/
def usesHistory (logic : CustomRange) (c a b : CustomReg) : Bool :=
  logic.stateful || !c.flag || !a.flag || !b.flag

/-- The result of attached logic: for pure logic a function of the operands, else also of the number of the draw. -/
def State.customValue (s : State) (logic : CustomRange) (n : BitVec 8) (c a b : CustomReg) : Word :=
  Config.customResult n (s.customOperand a) (s.customOperand b) a.number b.number c.number
    (if usesHistory logic c a b then some s.draws else none)

/-- `custom N, xC, xA, xB` (rule R390); a selector with nothing attached is refused (U26). -/
def execCustom (n : BitVec 8) (c a b : CustomReg) (s : State) : Result :=
  match s.cfg.customLogic n with
  | none => .refused .customUnattached
  | some logic =>
    let t := s.drawn (if usesHistory logic c a b then 1 else 0)
    match c with
    | .r k => .next (t.retire k (s.customValue logic n c a b))
    | .c _ => .next t.advance

end Sys2Proof.Machine
end

