-- ==== Sys2Proof/Machine/Protect.lean ====
section
/-! DEFINITION. Address checks and translation: alignment, the MMU and its TLB, the MPU and its regions, and what the
physical address is connected to (20_memory.md rules R90 to R158). -/

namespace Sys2Proof.Machine

/-- The outcome of a check: a value, an exception, or a stop. -/
inductive Check (α : Type) where
  | ok (a : α)
  | exc (e : Exc)
  | fault (f : Fault)
  | refused (r : Refusal)
deriving DecidableEq, Repr

/-- A check followed by another. -/
def Check.bind {α β : Type} (c : Check α) (k : α → Check β) : Check β :=
  match c with
  | .ok a => k a
  | .exc e => .exc e
  | .fault f => .fault f
  | .refused r => .refused r

/-- An instruction that goes on with the value of a check, takes its exception, or stops with it. -/
def Check.run {α : Type} (c : Check α) (s : State) (k : α → Result) : Result :=
  match c with
  | .ok a => k a
  | .exc e => raise e s
  | .fault f => .fault f
  | .refused r => .refused r

/-- Why memory is accessed (rule R130). -/
inductive Kind where
  | load
  | store
  | flushda
  | initda
deriving DecidableEq, Repr

/-- The width of a load or store (rule R97). -/
inductive Width where
  | byte
  | half
  | word
deriving DecidableEq, Repr

/-- The width in bytes. -/
def Width.bytes : Width → Nat
  | .byte => 1
  | .half => 2
  | .word => 4

/-- A data address is a multiple of the width (rule R100). -/
def Width.aligned (w : Width) (va : Word) : Bool :=
  match w with
  | .byte => true
  | .half => va &&& 1#32 == 0
  | .word => va &&& 3#32 == 0

/-- `CheckAlign` (rules R100 and R102): with detection off the model refuses a misaligned access (D5; log 15). -/
def checkAlign (c : Config) (w : Width) (va : Word) : Check Unit :=
  if w.aligned va then .ok ()
  else if c.illegalMem then .exc (.misalignedData va)
  else .refused .misalignedUnchecked

/-! ## The MMU (rules R125 to R137) -/

/-- The page of a virtual address, VPN (rule R126). -/
def pageOf (va : Word) : BitVec 20 := va.extractLsb' 12 20

/-- The entry of the TLB at a line and way (rule R132). -/
def tlbSlot (c : Config) (vpn : BitVec 20) (way : BitVec 4) : Nat :=
  (vpn &&& c.lineMask).toNat * 2 ^ c.tlbWayBits + way.toNat

/-- An entry matches a page for a process (rules R130, R131 and R133). -/
def TlbEntry.isFor (e : TlbEntry) (vpn : BitVec 20) (pid : BitVec 14) : Bool :=
  e.vpn == vpn && (e.g || e.pid == pid)

/-- The entries of the line of a page, in all ways (rule R132). -/
def State.tlbLine (s : State) (vpn : BitVec 20) : List TlbEntry :=
  (s.tlb.drop ((vpn &&& s.cfg.lineMask).toNat * 2 ^ s.cfg.tlbWayBits)).take (2 ^ s.cfg.tlbWayBits)

/-- The TLB entries that match a virtual address (rules R130 to R132). -/
def State.tlbMatches (s : State) (va : Word) : List TlbEntry :=
  (s.tlbLine (pageOf va)).filter (fun e => e.isFor (pageOf va) s.tlbmisc.pid)

/-- The lookup: one entry, or a miss; more than one match is a fault (rule R134, D29; log 25). -/
def State.tlbLookup (s : State) (va : Word) (miss : Exc) : Check TlbEntry :=
  match s.tlbMatches va with
  | [e] => .ok e
  | [] => .exc miss
  | _ => .fault .tlbMultipleMatch

/-- A virtual address of the I/O or kernel partition, which bypasses the TLB (rules R127 and R128). -/
def isDirect (va : Word) : Bool := va.extractLsb' 30 2 == 3#2

/-- The physical address of the two partitions that bypass the TLB: the low 29 bits (rule R128). -/
def directAddress (va : Word) : Nat := (va.extractLsb' 0 29).toNat

/-- The physical address of a page frame and an offset (rule R126). -/
def frameAddress (pfn : BitVec 20) (va : Word) : Nat := (pfn ++ va.extractLsb' 0 12).toNat

/-- A physical address and whether a data access there is cacheable. -/
structure Physical where
  pa : Nat
  cacheable : Bool
deriving DecidableEq, Repr

/-- The permission a TLB entry gives an access; `flushda` and `initda` need none (rule R130, U10; log 38). -/
def tlbPermission (e : TlbEntry) (k : Kind) (va : Word) : Check Unit :=
  match k with
  | .load => if e.r then .ok () else .exc (.tlbRead va)
  | .store => if e.w then .ok () else .exc (.tlbWrite va)
  | .flushda => .ok ()
  | .initda => .ok ()

/-- A load or store checks the alignment of its address; a cache instruction does not (46_other_control.md rule R359). -/
def alignmentOf (c : Config) (k : Kind) (w : Width) (va : Word) : Check Unit :=
  match k with
  | .load => checkAlign c w va
  | .store => checkAlign c w va
  | .flushda => .ok ()
  | .initda => .ok ()

/-- `TranslateData` (rule R130): data addresses with an MMU. -/
def State.mmuData (s : State) (k : Kind) (w : Width) (va : Word) : Check Physical :=
  if s.status.u && va.msb then .exc (.supervisorOnlyData va)
  else
    (alignmentOf s.cfg k w va).bind (fun _ =>
      if isDirect va then .ok { pa := directAddress va, cacheable := !va.getLsbD 29 }
      else
        (s.tlbLookup va (.tlbMissData va)).bind (fun e =>
          (tlbPermission e k va).bind (fun _ => .ok { pa := frameAddress e.pfn va, cacheable := e.c })))

/-- `TranslateFetch` (rule R131): instruction addresses with an MMU. -/
def State.mmuFetch (s : State) (va : Word) : Check Nat :=
  if s.status.u && va.msb then .exc .supervisorOnlyInstrAddress
  else if isDirect va then .ok (directAddress va)
  else
    (s.tlbLookup va (.tlbMissInstr va)).bind (fun e =>
      if e.x then .ok (frameAddress e.pfn va) else .exc (.tlbExecute va))

/-! ## The MPU (rules R145 to R155) -/

/-- A region matches an address, by limit or by mask over address bits 30:6 (rules R147 and R148). -/
def MpuRegion.isFor (c : Config) (r : MpuRegion) (a : Word) : Bool :=
  let block : BitVec 25 := a.extractLsb' 6 25
  if c.mpuUseLimit then r.base ≤ block && block.setWidth 26 < r.extent
  else block &&& r.extent.setWidth 25 == r.base

/-- An address lies in the Nios II address space (rule R150). -/
def inSpace (c : Config) (a : Word) : Bool := a.toNat < 2 ^ c.addrBits

/-- The attributes of a region that one access is checked against: the current ones, or older ones from before a region
write that the pipeline may not have seen (70_reset_and_hazards.md rule R501): draw `n` chooses (log 22). -/
def State.regionSeen (s : State) (isData : Bool) (index : Nat) (current : MpuRegion) (n : Nat) : MpuRegion :=
  (s.mpuOld.zipIdx.find? (fun o =>
    o.1.isData == isData && o.1.index == index && Config.mpuWindowChoice n o.2)).elim current (·.1.attrs)

/-- The regions of one side as an access sees them. -/
def State.regionsSeen (s : State) (isData : Bool) : List MpuRegion :=
  (if isData then s.mpuData else s.mpuInstr).zipIdx.map (fun r => s.regionSeen isData r.2 r.1 s.draws)

/-- The region that decides an access: the matching one with the lowest index (rule R149). -/
def State.regionFor (s : State) (isData : Bool) (a : Word) : Option MpuRegion :=
  (s.regionsSeen isData).find? (fun r => r.isFor s.cfg a)

/-- PERM of an instruction region lets the mode execute; `none` for a value with no meaning (rule R151, U15). -/
def mayExecute (perm : BitVec 3) (u : Bool) : Option Bool :=
  match perm.toNat with
  | 0 => some false
  | 1 => some !u
  | 2 => some true
  | _ => none

/-- PERM of a data region lets the mode read (rule R151). -/
def mayRead (perm : BitVec 3) (u : Bool) : Option Bool :=
  match perm.toNat with
  | 0 => some false
  | 1 => some !u
  | 2 => some true
  | 4 => some !u
  | 5 => some true
  | 6 => some true
  | _ => none

/-- PERM of a data region lets the mode write (rule R151). -/
def mayWrite (perm : BitVec 3) (u : Bool) : Option Bool :=
  match perm.toNat with
  | 0 => some false
  | 1 => some false
  | 2 => some false
  | 4 => some !u
  | 5 => some !u
  | 6 => some true
  | _ => none

/-- What the permission of a data region means for an access: `flushda` and `initda` pass where the mode may read and
write, and elsewhere are refused (rules R150 and R151, D37; log 23). -/
def permissionCheck (perm : BitVec 3) (u : Bool) (k : Kind) (va : Word) : Check Unit :=
  match mayRead perm u, mayWrite perm u with
  | some r, some w =>
    match k with
    | .load => if r then .ok () else .exc (.mpuData va)
    | .store => if w then .ok () else .exc (.mpuData va)
    | .flushda => if r && w then .ok () else .refused .mpuFlushPermission
    | .initda => if r && w then .ok () else .refused .mpuFlushPermission
  | _, _ => .refused .mpuUndefinedPermission

/-- The address of a data access as the MPU compares it: bit 31 is the cache bypass tag (rule R150). -/
def mpuAddress (c : Config) (va : Word) : Word := if c.bit31Bypass then va &&& 0x7FFFFFFF else va

/-- `MpuCheck` of a data access (rule R150): whether the region makes it cacheable. -/
def State.mpuDataCheck (s : State) (k : Kind) (va : Word) : Check Bool :=
  let a := mpuAddress s.cfg va
  if !inSpace s.cfg a then .exc (.mpuData va)
  else
    match s.regionFor true a with
    | none => .exc (.mpuData va)
    | some r => (permissionCheck r.perm s.status.u k va).bind (fun _ => .ok r.c)

/-- `MpuCheck` of an instruction fetch (rule R150). -/
def State.mpuFetchCheck (s : State) (va : Word) : Check Unit :=
  if !inSpace s.cfg va then .exc .mpuInstr
  else
    match s.regionFor false va with
    | none => .exc .mpuInstr
    | some r =>
      match mayExecute r.perm s.status.u with
      | some true => .ok ()
      | some false => .exc .mpuInstr
      | none => .refused .mpuUndefinedPermission

/-- The MPU checks accesses: present and enabled (rule R145). DESIGN CHOICE, log 30: it does so too while the debug module is
in control, of which rule R157 says nothing. -/
def State.mpuOn (s : State) : Bool := s.cfg.hasMpu && s.config.pe

/-- How many free values an access draws: one where the MPU checks it (log 34). -/
def State.accessDraws (s : State) : Nat := if s.mpuOn && !s.cfg.hasMmu then 1 else 0

/-! ## The access primitives (rule R158) -/

/-- A data address without an MMU is cacheable as far as bit 31 says (rule R108). -/
def plainCacheable (c : Config) (va : Word) : Bool := !(c.bit31Bypass && va.msb)

/-- The address checks and translation of a data access (rules R130, R150 and R158). -/
def State.translateData (s : State) (k : Kind) (w : Width) (va : Word) : Check Physical :=
  if s.cfg.hasMmu then s.mmuData k w va
  else
    (alignmentOf s.cfg k w va).bind (fun _ =>
      if s.mpuOn then
        (s.mpuDataCheck k va).bind (fun c =>
          .ok { pa := s.cfg.plainAddress va, cacheable := c && plainCacheable s.cfg va })
      else .ok { pa := s.cfg.plainAddress va, cacheable := plainCacheable s.cfg va })

/-- Where a load or store of some width goes: nothing connected is a fault, tightly-coupled memory is never cached, and
memory and devices are reached through the data cache unless the access is uncacheable or an `io` form (rules R93, R104,
R105 and R109, 40_data_transfer.md rule R202; logs 19 and 20). -/
def State.dataPath (s : State) (k : Kind) (w : Width) (io : Bool) (va : Word) : Check DataPath :=
  (s.translateData k w va).bind (fun p =>
    match s.cfg.dataRegion p.pa w.bytes with
    | none => .fault .unmappedAddress
    | some .tightlyCoupled => .ok { pa := p.pa, line := none }
    | some kind =>
      .ok { pa := p.pa, line := if p.cacheable && !io then s.cfg.dIndex va else none, device := kind == .device })

/-- The address checks and translation of an instruction fetch (rules R131, R150 and R158). Without an MMU the physical
address is the pc, in which bit 31 has no role (rule R108); outside the address space nothing is connected there
(`Config.fetchRegion`; rule R92, log 33). -/
def State.translateFetch (s : State) (va : Word) : Check Nat :=
  if s.cfg.hasMmu then s.mmuFetch va
  else if s.mpuOn then (s.mpuFetchCheck va).bind (fun _ => .ok va.toNat)
  else .ok va.toNat

end Sys2Proof.Machine
end

