-- ==== Sys2Proof/Machine/DataTransfer.lean ====
section
/-! DEFINITION. Data transfer instructions (40_data_transfer.md rules R200 to R219). -/

namespace Sys2Proof.Machine

/-- The byte a load reads. -/
def State.readByte (s : State) (p : DataPath) : Byte := s.dataByte p.line p.pa

/-- The half-word a load reads, little-endian (20_memory.md rule R95). -/
def State.readHalf (s : State) (p : DataPath) : BitVec 16 :=
  s.dataByte p.line (p.pa + 1) ++ s.dataByte p.line p.pa

/-- The word a load reads, little-endian (20_memory.md rule R95). -/
def State.readWord (s : State) (p : DataPath) : Word :=
  s.dataByte p.line (p.pa + 3) ++ s.dataByte p.line (p.pa + 2) ++ s.dataByte p.line (p.pa + 1) ++ s.dataByte p.line p.pa

/-- The bytes a store of some width writes, in memory order (20_memory.md rule R95). -/
def storedBytes (w : Width) (v : Word) : List Byte := (List.range w.bytes).map (byteOfWord v)

/-- The state after a store's bytes are stored; a word of memory is noted as stored to, one of a device is not (log 18). -/
def State.delivered (s : State) (va : Word) (p : DataPath) (bytes : List Byte) : State :=
  if p.device then s.storeData p bytes else (s.storeData p bytes).noteStore va p

/-- A load: the address checks, then the destination register receives the value read (rules R200, R201 and R203). -/
def loadInto (w : Width) (io : Bool) (value : State → DataPath → Word) (rB rA : RegNum) (imm : BitVec 16)
    (s : State) : Result :=
  let t := s.drawn s.accessDraws
  (s.dataPath .load w io (s.effective rA imm)).run t (fun p => .next ((t.fillData p).retire rB (value t p)))

/-- A store: the address checks, then the low bytes of the source register are written (rules R200, R201 and R203). -/
def storeFrom (w : Width) (io : Bool) (rB rA : RegNum) (imm : BitVec 16) (s : State) : Result :=
  let t := s.drawn s.accessDraws
  (s.dataPath .store w io (s.effective rA imm)).run t (fun p =>
    .next (t.delivered (s.effective rA imm) p (storedBytes w (s.x rB))).advance)

/-- `ldw rB, IMM16(rA)` (rule R204). -/
def execLdw (rB rA : RegNum) (imm : BitVec 16) (s : State) : Result :=
  loadInto .word false (fun t p => t.readWord p) rB rA imm s

/-- `stw rB, IMM16(rA)` (rule R205). -/
def execStw (rB rA : RegNum) (imm : BitVec 16) (s : State) : Result := storeFrom .word false rB rA imm s

/-- `ldwio rB, IMM16(rA)` (rule R206). -/
def execLdwio (rB rA : RegNum) (imm : BitVec 16) (s : State) : Result :=
  loadInto .word true (fun t p => t.readWord p) rB rA imm s

/-- `stwio rB, IMM16(rA)` (rule R207). -/
def execStwio (rB rA : RegNum) (imm : BitVec 16) (s : State) : Result := storeFrom .word true rB rA imm s

/-- `ldh rB, IMM16(rA)` (rule R208). -/
def execLdh (rB rA : RegNum) (imm : BitVec 16) (s : State) : Result :=
  loadInto .half false (fun t p => (t.readHalf p).signExtend 32) rB rA imm s

/-- `ldhu rB, IMM16(rA)` (rule R209). -/
def execLdhu (rB rA : RegNum) (imm : BitVec 16) (s : State) : Result :=
  loadInto .half false (fun t p => (t.readHalf p).setWidth 32) rB rA imm s

/-- `ldb rB, IMM16(rA)` (rule R210). -/
def execLdb (rB rA : RegNum) (imm : BitVec 16) (s : State) : Result :=
  loadInto .byte false (fun t p => (t.readByte p).signExtend 32) rB rA imm s

/-- `ldbu rB, IMM16(rA)` (rule R211). -/
def execLdbu (rB rA : RegNum) (imm : BitVec 16) (s : State) : Result :=
  loadInto .byte false (fun t p => (t.readByte p).setWidth 32) rB rA imm s

/-- `sth rB, IMM16(rA)` (rule R212). -/
def execSth (rB rA : RegNum) (imm : BitVec 16) (s : State) : Result := storeFrom .half false rB rA imm s

/-- `stb rB, IMM16(rA)` (rule R213). -/
def execStb (rB rA : RegNum) (imm : BitVec 16) (s : State) : Result := storeFrom .byte false rB rA imm s

/-- `ldhio rB, IMM16(rA)` (rule R214). -/
def execLdhio (rB rA : RegNum) (imm : BitVec 16) (s : State) : Result :=
  loadInto .half true (fun t p => (t.readHalf p).signExtend 32) rB rA imm s

/-- `ldhuio rB, IMM16(rA)` (rule R215). -/
def execLdhuio (rB rA : RegNum) (imm : BitVec 16) (s : State) : Result :=
  loadInto .half true (fun t p => (t.readHalf p).setWidth 32) rB rA imm s

/-- `ldbio rB, IMM16(rA)` (rule R216). -/
def execLdbio (rB rA : RegNum) (imm : BitVec 16) (s : State) : Result :=
  loadInto .byte true (fun t p => (t.readByte p).signExtend 32) rB rA imm s

/-- `ldbuio rB, IMM16(rA)` (rule R217). -/
def execLdbuio (rB rA : RegNum) (imm : BitVec 16) (s : State) : Result :=
  loadInto .byte true (fun t p => (t.readByte p).setWidth 32) rB rA imm s

/-- `sthio rB, IMM16(rA)` (rule R218). -/
def execSthio (rB rA : RegNum) (imm : BitVec 16) (s : State) : Result := storeFrom .half true rB rA imm s

/-- `stbio rB, IMM16(rA)` (rule R219). -/
def execStbio (rB rA : RegNum) (imm : BitVec 16) (s : State) : Result := storeFrom .byte true rB rA imm s

end Sys2Proof.Machine
end

