-- ==== Sys2Proof/Machine/ProgramControl.lean ====
section
/-! DEFINITION. Program control instructions (45_program_control.md rules R320 to R337). There are no delay slots. -/

namespace Sys2Proof.Machine

/-- The conditional branches (rule R331): a target is checked only when the branch is taken (rule R321). -/
def branchIf (r : Relation) (rA rB : RegNum) (imm : BitVec 16) (s : State) : Result :=
  if r.holds (s.x rA) (s.x rB) then transfer (s.branchTarget imm) s (.next (s.goto (s.branchTarget imm)))
  else .next s.advance

/-- `call label` (rule R324). -/
def execCall (imm : BitVec 26) (s : State) : Result := .next ((s.setX 31 (s.pc + 4)).goto (s.jumpTarget imm))

/-- `callr rA` (rule R325): the target is read before ra is written. -/
def execCallr (rA : RegNum) (s : State) : Result :=
  transfer (s.x rA) s (.next ((s.setX 31 (s.pc + 4)).goto (s.x rA)))

/-- `ret` (rule R326). -/
def execRet (s : State) : Result := transfer (s.x 31) s (.next (s.goto (s.x 31)))

/-- `jmp rA` (rule R327). -/
def execJmp (rA : RegNum) (s : State) : Result := transfer (s.x rA) s (.next (s.goto (s.x rA)))

/-- `jmpi label` (rule R328). -/
def execJmpi (imm : BitVec 26) (s : State) : Result := .next (s.goto (s.jumpTarget imm))

/-- `nextpc rC` (rule R329). -/
def execNextpc (rC : RegNum) (s : State) : Result := .next (s.retire rC (s.pc + 4))

/-- `br label` (rule R330). -/
def execBr (imm : BitVec 16) (s : State) : Result :=
  transfer (s.branchTarget imm) s (.next (s.goto (s.branchTarget imm)))

/-- `beq rA, rB, label` (rule R332). -/
def execBeq (rA rB : RegNum) (imm : BitVec 16) (s : State) : Result := branchIf .eq rA rB imm s

/-- `bne rA, rB, label` (rule R333). -/
def execBne (rA rB : RegNum) (imm : BitVec 16) (s : State) : Result := branchIf .ne rA rB imm s

/-- `bge rA, rB, label` (rule R334). -/
def execBge (rA rB : RegNum) (imm : BitVec 16) (s : State) : Result := branchIf .ge rA rB imm s

/-- `bgeu rA, rB, label` (rule R335). -/
def execBgeu (rA rB : RegNum) (imm : BitVec 16) (s : State) : Result := branchIf .geu rA rB imm s

/-- `blt rA, rB, label` (rule R336). -/
def execBlt (rA rB : RegNum) (imm : BitVec 16) (s : State) : Result := branchIf .lt rA rB imm s

/-- `bltu rA, rB, label` (rule R337). -/
def execBltu (rA rB : RegNum) (imm : BitVec 16) (s : State) : Result := branchIf .ltu rA rB imm s

end Sys2Proof.Machine
end

