-- ==== Sys2Proof/Machine/Shift.lean ====
section
/-! DEFINITION. Shift and rotate instructions (44_shift_rotate.md rules R300 to R309): the count is 0 to 31. -/

namespace Sys2Proof.Machine

/-- A left rotation by `n`, 0 to 31 (rule R301). -/
def rotateLeftBy (v : Word) (n : Nat) : Word := v <<< n ||| v >>> (32 - n)

/-- A right rotation by `n`, 0 to 31 (rule R302). -/
def rotateRightBy (v : Word) (n : Nat) : Word := v >>> n ||| v <<< (32 - n)

/-- `rol rC, rA, rB` (rule R301). -/
def execRol (rC rA rB : RegNum) (s : State) : Result :=
  .next (s.retire rC (rotateLeftBy (s.x rA) (shiftCount (s.x rB))))

/-- `ror rC, rA, rB` (rule R302). -/
def execRor (rC rA rB : RegNum) (s : State) : Result :=
  .next (s.retire rC (rotateRightBy (s.x rA) (shiftCount (s.x rB))))

/-- `sll rC, rA, rB` (rule R304). -/
def execSll (rC rA rB : RegNum) (s : State) : Result :=
  .next (s.retire rC (s.x rA <<< shiftCount (s.x rB)))

/-- `srl rC, rA, rB` (rule R306). -/
def execSrl (rC rA rB : RegNum) (s : State) : Result :=
  .next (s.retire rC (s.x rA >>> shiftCount (s.x rB)))

/-- `sra rC, rA, rB` (rule R308). -/
def execSra (rC rA rB : RegNum) (s : State) : Result :=
  .next (s.retire rC ((s.x rA).sshiftRight (shiftCount (s.x rB))))

/-- `roli rC, rA, IMM5` (rule R303). -/
def execRoli (rC rA : RegNum) (imm : BitVec 5) (s : State) : Result := .next (s.retire rC (rotateLeftBy (s.x rA) imm.toNat))

/-- `slli rC, rA, IMM5` (rule R305). -/
def execSlli (rC rA : RegNum) (imm : BitVec 5) (s : State) : Result := .next (s.retire rC (s.x rA <<< imm.toNat))

/-- `srli rC, rA, IMM5` (rule R307). -/
def execSrli (rC rA : RegNum) (imm : BitVec 5) (s : State) : Result := .next (s.retire rC (s.x rA >>> imm.toNat))

/-- `srai rC, rA, IMM5` (rule R309). -/
def execSrai (rC rA : RegNum) (imm : BitVec 5) (s : State) : Result := .next (s.retire rC ((s.x rA).sshiftRight imm.toNat))

end Sys2Proof.Machine
end

