-- ==== Sys2Proof/Machine/Control.lean ====
section
/-! DEFINITION. Reading and writing the control registers, with the TLB and MPU operations that a write starts
(46_other_control.md rules R354 and R355). -/

namespace Sys2Proof.Machine

/-- A control register is there in a configuration (10_state.md rule R30; D12, D15, D24; log 40). -/
def ctlPresent (c : Config) : CtlReg → Bool
  | .status => true
  | .estatus => true
  | .bstatus => true
  | .ienable => !c.hasEic
  | .ipending => true
  | .cpuid => true
  | .exception => c.excInfo
  | .pteaddr => c.hasMmu
  | .tlbacc => c.hasMmu
  | .tlbmisc => c.hasMmu
  | .eccinj => false
  | .badaddr => c.excInfo
  | .config => c.hasConfigReg
  | .mpubase => c.hasMpu
  | .mpuacc => c.hasMpu
  | .reserved _ => false

/-- ipending: the enabled interrupt inputs that are asserted, 0 with an EIC (10_state.md rule R45, D24). -/
def State.ipending (s : State) : Word := if s.cfg.hasEic then 0 else s.pins.irq &&& s.ienable

/-- The word that `rdctl` reads; write-only and reserved fields read 0 (rule R354), and so does mpuacc.C while mpubase
selects an instruction region (10_state.md rule R65). DESIGN CHOICE, log 42: which region mpubase selects is judged at the
read. mpuacc keeps the C written or loaded, so one loaded for a data region reads 0 once mpubase.D is cleared, and one
written while D is 0 reads 1 once D is set; the spec says of no change of D what it does to C. -/
def State.readCtl (s : State) : CtlReg → Word
  | .status => s.status.toWord
  | .estatus => s.estatus.toWord
  | .bstatus => s.bstatus.toWord
  | .ienable => s.ienable
  | .ipending => s.ipending
  | .cpuid => s.cfg.cpuid
  | .exception => causeWord s.cause
  | .pteaddr => s.pteaddr.toWord
  | .tlbacc => s.tlbacc.toWord
  | .tlbmisc => s.tlbmisc.toWord
  | .eccinj => 0
  | .badaddr => s.badaddr
  | .config => s.config.toWord
  | .mpubase => s.mpubase.toWord
  | .mpuacc => { s.mpuacc with c := s.mpuacc.c && s.mpubase.d }.toWord
  | .reserved _ => 0

/-- status after a `wrctl`: the implemented fields of the value, but CRS and NMI keep theirs (10_state.md rule R41). -/
def Status.write (c : Config) (old : Status) (v : Word) : Status :=
  { (Status.ofWord v).implement c with crs := old.crs, nmi := old.nmi }

/-- A `wrctl` to tlbacc: the register, and with WE the TLB entry that pteaddr.VPN and WAY select, after which WAY goes on
to the next way (20_memory.md rule R135). -/
def State.writeTlbacc (s : State) (v : Word) : State :=
  let a := Tlbacc.ofWord s.cfg v
  if s.tlbmisc.we then
    { s with
      tlbacc := a
      tlb := s.tlb.set (tlbSlot s.cfg s.pteaddr.vpn s.tlbmisc.way) (a.entry s.pteaddr.vpn s.tlbmisc.pid)
      tlbmisc := { s.tlbmisc with way := (s.tlbmisc.way + 1) &&& s.cfg.wayMask } }
  else { s with tlbacc := a }

/-- A `wrctl` to tlbmisc: the register, and with RD a read of the TLB entry that pteaddr.VPN and the WAY written select
(20_memory.md rule R136). -/
def State.writeTlbmisc (s : State) (v : Word) : State :=
  let m := Tlbmisc.write s.cfg s.tlbmisc v
  if tlbmiscRd v then
    let e := s.tlb.getD (tlbSlot s.cfg s.pteaddr.vpn m.way) TlbEntry.unused
    { s with
      tlbmisc := { m with pid := e.pid }
      tlbacc := e.toTlbacc
      pteaddr := { s.pteaddr with vpn := (s.pteaddr.vpn &&& s.cfg.lineMask) ||| (e.vpn &&& ~~~s.cfg.lineMask) } }
  else { s with tlbmisc := m }

/-- The MPU region that mpubase selects (20_memory.md rules R153 and R154). -/
def State.selectedRegion (s : State) : Option MpuRegion :=
  (if s.mpubase.d then s.mpuData else s.mpuInstr)[s.mpubase.index.toNat]?

/-- The region that a region write makes; an instruction region has C as 0 (rule R154). -/
def State.regionWritten (s : State) (a : Mpuacc) : MpuRegion :=
  { base := s.mpubase.base, extent := a.extent, c := a.c && s.mpubase.d, perm := a.perm }

/-- The region write operation (rule R154): the old attributes may still be used for a while
(70_reset_and_hazards.md rule R501; log 22). -/
def State.writeRegion (s : State) (old : MpuRegion) (a : Mpuacc) : State :=
  { s with
    mpuacc := a
    mpuData := if s.mpubase.d then s.mpuData.set s.mpubase.index.toNat (s.regionWritten a) else s.mpuData
    mpuInstr := if s.mpubase.d then s.mpuInstr else s.mpuInstr.set s.mpubase.index.toNat (s.regionWritten a)
    mpuOld := { isData := s.mpubase.d, index := s.mpubase.index.toNat, attrs := old } :: s.mpuOld }

/-- The region read operation (rule R153). -/
def State.readRegion (s : State) (r : MpuRegion) : State :=
  { s with
    mpubase := { s.mpubase with base := r.base }
    mpuacc := { extent := r.extent, c := r.c, perm := r.perm } }

/-- A `wrctl` to mpuacc (rules R153 and R154). With RD and WR both 1, or a region that does not exist, the model refuses
(U16; log 24). -/
def State.writeMpuacc (s : State) (v : Word) : Except Refusal State :=
  let a := Mpuacc.ofWord s.cfg v
  if mpuaccRd v && mpuaccWr v then .error .mpuReadAndWrite
  else if mpuaccRd v || mpuaccWr v then
    match s.selectedRegion with
    | none => .error .noSuchMpuRegion
    | some r => .ok (if mpuaccWr v then s.writeRegion r a else s.readRegion r)
  else .ok { s with mpuacc := a }

/-- `WriteCtl(n, v)` (rule R355): the writable fields of a control register that is there; a write to a read-only
register is ignored (D26). Every write but those to mpubase and mpuacc flushes the pipeline (20_memory.md rule R155).
The bits of ienable without a connected irq input stay as the configuration has them (log 5). -/
def State.writeCtl (s : State) (n : CtlReg) (v : Word) : Except Refusal State :=
  match n with
  | .status =>
    let t := Status.write s.cfg s.status v
    if t.prs ≤ s.cfg.numShadow then .ok { s with status := t, mpuOld := [] } else .error .noSuchRegisterSet
  | .estatus => .ok { s with estatus := (Status.ofWord v).implement s.cfg, mpuOld := [] }
  | .bstatus => .ok { s with bstatus := (Status.ofWord v).implement s.cfg, mpuOld := [] }
  | .ienable => .ok { s with ienable := s.cfg.ienableOf v, mpuOld := [] }
  | .ipending => .ok s.flushPipeline
  | .cpuid => .ok s.flushPipeline
  | .exception => .ok s.flushPipeline
  | .pteaddr => .ok { s with pteaddr := Pteaddr.ofWord v, mpuOld := [] }
  | .tlbacc => .ok (s.writeTlbacc v).flushPipeline
  | .tlbmisc => .ok (s.writeTlbmisc v).flushPipeline
  | .eccinj => .error .reservedControl
  | .badaddr => .ok s.flushPipeline
  | .config => .ok { s with config := ConfigReg.ofWord s.cfg v, mpuOld := [] }
  | .mpubase => .ok { s with mpubase := Mpubase.ofWord s.cfg v }
  | .mpuacc => s.writeMpuacc v
  | .reserved _ => .error .reservedControl

end Sys2Proof.Machine
end

