-- ==== Sys2Proof/Machine/System.lean ====
section
/-! DEFINITION. Other control instructions: exceptions and returns, control registers, cache management, the pipeline
and bus barriers, shadow register access (46_other_control.md rules R350 to R381). -/

namespace Sys2Proof.Machine

/-- `trap` (rule R350); IMM5 is ignored (D23). -/
def execTrap (_imm : BitVec 5) (s : State) : Result := raise .trap s

/-- `eret` (rule R351): ea of the current register set, and estatus or that set's sstatus. -/
def execEret (s : State) : Result :=
  supervisorOnly s (returnFrom s.savedStatus (s.xs s.status.crs 29) s s)

/-- `break` (rule R352); IMM5 is ignored (D23). The machine goes on at the break vector (log 30). -/
def execBreak (_imm : BitVec 5) (s : State) : Result := .next (takeBreak s)

/-- `bret` (rule R353): ba of the normal register set and bstatus; a debug module in control gives it up
(60_exceptions.md rule R442; log 30). -/
def execBret (s : State) : Result := supervisorOnly s (returnFrom s.bstatus (s.xs 0 30) s.released s)

/-- `rdctl rC, ctlN` (rule R354); a reserved or absent register is refused (D9; log 16). -/
def execRdctl (rC : RegNum) (n : CtlReg) (s : State) : Result :=
  supervisorOnly s
    (if ctlPresent s.cfg n then .next (s.retire rC (s.readCtl n)) else .refused .reservedControl)

/-- `wrctl ctlN, rA` (rule R355); a reserved or absent register is refused (D9; log 16). -/
def execWrctl (n : CtlReg) (rA : RegNum) (s : State) : Result :=
  supervisorOnly s
    (if ctlPresent s.cfg n then
      match s.writeCtl n (s.x rA) with
      | .ok t => .next t.advance
      | .error r => .refused r
    else .refused .reservedControl)

/-- `flushd IMM16(rA)` (rule R360): by the index bits of the address, which is neither translated nor checked. -/
def execFlushd (rA : RegNum) (imm : BitVec 16) (s : State) : Result :=
  .next (s.flushIndex (s.cfg.dIndex (s.effective rA imm))).advance

/-- `flushda IMM16(rA)` (rule R361): by address. -/
def execFlushda (rA : RegNum) (imm : BitVec 16) (s : State) : Result :=
  let t := s.drawn s.accessDraws
  (s.translateData .flushda .byte (s.effective rA imm)).run t (fun p =>
    .next (t.flushAddress (s.cfg.dIndex (s.effective rA imm)) p.pa).advance)

/-- `flushi rA` (rule R362). -/
def execFlushi (rA : RegNum) (s : State) : Result := .next (s.invalidateInstr (s.x rA)).advance

/-- `initd IMM16(rA)` (rule R363): by the index bits of the address, without writing back. -/
def execInitd (rA : RegNum) (imm : BitVec 16) (s : State) : Result :=
  supervisorOnly s (.next (s.dropIndex (s.cfg.dIndex (s.effective rA imm))).advance)

/-- `initda IMM16(rA)` (rule R364): by address, without writing back. -/
def execInitda (rA : RegNum) (imm : BitVec 16) (s : State) : Result :=
  let t := s.drawn s.accessDraws
  ifImplemented s.cfg.implemented.initda s
    ((s.translateData .initda .byte (s.effective rA imm)).run t (fun p =>
      .next (t.dropAddress (s.cfg.dIndex (s.effective rA imm)) p.pa).advance))

/-- `initi rA` (rule R365). -/
def execIniti (rA : RegNum) (s : State) : Result :=
  supervisorOnly s (.next (s.invalidateInstr (s.x rA)).advance)

/-- `flushp` (rule R366): prefetched instructions are discarded, so region writes have taken effect
(70_reset_and_hazards.md rule R501) and stored words that are out of both caches can be fetched (20_memory.md rule
R115). -/
def execFlushp (s : State) : Result :=
  .next { s with pc := s.pc + 4, mpuOld := [], hazards := hazardsAfterFlushp s.hazards }

/-- `sync` (rule R367): a barrier on the bus, which one core in order does not show (20_memory.md rule R113; log 39). -/
def execSync (s : State) : Result := .next s.advance

/-- `rdprs` and `wrprs` in a core without shadow register sets are illegal instructions (D42). -/
def needsShadow (s : State) (k : Result) : Result :=
  if s.cfg.hasShadow then k
  else if s.cfg.illegalInsn then raise .illegalInstr s
  else .refused .illegalUnchecked

/-- PRS names a register set of the core (93_implementation_defined.md U18; log 28). -/
def prsExists (s : State) (k : Result) : Result :=
  if s.status.prs ≤ s.cfg.numShadow then k else .refused .noSuchRegisterSet

/-- `rdprs rB, rA, IMM16` (rule R380). -/
def execRdprs (rB rA : RegNum) (imm : BitVec 16) (s : State) : Result :=
  supervisorOnly s
    (needsShadow s (prsExists s (.next (s.retire rB (s.xs s.status.prs rA + sext16 imm)))))

/-- `wrprs rC, rA` (rule R381): the one instruction that writes r0 of a shadow set. -/
def execWrprs (rC rA : RegNum) (s : State) : Result :=
  supervisorOnly s
    (needsShadow s (prsExists s (.next (s.setXs s.status.prs rC (s.x rA)).advance)))

end Sys2Proof.Machine
end

