-- ==== Sys2Proof/Machine/Dispatch.lean ====
section
/-! DEFINITION. The meaning of every instruction: one arm per constructor of Instr, each one call of its meaning. -/

namespace Sys2Proof.Machine

/-- Execute one instruction. -/
def exec (i : Instr) (s : State) : Host.Outcome State Fault Refusal :=
  match i with
  | .ldw rB rA imm => Sys2Proof.Machine.execLdw rB rA imm s
  | .stw rB rA imm => Sys2Proof.Machine.execStw rB rA imm s
  | .ldwio rB rA imm => Sys2Proof.Machine.execLdwio rB rA imm s
  | .stwio rB rA imm => Sys2Proof.Machine.execStwio rB rA imm s
  | .ldh rB rA imm => Sys2Proof.Machine.execLdh rB rA imm s
  | .ldhu rB rA imm => Sys2Proof.Machine.execLdhu rB rA imm s
  | .ldb rB rA imm => Sys2Proof.Machine.execLdb rB rA imm s
  | .ldbu rB rA imm => Sys2Proof.Machine.execLdbu rB rA imm s
  | .sth rB rA imm => Sys2Proof.Machine.execSth rB rA imm s
  | .stb rB rA imm => Sys2Proof.Machine.execStb rB rA imm s
  | .ldhio rB rA imm => Sys2Proof.Machine.execLdhio rB rA imm s
  | .ldhuio rB rA imm => Sys2Proof.Machine.execLdhuio rB rA imm s
  | .ldbio rB rA imm => Sys2Proof.Machine.execLdbio rB rA imm s
  | .ldbuio rB rA imm => Sys2Proof.Machine.execLdbuio rB rA imm s
  | .sthio rB rA imm => Sys2Proof.Machine.execSthio rB rA imm s
  | .stbio rB rA imm => Sys2Proof.Machine.execStbio rB rA imm s
  | .and rC rA rB => Sys2Proof.Machine.execAnd rC rA rB s
  | .or rC rA rB => Sys2Proof.Machine.execOr rC rA rB s
  | .xor rC rA rB => Sys2Proof.Machine.execXor rC rA rB s
  | .nor rC rA rB => Sys2Proof.Machine.execNor rC rA rB s
  | .andi rB rA imm => Sys2Proof.Machine.execAndi rB rA imm s
  | .ori rB rA imm => Sys2Proof.Machine.execOri rB rA imm s
  | .xori rB rA imm => Sys2Proof.Machine.execXori rB rA imm s
  | .andhi rB rA imm => Sys2Proof.Machine.execAndhi rB rA imm s
  | .orhi rB rA imm => Sys2Proof.Machine.execOrhi rB rA imm s
  | .xorhi rB rA imm => Sys2Proof.Machine.execXorhi rB rA imm s
  | .add rC rA rB => Sys2Proof.Machine.execAdd rC rA rB s
  | .sub rC rA rB => Sys2Proof.Machine.execSub rC rA rB s
  | .addi rB rA imm => Sys2Proof.Machine.execAddi rB rA imm s
  | .mul rC rA rB => Sys2Proof.Machine.execMul rC rA rB s
  | .muli rB rA imm => Sys2Proof.Machine.execMuli rB rA imm s
  | .mulxss rC rA rB => Sys2Proof.Machine.execMulxss rC rA rB s
  | .mulxuu rC rA rB => Sys2Proof.Machine.execMulxuu rC rA rB s
  | .mulxsu rC rA rB => Sys2Proof.Machine.execMulxsu rC rA rB s
  | .div rC rA rB => Sys2Proof.Machine.execDiv rC rA rB s
  | .divu rC rA rB => Sys2Proof.Machine.execDivu rC rA rB s
  | .cmpeq rC rA rB => Sys2Proof.Machine.execCmpeq rC rA rB s
  | .cmpne rC rA rB => Sys2Proof.Machine.execCmpne rC rA rB s
  | .cmpge rC rA rB => Sys2Proof.Machine.execCmpge rC rA rB s
  | .cmpgeu rC rA rB => Sys2Proof.Machine.execCmpgeu rC rA rB s
  | .cmplt rC rA rB => Sys2Proof.Machine.execCmplt rC rA rB s
  | .cmpltu rC rA rB => Sys2Proof.Machine.execCmpltu rC rA rB s
  | .cmpeqi rB rA imm => Sys2Proof.Machine.execCmpeqi rB rA imm s
  | .cmpnei rB rA imm => Sys2Proof.Machine.execCmpnei rB rA imm s
  | .cmpgei rB rA imm => Sys2Proof.Machine.execCmpgei rB rA imm s
  | .cmpgeui rB rA imm => Sys2Proof.Machine.execCmpgeui rB rA imm s
  | .cmplti rB rA imm => Sys2Proof.Machine.execCmplti rB rA imm s
  | .cmpltui rB rA imm => Sys2Proof.Machine.execCmpltui rB rA imm s
  | .rol rC rA rB => Sys2Proof.Machine.execRol rC rA rB s
  | .ror rC rA rB => Sys2Proof.Machine.execRor rC rA rB s
  | .roli rC rA imm => Sys2Proof.Machine.execRoli rC rA imm s
  | .sll rC rA rB => Sys2Proof.Machine.execSll rC rA rB s
  | .slli rC rA imm => Sys2Proof.Machine.execSlli rC rA imm s
  | .srl rC rA rB => Sys2Proof.Machine.execSrl rC rA rB s
  | .srli rC rA imm => Sys2Proof.Machine.execSrli rC rA imm s
  | .sra rC rA rB => Sys2Proof.Machine.execSra rC rA rB s
  | .srai rC rA imm => Sys2Proof.Machine.execSrai rC rA imm s
  | .call imm => Sys2Proof.Machine.execCall imm s
  | .callr rA => Sys2Proof.Machine.execCallr rA s
  | .ret => Sys2Proof.Machine.execRet s
  | .jmp rA => Sys2Proof.Machine.execJmp rA s
  | .jmpi imm => Sys2Proof.Machine.execJmpi imm s
  | .nextpc rC => Sys2Proof.Machine.execNextpc rC s
  | .br imm => Sys2Proof.Machine.execBr imm s
  | .beq rA rB imm => Sys2Proof.Machine.execBeq rA rB imm s
  | .bne rA rB imm => Sys2Proof.Machine.execBne rA rB imm s
  | .bge rA rB imm => Sys2Proof.Machine.execBge rA rB imm s
  | .bgeu rA rB imm => Sys2Proof.Machine.execBgeu rA rB imm s
  | .blt rA rB imm => Sys2Proof.Machine.execBlt rA rB imm s
  | .bltu rA rB imm => Sys2Proof.Machine.execBltu rA rB imm s
  | .trap imm => Sys2Proof.Machine.execTrap imm s
  | .eret => Sys2Proof.Machine.execEret s
  | .brk imm => Sys2Proof.Machine.execBreak imm s
  | .bret => Sys2Proof.Machine.execBret s
  | .rdctl rC n => Sys2Proof.Machine.execRdctl rC n s
  | .wrctl n rA => Sys2Proof.Machine.execWrctl n rA s
  | .flushd rA imm => Sys2Proof.Machine.execFlushd rA imm s
  | .flushda rA imm => Sys2Proof.Machine.execFlushda rA imm s
  | .flushi rA => Sys2Proof.Machine.execFlushi rA s
  | .initd rA imm => Sys2Proof.Machine.execInitd rA imm s
  | .initda rA imm => Sys2Proof.Machine.execInitda rA imm s
  | .initi rA => Sys2Proof.Machine.execIniti rA s
  | .flushp => Sys2Proof.Machine.execFlushp s
  | .sync => Sys2Proof.Machine.execSync s
  | .rdprs rB rA imm => Sys2Proof.Machine.execRdprs rB rA imm s
  | .wrprs rC rA => Sys2Proof.Machine.execWrprs rC rA s
  | .custom n c a b => Sys2Proof.Machine.execCustom n c a b s

end Sys2Proof.Machine
end

