-- ==== Sys2Proof/Machine/Fetch.lean ====
section
/-! DEFINITION. What happens at an instruction boundary before the instruction runs: the inputs, the events that are
taken instead of it, and its fetch (70_reset_and_hazards.md rule R511). -/

namespace Sys2Proof.Machine

/-! ## Inputs (00_scope.md rule R16; log 10) -/

/-- A cache line is one of those an input names. -/
def CacheLine.isNamed (l : CacheLine) (names : List (Nat × Nat)) : Bool := names.contains (l.index, l.base)

/-- The state at this boundary: the next inputs are read, if there are any; other masters write memory, lines leave the
caches, the data cache's written back (93_implementation_defined.md U13), and a debug module may write its registers
(60_exceptions.md rule R442). When no inputs are left the levels stay and an interrupt that may be taken is, so a request
that persists is taken eventually (60_exceptions.md rule R421; log 11). -/
def State.boundary (s : State) : State :=
  match s.inputs with
  | [] => { s with pins := { s.pins with recognise := true } }
  | b :: rest =>
    let t := { s with mem := s.mem.writeCells b.busWrites }
    let u := t.flushLines (·.isNamed b.evictData)
    let v := u.dropInstrLines (·.isNamed b.evictInstr)
    { v.debuggerActs b.debugger with pins := b.pins, inputs := rest }

/-! ## Events (60_exceptions.md rules R401, R404 and R421 to R428) -/

/-- An internal interrupt may be taken (rule R422). -/
def State.internalPending (s : State) : Bool :=
  !s.cfg.hasEic && s.status.pie && s.pins.irq &&& s.ienable != 0

/-- An external interrupt may be taken (rules R425 and R426, table 53). -/
def State.mayTake (s : State) (q : EicRequest) : Bool :=
  if q.rnmi then !s.status.nmi
  else s.status.pie && s.status.il < q.ril && (!s.cfg.hasShadow || q.rrs != s.status.crs || s.status.rsie)

/-- The external interrupt that may be taken here, if there is one. -/
def State.externalPending (s : State) : Option EicRequest :=
  if s.cfg.hasEic then s.pins.eic.filter s.mayTake else none

/-- An external interrupt into a register set that the EIC must not ask for is refused (rule R424, U18; log 28). -/
def takeRequest (q : EicRequest) (s : State) : Result :=
  if q.rrs ≤ s.cfg.numShadow then .next (takeExternal q s) else .refused .noSuchRegisterSet

/-- What is taken instead of the next instruction, in the order of rule R401: a reset, a hardware break, a
processor-only reset, an interrupt that is recognised here. The debug module in control hears no further break and no
processor-only reset (rules R440 and R446). DESIGN CHOICE, log 30: without the debug module there is no hardware break
(rules R406 and R445), and one that arrives while a processor-only reset is held ends that reset (rules R401 and
R481). DESIGN CHOICE, log 30: an interrupt is taken while the debug module is in control (`paused`) under the conditions
that hold otherwise, a nonmaskable one while status.NMI is 0 (rule R426), a maskable one once the break handler sets PIE,
although no time passes for the program then (rule R475). DESIGN CHOICE, log 30: debugreq is a level, so one that came
during the pause, where it has no effect (rule R440), and is still asserted when `bret` has ended it, is a new break at
the next boundary. -/
def State.event (s : State) : Option Result :=
  if s.pins.reset then some (.next (takeReset 0 s))
  else if s.cfg.hasDebug && s.pins.debugRequest && !s.paused then some (.next (takeBreak s))
  else if s.cfg.hasResetRequest && s.pins.cpuResetRequest && !s.paused then some (.next (takeReset 1 s))
  else if s.pins.recognise && s.internalPending then some (raise .internalInterrupt s)
  else if s.pins.recognise then s.externalPending.map (fun q => takeRequest q s)
  else none

/-! ## Fetch (20_memory.md rule R158) -/

/-- The byte that a fetch reads at a physical address when it uses instruction cache line `index`, or from memory. -/
def State.instrByte (s : State) (index : Option Nat) (a : Nat) : Byte :=
  match index with
  | some k =>
    match findLine s.icache k (s.cfg.iBase a) with
    | some l => l.data.read a
    | none => s.mem.read a
  | none => s.mem.read a

/-- The word that a fetch reads, little-endian (20_memory.md rule R95, D35). -/
def State.instrWord (s : State) (p : DataPath) : Word :=
  wordOfBytes (s.instrByte p.line p.pa) (s.instrByte p.line (p.pa + 1)) (s.instrByte p.line (p.pa + 2))
    (s.instrByte p.line (p.pa + 3))

/-- The state after a fetch: its instruction cache line is filled, and the free value an MPU check draws is drawn. -/
def State.fetched (s : State) (p : DataPath) : State :=
  let t := s.drawn s.accessDraws
  match p.line with
  | some index =>
    match findLine s.icache index (s.cfg.iBase p.pa) with
    | some _ => t
    | none => { t with icache := newLine s.mem.read index (s.cfg.iBase p.pa) s.cfg.icacheLine :: s.icache }
  | none => t

/-- Where the instruction at the pc is fetched from: the address checks, what is connected there, the instruction cache
line used, and that no store is still on its way to it (rule R115, D17; log 21). -/
def State.fetchPath (s : State) : Check DataPath :=
  if s.pc &&& 3#32 != 0 then .fault .misalignedFetch
  else
    (s.translateFetch s.pc).bind (fun pa =>
      match s.cfg.fetchRegion pa with
      | none => .fault .unmappedAddress
      | some kind =>
        if s.isStale pa then .fault .staleFetch
        else .ok { pa := pa, line := if kind == .memory then s.cfg.iIndex s.pc else none })

/-- A word that is no instruction (30_encoding.md rule R175); with detection off the model refuses (D8; log 14). -/
def illegalInstruction (s : State) : Result :=
  if s.cfg.illegalInsn then raise .illegalInstr s else .refused .illegalUnchecked

/-- Where an instruction at the pc is stored so that it is fetched: the physical address of the pc where the address
checks give one, else the pc itself. -/
def State.fetchAddress (s : State) : Nat :=
  match s.fetchPath with
  | .ok p => p.pa
  | _ =>
    match s.translateFetch s.pc with
    | .ok pa => pa
    | _ => s.pc.toNat

/-- The state with a word stored where the next fetch reads: in memory, with no cache line and no hazard over it. -/
def State.placeWord (s : State) (w : Word) : State :=
  let a := s.fetchAddress
  { s with
    mem := s.mem.writeBytes a ([0, 1, 2, 3].map (byteOfWord w))
    icache := s.icache.filter (fun l => l.base != s.cfg.iBase a)
    hazards := s.hazards.filter (fun h => h.word != a / 4) }

end Sys2Proof.Machine
end

