-- ==== Sys2Proof/Machine/Run.lean ====
section
/-! DEFINITION. Running the instruction at the pc (70_reset_and_hazards.md rule R511). -/

namespace Sys2Proof.Machine

/-- Fetch, decode and execute at a boundary where nothing is taken instead. -/
def runInstruction (s : State) : Host.Outcome State Fault Refusal :=
  s.fetchPath.run (s.drawn s.accessDraws) (fun p =>
    match decodeWord (s.instrWord p) with
    | .ok i => exec i (s.fetched p)
    | .error _ => illegalInstruction (s.fetched p))

end Sys2Proof.Machine
end

