-- ==== Sys2Proof/Machine/Step.lean ====
section
/-! DEFINITION. One step of the machine (70_reset_and_hazards.md rules R510 and R511): one instruction, or what is taken
instead of it at its boundary. -/

namespace Sys2Proof.Machine

/-- One step. -/
def step (s : State) : Host.Outcome State Fault Refusal :=
  match s.boundary.event with
  | some r => r
  | none => runInstruction s.boundary

/-- The state with an instruction of `nbits` bits `w` stored where the next step fetches (log 35). -/
def State.withFetchWord (s : State) (nbits w : Nat) : State := s.placeWord (BitVec.ofNat 32 (w % 2 ^ nbits))

end Sys2Proof.Machine
end

