-- ==== Sys2Proof/Safety.lean ====
section
/-! DEFINITION. The terms the statements use: what an instruction leaves alone, and what holds of every state that a run
from a legal state reaches. -/

namespace Sys2Proof.Machine

/-! ## Frames -/

/-- `t` is `s` but for the pc and the register file: every control register, memory, both caches, the TLB, the MPU
regions, the inputs and the counter of free values are the same. -/
def QuietBut (s t : State) : Prop := { t with pc := s.pc, regs := s.regs } = s

/-- The register files agree but for register `i` of set `set`, which holds `v`. -/
def OnlyRegister (s t : State) (set : SetNum) (i : RegNum) (v : Word) : Prop :=
  ∀ set' j, t.xs set' j = if set' = set ∧ j = i then v else s.xs set' j

/-- No register of any set has changed. -/
def SameRegisters (s t : State) : Prop := ∀ set j, t.xs set j = s.xs set j

/-- The registers after an instruction writes `v` to register `i` of the current set: that register alone has changed;
for r0 none has (10_state.md rules R21 and R24). -/
def WritesRegister (s t : State) (i : RegNum) (v : Word) : Prop :=
  (i ≠ 0 → OnlyRegister s t s.status.crs i v) ∧ (i = 0 → SameRegisters s t)

/-- The end of an instruction that computes a result into a register and does nothing else. -/
def Retires (s t : State) (i : RegNum) (v : Word) : Prop :=
  t.pc = s.pc + 4 ∧ WritesRegister s t i v ∧ QuietBut s t ∧ ∀ a, t.mem.read a = s.mem.read a

/-- The end of an instruction that only moves the pc. -/
def Jumps (s t : State) (target : Word) : Prop := t = { s with pc := target }

/-- The byte at `a`, as an access through a data cache line or over the bus sees it, is none that a device has to supply:
no device answers there, or the line is present. -/
def Held (s : State) (line : Option Nat) (a : Nat) : Prop :=
  s.cfg.isDevice a = false ∨ ∃ k l, line = some k ∧ findLine s.dcache k (s.cfg.dBase a) = some l

/-- The first `n` bytes of `b` are what a load through `p` reads: those that no device has to supply are the ones the path
has, and of the others nothing is said; through a data cache line, the line has them afterwards. -/
def Supplies (s t : State) (p : DataPath) (n : Nat) (b : Nat → Byte) : Prop :=
  (∀ k < n, (p.device = false ∨ Held s p.line (p.pa + k)) → b k = s.dataByte p.line (p.pa + k))
    ∧ (s.cfg.legal = true → p.line.isSome → ∀ k < n, t.dataByte p.line (p.pa + k) = b k)

/-- The end of a load: the register file has the value read; memory, and every byte as a data access sees it that no
device has to supply, are the same; so is everything else but the data cache lines present and the counter of free
values. -/
def Loads (s t : State) (i : RegNum) (v : Word) : Prop :=
  t.pc = s.pc + 4 ∧ WritesRegister s t i v ∧ (∀ a, t.mem.read a = s.mem.read a)
    ∧ (∀ line a, Held s line a → t.dataByte line a = s.dataByte line a)
    ∧ { t with pc := s.pc, regs := s.regs, dcache := s.dcache, draws := s.draws } = s

/-- The end of a store through `p` to memory or into the data cache: the bytes from `p.pa` are stored as the path sees
them, every byte outside them that no device has to supply is the same on every path, memory itself is the same when the
store stays in the data cache, no register has changed, no word of a device is noted as stored to, and nothing else has
changed but the data cache lines, the words whose fetch is pending and the counter of free values. -/
def Stores (s t : State) (p : DataPath) (bytes : List Byte) : Prop :=
  t.pc = s.pc + 4 ∧ SameRegisters s t
    ∧ (∀ k (h : k < bytes.length), t.dataByte p.line (p.pa + k) = bytes[k])
    ∧ (∀ line a, (a < p.pa ∨ p.pa + bytes.length ≤ a) → Held s line a → t.dataByte line a = s.dataByte line a)
    ∧ (p.line.isSome → t.mem = s.mem) ∧ (p.device = true → t.hazards = s.hazards)
    ∧ { t with pc := s.pc, mem := s.mem, dcache := s.dcache, hazards := s.hazards, draws := s.draws } = s

/-- The little-endian word at an address (20_memory.md rule R95). -/
def littleEndian (m : Memory) (a : Nat) : Word := m.read (a + 3) ++ m.read (a + 2) ++ m.read (a + 1) ++ m.read a

/-! ## The invariant -/

/-- An address of an instruction (10_state.md rule R28). -/
def isInstrAddress (a : Word) : Bool := a &&& 3#32 == 0

/-- What the external interrupt controller presents is a handler address (60_exceptions.md rule R424), and an interrupt
input that is not connected is not asserted (46_other_control.md rule R355; log 5). -/
def Pins.legal (c : Config) (p : Pins) : Bool :=
  p.eic.all (fun q => isInstrAddress q.rha) && p.irq &&& ~~~c.irqConnected == 0

/-- A status value that holds only implemented fields, all others reading as rule R31 says, and names register sets of
the core. -/
def Status.legal (c : Config) (t : Status) : Bool := t.implement c == t && t.setsExist c

/-- What holds of every state of a run: a configuration that rule R7 allows, a pc at an instruction (R28), a legal
status (R31, R37), enables only of what is there (R60), a WAY of the TLB (R52), as many TLB entries and MPU regions as
configured (R72, R73), the bits of ienable without a connected input as the configuration has them (R355), memory and
cache lines in canonical form, cache lines that begin where lines begin, are there once and have numbers that the loop of
R485 reaches, and handler addresses from the EIC. -/
structure Inv (s : State) : Prop where
  config_legal : s.cfg.legal = true
  pc_aligned : isInstrAddress s.pc = true
  status_legal : s.status.legal s.cfg = true
  config_reg : (s.config.pe → s.cfg.hasMpu) ∧ (s.config.ani → s.cfg.hasNesting)
  way_significant : s.tlbmisc.way &&& s.cfg.wayMask = s.tlbmisc.way
  tlb_size : s.tlb.length = 2 ^ (s.cfg.tlbLineBits + s.cfg.tlbWayBits)
  mpu_sizes : s.mpuInstr.length = s.cfg.mpuIRegions ∧ s.mpuData.length = s.cfg.mpuDRegions
  mem_wf : s.mem.wf = true
  dcache_wf : ∀ l ∈ s.dcache, l.data.wf = true
  icache_wf : ∀ l ∈ s.icache, l.data.wf = true
  dcache_lines : (s.dcache.map (fun l => (l.index, l.base))).Nodup ∧ ∀ l ∈ s.dcache, s.cfg.dBase l.base = l.base
  icache_lines : (s.icache.map (fun l => (l.index, l.base))).Nodup ∧ ∀ l ∈ s.icache, s.cfg.iBase l.base = l.base
  dcache_numbers : ∀ l ∈ s.dcache, s.cfg.hasDLine l.index = true
  icache_numbers : ∀ l ∈ s.icache, s.cfg.hasILine l.index = true
  ienable_connected : s.cfg.ienableOf s.ienable = s.ienable
  pins_legal : s.pins.legal s.cfg = true
  inputs_legal : ∀ b ∈ s.inputs, b.pins.legal s.cfg = true

end Sys2Proof.Machine
end

