-- ==== Sys2Proof/Certificates/Slice0/Obligations.lean ====
section
/-! DEFINITION. The statements for the provers, in the order of OBLIGATIONS.json. -/

open Sys2Proof Sys2Proof.Machine

/-! ## Encoding and fetch -/

/-- Decoding what the encoder writes gives the instruction back, as a word and as the first bytes of a program, for
every instruction with every operand (30_encoding.md rules R162 to R172).
Model choices it rests on: log 13. -/
def Obligations.DecodeOfEncode : Prop :=
  ∀ (i : Instr) (rest : List Byte), i.wellFormed = true →
    decodeWord (encode i) = .ok i ∧ decodeBytes (encodeBytes i ++ rest) = .ok (i, rest)

/-- Whatever decodes is a term the syntax can write, and its encoding has the opcode (and, in an R-type word, the opcode
extension) of the word it came from (30_encoding.md rule R166).
Model choices it rests on: logs 12 and 13. -/
def Obligations.EncodeOfDecode : Prop :=
  ∀ (w : Word) (i : Instr), decodeWord w = .ok i →
    i.wellFormed = true ∧ fieldOp (encode i) = fieldOp w ∧
      (fieldOp w = 0x3A → fieldOpx (encode i) = fieldOpx w)

/-- The words that are no instruction are exactly those with one of the 18 reserved opcodes, or an R-type opcode and one
of the 22 reserved extensions (30_encoding.md rule R175).
Model choices it rests on: logs 12 and 13. -/
def Obligations.ReservedWordsRejected : Prop :=
  ∀ w : Word, (∃ e, decodeWord w = .error e) ↔
    (fieldOp w).toNat ∈ [0x02, 0x09, 0x0A, 0x11, 0x12, 0x19, 0x1A, 0x1D, 0x1F, 0x21, 0x22, 0x29, 0x2A, 0x31, 0x39, 0x3D,
        0x3E, 0x3F] ∨
      (fieldOp w = 0x3A ∧ (fieldOpx w).toNat ∈ [0x00, 0x0A, 0x0F, 0x11, 0x15, 0x19, 0x21, 0x22, 0x23, 0x2A, 0x2B, 0x2C,
        0x2F, 0x32, 0x33, 0x35, 0x37, 0x38, 0x3C, 0x3D, 0x3E, 0x3F])

/-- The worked encodings of 30_encoding.md rule R183 decode to the instructions they stand for.
Model choices it rests on: log 13. -/
def Obligations.WorkedWordsDecode : Prop :=
  [0x0887883A, 0x08BFFFC4, 0xD9000217, 0xD93FFF15, 0x280A90BA, 0x10C00226, 0x003FFF06, 0x00010000, 0x00010001,
      0x0005303A, 0x1001703A, 0x0001883A, 0x0887C172].map (decodeTableWord 32) =
    [some (.add 3 1 2), some (.addi 2 1 0xFFFF), some (.ldw 4 27 8), some (.stw 4 27 0xFFFC), some (.slli 5 5 2),
      some (.beq 2 3 8), some (.br 0xFFFC), some (.call 0x400), some (.jmpi 0x400), some (.rdctl 2 .status),
      some (.wrctl .status 2), some (.add 0 0 0), some (.custom 5 (.r 3) (.r 1) (.r 2))]

/-- A step at a boundary where nothing is taken runs the instruction that the fetched word decodes to, on the state at
that boundary with at most an instruction cache line filled and a free value drawn; with no inputs left the state at the
boundary is the state itself with its interrupts recognised (70_reset_and_hazards.md rule R511; log 11). An entry of the
inputs sets the levels; the bytes of other bus masters go to memory, a later one over an earlier; the named lines leave
the caches, and a dirty data cache line is then in memory but for the bytes at which a device answers; a debug module's
writes go to bt, ba and bstatus; nothing else changes (00_scope.md rule R16, 93_implementation_defined.md U13,
60_exceptions.md rule R442).
Model choices it rests on: logs 10, 11, 18, 20 and 30. -/
def Obligations.StepRunsDecoded : Prop :=
  (∀ (s : State) (p : DataPath) (i : Instr), s.boundary.event = none → s.boundary.fetchPath = .ok p →
    decodeWord (s.boundary.instrWord p) = .ok i →
      step s = exec i (s.boundary.fetched p) ∧
      { s.boundary.fetched p with icache := s.boundary.icache, draws := s.boundary.draws } = s.boundary ∧
      (s.inputs = [] → s.boundary = { s with pins := { s.pins with recognise := true } })) ∧
  ∀ (s t : State) (b : Boundary) (rest : List Boundary), s.inputs = b :: rest → t = s.boundary →
    t.pins = b.pins ∧ t.inputs = rest ∧
    (∀ a, (s.cfg.isDevice a = true ∨ ∀ l ∈ s.dcache, (l.index, l.base) ∈ b.evictData → l.dirty = true →
        ¬(l.base ≤ a ∧ a < l.base + s.cfg.dcacheLine)) →
      t.mem.read a = ((b.busWrites.reverse.find? (fun cell => cell.1 == a)).map (·.2)).getD (s.mem.read a)) ∧
    (∀ a, s.cfg.isDevice a = false → ∀ l ∈ s.dcache, (l.index, l.base) ∈ b.evictData → l.dirty = true → l.base ≤ a →
      a < l.base + s.cfg.dcacheLine →
      (∀ k ∈ s.dcache, (k.index, k.base) ∈ b.evictData → k.dirty = true →
        (k.base ≤ a ∧ a < k.base + s.cfg.dcacheLine) → k = l) →
      t.mem.read a = l.data.read a) ∧
    t.dcache = s.dcache.filter (fun l => !b.evictData.contains (l.index, l.base)) ∧
    t.icache = s.icache.filter (fun l => !b.evictInstr.contains (l.index, l.base)) ∧
    (∀ d, b.debugger = some d → s.cfg.hasDebug = true → t.xs 0 25 = d.bt ∧ t.xs 0 30 = d.ba ∧
      t.bstatus = (Status.ofWord d.bstatus).implement s.cfg ∧
      ∀ set j, ¬(set = 0 ∧ (j = 25 ∨ j = 30)) → t.xs set j = s.xs set j) ∧
    (b.debugger = none ∨ s.cfg.hasDebug = false → SameRegisters s t ∧ t.bstatus = s.bstatus) ∧
    { t with pins := s.pins, inputs := s.inputs, mem := s.mem, dcache := s.dcache, icache := s.icache, regs := s.regs,
             bstatus := s.bstatus } = s

/-- Without an MMU, and with no MPU check or one that lets the mode execute, an aligned pc in fetchable memory is the
address the instruction is fetched from. Wherever a fetch passes, the instruction is the little-endian word there: of
memory where no instruction cache line is used, of the line where it is present, and where it is not, of memory, from
which the line is filled; the fetch changes nothing else but the counter of free values (20_memory.md rules R95, R104,
R150, R151 and R158; that instruction words are little-endian is the spec's own decision, D35).
Model choices it rests on: logs 20, 21, 22 and 34. -/
def Obligations.FetchedWord : Prop :=
  (∀ (s : State) (kind : RegionKind), s.cfg.hasMmu = false → s.pc.toNat % 4 = 0 →
    (s.mpuOn = false ∨ (s.mpuOn = true ∧ s.mpuOld = [] ∧
      ∃ r, s.mpuInstr.find? (fun r => r.isFor s.cfg s.pc) = some r ∧ mayExecute r.perm s.status.u = some true)) →
    s.cfg.fetchRegion s.pc.toNat = some kind → s.isStale s.pc.toNat = false →
      s.fetchPath = .ok { pa := s.pc.toNat, line := if kind = .memory then s.cfg.iIndex s.pc else none,
                          device := false }) ∧
  ∀ (s : State) (p : DataPath), s.cfg.legal = true → s.fetchPath = .ok p →
    (p.line = none → s.instrWord p = littleEndian s.mem p.pa ∧
      s.fetched p = { s with draws := s.draws + s.accessDraws }) ∧
    (∀ k l, p.line = some k → findLine s.icache k (s.cfg.iBase p.pa) = some l →
      s.instrWord p = littleEndian l.data p.pa ∧ s.fetched p = { s with draws := s.draws + s.accessDraws }) ∧
    (∀ k, p.line = some k → findLine s.icache k (s.cfg.iBase p.pa) = none →
      s.instrWord p = littleEndian s.mem p.pa ∧
      ∃ l, s.fetched p = { s with draws := s.draws + s.accessDraws, icache := l :: s.icache } ∧ l.index = k ∧
        l.base = s.cfg.iBase p.pa ∧ l.dirty = false ∧
        ∀ a, l.base ≤ a → a < l.base + s.cfg.icacheLine → l.data.read a = s.mem.read a)

/-- Every instruction, encoded and placed where the machine fetches first after reset, is what the first step runs. The
configuration of the reset state is the model's choice (log 1). -/
def Obligations.PlacedInstructionRuns : Prop :=
  ∀ i : Instr, i.wellFormed = true →
    step (State.reset.withFetchWord 32 (encode i).toNat) = exec i (State.reset.withFetchWord 32 (encode i).toNat)

/-- The checks of the fetch, in their order: with an MMU, a user-mode fetch in the upper half, then a miss, then a page
without X, each taken; else the frame of the page, or the low 29 bits in the partitions that bypass the TLB, is where
the word is fetched; with the MPU enabled, a pc outside the address space, in no instruction region or in one that
forbids the mode to execute takes the MPU region violation; and, where the word fetched is no instruction and detection
is on, the illegal instruction exception is taken (20_memory.md rules R131 and R150, 60_exceptions.md rule R464,
30_encoding.md rule R175).
Model choices it rests on: logs 11, 13 (presumed: the line portion of a page number), 21 and 33. -/
def Obligations.FetchExceptionsTaken : Prop :=
  ∀ s : State, s.inputs = [] → s.pins.recognise = true → s.event = none → s.pc.toNat % 4 = 0 →
    (s.cfg.hasMmu = true → s.status.u = true → 0x80000000 ≤ s.pc.toNat →
      step s = .next (takeGeneral .supervisorOnlyInstrAddress s)) ∧
    (s.cfg.hasMmu = true → (s.status.u = false ∨ s.pc.toNat < 0x80000000) → s.pc.toNat < 0xC0000000 →
      (s.tlbMatches s.pc = [] → step s = .next (takeGeneral (.tlbMissInstr s.pc) s)) ∧
      (∀ e, s.tlbMatches s.pc = [e] → e.x = false → step s = .next (takeGeneral (.tlbExecute s.pc) s))) ∧
    (∀ pa kind, s.cfg.hasMmu = true → (s.status.u = false ∨ s.pc.toNat < 0x80000000) →
      ((∃ e, s.pc.toNat < 0xC0000000 ∧ s.tlbMatches s.pc = [e] ∧ e.x = true ∧
          pa = e.pfn.toNat * 4096 + s.pc.toNat % 4096) ∨
        (0xC0000000 ≤ s.pc.toNat ∧ pa = s.pc.toNat % 2 ^ 29)) →
      s.cfg.fetchRegion pa = some kind → s.isStale pa = false →
      ∃ p, s.fetchPath = .ok p ∧ p.pa = pa ∧ p.line = (if kind = .memory then s.cfg.iIndex s.pc else none)) ∧
    (s.cfg.hasMmu = false → s.mpuOn = true → s.mpuOld = [] →
      (2 ^ s.cfg.addrBits ≤ s.pc.toNat ∨ s.mpuInstr.find? (fun r => r.isFor s.cfg s.pc) = none ∨
        (∃ r, s.mpuInstr.find? (fun r => r.isFor s.cfg s.pc) = some r ∧
          mayExecute r.perm s.status.u = some false)) →
      step s = .next (takeGeneral .mpuInstr (s.drawn 1))) ∧
    (∀ p e, s.fetchPath = .ok p → decodeWord (s.instrWord p) = .error e → s.cfg.illegalInsn = true →
      step s = .next (takeGeneral .illegalInstr (s.fetched p)))

/-! ## Data transfer -/

/-- `ldw` and `ldwio` complete wherever their address checks pass: the register receives the little-endian word, of the
bytes that the path holds or, where a device has to supply them, of bytes of which nothing is said and which a data cache
line then holds; memory as every access sees it, and all other state but the data cache lines present, are as they were
(40_data_transfer.md rules R202 to R204 and R206).
Model choices it rests on: logs 13 (presumed: which field names the base and which the data register), 18 and 20. -/
def Obligations.LoadWordResult : Prop :=
  ∀ (s : State) (rB rA : RegNum) (imm : BitVec 16) (io : Bool) (p : DataPath),
    s.dataPath .load .word io (s.effective rA imm) = .ok p →
      ∃ (t : State) (b : Nat → Byte), exec (if io then .ldwio rB rA imm else .ldw rB rA imm) s = .next t ∧
        Loads s t rB (b 3 ++ b 2 ++ b 1 ++ b 0) ∧ Supplies s t p 4 b

/-- The half-word and byte loads, signed and unsigned, plain and io, complete wherever their address checks pass, with
the bytes that the path holds or, where a device has to supply them, bytes of which nothing is said and which a data cache
line then holds (40_data_transfer.md rules R202, R203, R208 to R211 and R214 to R217).
Model choices it rests on: logs 13 (presumed: which field names the base and which the data register), 18 and 20. -/
def Obligations.LoadNarrowResult : Prop :=
  ∀ (s : State) (rB rA : RegNum) (imm : BitVec 16) (io : Bool) (p : DataPath),
    (s.dataPath .load .half io (s.effective rA imm) = .ok p →
      ∃ b : Nat → Byte,
        (∃ t, exec (if io then .ldhio rB rA imm else .ldh rB rA imm) s = .next t ∧
          Loads s t rB (BitVec.signExtend 32 (b 1 ++ b 0)) ∧ Supplies s t p 2 b) ∧
        (∃ t, exec (if io then .ldhuio rB rA imm else .ldhu rB rA imm) s = .next t ∧
          Loads s t rB (BitVec.setWidth 32 (b 1 ++ b 0)) ∧ Supplies s t p 2 b)) ∧
    (s.dataPath .load .byte io (s.effective rA imm) = .ok p →
      ∃ b : Nat → Byte,
        (∃ t, exec (if io then .ldbio rB rA imm else .ldb rB rA imm) s = .next t ∧
          Loads s t rB (BitVec.signExtend 32 (b 0)) ∧ Supplies s t p 1 b) ∧
        (∃ t, exec (if io then .ldbuio rB rA imm else .ldbu rB rA imm) s = .next t ∧
          Loads s t rB (BitVec.setWidth 32 (b 0)) ∧ Supplies s t p 1 b))

/-- The stores complete wherever their address checks pass: the low bytes of the source register are stored, least
significant first, at the address the path gives, and no other byte changes on any path; a store to a device that does
not go through the data cache changes nothing of the processor's but the pc (40_data_transfer.md rules R202, R205, R207,
R212, R213, R218 and R219).
Model choices it rests on: logs 13 (presumed: which field names the base and which the data register), 18, 20 and 21. -/
def Obligations.StoreResult : Prop :=
  ∀ (s : State) (rB rA : RegNum) (imm : BitVec 16) (io : Bool) (p : DataPath), s.cfg.legal = true →
    (s.dataPath .store .word io (s.effective rA imm) = .ok p →
      ∃ t, exec (if io then .stwio rB rA imm else .stw rB rA imm) s = .next t ∧
        (p.device = false ∨ p.line.isSome = true → Stores s t p [(s.x rB).extractLsb' 0 8, (s.x rB).extractLsb' 8 8,
          (s.x rB).extractLsb' 16 8, (s.x rB).extractLsb' 24 8]) ∧
        (p.device = true → p.line = none → t = { s with pc := s.pc + 4, draws := s.draws + s.accessDraws })) ∧
    (s.dataPath .store .half io (s.effective rA imm) = .ok p →
      ∃ t, exec (if io then .sthio rB rA imm else .sth rB rA imm) s = .next t ∧
        (p.device = false ∨ p.line.isSome = true →
          Stores s t p [(s.x rB).extractLsb' 0 8, (s.x rB).extractLsb' 8 8]) ∧
        (p.device = true → p.line = none → t = { s with pc := s.pc + 4, draws := s.draws + s.accessDraws })) ∧
    (s.dataPath .store .byte io (s.effective rA imm) = .ok p →
      ∃ t, exec (if io then .stbio rB rA imm else .stb rB rA imm) s = .next t ∧
        (p.device = false ∨ p.line.isSome = true → Stores s t p [(s.x rB).extractLsb' 0 8]) ∧
        (p.device = true → p.line = none → t = { s with pc := s.pc + 4, draws := s.draws + s.accessDraws }))

/-- Which data accesses pass their checks without an MMU: an aligned one with no MPU check, and one that the deciding
MPU region allows. Bit 31 is no address bit; the access is cacheable unless bit 31 bypasses the cache or the region's C
flag is 0. And where any access goes that passes its checks, with an MMU, an MPU or neither: memory and devices are
accessed through the data cache if the access is cacheable and the instruction no io form, tightly-coupled memory never
is, and where nothing is connected it stops (20_memory.md rules R92, R93, R104, R105, R108, R109, R150 and R152,
40_data_transfer.md rule R202).
Model choices it rests on: logs 13 (presumed: that a 1 in bit 31 bypasses), 19, 20, 22, 23 and 33. -/
def Obligations.DataAccessPaths : Prop :=
  (∀ (s : State) (k : Kind) (w : Width) (va : Word), s.cfg.hasMmu = false → va.toNat % w.bytes = 0 →
    (s.mpuOn = false →
      s.translateData k w va =
        .ok { pa := va.toNat % 2 ^ 31 % 2 ^ s.cfg.addrBits
              cacheable := !(s.cfg.bit31Bypass && decide (2 ^ 31 ≤ va.toNat)) }) ∧
    (∀ r, s.mpuOn = true → s.mpuOld = [] → inSpace s.cfg (mpuAddress s.cfg va) = true →
      s.mpuData.find? (fun r => r.isFor s.cfg (mpuAddress s.cfg va)) = some r →
      (k ≠ .store → mayRead r.perm s.status.u = some true) → (k ≠ .load → mayWrite r.perm s.status.u = some true) →
      s.translateData k w va =
        .ok { pa := va.toNat % 2 ^ 31 % 2 ^ s.cfg.addrBits
              cacheable := r.c && !(s.cfg.bit31Bypass && decide (2 ^ 31 ≤ va.toNat)) })) ∧
  ∀ (s : State) (k : Kind) (w : Width) (io : Bool) (va : Word) (p : Physical), s.translateData k w va = .ok p →
    (s.cfg.dataRegion p.pa w.bytes = some .memory →
      s.dataPath k w io va =
        .ok { pa := p.pa, line := if io = true ∨ p.cacheable = false then none else s.cfg.dIndex va, device := false }) ∧
    (s.cfg.dataRegion p.pa w.bytes = some .tightlyCoupled →
      s.dataPath k w io va = .ok { pa := p.pa, line := none, device := false }) ∧
    (s.cfg.dataRegion p.pa w.bytes = some .device →
      s.dataPath k w io va =
        .ok { pa := p.pa, line := if io = true ∨ p.cacheable = false then none else s.cfg.dIndex va, device := true }) ∧
    (s.cfg.dataRegion p.pa w.bytes = none → s.dataPath k w io va = .fault .unmappedAddress)

/-- A load of the physical address just stored to, under the same or another address with the same cacheability, where
no device answers it or the data cache holds what was stored to the device, returns the value stored, cut to the width
(20_memory.md rules R92, R96, R104 and R110).
Model choices it rests on: logs 13 (presumed: that a 1 in bit 31 bypasses the cache), 18, 20 and 33. -/
def Obligations.StoreThenLoad : Prop :=
  ∀ (s t : State) (rB rA rC rD : RegNum) (imm imm' : BitVec 16), s.cfg.legal = true → s.cfg.hasMmu = false →
    s.mpuOn = false → rC ≠ 0 →
    (s.effective rD imm').toNat % 2 ^ 31 % 2 ^ s.cfg.addrBits =
      (s.effective rA imm).toNat % 2 ^ 31 % 2 ^ s.cfg.addrBits →
    (s.cfg.bit31Bypass = true → (2 ^ 31 ≤ (s.effective rD imm').toNat ↔ 2 ^ 31 ≤ (s.effective rA imm).toNat)) →
    (exec (.stw rB rA imm) s = .next t → (s.effective rA imm).toNat % 4 = 0 →
      (s.cfg.dataRegion ((s.effective rA imm).toNat % 2 ^ 31 % 2 ^ s.cfg.addrBits) 4 = some .device →
        s.cfg.hasDcache = true ∧ (s.cfg.bit31Bypass = true → (s.effective rA imm).toNat < 2 ^ 31)) →
      ∃ u, exec (.ldw rC rD imm') t = .next u ∧ u.x rC = s.x rB) ∧
    (exec (.sth rB rA imm) s = .next t → (s.effective rA imm).toNat % 2 = 0 →
      (s.cfg.dataRegion ((s.effective rA imm).toNat % 2 ^ 31 % 2 ^ s.cfg.addrBits) 2 = some .device →
        s.cfg.hasDcache = true ∧ (s.cfg.bit31Bypass = true → (s.effective rA imm).toNat < 2 ^ 31)) →
      ∃ u, exec (.ldhu rC rD imm') t = .next u ∧ u.x rC = BitVec.setWidth 32 ((s.x rB).extractLsb' 0 16)) ∧
    (exec (.stb rB rA imm) s = .next t →
      (s.cfg.dataRegion ((s.effective rA imm).toNat % 2 ^ 31 % 2 ^ s.cfg.addrBits) 1 = some .device →
        s.cfg.hasDcache = true ∧ (s.cfg.bit31Bypass = true → (s.effective rA imm).toNat < 2 ^ 31)) →
      ∃ u, exec (.ldb rC rD imm') t = .next u ∧ u.x rC = BitVec.signExtend 32 ((s.x rB).extractLsb' 0 8))

/-! ## Address checks -/

/-- A word or half-word access to an address that is no multiple of its width takes the misaligned data address
exception where detection is on, in every mode but for a user-mode access to the upper half with an MMU, which the
supervisor-only exception takes first (20_memory.md rule R100, 60_exceptions.md rule R457).
Model choices it rests on: log 34. -/
def Obligations.MisalignedDataTaken : Prop :=
  ∀ (s : State) (rB rA : RegNum) (imm : BitVec 16), s.cfg.illegalMem = true →
    ¬(s.cfg.hasMmu = true ∧ s.status.u = true ∧ 2 ^ 31 ≤ (s.effective rA imm).toNat) →
    (¬(s.effective rA imm).toNat % 4 = 0 →
      ∀ i ∈ [Instr.ldw rB rA imm, .ldwio rB rA imm, .stw rB rA imm, .stwio rB rA imm],
        exec i s = .next (takeGeneral (.misalignedData (s.effective rA imm)) (s.drawn s.accessDraws))) ∧
    (¬(s.effective rA imm).toNat % 2 = 0 →
      ∀ i ∈ [Instr.ldh rB rA imm, .ldhu rB rA imm, .ldhio rB rA imm, .ldhuio rB rA imm, .sth rB rA imm,
          .sthio rB rA imm],
        exec i s = .next (takeGeneral (.misalignedData (s.effective rA imm)) (s.drawn s.accessDraws)))

/-- With an MMU, a user-mode load, store, `flushda` or implemented `initda` in the upper half of the address space,
which holds the partitions without user access, takes the supervisor-only data address exception, aligned or not: cause
11, the address in badaddr, tlbmisc.BAD and D 1, the general vector, and ea the address after the instruction where no
exception was active. Without an MMU no data access takes it (60_exceptions.md rule R456). -/
def Obligations.SupervisorOnlyDataTaken : Prop :=
  (∀ (s : State) (rB rA : RegNum) (imm : BitVec 16), s.cfg.hasMmu = true → s.status.u = true →
    2 ^ 31 ≤ (s.effective rA imm).toNat →
    ∀ i ∈ [Instr.ldw rB rA imm, .ldwio rB rA imm, .stw rB rA imm, .stwio rB rA imm, .ldh rB rA imm, .ldhu rB rA imm,
        .ldhio rB rA imm, .ldhuio rB rA imm, .sth rB rA imm, .sthio rB rA imm, .ldb rB rA imm, .ldbu rB rA imm,
        .ldbio rB rA imm, .ldbuio rB rA imm, .stb rB rA imm, .stbio rB rA imm, .flushda rA imm, .initda rA imm],
      (i = .initda rA imm → s.cfg.implemented.initda = true) →
      ∃ t, exec i s = .next t ∧ t = takeGeneral (.supervisorOnlyData (s.effective rA imm)) s ∧ t.cause = 11 ∧
        t.badaddr = s.effective rA imm ∧ t.tlbmisc.bad = true ∧ t.tlbmisc.d = true ∧
        (s.status.eh = false → t.xs 0 29 = s.pc + 4) ∧ t.pc = s.cfg.vectorPc s.cfg.exceptionAddr) ∧
  (∀ (s : State) (k : Kind) (w : Width) (va va' : Word), s.cfg.hasMmu = false →
    s.translateData k w va ≠ .exc (.supervisorOnlyData va'))

/-- Translation with an MMU: the kernel and I/O partitions give the low 29 bits, cached and uncached; elsewhere the one
matching TLB entry with the permission of the access gives its frame and the page offset, cacheable by its C flag
(20_memory.md rules R126 to R130). That `flushda` and `initda` need no permission of the entry is the model's choice for
`initda` (log 38), whose permission the spec does not state.
Model choices it rests on: logs 13 (presumed: the line portion of a page number), 20 and 38. -/
def Obligations.MmuTranslation : Prop :=
  ∀ (s : State) (k : Kind) (w : Width) (va : Word), s.cfg.hasMmu = true →
    (s.status.u = false ∨ va.toNat < 2 ^ 31) → va.toNat % w.bytes = 0 →
    (0xC0000000 ≤ va.toNat →
      s.translateData k w va = .ok { pa := va.toNat % 2 ^ 29, cacheable := decide (va.toNat < 0xE0000000) }) ∧
    (∀ e, va.toNat < 0xC0000000 → s.tlbMatches va = [e] → (k = .load → e.r = true) → (k = .store → e.w = true) →
      s.translateData k w va = .ok { pa := e.pfn.toNat * 4096 + va.toNat % 4096, cacheable := e.c })

/-- With an MMU, an access outside the two partitions that bypass the TLB, aligned to its width: with no matching entry
it takes the TLB miss, and with one that lacks the permission, the read or write violation (60_exceptions.md rules R461
to R463).
Model choices it rests on: log 13 (presumed: the line portion of a page number). -/
def Obligations.TlbExceptionsTaken : Prop :=
  ∀ (s : State) (rB rA : RegNum) (imm : BitVec 16), s.cfg.hasMmu = true →
    (s.status.u = false ∨ (s.effective rA imm).toNat < 2 ^ 31) → (s.effective rA imm).toNat < 0xC0000000 →
    (s.tlbMatches (s.effective rA imm) = [] →
      (s.cfg.implemented.initda = true →
        exec (.initda rA imm) s = .next (takeGeneral (.tlbMissData (s.effective rA imm)) s)) ∧
      ∀ f ∈ [(Instr.ldw rB rA imm, 4), (.ldwio rB rA imm, 4), (.stw rB rA imm, 4), (.stwio rB rA imm, 4),
            (.ldh rB rA imm, 2), (.ldhu rB rA imm, 2), (.ldhio rB rA imm, 2), (.ldhuio rB rA imm, 2),
            (.sth rB rA imm, 2), (.sthio rB rA imm, 2), (.ldb rB rA imm, 1), (.ldbu rB rA imm, 1),
            (.ldbio rB rA imm, 1), (.ldbuio rB rA imm, 1), (.stb rB rA imm, 1), (.stbio rB rA imm, 1),
            (.flushda rA imm, 1)],
        (s.effective rA imm).toNat % f.2 = 0 →
          exec f.1 s = .next (takeGeneral (.tlbMissData (s.effective rA imm)) s)) ∧
    (∀ e, s.tlbMatches (s.effective rA imm) = [e] →
      (e.r = false →
        ∀ f ∈ [(Instr.ldw rB rA imm, 4), (.ldwio rB rA imm, 4), (.ldh rB rA imm, 2), (.ldhu rB rA imm, 2),
              (.ldhio rB rA imm, 2), (.ldhuio rB rA imm, 2), (.ldb rB rA imm, 1), (.ldbu rB rA imm, 1),
              (.ldbio rB rA imm, 1), (.ldbuio rB rA imm, 1)],
          (s.effective rA imm).toNat % f.2 = 0 →
            exec f.1 s = .next (takeGeneral (.tlbRead (s.effective rA imm)) s)) ∧
      (e.w = false →
        ∀ f ∈ [(Instr.stw rB rA imm, 4), (.stwio rB rA imm, 4), (.sth rB rA imm, 2), (.sthio rB rA imm, 2),
              (.stb rB rA imm, 1), (.stbio rB rA imm, 1)],
          (s.effective rA imm).toNat % f.2 = 0 →
            exec f.1 s = .next (takeGeneral (.tlbWrite (s.effective rA imm)) s)))

/-- Which MPU region decides: one defined by limit covers the addresses from its base up to its limit, one defined by
size those whose masked bits 30:6 are its base; of several the lowest index decides; once no region write is pending
the current attributes are the ones used; and the permissions, by PERM, for supervisor (false) and user (true) mode
(20_memory.md rules R147 to R149 and R151, 70_reset_and_hazards.md rule R501). -/
def Obligations.MpuRegionDecides : Prop :=
  (∀ (c : Config) (r : MpuRegion) (a : Word), a.toNat < 2 ^ 31 →
    (c.mpuUseLimit = true →
      (r.isFor c a = true ↔ r.base.toNat * 64 ≤ a.toNat ∧ a.toNat < r.extent.toNat * 64)) ∧
    (c.mpuUseLimit = false →
      (r.isFor c a = true ↔ a.extractLsb' 6 25 &&& r.extent.extractLsb' 0 25 = r.base))) ∧
  (∀ (s : State) (a : Word), s.mpuOld = [] →
    s.regionFor true a = s.mpuData.find? (fun r => r.isFor s.cfg a) ∧
    s.regionFor false a = s.mpuInstr.find? (fun r => r.isFor s.cfg a)) ∧
  [0, 1, 2].map (fun p => (mayExecute p false, mayExecute p true)) =
    [(some false, some false), (some true, some false), (some true, some true)] ∧
  [0, 1, 2, 4, 5, 6].map (fun p => (mayRead p false, mayRead p true)) =
    [(some false, some false), (some true, some false), (some true, some true), (some true, some false),
      (some true, some true), (some true, some true)] ∧
  [0, 1, 2, 4, 5, 6].map (fun p => (mayWrite p false, mayWrite p true)) =
    [(some false, some false), (some false, some false), (some false, some false), (some true, some false),
      (some true, some false), (some true, some true)]

/-- With the MPU enabled, a load or store aligned to its width, a `flushda` or an implemented `initda` that lies outside
the address space or matches no data region, and a load or store that matches one that forbids it in the current mode,
takes the MPU region violation; `flushda` and `initda` where the region does not grant both reading and writing are
refused (20_memory.md rule R150, 92_eei_decisions.md D37, 60_exceptions.md rule R464; log 23).
Model choices it rests on: log 34. -/
def Obligations.MpuViolationTaken : Prop :=
  ∀ (s : State) (rB rA : RegNum) (imm : BitVec 16), s.cfg.hasMmu = false → s.mpuOn = true → s.mpuOld = [] →
    (inSpace s.cfg (mpuAddress s.cfg (s.effective rA imm)) = false ∨
        s.mpuData.find? (fun r => r.isFor s.cfg (mpuAddress s.cfg (s.effective rA imm))) = none →
      (s.cfg.implemented.initda = true →
        exec (.initda rA imm) s = .next (takeGeneral (.mpuData (s.effective rA imm)) (s.drawn 1))) ∧
      ∀ f ∈ [(Instr.ldw rB rA imm, 4), (.ldwio rB rA imm, 4), (.stw rB rA imm, 4), (.stwio rB rA imm, 4),
            (.ldh rB rA imm, 2), (.ldhu rB rA imm, 2), (.ldhio rB rA imm, 2), (.ldhuio rB rA imm, 2),
            (.sth rB rA imm, 2), (.sthio rB rA imm, 2), (.ldb rB rA imm, 1), (.ldbu rB rA imm, 1),
            (.ldbio rB rA imm, 1), (.ldbuio rB rA imm, 1), (.stb rB rA imm, 1), (.stbio rB rA imm, 1),
            (.flushda rA imm, 1)],
        (s.effective rA imm).toNat % f.2 = 0 →
          exec f.1 s = .next (takeGeneral (.mpuData (s.effective rA imm)) (s.drawn 1))) ∧
    (∀ r, inSpace s.cfg (mpuAddress s.cfg (s.effective rA imm)) = true →
      s.mpuData.find? (fun r => r.isFor s.cfg (mpuAddress s.cfg (s.effective rA imm))) = some r →
      (mayRead r.perm s.status.u = some false →
        ∀ f ∈ [(Instr.ldw rB rA imm, 4), (.ldwio rB rA imm, 4), (.ldh rB rA imm, 2), (.ldhu rB rA imm, 2),
              (.ldhio rB rA imm, 2), (.ldhuio rB rA imm, 2), (.ldb rB rA imm, 1), (.ldbu rB rA imm, 1),
              (.ldbio rB rA imm, 1), (.ldbuio rB rA imm, 1)],
          (s.effective rA imm).toNat % f.2 = 0 →
            exec f.1 s = .next (takeGeneral (.mpuData (s.effective rA imm)) (s.drawn 1))) ∧
      (mayWrite r.perm s.status.u = some false →
        ∀ f ∈ [(Instr.stw rB rA imm, 4), (.stwio rB rA imm, 4), (.sth rB rA imm, 2), (.sthio rB rA imm, 2),
              (.stb rB rA imm, 1), (.stbio rB rA imm, 1)],
          (s.effective rA imm).toNat % f.2 = 0 →
            exec f.1 s = .next (takeGeneral (.mpuData (s.effective rA imm)) (s.drawn 1))) ∧
      (mayRead r.perm s.status.u = some false ∨ mayWrite r.perm s.status.u = some false →
        exec (.flushda rA imm) s = .refused .mpuFlushPermission ∧
        (s.cfg.implemented.initda = true → exec (.initda rA imm) s = .refused .mpuFlushPermission)))

/-! ## Arithmetic, comparison, shift -/

/-- The logical instructions, register and immediate, with the three ways their immediate is extended
(41_arithmetic_logical.md rules R232 to R241).
Model choices it rests on: log 13 (presumed: which fields name the operands and the result). -/
def Obligations.LogicalResults : Prop :=
  ∀ (s : State) (rC rA rB : RegNum) (imm : BitVec 16),
    (∃ t, exec (.and rC rA rB) s = .next t ∧ Retires s t rC (s.x rA &&& s.x rB)) ∧
    (∃ t, exec (.or rC rA rB) s = .next t ∧ Retires s t rC (s.x rA ||| s.x rB)) ∧
    (∃ t, exec (.xor rC rA rB) s = .next t ∧ Retires s t rC (s.x rA ^^^ s.x rB)) ∧
    (∃ t, exec (.nor rC rA rB) s = .next t ∧ Retires s t rC (~~~(s.x rA ||| s.x rB))) ∧
    (∃ t, exec (.andi rB rA imm) s = .next t ∧ Retires s t rB (s.x rA &&& (0#16 ++ imm))) ∧
    (∃ t, exec (.ori rB rA imm) s = .next t ∧ Retires s t rB (s.x rA ||| (0#16 ++ imm))) ∧
    (∃ t, exec (.xori rB rA imm) s = .next t ∧ Retires s t rB (s.x rA ^^^ (0#16 ++ imm))) ∧
    (∃ t, exec (.andhi rB rA imm) s = .next t ∧ Retires s t rB (s.x rA &&& (imm ++ 0#16))) ∧
    (∃ t, exec (.orhi rB rA imm) s = .next t ∧ Retires s t rB (s.x rA ||| (imm ++ 0#16))) ∧
    (∃ t, exec (.xorhi rB rA imm) s = .next t ∧ Retires s t rB (s.x rA ^^^ (imm ++ 0#16)))

/-- Addition and subtraction modulo 2^32: the result as a number (41_arithmetic_logical.md rules R242 to R244).
Model choices it rests on: log 13 (presumed: which fields name the operands and the result). -/
def Obligations.SumResults : Prop :=
  ∀ (s : State) (rC rA rB : RegNum) (imm : BitVec 16),
    (∃ t v, exec (.add rC rA rB) s = .next t ∧ Retires s t rC v ∧
      v.toNat = ((s.x rA).toNat + (s.x rB).toNat) % 2 ^ 32) ∧
    (∃ t v, exec (.sub rC rA rB) s = .next t ∧ Retires s t rC v ∧
      (v.toNat : Int) = ((s.x rA).toNat - (s.x rB).toNat : Int) % 2 ^ 32) ∧
    (∃ t v, exec (.addi rB rA imm) s = .next t ∧ Retires s t rB v ∧
      (v.toNat : Int) = ((s.x rA).toNat + imm.toInt : Int) % 2 ^ 32)

/-- The multiplications: `mul` and `muli` give the low word of the product; `mulxuu`, `mulxss` and `mulxsu` give a high
word that together with the low word is the exact 64-bit product (41_arithmetic_logical.md rules R246 to R250 and
R254).
Model choices it rests on: log 13 (presumed: that `mulxsu` takes rA as signed and rB as unsigned, and which fields name
the operands and the result). -/
def Obligations.ProductResults : Prop :=
  ∀ (s : State) (rC rA rB : RegNum) (imm : BitVec 16),
    (s.cfg.implemented.mul = true →
      ∃ t, exec (.mul rC rA rB) s = .next t ∧ Retires s t rC (s.x rA * s.x rB)) ∧
    (s.cfg.implemented.muli = true →
      ∃ t, exec (.muli rB rA imm) s = .next t ∧ Retires s t rB (s.x rA * imm.signExtend 32)) ∧
    (s.cfg.implemented.mulxuu = true →
      ∃ t v, exec (.mulxuu rC rA rB) s = .next t ∧ Retires s t rC v ∧
        (v ++ s.x rA * s.x rB).toNat = (s.x rA).toNat * (s.x rB).toNat) ∧
    (s.cfg.implemented.mulxss = true →
      ∃ t v, exec (.mulxss rC rA rB) s = .next t ∧ Retires s t rC v ∧
        (v ++ s.x rA * s.x rB).toInt = (s.x rA).toInt * (s.x rB).toInt) ∧
    (s.cfg.implemented.mulxsu = true →
      ∃ t v, exec (.mulxsu rC rA rB) s = .next t ∧ Retires s t rC v ∧
        (v ++ s.x rA * s.x rB).toInt = (s.x rA).toInt * ((s.x rB).toNat : Int))

/-- Division where the quotient can be represented: `div` truncates toward zero, `divu` is the floor
(41_arithmetic_logical.md rules R251, R252 and R254).
Model choices it rests on: log 13 (presumed: that `div` truncates toward zero, and which fields name the operands and
the result). -/
def Obligations.QuotientResults : Prop :=
  ∀ (s : State) (rC rA rB : RegNum), s.x rB ≠ 0 →
    (s.cfg.implemented.div = true → ¬(s.x rA = 0x80000000 ∧ s.x rB = 0xFFFFFFFF) →
      ∃ t v, exec (.div rC rA rB) s = .next t ∧ Retires s t rC v ∧ v.toInt = (s.x rA).toInt.tdiv (s.x rB).toInt) ∧
    (s.cfg.implemented.divu = true →
      ∃ t v, exec (.divu rC rA rB) s = .next t ∧ Retires s t rC v ∧ v.toNat = (s.x rA).toNat / (s.x rB).toNat)

/-- A division by zero, and 0x80000000 by -1 signed: with detection on the division error is taken; with detection off
the instruction completes with a free value, of which nothing is said (41_arithmetic_logical.md rule R253,
60_exceptions.md rule R459; log 18). -/
def Obligations.DivisionErrorOutcome : Prop :=
  ∀ (s : State) (rC rA rB : RegNum),
    (s.x rB = 0 ∨ (s.x rA = 0x80000000 ∧ s.x rB = 0xFFFFFFFF) → s.cfg.implemented.div = true →
      (s.cfg.divErrorDetect = true → exec (.div rC rA rB) s = .next (takeGeneral .division s)) ∧
      (s.cfg.divErrorDetect = false → ∃ t v, exec (.div rC rA rB) s = .next t ∧ t.pc = s.pc + 4 ∧
        WritesRegister s t rC v ∧ { t with pc := s.pc, regs := s.regs, draws := s.draws } = s)) ∧
    (s.x rB = 0 → s.cfg.implemented.divu = true →
      (s.cfg.divErrorDetect = true → exec (.divu rC rA rB) s = .next (takeGeneral .division s)) ∧
      (s.cfg.divErrorDetect = false → ∃ t v, exec (.divu rC rA rB) s = .next t ∧ t.pc = s.pc + 4 ∧
        WritesRegister s t rC v ∧ { t with pc := s.pc, regs := s.regs, draws := s.draws } = s))

/-- The eight instructions a core may leave out take the unimplemented instruction exception where it does: cause 4, the
general vector, ea the address of the instruction plus 4 where no exception was active, and no other register written;
no other instruction, and none of the eight that is implemented, takes it (47_custom_nop_unimplemented.md rule R395). -/
def Obligations.UnimplementedTaken : Prop :=
  (∀ (s : State) (rC rA rB : RegNum) (imm : BitVec 16),
    ∀ f ∈ [(Instr.mul rC rA rB, s.cfg.implemented.mul), (.muli rB rA imm, s.cfg.implemented.muli),
        (.mulxss rC rA rB, s.cfg.implemented.mulxss), (.mulxsu rC rA rB, s.cfg.implemented.mulxsu),
        (.mulxuu rC rA rB, s.cfg.implemented.mulxuu), (.div rC rA rB, s.cfg.implemented.div),
        (.divu rC rA rB, s.cfg.implemented.divu), (.initda rA imm, s.cfg.implemented.initda)],
      f.2 = false →
      ∃ t, exec f.1 s = .next t ∧ t = takeGeneral .unimplemented s ∧ (s.cfg.excInfo = true → t.cause = 4) ∧
        t.pc = s.cfg.vectorPc s.cfg.exceptionAddr ∧ (s.status.eh = false → OnlyRegister s t 0 29 (s.pc + 4)) ∧
        (s.status.eh = true → SameRegisters s t)) ∧
  (∀ (s t : State) (i : Instr), s.cfg.excInfo = true → s.cause ≠ 4 → exec i s = .next t → t.cause = 4 →
    ∃ (rC rA rB : RegNum) (imm : BitVec 16),
      (i, false) ∈ [(Instr.mul rC rA rB, s.cfg.implemented.mul), (.muli rB rA imm, s.cfg.implemented.muli),
        (.mulxss rC rA rB, s.cfg.implemented.mulxss), (.mulxsu rC rA rB, s.cfg.implemented.mulxsu),
        (.mulxuu rC rA rB, s.cfg.implemented.mulxuu), (.div rC rA rB, s.cfg.implemented.div),
        (.divu rC rA rB, s.cfg.implemented.divu), (.initda rA imm, s.cfg.implemented.initda)])

/-- The comparisons write 1 or 0: signed relations over integers, unsigned over naturals; `cmpgeui` and `cmpltui`
zero-extend their immediate, the others sign-extend it (43_comparison.md rules R270 to R283).
Model choices it rests on: log 13 (presumed: that the results are 1 and 0, and that `cmpeqi` and `cmpnei` sign-extend).
-/
def Obligations.ComparisonResults : Prop :=
  ∀ (s : State) (rC rA rB : RegNum) (imm : BitVec 16),
    (∃ t, exec (.cmpeq rC rA rB) s = .next t ∧ Retires s t rC (if s.x rA = s.x rB then 1 else 0)) ∧
    (∃ t, exec (.cmpne rC rA rB) s = .next t ∧ Retires s t rC (if s.x rA = s.x rB then 0 else 1)) ∧
    (∃ t, exec (.cmpge rC rA rB) s = .next t ∧ Retires s t rC (if (s.x rA).toInt < (s.x rB).toInt then 0 else 1)) ∧
    (∃ t, exec (.cmpgeu rC rA rB) s = .next t ∧ Retires s t rC (if (s.x rA).toNat < (s.x rB).toNat then 0 else 1)) ∧
    (∃ t, exec (.cmplt rC rA rB) s = .next t ∧ Retires s t rC (if (s.x rA).toInt < (s.x rB).toInt then 1 else 0)) ∧
    (∃ t, exec (.cmpltu rC rA rB) s = .next t ∧ Retires s t rC (if (s.x rA).toNat < (s.x rB).toNat then 1 else 0)) ∧
    (∃ t, exec (.cmpeqi rB rA imm) s = .next t ∧ Retires s t rB (if (s.x rA).toInt = imm.toInt then 1 else 0)) ∧
    (∃ t, exec (.cmpnei rB rA imm) s = .next t ∧ Retires s t rB (if (s.x rA).toInt = imm.toInt then 0 else 1)) ∧
    (∃ t, exec (.cmpgei rB rA imm) s = .next t ∧ Retires s t rB (if (s.x rA).toInt < imm.toInt then 0 else 1)) ∧
    (∃ t, exec (.cmpgeui rB rA imm) s = .next t ∧ Retires s t rB (if (s.x rA).toNat < imm.toNat then 0 else 1)) ∧
    (∃ t, exec (.cmplti rB rA imm) s = .next t ∧ Retires s t rB (if (s.x rA).toInt < imm.toInt then 1 else 0)) ∧
    (∃ t, exec (.cmpltui rB rA imm) s = .next t ∧ Retires s t rB (if (s.x rA).toNat < imm.toNat then 1 else 0))

/-- The shifts and rotates, bit by bit: the count is rB modulo 32 or the immediate, a rotate brings bits round, `sll`
and `srl` bring in zeros, `sra` copies of the sign (44_shift_rotate.md rules R300 to R309).
Model choices it rests on: log 13 (presumed: that the count is the low five bits of rB). -/
def Obligations.ShiftResults : Prop :=
  ∀ (s : State) (rC rA rB : RegNum) (imm : BitVec 5),
    (∃ t v, exec (.rol rC rA rB) s = .next t ∧ Retires s t rC v ∧
      ∀ j < 32, v.getLsbD ((j + (s.x rB).toNat) % 32) = (s.x rA).getLsbD j) ∧
    (∃ t v, exec (.ror rC rA rB) s = .next t ∧ Retires s t rC v ∧
      ∀ j < 32, v.getLsbD j = (s.x rA).getLsbD ((j + (s.x rB).toNat) % 32)) ∧
    (∃ t v, exec (.roli rC rA imm) s = .next t ∧ Retires s t rC v ∧
      ∀ j < 32, v.getLsbD ((j + imm.toNat) % 32) = (s.x rA).getLsbD j) ∧
    (∃ t v, exec (.sll rC rA rB) s = .next t ∧ Retires s t rC v ∧
      ∀ j < 32, v.getLsbD j =
        (decide ((s.x rB).toNat % 32 ≤ j) && (s.x rA).getLsbD (j - (s.x rB).toNat % 32))) ∧
    (∃ t v, exec (.slli rC rA imm) s = .next t ∧ Retires s t rC v ∧
      ∀ j < 32, v.getLsbD j = (decide (imm.toNat ≤ j) && (s.x rA).getLsbD (j - imm.toNat))) ∧
    (∃ t v, exec (.srl rC rA rB) s = .next t ∧ Retires s t rC v ∧
      ∀ j < 32, v.getLsbD j = (s.x rA).getLsbD (j + (s.x rB).toNat % 32)) ∧
    (∃ t v, exec (.srli rC rA imm) s = .next t ∧ Retires s t rC v ∧
      ∀ j < 32, v.getLsbD j = (s.x rA).getLsbD (j + imm.toNat)) ∧
    (∃ t v, exec (.sra rC rA rB) s = .next t ∧ Retires s t rC v ∧
      ∀ j < 32, v.getLsbD j = (s.x rA).getLsbD (min (j + (s.x rB).toNat % 32) 31)) ∧
    (∃ t v, exec (.srai rC rA imm) s = .next t ∧ Retires s t rC v ∧
      ∀ j < 32, v.getLsbD j = (s.x rA).getLsbD (min (j + imm.toNat) 31))

/-! ## Program control -/

/-- `call` and `jmpi` go to the word their immediate names in the 256 MB segment of the pc, and `call` and `nextpc`
write the address of the next instruction (45_program_control.md rules R324, R328 and R329).
Model choices it rests on: log 13 (presumed: that the target keeps the 256 MB segment of the pc, all that `nextpc`
does, and that there is no delay slot). -/
def Obligations.CallsAndJumps : Prop :=
  ∀ (s : State) (rC : RegNum) (imm : BitVec 26),
    (∃ t, exec (.call imm) s = .next t ∧ t.pc.toNat = s.pc.toNat / 2 ^ 28 * 2 ^ 28 + imm.toNat * 4 ∧
      WritesRegister s t 31 (s.pc + 4) ∧ QuietBut s t) ∧
    (∃ t, exec (.jmpi imm) s = .next t ∧ t.pc.toNat = s.pc.toNat / 2 ^ 28 * 2 ^ 28 + imm.toNat * 4 ∧
      Jumps s t t.pc) ∧
    (∃ t, exec (.nextpc rC) s = .next t ∧ Retires s t rC (s.pc + 4))

/-- `callr`, `jmp` and `ret` go to the address in a register where it is a multiple of four; `callr` reads it before it
writes ra (45_program_control.md rules R325 to R327).
Model choices it rests on: log 13 (presumed: that there is no delay slot). -/
def Obligations.RegisterJumps : Prop :=
  ∀ (s : State) (rA : RegNum),
    ((s.x rA).toNat % 4 = 0 →
      (∃ t, exec (.callr rA) s = .next t ∧ t.pc = s.x rA ∧ WritesRegister s t 31 (s.pc + 4) ∧ QuietBut s t) ∧
      (∃ t, exec (.jmp rA) s = .next t ∧ Jumps s t (s.x rA))) ∧
    ((s.x 31).toNat % 4 = 0 → ∃ t, exec .ret s = .next t ∧ Jumps s t (s.x 31))

/-- `br` and the conditional branches with an offset that is a multiple of four, at an aligned pc: a taken branch goes
to `pc + 4` plus the signed offset, one not taken to `pc + 4`; nothing else changes (45_program_control.md rules R330
to R337).
Model choices it rests on: log 13 (presumed: that the offset is relative to `pc + 4`, and that `br` has no delay slot).
-/
def Obligations.BranchOutcomes : Prop :=
  ∀ (s : State) (rA rB : RegNum) (imm : BitVec 16), s.pc.toNat % 4 = 0 → imm.toNat % 4 = 0 →
    (∃ t, exec (.br imm) s = .next t ∧ Jumps s t (s.pc + 4 + BitVec.ofInt 32 imm.toInt)) ∧
    ∀ b ∈ [(Instr.beq rA rB imm, decide (s.x rA = s.x rB)), (.bne rA rB imm, decide (s.x rA ≠ s.x rB)),
        (.bge rA rB imm, decide ((s.x rB).toInt ≤ (s.x rA).toInt)),
        (.bgeu rA rB imm, decide ((s.x rB).toNat ≤ (s.x rA).toNat)),
        (.blt rA rB imm, decide ((s.x rA).toInt < (s.x rB).toInt)),
        (.bltu rA rB imm, decide ((s.x rA).toNat < (s.x rB).toNat))],
      ∃ t, exec b.1 s = .next t ∧ Jumps s t (if b.2 then s.pc + 4 + BitVec.ofInt 32 imm.toInt else s.pc + 4)

/-- A control transfer to an address that is no multiple of four takes the misaligned destination address exception
where detection is on; a conditional branch only when it is taken, and else it goes to `pc + 4` (45_program_control.md
rule R321, 60_exceptions.md rule R458).
Model choices it rests on: log 13 (presumed: that a conditional branch is checked only when it is taken, and that the
offset is relative to `pc + 4`). -/
def Obligations.MisalignedTargetTaken : Prop :=
  ∀ (s : State) (rA rB : RegNum) (imm : BitVec 16), s.cfg.illegalMem = true →
    (¬(s.x rA).toNat % 4 = 0 → exec (.callr rA) s = .next (takeGeneral (.misalignedDest (s.x rA)) s) ∧
      exec (.jmp rA) s = .next (takeGeneral (.misalignedDest (s.x rA)) s)) ∧
    (¬(s.x 31).toNat % 4 = 0 → exec .ret s = .next (takeGeneral (.misalignedDest (s.x 31)) s)) ∧
    (s.pc.toNat % 4 = 0 → ¬imm.toNat % 4 = 0 →
      exec (.br imm) s = .next (takeGeneral (.misalignedDest (s.pc + 4 + imm.signExtend 32)) s) ∧
      ∀ b ∈ [(Instr.beq rA rB imm, decide (s.x rA = s.x rB)), (.bne rA rB imm, decide (s.x rA ≠ s.x rB)),
          (.bge rA rB imm, decide ((s.x rB).toInt ≤ (s.x rA).toInt)),
          (.bgeu rA rB imm, decide ((s.x rB).toNat ≤ (s.x rA).toNat)),
          (.blt rA rB imm, decide ((s.x rA).toInt < (s.x rB).toInt)),
          (.bltu rA rB imm, decide ((s.x rA).toNat < (s.x rB).toNat))],
        exec b.1 s = if b.2 then .next (takeGeneral (.misalignedDest (s.pc + 4 + imm.signExtend 32)) s)
          else .next { s with pc := s.pc + 4 }) ∧
    (s.status.u = false → ¬(s.xs s.status.crs 29).toNat % 4 = 0 →
      exec .eret s = .next (takeGeneral (.misalignedDest (s.xs s.status.crs 29)) s)) ∧
    (s.status.u = false → ¬(s.xs 0 30).toNat % 4 = 0 →
      exec .bret s = .next (takeGeneral (.misalignedDest (s.xs 0 30)) s))

/-! ## Exceptions and returns -/

/-- Taking an exception, every one of them: status goes to estatus, the return address to ea of the normal register set
and the current set to PRS, unless an exception was active; the handler runs in supervisor mode, in the normal set, with
interrupts off, at the general vector or, for a miss with no exception active, the fast TLB miss vector; CAUSE says what
it was, by the code of each; and `trap` in particular takes it (60_exceptions.md rules R402, R410, R411 and R415,
46_other_control.md rule R350).
Model choices it rests on: logs 13 (presumed: that CRS is copied to PRS, and that IMM5 of `trap` is ignored) and 26. -/
def Obligations.GeneralEntry : Prop :=
  (∀ (s : State) (k : BitVec 5), exec (.trap k) s = .next (takeGeneral .trap s)) ∧
  (∀ va : Word,
    [Exc.internalInterrupt, .trap, .unimplemented, .illegalInstr, .misalignedData va, .misalignedDest va, .division,
        .supervisorOnlyInstrAddress, .supervisorOnlyInstr, .supervisorOnlyData va, .tlbMissInstr va, .tlbMissData va,
        .tlbExecute va, .tlbRead va, .tlbWrite va, .mpuInstr, .mpuData va].map Exc.cause =
      [2, 3, 4, 5, 6, 7, 8, 9, 10, 11, 12, 12, 13, 14, 15, 16, 17]) ∧
  ∀ (e : Exc) (s t : State), t = takeGeneral e s →
    (s.status.eh = false → t.estatus = s.status ∧ t.status.prs = s.status.crs ∧ OnlyRegister s t 0 29 (s.pc + 4)) ∧
    (s.status.eh = true → t.estatus = s.estatus ∧ t.status.prs = s.status.prs ∧ SameRegisters s t) ∧
    t.status.crs = 0 ∧ t.status.pie = false ∧ t.status.u = false ∧ t.status.eh = (s.status.eh || s.cfg.hasMmu) ∧
    t.status.ih = s.status.ih ∧ t.status.il = s.status.il ∧ t.status.nmi = s.status.nmi ∧
    t.status.rsie = s.status.rsie ∧
    (s.cfg.excInfo = true → t.cause = e.cause) ∧ (s.cfg.excInfo = false → t.cause = s.cause ∧ t.badaddr = s.badaddr) ∧
    (e.isTlbMiss = true ∧ s.status.eh = false → t.pc = s.cfg.vectorPc s.cfg.fastTlbMissAddr) ∧
    (e.isTlbMiss = false ∨ s.status.eh = true → t.pc = s.cfg.vectorPc s.cfg.exceptionAddr) ∧
    { t with estatus := s.estatus, regs := s.regs, status := s.status, tlbmisc := s.tlbmisc, pteaddr := s.pteaddr,
             cause := s.cause, badaddr := s.badaddr, mpuOld := s.mpuOld, pc := s.pc } = s

/-- What an exception leaves in tlbmisc, pteaddr and badaddr with an MMU, row by row of the table of 60_exceptions.md
rule R412: the flags (D, DBL, PERM, BAD), WE, the page, and badaddr as rule R413 says. Without an MMU, badaddr: bit 31
of a data address is 0 there, with neither MMU nor MPU an address is cut to the width of the address space, and the
exceptions that concern no address leave it alone (10_state.md rule R59; log 32).
Model choices it rests on: logs 13 (presumed: that an exception outside the list of a flag clears it), 26 and 32. -/
def Obligations.MmuEntryRecords : Prop :=
  (∀ (s : State) (va : Word), s.cfg.hasMmu = false → s.cfg.excInfo = true →
    (s.cfg.hasMpu = true →
      (takeGeneral (.misalignedData va) s).badaddr.toNat = va.toNat % 2 ^ 31 ∧
      (takeGeneral (.mpuData va) s).badaddr.toNat = va.toNat % 2 ^ 31 ∧
      (takeGeneral (.misalignedDest va) s).badaddr = va) ∧
    (s.cfg.hasMpu = false → s.cfg.addrBits ≤ 31 →
      (takeGeneral (.misalignedData va) s).badaddr.toNat = va.toNat % 2 ^ s.cfg.addrBits ∧
      (takeGeneral (.misalignedDest va) s).badaddr.toNat = va.toNat % 2 ^ s.cfg.addrBits) ∧
    ∀ e ∈ [Exc.mpuInstr, .trap, .illegalInstr, .unimplemented, .supervisorOnlyInstr, .division, .internalInterrupt],
      (takeGeneral e s).badaddr = s.badaddr) ∧
  ∀ (s : State) (va : Word), s.cfg.hasMmu = true →
    (∀ row ∈ [(Exc.supervisorOnlyInstrAddress, false, false, false, true, false, false),
        (.tlbMissInstr va, false, s.status.eh, false, false, !s.status.eh, false),
        (.tlbExecute va, false, false, true, false, true, false),
        (.supervisorOnlyData va, true, false, false, true, false, true),
        (.misalignedData va, true, false, false, true, false, true),
        (.misalignedDest va, false, false, false, true, false, true),
        (.tlbMissData va, true, s.status.eh, false, false, !s.status.eh, true),
        (.tlbRead va, true, false, true, false, true, true), (.tlbWrite va, true, false, true, false, true, true),
        (.trap, false, false, false, false, false, false), (.illegalInstr, false, false, false, false, false, false),
        (.unimplemented, false, false, false, false, false, false),
        (.supervisorOnlyInstr, false, false, false, false, false, false),
        (.division, false, false, false, false, false, false),
        (.internalInterrupt, false, false, false, false, false, false)],
      (takeGeneral row.1 s).tlbmisc =
          { s.tlbmisc with d := row.2.1, dbl := row.2.2.1, perm := row.2.2.2.1, bad := row.2.2.2.2.1,
                           we := s.tlbmisc.we || row.2.2.2.2.2.1 } ∧
        (takeGeneral row.1 s).badaddr = (if row.2.2.2.2.2.2 then va else s.badaddr)) ∧
    (∀ e ∈ [Exc.tlbMissInstr va, .tlbExecute va, .tlbMissData va, .tlbRead va, .tlbWrite va],
      (takeGeneral e s).pteaddr =
        if s.status.eh then s.pteaddr else { s.pteaddr with vpn := va.extractLsb' 12 20 }) ∧
    (∀ e : Exc, e.isTlbMiss = false → e.isTlbPermission = false → (takeGeneral e s).pteaddr = s.pteaddr)

/-- Break entry, by the `break` instruction in any mode, or by the debug module where it asks for one and is not in
control: status goes to bstatus, the address of the next instruction plus (for the debug module) 4 to ba of the normal
set, the current set to PRS, and the handler runs at the break vector in supervisor mode with interrupts off; estatus,
CAUSE and the rest of status are unchanged, and so is every register but ba and, with a debug module, bt, of which
nothing is said (60_exceptions.md rules R440 to R442).
Model choices it rests on: logs 13 (presumed: that IMM5 of `break` is ignored, and the return address of a hardware
break) and 30. -/
def Obligations.BreakEntry : Prop :=
  (∀ (s : State) (k : BitVec 5), exec (.brk k) s = .next (takeBreak s)) ∧
  (∀ s : State, s.pins.reset = false → s.cfg.hasDebug = true → s.pins.debugRequest = true → s.paused = false →
    s.event = some (.next (takeBreak s))) ∧
  ∀ s t : State, t = takeBreak s →
    t.bstatus = s.status ∧ t.xs 0 30 = s.pc + 4 ∧ t.pc = s.cfg.vectorPc s.cfg.breakAddr ∧
    (s.cfg.hasDebug = false → OnlyRegister s t 0 30 (s.pc + 4) ∧ t.draws = s.draws) ∧
    (∀ set j, ¬(set = 0 ∧ (j = 25 ∨ j = 30)) → t.xs set j = s.xs set j) ∧
    t.status = { s.status with pie := false, u := false, eh := s.status.eh || s.cfg.hasMmu, prs := s.status.crs,
                               crs := 0 } ∧
    t.paused = s.cfg.hasDebug ∧
    { t with bstatus := s.bstatus, regs := s.regs, pc := s.pc, status := s.status, paused := s.paused,
             mpuOld := s.mpuOld, draws := s.draws } = s

/-- `eret` and `bret` in supervisor mode, to an aligned address and a status that names register sets of the core:
`eret` restores estatus in the normal set and sstatus in a shadow set, and goes to ea of that set; `bret` restores
bstatus and goes to ba of the normal set; every implemented field of status is replaced, an absent RSIE as 1 (log 27),
region writes have taken effect (log 22), and nothing else changes, but that a debug module in control gives it up at
`bret` and leaves bt, ba and bstatus with values of which nothing is said (log 30) (46_other_control.md rules R351 and
R353, 60_exceptions.md rule R442).
Model choices it rests on: logs 22, 27, 28 and 30. -/
def Obligations.ReturnsRestore : Prop :=
  ∀ s : State, s.status.u = false →
    (s.status.crs = 0 → (s.xs 0 29).toNat % 4 = 0 → (s.estatus.implement s.cfg).setsExist s.cfg = true →
      exec .eret s = .next { s with status := s.estatus.implement s.cfg, pc := s.xs 0 29, mpuOld := [] }) ∧
    (s.status.crs ≠ 0 → (s.xs s.status.crs 29).toNat % 4 = 0 →
      ((Status.ofWord (s.xs s.status.crs 30)).implement s.cfg).setsExist s.cfg = true →
      exec .eret s = .next { s with status := (Status.ofWord (s.xs s.status.crs 30)).implement s.cfg,
                                    pc := s.xs s.status.crs 29, mpuOld := [] }) ∧
    ((s.xs 0 30).toNat % 4 = 0 → (s.bstatus.implement s.cfg).setsExist s.cfg = true →
      (s.paused = false →
        exec .bret s = .next { s with status := s.bstatus.implement s.cfg, pc := s.xs 0 30, mpuOld := [] }) ∧
      (s.paused = true → ∃ t, exec .bret s = .next t ∧ t.status = s.bstatus.implement s.cfg ∧ t.pc = s.xs 0 30 ∧
        t.mpuOld = [] ∧ t.paused = false ∧
        (∀ set j, ¬(set = 0 ∧ (j = 25 ∨ j = 30)) → t.xs set j = s.xs set j) ∧
        { t with pc := s.pc, regs := s.regs, status := s.status, bstatus := s.bstatus, mpuOld := s.mpuOld,
                 paused := s.paused, draws := s.draws } = s))

/-- An exception of a machine with no exception active, followed at once by `eret`, resumes after the instruction that
raised it with the status it had; a `break` followed by `bret` does so whatever was active, and gives back every
register but ba and, with a debug module, bt (46_other_control.md rules R350 to R353, 60_exceptions.md rule R442).
Model choices it rests on: logs 26 and 30. -/
def Obligations.EntryThenReturn : Prop :=
  ∀ s : State, Inv s →
    (∀ e : Exc, s.status.eh = false → ∃ t, exec .eret (takeGeneral e s) = .next t ∧ t.status = s.status ∧
      t.pc = s.pc + 4 ∧ ∀ set j, ¬(set = 0 ∧ j = 29) → t.xs set j = s.xs set j) ∧
    (∃ t, exec .bret (takeBreak s) = .next t ∧ t.status = s.status ∧ t.pc = s.pc + 4 ∧
      ∀ set j, ¬(set = 0 ∧ (j = 30 ∨ (s.cfg.hasDebug = true ∧ j = 25))) → t.xs set j = s.xs set j)

/-- The supervisor-only instructions in user mode take the exception and have no effect (60_exceptions.md rule R452).
Model choices it rests on: log 13 (presumed: the list but for `rdctl` and `wrctl`). -/
def Obligations.SupervisorOnlyTaken : Prop :=
  ∀ (s : State) (rA rB rC : RegNum) (imm : BitVec 16) (n : CtlReg), s.status.u = true →
    ∀ i ∈ [Instr.rdctl rC n, .wrctl n rA, .eret, .bret, .initd rA imm, .initi rA, .rdprs rB rA imm, .wrprs rC rA],
      exec i s = .next (takeGeneral .supervisorOnlyInstr s)

/-! ## Control registers -/

/-- `rdctl` in supervisor mode completes for every register that is there, with the word of that register, and changes
nothing else: which registers are there in a configuration, and the state each one's word is made of; mpuacc.C reads 0
while mpubase selects an instruction region, ipending is the enabled inputs that are asserted, and 0 with an EIC.
`rdctl` and `wrctl` of a register that is not there are refused (46_other_control.md rule R354, 10_state.md rules R30,
R31, R42 to R50, R59 to R62, R65 and R69).
Model choices it rests on: logs 16, 31 (eccinj is there in no configuration, with ECC out of scope), 40 and 42. -/
def Obligations.RdctlReads : Prop :=
  ∀ (s : State) (rC rA : RegNum), s.status.u = false →
    (∀ n, ctlPresent s.cfg n = true → ∃ t, exec (.rdctl rC n) s = .next t ∧ Retires s t rC (s.readCtl n)) ∧
    (∀ n, ctlPresent s.cfg n = false → exec (.rdctl rC n) s = .refused .reservedControl ∧
      exec (.wrctl n rA) s = .refused .reservedControl) ∧
    (∀ n ∈ [CtlReg.status, .estatus, .bstatus, .ipending, .cpuid], ctlPresent s.cfg n = true) ∧
    (ctlPresent s.cfg .ienable = true ↔ s.cfg.hasEic = false) ∧
    (∀ n ∈ [CtlReg.exception, .badaddr], ctlPresent s.cfg n = true ↔
      (s.cfg.hasMmu = true ∨ s.cfg.hasMpu = true ∨ s.cfg.extraExcInfo = true)) ∧
    (∀ n ∈ [CtlReg.pteaddr, .tlbacc, .tlbmisc], ctlPresent s.cfg n = s.cfg.hasMmu) ∧
    (ctlPresent s.cfg .config = true ↔ s.cfg.hasMpu = true ∨ (s.cfg.hasEic = true ∧ s.cfg.numShadow ≠ 0)) ∧
    (∀ n ∈ [CtlReg.mpubase, .mpuacc], ctlPresent s.cfg n = s.cfg.hasMpu) ∧
    ctlPresent s.cfg .eccinj = false ∧ (∀ k, ctlPresent s.cfg (.reserved k) = false) ∧
    s.readCtl .status = s.status.toWord ∧ s.readCtl .estatus = s.estatus.toWord ∧
    s.readCtl .bstatus = s.bstatus.toWord ∧ s.readCtl .ienable = s.ienable ∧
    s.readCtl .ipending = (if s.cfg.hasEic then 0 else s.pins.irq &&& s.ienable) ∧ s.readCtl .cpuid = s.cfg.cpuid ∧
    s.readCtl .exception = causeWord s.cause ∧ s.readCtl .badaddr = s.badaddr ∧
    s.readCtl .pteaddr = s.pteaddr.toWord ∧ s.readCtl .tlbacc = s.tlbacc.toWord ∧
    s.readCtl .tlbmisc = s.tlbmisc.toWord ∧ s.readCtl .config = s.config.toWord ∧
    s.readCtl .mpubase = s.mpubase.toWord ∧
    s.readCtl .mpuacc = { s.mpuacc with c := s.mpuacc.c && s.mpubase.d }.toWord

/-- Where the fields of the control registers stand in the word that is read, the rest of it 0 (10_state.md rules R31,
R47 to R50, R53 and R60 to R62).
Model choices it rests on: logs 13 (presumed: positions of fields), 17 (reserved bits read 0) and 31 (the ECC fields EE,
ECCEN, ECCEXE and ECCFTL read 0). -/
def Obligations.RegisterLayouts : Prop :=
  (∀ t : Status, t.toWord.extractLsb' 24 8 = 0 ∧ t.toWord.getLsbD 23 = t.rsie ∧ t.toWord.getLsbD 22 = t.nmi ∧
    t.toWord.extractLsb' 16 6 = t.prs ∧ t.toWord.extractLsb' 10 6 = t.crs ∧ t.toWord.extractLsb' 4 6 = t.il ∧
    t.toWord.getLsbD 3 = t.ih ∧ t.toWord.getLsbD 2 = t.eh ∧ t.toWord.getLsbD 1 = t.u ∧ t.toWord.getLsbD 0 = t.pie ∧
    Status.ofWord t.toWord = t) ∧
  (∀ p : Pteaddr, p.toWord.extractLsb' 22 10 = p.ptbase ∧ p.toWord.extractLsb' 2 20 = p.vpn ∧
    p.toWord.extractLsb' 0 2 = 0) ∧
  (∀ a : Tlbacc, a.toWord.extractLsb' 25 7 = 0 ∧ a.toWord.getLsbD 24 = a.c ∧ a.toWord.getLsbD 23 = a.r ∧
    a.toWord.getLsbD 22 = a.w ∧ a.toWord.getLsbD 21 = a.x ∧ a.toWord.getLsbD 20 = a.g ∧
    a.toWord.extractLsb' 0 20 = a.pfn) ∧
  (∀ m : Tlbmisc, m.toWord.extractLsb' 24 8 = 0 ∧ m.toWord.extractLsb' 20 4 = m.way ∧ m.toWord.getLsbD 19 = false ∧
    m.toWord.getLsbD 18 = m.we ∧ m.toWord.extractLsb' 4 14 = m.pid ∧ m.toWord.getLsbD 3 = m.dbl ∧
    m.toWord.getLsbD 2 = m.bad ∧ m.toWord.getLsbD 1 = m.perm ∧ m.toWord.getLsbD 0 = m.d) ∧
  (∀ k : BitVec 5, (causeWord k).toNat = 4 * k.toNat) ∧
  (∀ r : ConfigReg, r.toWord.getLsbD 0 = r.pe ∧ r.toWord.getLsbD 1 = r.ani ∧ r.toWord.extractLsb' 2 30 = 0) ∧
  (∀ b : Mpubase, b.toWord.getLsbD 31 = false ∧ b.toWord.extractLsb' 6 25 = b.base ∧
    b.toWord.extractLsb' 1 5 = b.index ∧ b.toWord.getLsbD 0 = b.d) ∧
  (∀ a : Mpuacc, a.toWord.extractLsb' 6 26 = a.extent ∧ a.toWord.getLsbD 5 = a.c ∧ a.toWord.extractLsb' 2 3 = a.perm ∧
    a.toWord.extractLsb' 0 2 = 0)

/-- `wrctl status` in supervisor mode: each implemented field but CRS and NMI takes its bit or bits of the value, CRS
and NMI keep theirs, an absent field reads as a constant; region writes have taken effect, and nothing else changes. A
PRS above the last register set is refused (10_state.md rule R41, 20_memory.md rule R155; 93_implementation_defined.md
U18).
Model choices it rests on: logs 13 (presumed: positions of fields, and that an absent RSIE reads as 1), 17, 22 and 28.
-/
def Obligations.WrctlStatus : Prop :=
  ∀ (s : State) (rA : RegNum), s.status.u = false →
    ((s.x rA).extractLsb' 16 6 &&& s.cfg.setMask ≤ s.cfg.numShadow →
      ∃ t, exec (.wrctl .status rA) s = .next t ∧ t.pc = s.pc + 4 ∧
        t.status.pie = (s.x rA).getLsbD 0 ∧ t.status.u = ((s.x rA).getLsbD 1 && (s.cfg.hasMmu || s.cfg.hasMpu)) ∧
        t.status.eh = ((s.x rA).getLsbD 2 && s.cfg.hasMmu) ∧ t.status.ih = ((s.x rA).getLsbD 3 && s.cfg.hasEic) ∧
        t.status.il = (if s.cfg.hasEic then (s.x rA).extractLsb' 4 6 else 0) ∧ t.status.crs = s.status.crs ∧
        t.status.prs = (s.x rA).extractLsb' 16 6 &&& s.cfg.setMask ∧ t.status.nmi = s.status.nmi ∧
        t.status.rsie = ((s.x rA).getLsbD 23 || !(s.cfg.hasEic && s.cfg.numShadow != 0)) ∧ t.mpuOld = [] ∧
        { t with pc := s.pc, status := s.status, mpuOld := s.mpuOld } = s) ∧
    (¬(s.x rA).extractLsb' 16 6 &&& s.cfg.setMask ≤ s.cfg.numShadow →
      exec (.wrctl .status rA) s = .refused .noSuchRegisterSet)

/-- `wrctl` in supervisor mode of the registers that start no operation: estatus, bstatus, ienable, pteaddr, config and
mpubase take their implemented fields, an absent RSIE of estatus and bstatus as 1 (log 27), ienable the bits whose irq
inputs are connected, the others as the configuration has them (log 5); ipending, cpuid, exception and badaddr ignore
the write; nothing else changes but that region writes have taken effect, where the write is not to mpubase
(46_other_control.md rule R355, 20_memory.md rule R155, 92_eei_decisions.md D26; which registers are there: log 40).
Model choices it rests on: logs 5, 13 (presumed: positions of fields, and that cpuid ignores a write), 17, 22, 27, 31
(no ECC fields) and 40. -/
def Obligations.WrctlPlain : Prop :=
  ∀ (s : State) (rA : RegNum), s.status.u = false →
    exec (.wrctl .estatus rA) s =
      .next { s with pc := s.pc + 4, mpuOld := [], estatus := (Status.ofWord (s.x rA)).implement s.cfg } ∧
    exec (.wrctl .bstatus rA) s =
      .next { s with pc := s.pc + 4, mpuOld := [], bstatus := (Status.ofWord (s.x rA)).implement s.cfg } ∧
    (s.cfg.hasEic = false →
      exec (.wrctl .ienable rA) s =
        .next
          { s with
            pc := s.pc + 4
            mpuOld := []
            ienable := (s.x rA &&& s.cfg.irqConnected) ||| (s.cfg.ienableUnconnected &&& ~~~s.cfg.irqConnected) }) ∧
    exec (.wrctl .ipending rA) s = .next { s with pc := s.pc + 4, mpuOld := [] } ∧
    exec (.wrctl .cpuid rA) s = .next { s with pc := s.pc + 4, mpuOld := [] } ∧
    (s.cfg.excInfo = true → exec (.wrctl .exception rA) s = .next { s with pc := s.pc + 4, mpuOld := [] } ∧
      exec (.wrctl .badaddr rA) s = .next { s with pc := s.pc + 4, mpuOld := [] }) ∧
    (s.cfg.hasMmu = true →
      exec (.wrctl .pteaddr rA) s =
        .next
          { s with
            pc := s.pc + 4
            mpuOld := []
            pteaddr := { ptbase := (s.x rA).extractLsb' 22 10, vpn := (s.x rA).extractLsb' 2 20 } }) ∧
    (s.cfg.hasConfigReg = true →
      exec (.wrctl .config rA) s =
        .next
          { s with
            pc := s.pc + 4
            mpuOld := []
            config := { pe := (s.x rA).getLsbD 0 && s.cfg.hasMpu, ani := (s.x rA).getLsbD 1 && s.cfg.hasNesting } }) ∧
    (s.cfg.hasMpu = true →
      exec (.wrctl .mpubase rA) s =
        .next
          { s with
            pc := s.pc + 4
            mpubase :=
              { base := (s.x rA).extractLsb' 6 25 &&& s.cfg.baseMask
                index := (s.x rA).extractLsb' 1 5 &&& s.cfg.indexMask
                d := (s.x rA).getLsbD 0 } })

/-- The TLB operations: a `wrctl` to tlbacc with WE set writes the entry of pteaddr.VPN and WAY, no other, and goes on
to the next way, wrapping after the last; a `wrctl` to tlbmisc with RD set that names the same way, from any state of
the machine with that TLB whose pteaddr.VPN selects the same line, then reads back what was written: page, process,
frame and permissions (20_memory.md rules R135 and R136). PFN is cut to its configured width (log 17).
Model choices it rests on: logs 13 (presumed: the line portion of a page number, and that WAY wraps), 17 and 37. -/
def Obligations.TlbWriteThenRead : Prop :=
  ∀ (s t : State) (rA : RegNum), Inv s → s.status.u = false → s.cfg.hasMmu = true → s.tlbmisc.we = true →
    exec (.wrctl .tlbacc rA) s = .next t →
      t.tlbacc = { c := (s.x rA).getLsbD 24, r := (s.x rA).getLsbD 23, w := (s.x rA).getLsbD 22,
                   x := (s.x rA).getLsbD 21, g := (s.x rA).getLsbD 20,
                   pfn := (s.x rA).extractLsb' 0 20 &&& s.cfg.pfnMask } ∧
      t.tlbmisc.way.toNat = (s.tlbmisc.way.toNat + 1) % 2 ^ s.cfg.tlbWayBits ∧
      (∀ k, t.tlb[k]? =
        if k = s.pteaddr.vpn.toNat % 2 ^ s.cfg.tlbLineBits * 2 ^ s.cfg.tlbWayBits + s.tlbmisc.way.toNat then
          some { vpn := s.pteaddr.vpn, pid := s.tlbmisc.pid, g := t.tlbacc.g, pfn := t.tlbacc.pfn, c := t.tlbacc.c,
                 r := t.tlbacc.r, w := t.tlbacc.w, x := t.tlbacc.x }
        else s.tlb[k]?) ∧
      ∀ (later : State) (rB : RegNum), later.cfg = s.cfg → later.tlb = t.tlb → later.status.u = false →
        later.pteaddr.vpn.toNat % 2 ^ s.cfg.tlbLineBits = s.pteaddr.vpn.toNat % 2 ^ s.cfg.tlbLineBits →
        (later.x rB).getLsbD 19 = true → (later.x rB).extractLsb' 20 4 = s.tlbmisc.way →
        ∃ u, exec (.wrctl .tlbmisc rB) later = .next u ∧ u.tlbacc = t.tlbacc ∧ u.tlbmisc.pid = s.tlbmisc.pid ∧
          u.pteaddr = { later.pteaddr with vpn := s.pteaddr.vpn }

/-- `wrctl` to tlbacc and tlbmisc in supervisor mode with an MMU. tlbacc takes its fields; without WE nothing else
changes, with WE a TLB entry is written and WAY goes on. tlbmisc takes WAY, WE and PID and keeps its flags; without RD
nothing else changes, with RD the entry of pteaddr.VPN and the WAY written goes to tlbacc, PID and the part of VPN that
is no line number. Region writes have taken effect after either (10_state.md rules R49 to R58, 20_memory.md rules R135,
R136 and R155).
Model choices it rests on: logs 13 (presumed: the line portion of a page number, that WAY wraps, and positions of
fields), 17, 22, 31 (no EE field) and 37. -/
def Obligations.WrctlTlbRegisters : Prop :=
  ∀ (s : State) (rA : RegNum), s.status.u = false → s.cfg.hasMmu = true →
    (∃ t, exec (.wrctl .tlbacc rA) s = .next t ∧ t.pc = s.pc + 4 ∧ SameRegisters s t ∧ t.mem = s.mem ∧ t.mpuOld = [] ∧
      { t with pc := s.pc, tlbacc := s.tlbacc, tlb := s.tlb, tlbmisc := s.tlbmisc, mpuOld := s.mpuOld } = s ∧
      t.tlbacc = { c := (s.x rA).getLsbD 24, r := (s.x rA).getLsbD 23, w := (s.x rA).getLsbD 22,
                   x := (s.x rA).getLsbD 21, g := (s.x rA).getLsbD 20,
                   pfn := (s.x rA).extractLsb' 0 20 &&& s.cfg.pfnMask } ∧
      (s.tlbmisc.we = false → t.tlb = s.tlb ∧ t.tlbmisc = s.tlbmisc) ∧
      (s.tlbmisc.we = true → t.tlbmisc = { s.tlbmisc with way := (s.tlbmisc.way + 1) &&& s.cfg.wayMask } ∧
        t.tlb = s.tlb.set (s.pteaddr.vpn.toNat % 2 ^ s.cfg.tlbLineBits * 2 ^ s.cfg.tlbWayBits + s.tlbmisc.way.toNat)
          { vpn := s.pteaddr.vpn, pid := s.tlbmisc.pid, g := t.tlbacc.g, pfn := t.tlbacc.pfn, c := t.tlbacc.c,
            r := t.tlbacc.r, w := t.tlbacc.w, x := t.tlbacc.x })) ∧
    (∃ t, exec (.wrctl .tlbmisc rA) s = .next t ∧ t.pc = s.pc + 4 ∧ SameRegisters s t ∧ t.mem = s.mem ∧ t.mpuOld = [] ∧
      { t with pc := s.pc, tlbacc := s.tlbacc, pteaddr := s.pteaddr, tlbmisc := s.tlbmisc, mpuOld := s.mpuOld } = s ∧
      t.tlbmisc.way = (s.x rA).extractLsb' 20 4 &&& s.cfg.wayMask ∧ t.tlbmisc.we = (s.x rA).getLsbD 18 ∧
      t.tlbmisc.dbl = s.tlbmisc.dbl ∧ t.tlbmisc.bad = s.tlbmisc.bad ∧ t.tlbmisc.perm = s.tlbmisc.perm ∧
      t.tlbmisc.d = s.tlbmisc.d ∧
      ((s.x rA).getLsbD 19 = false → t.tlbmisc.pid = (s.x rA).extractLsb' 4 14 &&& s.cfg.pidMask ∧
        t.tlbacc = s.tlbacc ∧ t.pteaddr = s.pteaddr) ∧
      (∀ e, (s.x rA).getLsbD 19 = true →
        s.tlb[s.pteaddr.vpn.toNat % 2 ^ s.cfg.tlbLineBits * 2 ^ s.cfg.tlbWayBits + t.tlbmisc.way.toNat]? = some e →
        t.tlbmisc.pid = e.pid ∧
        t.tlbacc = { c := e.c, r := e.r, w := e.w, x := e.x, g := e.g, pfn := e.pfn } ∧
        t.pteaddr.ptbase = s.pteaddr.ptbase ∧
        ∀ j < 20, t.pteaddr.vpn.getLsbD j =
          if j < s.cfg.tlbLineBits then s.pteaddr.vpn.getLsbD j else e.vpn.getLsbD j))

/-- `wrctl` to mpuacc in supervisor mode with an MPU: with neither RD nor WR it writes the register, MASK or LIMIT from
bits 31:6 cut to the configured width, C from bit 5 and PERM from bits 4:2; with WR it also makes the region that
mpubase selects; with RD it loads that region into both registers; with both it is refused; an instruction region never
gets C (10_state.md rules R62 to R67, 20_memory.md rules R153 and R154).
Model choices it rests on: logs 17, 22, 24 and 42. -/
def Obligations.MpuRegionOperations : Prop :=
  ∀ (s : State) (rA : RegNum), s.status.u = false → s.cfg.hasMpu = true →
    ((s.x rA).getLsbD 1 = false → (s.x rA).getLsbD 0 = false →
      exec (.wrctl .mpuacc rA) s =
        .next
          { s with
            pc := s.pc + 4
            mpuacc :=
              { extent := (s.x rA).extractLsb' 6 26 &&& s.cfg.extentMask
                c := (s.x rA).getLsbD 5
                perm := (s.x rA).extractLsb' 2 3 } }) ∧
    ((s.x rA).getLsbD 1 = false → (s.x rA).getLsbD 0 = true → s.mpubase.d = true →
      s.mpubase.index.toNat < s.mpuData.length →
      ∃ t, exec (.wrctl .mpuacc rA) s = .next t ∧ t.pc = s.pc + 4 ∧
        t.mpuacc.extent = (s.x rA).extractLsb' 6 26 &&& s.cfg.extentMask ∧ t.mpuacc.c = (s.x rA).getLsbD 5 ∧
        t.mpuacc.perm = (s.x rA).extractLsb' 2 3 ∧
        t.mpuData[s.mpubase.index.toNat]? = some { base := s.mpubase.base, extent := t.mpuacc.extent,
                                                   c := t.mpuacc.c, perm := t.mpuacc.perm } ∧
        (∀ k, k ≠ s.mpubase.index.toNat → t.mpuData[k]? = s.mpuData[k]?) ∧
        { t with pc := s.pc, mpuacc := s.mpuacc, mpuData := s.mpuData, mpuOld := s.mpuOld } = s) ∧
    ((s.x rA).getLsbD 1 = false → (s.x rA).getLsbD 0 = true → s.mpubase.d = false →
      s.mpubase.index.toNat < s.mpuInstr.length →
      ∃ t, exec (.wrctl .mpuacc rA) s = .next t ∧ t.pc = s.pc + 4 ∧
        t.mpuacc.extent = (s.x rA).extractLsb' 6 26 &&& s.cfg.extentMask ∧ t.mpuacc.perm = (s.x rA).extractLsb' 2 3 ∧
        (t.readCtl .mpuacc).getLsbD 5 = false ∧
        t.mpuInstr[s.mpubase.index.toNat]? = some { base := s.mpubase.base, extent := t.mpuacc.extent, c := false,
                                                    perm := t.mpuacc.perm } ∧
        (∀ k, k ≠ s.mpubase.index.toNat → t.mpuInstr[k]? = s.mpuInstr[k]?) ∧
        { t with pc := s.pc, mpuacc := s.mpuacc, mpuInstr := s.mpuInstr, mpuOld := s.mpuOld } = s) ∧
    (∀ r, (s.x rA).getLsbD 1 = true → (s.x rA).getLsbD 0 = false →
      (if s.mpubase.d then s.mpuData else s.mpuInstr)[s.mpubase.index.toNat]? = some r →
      exec (.wrctl .mpuacc rA) s =
        .next
          { s with
            pc := s.pc + 4
            mpubase := { s.mpubase with base := r.base }
            mpuacc := { extent := r.extent, c := r.c, perm := r.perm } }) ∧
    ((s.x rA).getLsbD 1 = true → (s.x rA).getLsbD 0 = true →
      exec (.wrctl .mpuacc rA) s = .refused .mpuReadAndWrite)

/-! ## Caches, barriers, register sets, custom logic -/

/-- Without caches the cache instructions perform no operation: only the pc moves, where an MPU checks the address the
model's counter of free values, and with `flushi` and `initi` the model's record of stored words whose fetch is pending
(20_memory.md rule R117, 92_eei_decisions.md D16, 70_reset_and_hazards.md rule R503).
Model choices it rests on: logs 13 (presumed: that the four other cache instructions check no address), 21 and 34. -/
def Obligations.CachelessOps : Prop :=
  ∀ (s : State) (rA : RegNum) (imm : BitVec 16), s.cfg.hasDcache = false → s.cfg.hasIcache = false →
    exec (.flushd rA imm) s = .next { s with pc := s.pc + 4 } ∧
    exec (.flushi rA) s =
      .next { s with pc := s.pc + 4, hazards := hazardsAfterInvalidate s.hazards (s.cfg.flushNumber (s.x rA)) } ∧
    (s.status.u = false → exec (.initd rA imm) s = .next { s with pc := s.pc + 4 } ∧
      exec (.initi rA) s =
        .next { s with pc := s.pc + 4, hazards := hazardsAfterInvalidate s.hazards (s.cfg.flushNumber (s.x rA)) }) ∧
    (∀ p, s.translateData .flushda .byte (s.effective rA imm) = .ok p →
      exec (.flushda rA imm) s = .next { s with pc := s.pc + 4, draws := s.draws + s.accessDraws }) ∧
    (∀ p, s.cfg.implemented.initda = true → s.translateData .initda .byte (s.effective rA imm) = .ok p →
      exec (.initda rA imm) s = .next { s with pc := s.pc + 4, draws := s.draws + s.accessDraws })

/-- `flushd` empties the data cache line that the index bits of its address select, `flushda` the one that holds its
address: the stores those lines held are then in memory, or with the device that answers there, every other byte of memory
is as it was, the other lines stay, and no register changes (20_memory.md rule R116, 46_other_control.md rules R360 and
R361).
Model choices it rests on: logs 13 (presumed: what the cache instructions do to a line), 18 and 20. -/
def Obligations.FlushWritesBack : Prop :=
  ∀ (s : State) (rA : RegNum) (imm : BitVec 16) (k : Nat), Inv s → s.cfg.dIndex (s.effective rA imm) = some k →
    (∃ t, exec (.flushd rA imm) s = .next t ∧ t.pc = s.pc + 4 ∧
      t.dcache = s.dcache.filter (fun l => l.index != k) ∧
      (∀ a l, findLine s.dcache k (s.cfg.dBase a) = some l → l.dirty = true → s.cfg.isDevice a = false →
        t.mem.read a = l.data.read a) ∧
      (∀ a, (s.cfg.isDevice a = true ∨ ∀ l, findLine s.dcache k (s.cfg.dBase a) = some l → l.dirty = false) →
        t.mem.read a = s.mem.read a) ∧
      { t with pc := s.pc, mem := s.mem, dcache := s.dcache, hazards := s.hazards } = s) ∧
    (∀ p, s.translateData .flushda .byte (s.effective rA imm) = .ok p →
      ∃ t, exec (.flushda rA imm) s = .next t ∧ t.pc = s.pc + 4 ∧
        t.dcache = s.dcache.filter (fun l => !(l.index == k && l.base == s.cfg.dBase p.pa)) ∧
        (∀ a l, s.cfg.dBase a = s.cfg.dBase p.pa → findLine s.dcache k (s.cfg.dBase a) = some l → l.dirty = true →
          s.cfg.isDevice a = false → t.mem.read a = l.data.read a) ∧
        (∀ a, (s.cfg.isDevice a = true ∨ s.cfg.dBase a ≠ s.cfg.dBase p.pa ∨
            ∀ l, findLine s.dcache k (s.cfg.dBase a) = some l → l.dirty = false) →
          t.mem.read a = s.mem.read a) ∧
        { t with pc := s.pc, mem := s.mem, dcache := s.dcache, hazards := s.hazards, draws := s.draws } = s)

/-- `initd` and `initda` empty the same lines without writing them back, `flushi` and `initi` the instruction cache
lines that the index bits select; memory and the registers are as they were (20_memory.md rule R116,
46_other_control.md rules R362 to R365).
Model choices it rests on: logs 13 (presumed: what the cache instructions do to a line) and 20. -/
def Obligations.LinesDropped : Prop :=
  ∀ (s : State) (rA : RegNum) (imm : BitVec 16) (k : Nat),
    (s.status.u = false → s.cfg.dIndex (s.effective rA imm) = some k →
      exec (.initd rA imm) s =
        .next { s with pc := s.pc + 4, dcache := s.dcache.filter (fun l => l.index != k) }) ∧
    (∀ p, s.cfg.implemented.initda = true → s.cfg.dIndex (s.effective rA imm) = some k →
      s.translateData .initda .byte (s.effective rA imm) = .ok p →
      exec (.initda rA imm) s =
        .next { s with pc := s.pc + 4, draws := s.draws + s.accessDraws,
                       dcache := s.dcache.filter (fun l => !(l.index == k && l.base == s.cfg.dBase p.pa)) }) ∧
    (s.cfg.iIndex (s.x rA) = some k →
      ∀ i ∈ [Instr.flushi rA, .initi rA], (s.status.u = false ∨ i = .flushi rA) →
        ∃ t, exec i s = .next t ∧ t.pc = s.pc + 4 ∧ t.icache = s.icache.filter (fun l => l.index != k) ∧
          { t with pc := s.pc, icache := s.icache, hazards := s.hazards } = s)

/-- A stored word may be fetched old until `flushd` of its address, `flushi` of its address and `flushp` have run, in
that order, after which it may be fetched; where `flushi` has not run, `flushp` does not end this, with an instruction
cache or without (20_memory.md rule R115, 70_reset_and_hazards.md rule R503).
Model choices it rests on: logs 13 (presumed: the sequence) and 21. -/
def Obligations.CodeUpdateSequence : Prop :=
  ∀ (s t1 t2 t3 t4 : State) (rX rA : RegNum) (pa : Nat) (line : Option Nat), s.hazards = [] → s.cfg.hasMmu = false →
    s.mpuOn = false → s.dataPath .store .word false (s.x rA) = .ok { pa := pa, line := line } →
    exec (.stw rX rA 0) s = .next t1 → exec (.flushd rA 0) t1 = .next t2 → exec (.flushi rA) t2 = .next t3 →
    exec .flushp t3 = .next t4 →
      t1.isStale pa = true ∧ t2.isStale pa = true ∧ t3.isStale pa = true ∧ t4.hazards = [] ∧
      (∀ u, exec .flushp t1 = .next u → u.isStale pa = true) ∧
      (∀ u, exec .flushp t2 = .next u → u.isStale pa = true)

/-- `flushp` discards what was prefetched: pending region writes have taken effect, and words dealt with in both caches
may be fetched; `sync` only moves the pc (46_other_control.md rules R366 and R367).
Model choices it rests on: logs 13 (presumed: that `sync` writes no cache line back), 21 and 39. -/
def Obligations.PipelineOps : Prop :=
  ∀ s : State,
    exec .flushp s = .next { s with pc := s.pc + 4, mpuOld := [],
                                    hazards := s.hazards.filter (fun h => h.dLine != none || h.iLine != none) } ∧
    exec .sync s = .next { s with pc := s.pc + 4 }

/-- `rdprs` reads a register of the previous set and adds its immediate, `wrprs` writes one, r0 of a shadow set
included, in supervisor mode where there are shadow sets; without shadow sets both are illegal instructions where
detection is on, which the spec decides itself (D42) (46_other_control.md rules R380 and R381).
Model choices it rests on: logs 13 (presumed: that `rdprs` adds its immediate, and the illegal instruction without
shadow sets), 14 (that illegal instruction) and 28 (a PRS that names no set). -/
def Obligations.ShadowAccess : Prop :=
  ∀ (s : State) (rB rA rC : RegNum) (imm : BitVec 16), s.status.u = false →
    (s.cfg.numShadow ≠ 0 → s.status.prs ≤ s.cfg.numShadow →
      (∃ t, exec (.rdprs rB rA imm) s = .next t ∧
        Retires s t rB (s.xs s.status.prs rA + imm.signExtend 32)) ∧
      (∃ t, exec (.wrprs rC rA) s = .next t ∧ t.pc = s.pc + 4 ∧ QuietBut s t ∧
        (¬(s.status.prs = 0 ∧ rC = 0) → OnlyRegister s t s.status.prs rC (s.x rA)) ∧
        (s.status.prs = 0 ∧ rC = 0 → SameRegisters s t))) ∧
    (s.cfg.numShadow = 0 → s.cfg.illegalInsn = true →
      exec (.rdprs rB rA imm) s = .next (takeGeneral .illegalInstr s) ∧
      exec (.wrprs rC rA) s = .next (takeGeneral .illegalInstr s))

/-- `custom` with logic attached completes in every form: the logic is given the general-purpose operands the form
names, its result goes to rC where the form names one, and no other state of the processor changes; pure logic with
register operands is a function of the operand values and register numbers; a selector with nothing attached is refused
(47_custom_nop_unimplemented.md rule R390).
Model choices it rests on: logs 2 and 13 (presumed: that `custom` is usable in user mode). -/
def Obligations.CustomOutcomes : Prop :=
  ∀ (s : State) (n : BitVec 8) (c a b : CustomReg),
    (∀ logic, s.cfg.customLogic n = some logic →
      ∃ t v, exec (.custom n c a b) s = .next t ∧ t.pc = s.pc + 4 ∧
        (∀ k, c = .r k → WritesRegister s t k v) ∧ (∀ k, c = .c k → SameRegisters s t) ∧
        { t with pc := s.pc, regs := s.regs, draws := s.draws } = s ∧
        (∀ rC rA rB, logic.stateful = false → c = .r rC → a = .r rA → b = .r rB → t.draws = s.draws ∧
          v = Config.customResult n (some (s.x rA)) (some (s.x rB)) rA rB rC none)) ∧
    (s.cfg.customLogic n = none → exec (.custom n c a b) s = .refused .customUnattached)

/-! ## Events -/

/-- An internal interrupt is taken at a boundary, where it is recognised and no reset or break comes first, exactly if
PIE is 1 and some input is asserted and enabled; its entry is that of an exception; and one that persists when no
inputs are left is taken by the next step, whatever was recognised before (60_exceptions.md rules R421 to R423).
Model choices it rests on: logs 11 and 30. -/
def Obligations.InternalInterruptTaken : Prop :=
  ∀ s : State, s.cfg.hasEic = false → s.pins.reset = false → s.pins.debugRequest = false →
    s.pins.cpuResetRequest = false →
    (s.pins.recognise = true →
      ((s.status.pie = true ∧ ∃ n < 32, s.pins.irq.getLsbD n = true ∧ s.ienable.getLsbD n = true) ↔
        s.event = some (.next (takeGeneral .internalInterrupt s))) ∧
      (¬(s.status.pie = true ∧ ∃ n < 32, s.pins.irq.getLsbD n = true ∧ s.ienable.getLsbD n = true) ↔
        s.event = none)) ∧
    (s.inputs = [] → s.status.pie = true → (∃ n < 32, s.pins.irq.getLsbD n = true ∧ s.ienable.getLsbD n = true) →
      step s = .next (takeGeneral .internalInterrupt { s with pins := { s.pins with recognise := true } }))

/-- An external interrupt is taken, where it is recognised and no reset or break comes first, exactly under the
conditions of table 53; it runs at the requested address, in the requested register set, with its return address there;
status goes to estatus or, for a shadow set, to sstatus with SRS; nothing else changes but that region writes have
taken effect (60_exceptions.md rules R425, R426 and R428).
Model choices it rests on: logs 11, 22, 30 and 36. -/
def Obligations.ExternalInterruptTaken : Prop :=
  (∀ (s : State) (q : EicRequest), s.cfg.hasEic = true → s.pins.reset = false → s.pins.debugRequest = false →
    s.pins.cpuResetRequest = false → s.pins.recognise = true → s.pins.eic = some q → q.rrs ≤ s.cfg.numShadow →
    (((q.rnmi = true ∧ s.status.nmi = false) ∨
        (q.rnmi = false ∧ s.status.pie = true ∧ s.status.il.toNat < q.ril.toNat ∧
          (s.cfg.numShadow = 0 ∨ q.rrs ≠ s.status.crs ∨ s.status.rsie = true))) →
      s.event = some (.next (takeExternal q s))) ∧
    (¬((q.rnmi = true ∧ s.status.nmi = false) ∨
        (q.rnmi = false ∧ s.status.pie = true ∧ s.status.il.toNat < q.ril.toNat ∧
          (s.cfg.numShadow = 0 ∨ q.rrs ≠ s.status.crs ∨ s.status.rsie = true))) → s.event = none)) ∧
  ∀ (s t : State) (q : EicRequest), Inv s → s.cfg.hasEic = true → q.rrs ≤ s.cfg.numShadow → t = takeExternal q s →
    t.pc = q.rha ∧ t.status.crs = q.rrs ∧ t.status.ih = true ∧ t.status.nmi = q.rnmi ∧ t.status.il = q.ril ∧
    t.status.u = false ∧ t.status.eh = s.status.eh ∧ (s.cfg.numShadow ≠ 0 → t.status.rsie = false) ∧
    t.status.pie = (s.status.pie && !q.rnmi && s.config.ani) ∧ t.mpuOld = [] ∧
    { t with pc := s.pc, regs := s.regs, status := s.status, estatus := s.estatus, mpuOld := s.mpuOld } = s ∧
    (s.status.eh = true → SameRegisters s t ∧ t.estatus = s.estatus ∧ t.status.prs = s.status.prs) ∧
    (s.status.eh = false → t.status.prs = s.status.crs ∧
      (q.rrs = 0 → t.estatus = s.status ∧ OnlyRegister s t 0 29 (s.pc + 4)) ∧
      (q.rrs ≠ 0 → t.estatus = s.estatus ∧ t.xs q.rrs 29 = s.pc + 4 ∧
        t.xs q.rrs 30 = (if q.rrs = s.status.crs then 0#1 else 1#1) ++ s.status.toWord.extractLsb' 0 31 ∧
        ∀ set j, ¬(set = q.rrs ∧ (j = 29 ∨ j = 30)) → t.xs set j = s.xs set j))

/-- A reset is taken before everything else; a processor-only reset after a hardware break, and none while the debug
module is in control, which then keeps it. Either leaves status at 0x00800000, the pc at the reset vector, CAUSE at 0
or 1 where it is implemented, and the registers, memory, ienable, the TLB and the regions as they were
(70_reset_and_hazards.md rules R480 and R481, 10_state.md rules R80 and R82).
Model choices it rests on: log 29 (what a reset keeps), log 30 (a reset ends the control of the debug module, and what
else is taken while it is in control leaves it there), log 11 (no interrupt is taken where none is recognised). -/
def Obligations.ResetTaken : Prop :=
  (∀ s : State, s.pins.reset = true → s.event = some (.next (takeReset 0 s))) ∧
  (∀ s : State, s.pins.reset = false → s.pins.debugRequest = false → s.cfg.hasResetRequest = true →
    s.pins.cpuResetRequest = true → s.paused = false → s.event = some (.next (takeReset 1 s))) ∧
  (∀ s : State, s.pins.reset = false → s.paused = true →
    (s.pins.recognise = false → s.event = none) ∧
    ∀ t, s.event = some (.next t) → t.paused = true ∧ ∀ k, t ≠ takeReset k s) ∧
  ∀ (s t : State) (k : BitVec 5), t = takeReset k s → t.paused = false ∧
    t.status.toWord = 0x00800000 ∧ t.pc = s.cfg.vectorPc s.cfg.resetAddr ∧ t.estatus.toWord = 0 ∧
    t.bstatus.toWord = 0 ∧ t.config.toWord = 0 ∧ t.badaddr = 0 ∧ (s.cfg.excInfo = true → t.cause = k) ∧
    t.pteaddr.toWord = 0 ∧ t.tlbacc.toWord = 0 ∧ t.tlbmisc.toWord = 0 ∧ t.mpubase.toWord = 0 ∧ t.mpuacc.toWord = 0 ∧
    SameRegisters s t ∧ t.mem = s.mem ∧ t.ienable = s.ienable ∧ t.tlb = s.tlb ∧ t.mpuInstr = s.mpuInstr ∧
    t.mpuData = s.mpuData ∧ t.dcache = s.dcache ∧
    ∀ k', s.cfg.iIndex t.pc = some k' → ∀ l ∈ t.icache, l.index ≠ k'

/-! ## The whole machine -/

/-- The values the reset table gives (10_state.md rule R83): the pc at the reset vector, which with an MMU is reached
in the kernel partition (20_memory.md rule R94), status 0x00800000, r0 0, no MPU check; of the control registers, cpuid
its constant, ipending the enabled inputs that are asserted, and all others but ienable, which the table leaves open, 0
(eccinj, absent in the model, as it is read: log 31); and no instruction cache line where the reset vector is, whatever
the other lines hold (70_reset_and_hazards.md rules R480, R482 and R485; log 9).
Model choices it rests on: logs 9 and 31. -/
def Obligations.ResetValues : Prop :=
  ∀ c : Config, (State.resetOf c).pc = (if c.hasMmu then 0xC0000000 + c.resetAddr else c.resetAddr) ∧
    (State.resetOf c).status.toWord = 0x00800000 ∧
    (State.resetOf c).xs 0 0 = 0 ∧ (State.resetOf c).mpuOn = false ∧
    (∀ n ∈ [CtlReg.estatus, .bstatus, .exception, .badaddr, .pteaddr, .tlbacc, .tlbmisc, .eccinj, .config, .mpubase,
        .mpuacc], (State.resetOf c).readCtl n = 0) ∧
    (State.resetOf c).readCtl .cpuid = c.cpuid ∧
    (State.resetOf c).readCtl .ipending =
      (if c.hasEic then 0 else (State.resetOf c).pins.irq &&& (State.resetOf c).ienable) ∧
    ∀ k, c.iIndex (c.vectorPc c.resetAddr) = some k → (State.resetOf c).icache.find? (fun l => l.index == k) = none

/-- r0 of the normal register set reads 0 and is never written (10_state.md rule R21). -/
def Obligations.ZeroRegister : Prop :=
  ∀ s : State, s.xs 0 0 = 0 ∧ (∀ v, s.setXs 0 0 v = s) ∧
    (s.status.crs = 0 → s.x 0 = 0 ∧ ∀ v, s.setX 0 v = s)

/-- Every step of a legal state leads to a legal state (10_state.md rules R28, R31, R37, R52, R60, R72 and R73).
Model choices it rests on: logs 5, 20, 26, 29 and 30. -/
def Obligations.StepKeepsInv : Prop :=
  ∀ s t : State, Inv s → step s = .next t → Inv t

/-- The state right after reset is legal, in every configuration that 00_scope.md rule R7 allows, whatever the caches
hold, and they hold it only under line numbers that the loop of 70_reset_and_hazards.md rule R485 reaches (20_memory.md
rule R118); in particular the reset state of the model.
Model choices it rests on: logs 1, 5, 7, 8, 9 and 20. -/
def Obligations.ResetIsLegal : Prop :=
  (∀ c : Config, c.legal = true → Inv (State.resetOf c)) ∧ Inv State.reset

/-- What user mode cannot do: whatever the instruction, either it completes in user mode, with every control register,
the TLB, the MPU regions and every register of the other sets as they were, or an exception or break is taken, and the
machine is in supervisor mode, in the normal register set, at one of the configured vectors (60_exceptions.md rules
R471 and R472).
Model choices it rests on: log 13 (presumed: the list of supervisor-only instructions but for `rdctl` and `wrctl`). -/
def Obligations.UserModeConfined : Prop :=
  ∀ (s t : State) (i : Instr), s.status.u = true → exec i s = .next t →
    ({ t with pc := s.pc, regs := s.regs, mem := s.mem, dcache := s.dcache, icache := s.icache, hazards := s.hazards,
              mpuOld := s.mpuOld, draws := s.draws } = s ∧
      ∀ set j, set ≠ s.status.crs → t.xs set j = s.xs set j) ∨
    (t.status.u = false ∧ t.status.pie = false ∧ t.status.crs = 0 ∧
      t.pc ∈ [s.cfg.exceptionAddr, s.cfg.fastTlbMissAddr, s.cfg.breakAddr].map s.cfg.vectorPc ∧
      { t with pc := s.pc, regs := s.regs, status := s.status, estatus := s.estatus, bstatus := s.bstatus,
               cause := s.cause, badaddr := s.badaddr, pteaddr := s.pteaddr, tlbmisc := s.tlbmisc,
               mpuOld := s.mpuOld, draws := s.draws, paused := s.paused } = s)

/-- Memory changes only by the stores and by the two instructions that write the data cache back; and no instruction
changes the configuration, the inputs, or, but for `wrctl`, the TLB and the MPU regions (10_state.md rule R72,
20_memory.md rule R116). That no load and no line fill writes a dirty line back is the model's choice: lines leave only
where an input says so (log 20).
Model choices it rests on: logs 13 (presumed: what the cache instructions do to a line) and 20. -/
def Obligations.MemoryWriters : Prop :=
  ∀ (s t : State) (i : Instr), exec i s = .next t →
    t.cfg = s.cfg ∧ t.pins = s.pins ∧ t.inputs = s.inputs ∧
    ((∀ n rA, i ≠ .wrctl n rA) → t.tlb = s.tlb ∧ t.mpuInstr = s.mpuInstr ∧ t.mpuData = s.mpuData) ∧
    ((∀ rB rA imm, i ∉ [Instr.stw rB rA imm, .stwio rB rA imm, .sth rB rA imm, .sthio rB rA imm, .stb rB rA imm,
        .stbio rB rA imm, .flushd rA imm, .flushda rA imm]) → t.mem = s.mem)
end

