-- ==== Sys2Proof/Laws/Memory.lean ====
section
/-! SUPPORT. Memory: a read after a write, and the canonical form, which every operation keeps. -/

namespace Sys2Proof.Machine

/-! ## Reads after writes -/

theorem Memory.read_erase (m : Memory) (a x : Nat) :
    (m.erase a).read x = if x = a then Memory.unlisted else m.read x := by
  induction m with
  | nil => simp [Memory.erase, Memory.read]
  | cons c rest ih =>
    obtain ⟨b, v⟩ := c
    simp only [Memory.erase]
    by_cases hba : b = a
    · subst hba
      rw [if_pos rfl, ih]
      by_cases hx : x = b
      · simp [hx]
      · have : b ≠ x := fun h => hx h.symm
        simp [hx, Memory.read, this]
    · rw [if_neg hba]
      simp only [Memory.read, ih]
      by_cases hbx : b = x
      · have : x ≠ a := fun h => hba (hbx.trans h)
        simp [hbx, this]
      · simp [hbx]

theorem Memory.read_insert (m : Memory) (a x : Nat) (v : Byte) (hm : ∀ c ∈ m, c.1 ≠ a) :
    (m.insert a v).read x = if x = a then v else m.read x := by
  induction m with
  | nil =>
    simp only [Memory.insert, Memory.read]
    by_cases hx : x = a
    · simp [hx]
    · have : a ≠ x := fun h => hx h.symm
      simp [hx, this]
  | cons c rest ih =>
    obtain ⟨b, w⟩ := c
    have hb : b ≠ a := hm (b, w) (by simp)
    simp only [Memory.insert]
    split
    · simp only [Memory.read]
      by_cases hx : x = a
      · simp [hx]
      · have : a ≠ x := fun h => hx h.symm
        simp [hx, this]
    · simp only [Memory.read]
      rw [ih (fun c hc => hm c (by simp [hc]))]
      by_cases hbx : b = x
      · have : x ≠ a := fun h => hb (hbx.trans h)
        simp [hbx, this]
      · simp [hbx]

theorem Memory.not_mem_erase (m : Memory) (a : Nat) : ∀ c ∈ m.erase a, c.1 ≠ a := by
  induction m with
  | nil => simp [Memory.erase]
  | cons d rest ih =>
    obtain ⟨b, w⟩ := d
    simp only [Memory.erase]
    split
    · exact ih
    · intro c hc
      rcases List.mem_cons.1 hc with rfl | hc
      · assumption
      · exact ih c hc

/-- A read after a write: the byte written, and every other byte as before. -/
theorem Memory.read_write (m : Memory) (a x : Nat) (v : Byte) :
    (m.write a v).read x = if x = a then v else m.read x := by
  unfold Memory.write
  split
  · rename_i h
    rw [Memory.read_erase, h]
  · rw [Memory.read_insert _ _ _ _ (Memory.not_mem_erase m a), Memory.read_erase]
    split <;> simp_all

/-- Reads after consecutive bytes are written. -/
theorem Memory.read_writeBytes (bytes : List Byte) (m : Memory) (a x : Nat) :
    (m.writeBytes a bytes).read x =
      if h : a ≤ x ∧ x - a < bytes.length then bytes[x - a]'h.2 else m.read x := by
  induction bytes generalizing m a with
  | nil => simp [Memory.writeBytes]
  | cons v rest ih =>
    rw [Memory.writeBytes, ih, Memory.read_write]
    by_cases hx : x = a
    · subst hx; simp
    · by_cases hlt : a ≤ x
      · have h1 : a + 1 ≤ x := by omega
        have h2 : x - a = (x - (a + 1)) + 1 := by omega
        simp only [h1, hlt, true_and, List.length_cons, hx, if_false]
        by_cases h3 : x - (a + 1) < rest.length
        · simp [h3, h2]
        · have h4 : ¬ x - a < rest.length + 1 := by omega
          simp [h3, h4]
      · have h1 : ¬ a + 1 ≤ x := by omega
        simp [h1, hlt, hx]

/-- Reads after a copy: inside the copied range the source's bytes, outside it the old ones. -/
theorem Memory.read_copy (dst : Memory) (src : Nat → Byte) (a n x : Nat) :
    (Memory.copy dst src a n).read x = if a ≤ x ∧ x < a + n then src x else dst.read x := by
  unfold Memory.copy
  rw [Memory.read_writeBytes]
  by_cases h : a ≤ x ∧ x < a + n
  · have h1 : a ≤ x ∧ x - a < n := by omega
    have h2 : a + (x - a) = x := by omega
    simp [h, h1, h2]
  · have h1 : ¬(a ≤ x ∧ x - a < n) := by omega
    simp [h, h1]

/-! ## The canonical form -/

/-- The canonical form, said with the library's predicates: addresses strictly rising, no unlisted byte. -/
theorem Memory.wf_iff (m : Memory) :
    m.wf = true ↔ m.Pairwise (fun c d => c.1 < d.1) ∧ ∀ c ∈ m, c.2 ≠ Memory.unlisted := by
  induction m with
  | nil => simp [Memory.wf]
  | cons c rest ih =>
    obtain ⟨a, v⟩ := c
    cases rest with
    | nil => simp [Memory.wf]
    | cons d rest =>
      obtain ⟨b, w⟩ := d
      simp only [Memory.wf, Bool.and_eq_true, bne_iff_ne, ne_eq, decide_eq_true_eq, ih, List.pairwise_cons,
        List.mem_cons, forall_eq_or_imp]
      constructor
      · rintro ⟨⟨hv, hab⟩, ⟨hb, hp⟩, hw, hr⟩
        exact ⟨⟨⟨hab, fun c hc => Nat.lt_trans hab (hb c hc)⟩, hb, hp⟩, hv, hw, hr⟩
      · rintro ⟨⟨⟨hab, -⟩, hb, hp⟩, hv, hw, hr⟩
        exact ⟨⟨hv, hab⟩, ⟨hb, hp⟩, hw, hr⟩

theorem Memory.mem_erase (m : Memory) (a : Nat) : ∀ c ∈ m.erase a, c ∈ m := by
  induction m with
  | nil => simp [Memory.erase]
  | cons d rest ih =>
    obtain ⟨b, w⟩ := d
    simp only [Memory.erase]
    intro c hc
    split at hc
    · exact List.mem_cons_of_mem _ (ih c hc)
    · rcases List.mem_cons.1 hc with rfl | hc
      · simp
      · exact List.mem_cons_of_mem _ (ih c hc)

theorem Memory.erase_wf (m : Memory) (a : Nat) (h : m.wf = true) : (m.erase a).wf = true := by
  rw [Memory.wf_iff] at h ⊢
  refine ⟨?_, fun c hc => h.2 c (Memory.mem_erase m a c hc)⟩
  have hp := h.1
  clear h
  induction m with
  | nil => simp [Memory.erase]
  | cons d rest ih =>
    obtain ⟨b, w⟩ := d
    rw [List.pairwise_cons] at hp
    simp only [Memory.erase]
    split
    · exact ih hp.2
    · exact List.pairwise_cons.2 ⟨fun c hc => hp.1 c (Memory.mem_erase rest a c hc), ih hp.2⟩

theorem Memory.mem_insert (m : Memory) (a : Nat) (v : Byte) : ∀ c ∈ m.insert a v, c = (a, v) ∨ c ∈ m := by
  induction m with
  | nil => simp [Memory.insert]
  | cons d rest ih =>
    obtain ⟨b, w⟩ := d
    simp only [Memory.insert]
    intro c hc
    split at hc
    · rcases List.mem_cons.1 hc with rfl | hc
      · exact .inl rfl
      · exact .inr hc
    · rcases List.mem_cons.1 hc with rfl | hc
      · exact .inr (by simp)
      · exact (ih c hc).imp_right (List.mem_cons_of_mem _)

theorem Memory.insert_wf (m : Memory) (a : Nat) (v : Byte) (h : m.wf = true) (hm : ∀ c ∈ m, c.1 ≠ a)
    (hv : v ≠ Memory.unlisted) : (m.insert a v).wf = true := by
  rw [Memory.wf_iff] at h ⊢
  refine ⟨?_, fun c hc => (Memory.mem_insert m a v c hc).elim (fun e => e ▸ hv) (h.2 c)⟩
  have hp := h.1
  clear h
  induction m with
  | nil => simp [Memory.insert]
  | cons d rest ih =>
    obtain ⟨b, w⟩ := d
    have hb : b ≠ a := hm (b, w) (by simp)
    rw [List.pairwise_cons] at hp
    simp only [Memory.insert]
    split
    · rename_i hab
      refine List.pairwise_cons.2 ⟨fun c hc => ?_, List.pairwise_cons.2 hp⟩
      rcases List.mem_cons.1 hc with rfl | hc
      · exact hab
      · exact Nat.lt_trans hab (hp.1 c hc)
    · rename_i hab
      refine List.pairwise_cons.2 ⟨fun c hc => ?_, ih (fun c hc => hm c (by simp [hc])) hp.2⟩
      rcases Memory.mem_insert rest a v c hc with rfl | hc
      · exact Nat.lt_of_le_of_ne (Nat.le_of_not_lt hab) hb
      · exact hp.1 c hc

/-- A write keeps the canonical form. -/
theorem Memory.write_wf (m : Memory) (a : Nat) (v : Byte) (h : m.wf = true) : (m.write a v).wf = true := by
  unfold Memory.write
  split
  · exact Memory.erase_wf m a h
  · exact Memory.insert_wf _ a v (Memory.erase_wf m a h) (Memory.not_mem_erase m a) (by assumption)

theorem Memory.writeBytes_wf (bytes : List Byte) (m : Memory) (a : Nat) (h : m.wf = true) :
    (m.writeBytes a bytes).wf = true := by
  induction bytes generalizing m a with
  | nil => exact h
  | cons v rest ih => exact ih _ _ (Memory.write_wf m a v h)

theorem Memory.writeCells_wf (cells : List Host.Cell) (m : Memory) (h : m.wf = true) :
    (m.writeCells cells).wf = true := by
  unfold Memory.writeCells
  induction cells generalizing m with
  | nil => exact h
  | cons c rest ih => exact ih _ (Memory.write_wf m c.1 c.2 h)

theorem Memory.copy_wf (dst : Memory) (src : Nat → Byte) (a n : Nat) (h : dst.wf = true) :
    (Memory.copy dst src a n).wf = true :=
  Memory.writeBytes_wf _ _ _ h

/-- Memory right after reset has the canonical form. -/
theorem Memory.reset_wf : State.reset.mem.wf = true := rfl

end Sys2Proof.Machine
end

