-- ==== Sys2Proof/Laws/State.lean ====
section
/-! SUPPORT. What each update of the state leaves in each field, by definition: no later proof unfolds an update. -/

namespace Sys2Proof.Machine

/-! ## State.setX -/

@[simp] theorem State.setX_cfg (s : State) (i : RegNum) (v : Word) : (s.setX i v).cfg = s.cfg := rfl
@[simp] theorem State.setX_pc (s : State) (i : RegNum) (v : Word) : (s.setX i v).pc = s.pc := rfl
@[simp] theorem State.setX_regs (s : State) (i : RegNum) (v : Word) : (s.setX i v).regs = s.regsWith i v := rfl
@[simp] theorem State.setX_status (s : State) (i : RegNum) (v : Word) : (s.setX i v).status = s.status := rfl
@[simp] theorem State.setX_estatus (s : State) (i : RegNum) (v : Word) : (s.setX i v).estatus = s.estatus := rfl
@[simp] theorem State.setX_bstatus (s : State) (i : RegNum) (v : Word) : (s.setX i v).bstatus = s.bstatus := rfl
@[simp] theorem State.setX_ienable (s : State) (i : RegNum) (v : Word) : (s.setX i v).ienable = s.ienable := rfl
@[simp] theorem State.setX_cause (s : State) (i : RegNum) (v : Word) : (s.setX i v).cause = s.cause := rfl
@[simp] theorem State.setX_badaddr (s : State) (i : RegNum) (v : Word) : (s.setX i v).badaddr = s.badaddr := rfl
@[simp] theorem State.setX_pteaddr (s : State) (i : RegNum) (v : Word) : (s.setX i v).pteaddr = s.pteaddr := rfl
@[simp] theorem State.setX_tlbacc (s : State) (i : RegNum) (v : Word) : (s.setX i v).tlbacc = s.tlbacc := rfl
@[simp] theorem State.setX_tlbmisc (s : State) (i : RegNum) (v : Word) : (s.setX i v).tlbmisc = s.tlbmisc := rfl
@[simp] theorem State.setX_config (s : State) (i : RegNum) (v : Word) : (s.setX i v).config = s.config := rfl
@[simp] theorem State.setX_mpubase (s : State) (i : RegNum) (v : Word) : (s.setX i v).mpubase = s.mpubase := rfl
@[simp] theorem State.setX_mpuacc (s : State) (i : RegNum) (v : Word) : (s.setX i v).mpuacc = s.mpuacc := rfl
@[simp] theorem State.setX_tlb (s : State) (i : RegNum) (v : Word) : (s.setX i v).tlb = s.tlb := rfl
@[simp] theorem State.setX_mpuInstr (s : State) (i : RegNum) (v : Word) : (s.setX i v).mpuInstr = s.mpuInstr := rfl
@[simp] theorem State.setX_mpuData (s : State) (i : RegNum) (v : Word) : (s.setX i v).mpuData = s.mpuData := rfl
@[simp] theorem State.setX_mpuOld (s : State) (i : RegNum) (v : Word) : (s.setX i v).mpuOld = s.mpuOld := rfl
@[simp] theorem State.setX_mem (s : State) (i : RegNum) (v : Word) : (s.setX i v).mem = s.mem := rfl
@[simp] theorem State.setX_dcache (s : State) (i : RegNum) (v : Word) : (s.setX i v).dcache = s.dcache := rfl
@[simp] theorem State.setX_icache (s : State) (i : RegNum) (v : Word) : (s.setX i v).icache = s.icache := rfl
@[simp] theorem State.setX_hazards (s : State) (i : RegNum) (v : Word) : (s.setX i v).hazards = s.hazards := rfl
@[simp] theorem State.setX_paused (s : State) (i : RegNum) (v : Word) : (s.setX i v).paused = s.paused := rfl
@[simp] theorem State.setX_pins (s : State) (i : RegNum) (v : Word) : (s.setX i v).pins = s.pins := rfl
@[simp] theorem State.setX_inputs (s : State) (i : RegNum) (v : Word) : (s.setX i v).inputs = s.inputs := rfl
@[simp] theorem State.setX_draws (s : State) (i : RegNum) (v : Word) : (s.setX i v).draws = s.draws := rfl

/-! ## State.setXs -/

@[simp] theorem State.setXs_cfg (s : State) (set : SetNum) (i : RegNum) (v : Word) :
    (s.setXs set i v).cfg = s.cfg := rfl
@[simp] theorem State.setXs_pc (s : State) (set : SetNum) (i : RegNum) (v : Word) : (s.setXs set i v).pc = s.pc := rfl
@[simp] theorem State.setXs_regs (s : State) (set : SetNum) (i : RegNum) (v : Word) :
    (s.setXs set i v).regs = s.regs.put set i v := rfl
@[simp] theorem State.setXs_status (s : State) (set : SetNum) (i : RegNum) (v : Word) :
    (s.setXs set i v).status = s.status := rfl
@[simp] theorem State.setXs_estatus (s : State) (set : SetNum) (i : RegNum) (v : Word) :
    (s.setXs set i v).estatus = s.estatus := rfl
@[simp] theorem State.setXs_bstatus (s : State) (set : SetNum) (i : RegNum) (v : Word) :
    (s.setXs set i v).bstatus = s.bstatus := rfl
@[simp] theorem State.setXs_ienable (s : State) (set : SetNum) (i : RegNum) (v : Word) :
    (s.setXs set i v).ienable = s.ienable := rfl
@[simp] theorem State.setXs_cause (s : State) (set : SetNum) (i : RegNum) (v : Word) :
    (s.setXs set i v).cause = s.cause := rfl
@[simp] theorem State.setXs_badaddr (s : State) (set : SetNum) (i : RegNum) (v : Word) :
    (s.setXs set i v).badaddr = s.badaddr := rfl
@[simp] theorem State.setXs_pteaddr (s : State) (set : SetNum) (i : RegNum) (v : Word) :
    (s.setXs set i v).pteaddr = s.pteaddr := rfl
@[simp] theorem State.setXs_tlbacc (s : State) (set : SetNum) (i : RegNum) (v : Word) :
    (s.setXs set i v).tlbacc = s.tlbacc := rfl
@[simp] theorem State.setXs_tlbmisc (s : State) (set : SetNum) (i : RegNum) (v : Word) :
    (s.setXs set i v).tlbmisc = s.tlbmisc := rfl
@[simp] theorem State.setXs_config (s : State) (set : SetNum) (i : RegNum) (v : Word) :
    (s.setXs set i v).config = s.config := rfl
@[simp] theorem State.setXs_mpubase (s : State) (set : SetNum) (i : RegNum) (v : Word) :
    (s.setXs set i v).mpubase = s.mpubase := rfl
@[simp] theorem State.setXs_mpuacc (s : State) (set : SetNum) (i : RegNum) (v : Word) :
    (s.setXs set i v).mpuacc = s.mpuacc := rfl
@[simp] theorem State.setXs_tlb (s : State) (set : SetNum) (i : RegNum) (v : Word) :
    (s.setXs set i v).tlb = s.tlb := rfl
@[simp] theorem State.setXs_mpuInstr (s : State) (set : SetNum) (i : RegNum) (v : Word) :
    (s.setXs set i v).mpuInstr = s.mpuInstr := rfl
@[simp] theorem State.setXs_mpuData (s : State) (set : SetNum) (i : RegNum) (v : Word) :
    (s.setXs set i v).mpuData = s.mpuData := rfl
@[simp] theorem State.setXs_mpuOld (s : State) (set : SetNum) (i : RegNum) (v : Word) :
    (s.setXs set i v).mpuOld = s.mpuOld := rfl
@[simp] theorem State.setXs_mem (s : State) (set : SetNum) (i : RegNum) (v : Word) :
    (s.setXs set i v).mem = s.mem := rfl
@[simp] theorem State.setXs_dcache (s : State) (set : SetNum) (i : RegNum) (v : Word) :
    (s.setXs set i v).dcache = s.dcache := rfl
@[simp] theorem State.setXs_icache (s : State) (set : SetNum) (i : RegNum) (v : Word) :
    (s.setXs set i v).icache = s.icache := rfl
@[simp] theorem State.setXs_hazards (s : State) (set : SetNum) (i : RegNum) (v : Word) :
    (s.setXs set i v).hazards = s.hazards := rfl
@[simp] theorem State.setXs_paused (s : State) (set : SetNum) (i : RegNum) (v : Word) :
    (s.setXs set i v).paused = s.paused := rfl
@[simp] theorem State.setXs_pins (s : State) (set : SetNum) (i : RegNum) (v : Word) :
    (s.setXs set i v).pins = s.pins := rfl
@[simp] theorem State.setXs_inputs (s : State) (set : SetNum) (i : RegNum) (v : Word) :
    (s.setXs set i v).inputs = s.inputs := rfl
@[simp] theorem State.setXs_draws (s : State) (set : SetNum) (i : RegNum) (v : Word) :
    (s.setXs set i v).draws = s.draws := rfl

/-! ## State.advance -/

@[simp] theorem State.advance_cfg (s : State) : (s.advance).cfg = s.cfg := rfl
@[simp] theorem State.advance_pc (s : State) : (s.advance).pc = s.pc + 4 := rfl
@[simp] theorem State.advance_regs (s : State) : (s.advance).regs = s.regs := rfl
@[simp] theorem State.advance_status (s : State) : (s.advance).status = s.status := rfl
@[simp] theorem State.advance_estatus (s : State) : (s.advance).estatus = s.estatus := rfl
@[simp] theorem State.advance_bstatus (s : State) : (s.advance).bstatus = s.bstatus := rfl
@[simp] theorem State.advance_ienable (s : State) : (s.advance).ienable = s.ienable := rfl
@[simp] theorem State.advance_cause (s : State) : (s.advance).cause = s.cause := rfl
@[simp] theorem State.advance_badaddr (s : State) : (s.advance).badaddr = s.badaddr := rfl
@[simp] theorem State.advance_pteaddr (s : State) : (s.advance).pteaddr = s.pteaddr := rfl
@[simp] theorem State.advance_tlbacc (s : State) : (s.advance).tlbacc = s.tlbacc := rfl
@[simp] theorem State.advance_tlbmisc (s : State) : (s.advance).tlbmisc = s.tlbmisc := rfl
@[simp] theorem State.advance_config (s : State) : (s.advance).config = s.config := rfl
@[simp] theorem State.advance_mpubase (s : State) : (s.advance).mpubase = s.mpubase := rfl
@[simp] theorem State.advance_mpuacc (s : State) : (s.advance).mpuacc = s.mpuacc := rfl
@[simp] theorem State.advance_tlb (s : State) : (s.advance).tlb = s.tlb := rfl
@[simp] theorem State.advance_mpuInstr (s : State) : (s.advance).mpuInstr = s.mpuInstr := rfl
@[simp] theorem State.advance_mpuData (s : State) : (s.advance).mpuData = s.mpuData := rfl
@[simp] theorem State.advance_mpuOld (s : State) : (s.advance).mpuOld = s.mpuOld := rfl
@[simp] theorem State.advance_mem (s : State) : (s.advance).mem = s.mem := rfl
@[simp] theorem State.advance_dcache (s : State) : (s.advance).dcache = s.dcache := rfl
@[simp] theorem State.advance_icache (s : State) : (s.advance).icache = s.icache := rfl
@[simp] theorem State.advance_hazards (s : State) : (s.advance).hazards = s.hazards := rfl
@[simp] theorem State.advance_paused (s : State) : (s.advance).paused = s.paused := rfl
@[simp] theorem State.advance_pins (s : State) : (s.advance).pins = s.pins := rfl
@[simp] theorem State.advance_inputs (s : State) : (s.advance).inputs = s.inputs := rfl
@[simp] theorem State.advance_draws (s : State) : (s.advance).draws = s.draws := rfl

/-! ## State.retire -/

@[simp] theorem State.retire_cfg (s : State) (i : RegNum) (v : Word) : (s.retire i v).cfg = s.cfg := rfl
@[simp] theorem State.retire_pc (s : State) (i : RegNum) (v : Word) : (s.retire i v).pc = s.pc + 4 := rfl
@[simp] theorem State.retire_regs (s : State) (i : RegNum) (v : Word) : (s.retire i v).regs = s.regsWith i v := rfl
@[simp] theorem State.retire_status (s : State) (i : RegNum) (v : Word) : (s.retire i v).status = s.status := rfl
@[simp] theorem State.retire_estatus (s : State) (i : RegNum) (v : Word) : (s.retire i v).estatus = s.estatus := rfl
@[simp] theorem State.retire_bstatus (s : State) (i : RegNum) (v : Word) : (s.retire i v).bstatus = s.bstatus := rfl
@[simp] theorem State.retire_ienable (s : State) (i : RegNum) (v : Word) : (s.retire i v).ienable = s.ienable := rfl
@[simp] theorem State.retire_cause (s : State) (i : RegNum) (v : Word) : (s.retire i v).cause = s.cause := rfl
@[simp] theorem State.retire_badaddr (s : State) (i : RegNum) (v : Word) : (s.retire i v).badaddr = s.badaddr := rfl
@[simp] theorem State.retire_pteaddr (s : State) (i : RegNum) (v : Word) : (s.retire i v).pteaddr = s.pteaddr := rfl
@[simp] theorem State.retire_tlbacc (s : State) (i : RegNum) (v : Word) : (s.retire i v).tlbacc = s.tlbacc := rfl
@[simp] theorem State.retire_tlbmisc (s : State) (i : RegNum) (v : Word) : (s.retire i v).tlbmisc = s.tlbmisc := rfl
@[simp] theorem State.retire_config (s : State) (i : RegNum) (v : Word) : (s.retire i v).config = s.config := rfl
@[simp] theorem State.retire_mpubase (s : State) (i : RegNum) (v : Word) : (s.retire i v).mpubase = s.mpubase := rfl
@[simp] theorem State.retire_mpuacc (s : State) (i : RegNum) (v : Word) : (s.retire i v).mpuacc = s.mpuacc := rfl
@[simp] theorem State.retire_tlb (s : State) (i : RegNum) (v : Word) : (s.retire i v).tlb = s.tlb := rfl
@[simp] theorem State.retire_mpuInstr (s : State) (i : RegNum) (v : Word) :
    (s.retire i v).mpuInstr = s.mpuInstr := rfl
@[simp] theorem State.retire_mpuData (s : State) (i : RegNum) (v : Word) : (s.retire i v).mpuData = s.mpuData := rfl
@[simp] theorem State.retire_mpuOld (s : State) (i : RegNum) (v : Word) : (s.retire i v).mpuOld = s.mpuOld := rfl
@[simp] theorem State.retire_mem (s : State) (i : RegNum) (v : Word) : (s.retire i v).mem = s.mem := rfl
@[simp] theorem State.retire_dcache (s : State) (i : RegNum) (v : Word) : (s.retire i v).dcache = s.dcache := rfl
@[simp] theorem State.retire_icache (s : State) (i : RegNum) (v : Word) : (s.retire i v).icache = s.icache := rfl
@[simp] theorem State.retire_hazards (s : State) (i : RegNum) (v : Word) : (s.retire i v).hazards = s.hazards := rfl
@[simp] theorem State.retire_paused (s : State) (i : RegNum) (v : Word) : (s.retire i v).paused = s.paused := rfl
@[simp] theorem State.retire_pins (s : State) (i : RegNum) (v : Word) : (s.retire i v).pins = s.pins := rfl
@[simp] theorem State.retire_inputs (s : State) (i : RegNum) (v : Word) : (s.retire i v).inputs = s.inputs := rfl
@[simp] theorem State.retire_draws (s : State) (i : RegNum) (v : Word) : (s.retire i v).draws = s.draws := rfl

/-! ## State.goto -/

@[simp] theorem State.goto_cfg (s : State) (t : Word) : (s.goto t).cfg = s.cfg := rfl
@[simp] theorem State.goto_pc (s : State) (t : Word) : (s.goto t).pc = t := rfl
@[simp] theorem State.goto_regs (s : State) (t : Word) : (s.goto t).regs = s.regs := rfl
@[simp] theorem State.goto_status (s : State) (t : Word) : (s.goto t).status = s.status := rfl
@[simp] theorem State.goto_estatus (s : State) (t : Word) : (s.goto t).estatus = s.estatus := rfl
@[simp] theorem State.goto_bstatus (s : State) (t : Word) : (s.goto t).bstatus = s.bstatus := rfl
@[simp] theorem State.goto_ienable (s : State) (t : Word) : (s.goto t).ienable = s.ienable := rfl
@[simp] theorem State.goto_cause (s : State) (t : Word) : (s.goto t).cause = s.cause := rfl
@[simp] theorem State.goto_badaddr (s : State) (t : Word) : (s.goto t).badaddr = s.badaddr := rfl
@[simp] theorem State.goto_pteaddr (s : State) (t : Word) : (s.goto t).pteaddr = s.pteaddr := rfl
@[simp] theorem State.goto_tlbacc (s : State) (t : Word) : (s.goto t).tlbacc = s.tlbacc := rfl
@[simp] theorem State.goto_tlbmisc (s : State) (t : Word) : (s.goto t).tlbmisc = s.tlbmisc := rfl
@[simp] theorem State.goto_config (s : State) (t : Word) : (s.goto t).config = s.config := rfl
@[simp] theorem State.goto_mpubase (s : State) (t : Word) : (s.goto t).mpubase = s.mpubase := rfl
@[simp] theorem State.goto_mpuacc (s : State) (t : Word) : (s.goto t).mpuacc = s.mpuacc := rfl
@[simp] theorem State.goto_tlb (s : State) (t : Word) : (s.goto t).tlb = s.tlb := rfl
@[simp] theorem State.goto_mpuInstr (s : State) (t : Word) : (s.goto t).mpuInstr = s.mpuInstr := rfl
@[simp] theorem State.goto_mpuData (s : State) (t : Word) : (s.goto t).mpuData = s.mpuData := rfl
@[simp] theorem State.goto_mpuOld (s : State) (t : Word) : (s.goto t).mpuOld = s.mpuOld := rfl
@[simp] theorem State.goto_mem (s : State) (t : Word) : (s.goto t).mem = s.mem := rfl
@[simp] theorem State.goto_dcache (s : State) (t : Word) : (s.goto t).dcache = s.dcache := rfl
@[simp] theorem State.goto_icache (s : State) (t : Word) : (s.goto t).icache = s.icache := rfl
@[simp] theorem State.goto_hazards (s : State) (t : Word) : (s.goto t).hazards = s.hazards := rfl
@[simp] theorem State.goto_paused (s : State) (t : Word) : (s.goto t).paused = s.paused := rfl
@[simp] theorem State.goto_pins (s : State) (t : Word) : (s.goto t).pins = s.pins := rfl
@[simp] theorem State.goto_inputs (s : State) (t : Word) : (s.goto t).inputs = s.inputs := rfl
@[simp] theorem State.goto_draws (s : State) (t : Word) : (s.goto t).draws = s.draws := rfl

/-! ## State.drawn -/

@[simp] theorem State.drawn_cfg (s : State) (n : Nat) : (s.drawn n).cfg = s.cfg := rfl
@[simp] theorem State.drawn_pc (s : State) (n : Nat) : (s.drawn n).pc = s.pc := rfl
@[simp] theorem State.drawn_regs (s : State) (n : Nat) : (s.drawn n).regs = s.regs := rfl
@[simp] theorem State.drawn_status (s : State) (n : Nat) : (s.drawn n).status = s.status := rfl
@[simp] theorem State.drawn_estatus (s : State) (n : Nat) : (s.drawn n).estatus = s.estatus := rfl
@[simp] theorem State.drawn_bstatus (s : State) (n : Nat) : (s.drawn n).bstatus = s.bstatus := rfl
@[simp] theorem State.drawn_ienable (s : State) (n : Nat) : (s.drawn n).ienable = s.ienable := rfl
@[simp] theorem State.drawn_cause (s : State) (n : Nat) : (s.drawn n).cause = s.cause := rfl
@[simp] theorem State.drawn_badaddr (s : State) (n : Nat) : (s.drawn n).badaddr = s.badaddr := rfl
@[simp] theorem State.drawn_pteaddr (s : State) (n : Nat) : (s.drawn n).pteaddr = s.pteaddr := rfl
@[simp] theorem State.drawn_tlbacc (s : State) (n : Nat) : (s.drawn n).tlbacc = s.tlbacc := rfl
@[simp] theorem State.drawn_tlbmisc (s : State) (n : Nat) : (s.drawn n).tlbmisc = s.tlbmisc := rfl
@[simp] theorem State.drawn_config (s : State) (n : Nat) : (s.drawn n).config = s.config := rfl
@[simp] theorem State.drawn_mpubase (s : State) (n : Nat) : (s.drawn n).mpubase = s.mpubase := rfl
@[simp] theorem State.drawn_mpuacc (s : State) (n : Nat) : (s.drawn n).mpuacc = s.mpuacc := rfl
@[simp] theorem State.drawn_tlb (s : State) (n : Nat) : (s.drawn n).tlb = s.tlb := rfl
@[simp] theorem State.drawn_mpuInstr (s : State) (n : Nat) : (s.drawn n).mpuInstr = s.mpuInstr := rfl
@[simp] theorem State.drawn_mpuData (s : State) (n : Nat) : (s.drawn n).mpuData = s.mpuData := rfl
@[simp] theorem State.drawn_mpuOld (s : State) (n : Nat) : (s.drawn n).mpuOld = s.mpuOld := rfl
@[simp] theorem State.drawn_mem (s : State) (n : Nat) : (s.drawn n).mem = s.mem := rfl
@[simp] theorem State.drawn_dcache (s : State) (n : Nat) : (s.drawn n).dcache = s.dcache := rfl
@[simp] theorem State.drawn_icache (s : State) (n : Nat) : (s.drawn n).icache = s.icache := rfl
@[simp] theorem State.drawn_hazards (s : State) (n : Nat) : (s.drawn n).hazards = s.hazards := rfl
@[simp] theorem State.drawn_paused (s : State) (n : Nat) : (s.drawn n).paused = s.paused := rfl
@[simp] theorem State.drawn_pins (s : State) (n : Nat) : (s.drawn n).pins = s.pins := rfl
@[simp] theorem State.drawn_inputs (s : State) (n : Nat) : (s.drawn n).inputs = s.inputs := rfl
@[simp] theorem State.drawn_draws (s : State) (n : Nat) : (s.drawn n).draws = s.draws + n := rfl

/-! ## State.flushPipeline -/

@[simp] theorem State.flushPipeline_cfg (s : State) : (s.flushPipeline).cfg = s.cfg := rfl
@[simp] theorem State.flushPipeline_pc (s : State) : (s.flushPipeline).pc = s.pc := rfl
@[simp] theorem State.flushPipeline_regs (s : State) : (s.flushPipeline).regs = s.regs := rfl
@[simp] theorem State.flushPipeline_status (s : State) : (s.flushPipeline).status = s.status := rfl
@[simp] theorem State.flushPipeline_estatus (s : State) : (s.flushPipeline).estatus = s.estatus := rfl
@[simp] theorem State.flushPipeline_bstatus (s : State) : (s.flushPipeline).bstatus = s.bstatus := rfl
@[simp] theorem State.flushPipeline_ienable (s : State) : (s.flushPipeline).ienable = s.ienable := rfl
@[simp] theorem State.flushPipeline_cause (s : State) : (s.flushPipeline).cause = s.cause := rfl
@[simp] theorem State.flushPipeline_badaddr (s : State) : (s.flushPipeline).badaddr = s.badaddr := rfl
@[simp] theorem State.flushPipeline_pteaddr (s : State) : (s.flushPipeline).pteaddr = s.pteaddr := rfl
@[simp] theorem State.flushPipeline_tlbacc (s : State) : (s.flushPipeline).tlbacc = s.tlbacc := rfl
@[simp] theorem State.flushPipeline_tlbmisc (s : State) : (s.flushPipeline).tlbmisc = s.tlbmisc := rfl
@[simp] theorem State.flushPipeline_config (s : State) : (s.flushPipeline).config = s.config := rfl
@[simp] theorem State.flushPipeline_mpubase (s : State) : (s.flushPipeline).mpubase = s.mpubase := rfl
@[simp] theorem State.flushPipeline_mpuacc (s : State) : (s.flushPipeline).mpuacc = s.mpuacc := rfl
@[simp] theorem State.flushPipeline_tlb (s : State) : (s.flushPipeline).tlb = s.tlb := rfl
@[simp] theorem State.flushPipeline_mpuInstr (s : State) : (s.flushPipeline).mpuInstr = s.mpuInstr := rfl
@[simp] theorem State.flushPipeline_mpuData (s : State) : (s.flushPipeline).mpuData = s.mpuData := rfl
@[simp] theorem State.flushPipeline_mpuOld (s : State) : (s.flushPipeline).mpuOld = [] := rfl
@[simp] theorem State.flushPipeline_mem (s : State) : (s.flushPipeline).mem = s.mem := rfl
@[simp] theorem State.flushPipeline_dcache (s : State) : (s.flushPipeline).dcache = s.dcache := rfl
@[simp] theorem State.flushPipeline_icache (s : State) : (s.flushPipeline).icache = s.icache := rfl
@[simp] theorem State.flushPipeline_hazards (s : State) : (s.flushPipeline).hazards = s.hazards := rfl
@[simp] theorem State.flushPipeline_paused (s : State) : (s.flushPipeline).paused = s.paused := rfl
@[simp] theorem State.flushPipeline_pins (s : State) : (s.flushPipeline).pins = s.pins := rfl
@[simp] theorem State.flushPipeline_inputs (s : State) : (s.flushPipeline).inputs = s.inputs := rfl
@[simp] theorem State.flushPipeline_draws (s : State) : (s.flushPipeline).draws = s.draws := rfl

/-! ## State.dropLines -/

@[simp] theorem State.dropLines_cfg (s : State) (test : CacheLine → Bool) : (s.dropLines test).cfg = s.cfg := rfl
@[simp] theorem State.dropLines_pc (s : State) (test : CacheLine → Bool) : (s.dropLines test).pc = s.pc := rfl
@[simp] theorem State.dropLines_regs (s : State) (test : CacheLine → Bool) : (s.dropLines test).regs = s.regs := rfl
@[simp] theorem State.dropLines_status (s : State) (test : CacheLine → Bool) :
    (s.dropLines test).status = s.status := rfl
@[simp] theorem State.dropLines_estatus (s : State) (test : CacheLine → Bool) :
    (s.dropLines test).estatus = s.estatus := rfl
@[simp] theorem State.dropLines_bstatus (s : State) (test : CacheLine → Bool) :
    (s.dropLines test).bstatus = s.bstatus := rfl
@[simp] theorem State.dropLines_ienable (s : State) (test : CacheLine → Bool) :
    (s.dropLines test).ienable = s.ienable := rfl
@[simp] theorem State.dropLines_cause (s : State) (test : CacheLine → Bool) :
    (s.dropLines test).cause = s.cause := rfl
@[simp] theorem State.dropLines_badaddr (s : State) (test : CacheLine → Bool) :
    (s.dropLines test).badaddr = s.badaddr := rfl
@[simp] theorem State.dropLines_pteaddr (s : State) (test : CacheLine → Bool) :
    (s.dropLines test).pteaddr = s.pteaddr := rfl
@[simp] theorem State.dropLines_tlbacc (s : State) (test : CacheLine → Bool) :
    (s.dropLines test).tlbacc = s.tlbacc := rfl
@[simp] theorem State.dropLines_tlbmisc (s : State) (test : CacheLine → Bool) :
    (s.dropLines test).tlbmisc = s.tlbmisc := rfl
@[simp] theorem State.dropLines_config (s : State) (test : CacheLine → Bool) :
    (s.dropLines test).config = s.config := rfl
@[simp] theorem State.dropLines_mpubase (s : State) (test : CacheLine → Bool) :
    (s.dropLines test).mpubase = s.mpubase := rfl
@[simp] theorem State.dropLines_mpuacc (s : State) (test : CacheLine → Bool) :
    (s.dropLines test).mpuacc = s.mpuacc := rfl
@[simp] theorem State.dropLines_tlb (s : State) (test : CacheLine → Bool) : (s.dropLines test).tlb = s.tlb := rfl
@[simp] theorem State.dropLines_mpuInstr (s : State) (test : CacheLine → Bool) :
    (s.dropLines test).mpuInstr = s.mpuInstr := rfl
@[simp] theorem State.dropLines_mpuData (s : State) (test : CacheLine → Bool) :
    (s.dropLines test).mpuData = s.mpuData := rfl
@[simp] theorem State.dropLines_mpuOld (s : State) (test : CacheLine → Bool) :
    (s.dropLines test).mpuOld = s.mpuOld := rfl
@[simp] theorem State.dropLines_mem (s : State) (test : CacheLine → Bool) : (s.dropLines test).mem = s.mem := rfl
@[simp] theorem State.dropLines_dcache (s : State) (test : CacheLine → Bool) :
    (s.dropLines test).dcache = s.dcache.filter (fun l => !test l) := rfl
@[simp] theorem State.dropLines_icache (s : State) (test : CacheLine → Bool) :
    (s.dropLines test).icache = s.icache := rfl
@[simp] theorem State.dropLines_hazards (s : State) (test : CacheLine → Bool) :
    (s.dropLines test).hazards = s.hazards := rfl
@[simp] theorem State.dropLines_paused (s : State) (test : CacheLine → Bool) :
    (s.dropLines test).paused = s.paused := rfl
@[simp] theorem State.dropLines_pins (s : State) (test : CacheLine → Bool) : (s.dropLines test).pins = s.pins := rfl
@[simp] theorem State.dropLines_inputs (s : State) (test : CacheLine → Bool) :
    (s.dropLines test).inputs = s.inputs := rfl
@[simp] theorem State.dropLines_draws (s : State) (test : CacheLine → Bool) :
    (s.dropLines test).draws = s.draws := rfl

/-! ## State.dropInstrLines -/

@[simp] theorem State.dropInstrLines_cfg (s : State) (test : CacheLine → Bool) :
    (s.dropInstrLines test).cfg = s.cfg := rfl
@[simp] theorem State.dropInstrLines_pc (s : State) (test : CacheLine → Bool) :
    (s.dropInstrLines test).pc = s.pc := rfl
@[simp] theorem State.dropInstrLines_regs (s : State) (test : CacheLine → Bool) :
    (s.dropInstrLines test).regs = s.regs := rfl
@[simp] theorem State.dropInstrLines_status (s : State) (test : CacheLine → Bool) :
    (s.dropInstrLines test).status = s.status := rfl
@[simp] theorem State.dropInstrLines_estatus (s : State) (test : CacheLine → Bool) :
    (s.dropInstrLines test).estatus = s.estatus := rfl
@[simp] theorem State.dropInstrLines_bstatus (s : State) (test : CacheLine → Bool) :
    (s.dropInstrLines test).bstatus = s.bstatus := rfl
@[simp] theorem State.dropInstrLines_ienable (s : State) (test : CacheLine → Bool) :
    (s.dropInstrLines test).ienable = s.ienable := rfl
@[simp] theorem State.dropInstrLines_cause (s : State) (test : CacheLine → Bool) :
    (s.dropInstrLines test).cause = s.cause := rfl
@[simp] theorem State.dropInstrLines_badaddr (s : State) (test : CacheLine → Bool) :
    (s.dropInstrLines test).badaddr = s.badaddr := rfl
@[simp] theorem State.dropInstrLines_pteaddr (s : State) (test : CacheLine → Bool) :
    (s.dropInstrLines test).pteaddr = s.pteaddr := rfl
@[simp] theorem State.dropInstrLines_tlbacc (s : State) (test : CacheLine → Bool) :
    (s.dropInstrLines test).tlbacc = s.tlbacc := rfl
@[simp] theorem State.dropInstrLines_tlbmisc (s : State) (test : CacheLine → Bool) :
    (s.dropInstrLines test).tlbmisc = s.tlbmisc := rfl
@[simp] theorem State.dropInstrLines_config (s : State) (test : CacheLine → Bool) :
    (s.dropInstrLines test).config = s.config := rfl
@[simp] theorem State.dropInstrLines_mpubase (s : State) (test : CacheLine → Bool) :
    (s.dropInstrLines test).mpubase = s.mpubase := rfl
@[simp] theorem State.dropInstrLines_mpuacc (s : State) (test : CacheLine → Bool) :
    (s.dropInstrLines test).mpuacc = s.mpuacc := rfl
@[simp] theorem State.dropInstrLines_tlb (s : State) (test : CacheLine → Bool) :
    (s.dropInstrLines test).tlb = s.tlb := rfl
@[simp] theorem State.dropInstrLines_mpuInstr (s : State) (test : CacheLine → Bool) :
    (s.dropInstrLines test).mpuInstr = s.mpuInstr := rfl
@[simp] theorem State.dropInstrLines_mpuData (s : State) (test : CacheLine → Bool) :
    (s.dropInstrLines test).mpuData = s.mpuData := rfl
@[simp] theorem State.dropInstrLines_mpuOld (s : State) (test : CacheLine → Bool) :
    (s.dropInstrLines test).mpuOld = s.mpuOld := rfl
@[simp] theorem State.dropInstrLines_mem (s : State) (test : CacheLine → Bool) :
    (s.dropInstrLines test).mem = s.mem := rfl
@[simp] theorem State.dropInstrLines_dcache (s : State) (test : CacheLine → Bool) :
    (s.dropInstrLines test).dcache = s.dcache := rfl
@[simp] theorem State.dropInstrLines_icache (s : State) (test : CacheLine → Bool) :
    (s.dropInstrLines test).icache = s.icache.filter (fun l => !test l) := rfl
@[simp] theorem State.dropInstrLines_hazards (s : State) (test : CacheLine → Bool) :
    (s.dropInstrLines test).hazards = s.hazards := rfl
@[simp] theorem State.dropInstrLines_paused (s : State) (test : CacheLine → Bool) :
    (s.dropInstrLines test).paused = s.paused := rfl
@[simp] theorem State.dropInstrLines_pins (s : State) (test : CacheLine → Bool) :
    (s.dropInstrLines test).pins = s.pins := rfl
@[simp] theorem State.dropInstrLines_inputs (s : State) (test : CacheLine → Bool) :
    (s.dropInstrLines test).inputs = s.inputs := rfl
@[simp] theorem State.dropInstrLines_draws (s : State) (test : CacheLine → Bool) :
    (s.dropInstrLines test).draws = s.draws := rfl

/-! ## State.flushLines -/

@[simp] theorem State.flushLines_cfg (s : State) (test : CacheLine → Bool) : (s.flushLines test).cfg = s.cfg := rfl
@[simp] theorem State.flushLines_pc (s : State) (test : CacheLine → Bool) : (s.flushLines test).pc = s.pc := rfl
@[simp] theorem State.flushLines_regs (s : State) (test : CacheLine → Bool) : (s.flushLines test).regs = s.regs := rfl
@[simp] theorem State.flushLines_status (s : State) (test : CacheLine → Bool) :
    (s.flushLines test).status = s.status := rfl
@[simp] theorem State.flushLines_estatus (s : State) (test : CacheLine → Bool) :
    (s.flushLines test).estatus = s.estatus := rfl
@[simp] theorem State.flushLines_bstatus (s : State) (test : CacheLine → Bool) :
    (s.flushLines test).bstatus = s.bstatus := rfl
@[simp] theorem State.flushLines_ienable (s : State) (test : CacheLine → Bool) :
    (s.flushLines test).ienable = s.ienable := rfl
@[simp] theorem State.flushLines_cause (s : State) (test : CacheLine → Bool) :
    (s.flushLines test).cause = s.cause := rfl
@[simp] theorem State.flushLines_badaddr (s : State) (test : CacheLine → Bool) :
    (s.flushLines test).badaddr = s.badaddr := rfl
@[simp] theorem State.flushLines_pteaddr (s : State) (test : CacheLine → Bool) :
    (s.flushLines test).pteaddr = s.pteaddr := rfl
@[simp] theorem State.flushLines_tlbacc (s : State) (test : CacheLine → Bool) :
    (s.flushLines test).tlbacc = s.tlbacc := rfl
@[simp] theorem State.flushLines_tlbmisc (s : State) (test : CacheLine → Bool) :
    (s.flushLines test).tlbmisc = s.tlbmisc := rfl
@[simp] theorem State.flushLines_config (s : State) (test : CacheLine → Bool) :
    (s.flushLines test).config = s.config := rfl
@[simp] theorem State.flushLines_mpubase (s : State) (test : CacheLine → Bool) :
    (s.flushLines test).mpubase = s.mpubase := rfl
@[simp] theorem State.flushLines_mpuacc (s : State) (test : CacheLine → Bool) :
    (s.flushLines test).mpuacc = s.mpuacc := rfl
@[simp] theorem State.flushLines_tlb (s : State) (test : CacheLine → Bool) : (s.flushLines test).tlb = s.tlb := rfl
@[simp] theorem State.flushLines_mpuInstr (s : State) (test : CacheLine → Bool) :
    (s.flushLines test).mpuInstr = s.mpuInstr := rfl
@[simp] theorem State.flushLines_mpuData (s : State) (test : CacheLine → Bool) :
    (s.flushLines test).mpuData = s.mpuData := rfl
@[simp] theorem State.flushLines_mpuOld (s : State) (test : CacheLine → Bool) :
    (s.flushLines test).mpuOld = s.mpuOld := rfl
@[simp] theorem State.flushLines_mem (s : State) (test : CacheLine → Bool) :
    (s.flushLines test).mem = (s.dcache.filter test).foldl (CacheLine.writeBack s.cfg) s.mem := rfl
@[simp] theorem State.flushLines_dcache (s : State) (test : CacheLine → Bool) :
    (s.flushLines test).dcache = s.dcache.filter (fun l => !test l) := rfl
@[simp] theorem State.flushLines_icache (s : State) (test : CacheLine → Bool) :
    (s.flushLines test).icache = s.icache := rfl
@[simp] theorem State.flushLines_hazards (s : State) (test : CacheLine → Bool) :
    (s.flushLines test).hazards = s.hazards := rfl
@[simp] theorem State.flushLines_paused (s : State) (test : CacheLine → Bool) :
    (s.flushLines test).paused = s.paused := rfl
@[simp] theorem State.flushLines_pins (s : State) (test : CacheLine → Bool) : (s.flushLines test).pins = s.pins := rfl
@[simp] theorem State.flushLines_inputs (s : State) (test : CacheLine → Bool) :
    (s.flushLines test).inputs = s.inputs := rfl
@[simp] theorem State.flushLines_draws (s : State) (test : CacheLine → Bool) :
    (s.flushLines test).draws = s.draws := rfl

/-! ## State.noteStore -/

@[simp] theorem State.noteStore_cfg (s : State) (va : Word) (p : DataPath) : (s.noteStore va p).cfg = s.cfg := rfl
@[simp] theorem State.noteStore_pc (s : State) (va : Word) (p : DataPath) : (s.noteStore va p).pc = s.pc := rfl
@[simp] theorem State.noteStore_regs (s : State) (va : Word) (p : DataPath) : (s.noteStore va p).regs = s.regs := rfl
@[simp] theorem State.noteStore_status (s : State) (va : Word) (p : DataPath) :
    (s.noteStore va p).status = s.status := rfl
@[simp] theorem State.noteStore_estatus (s : State) (va : Word) (p : DataPath) :
    (s.noteStore va p).estatus = s.estatus := rfl
@[simp] theorem State.noteStore_bstatus (s : State) (va : Word) (p : DataPath) :
    (s.noteStore va p).bstatus = s.bstatus := rfl
@[simp] theorem State.noteStore_ienable (s : State) (va : Word) (p : DataPath) :
    (s.noteStore va p).ienable = s.ienable := rfl
@[simp] theorem State.noteStore_cause (s : State) (va : Word) (p : DataPath) :
    (s.noteStore va p).cause = s.cause := rfl
@[simp] theorem State.noteStore_badaddr (s : State) (va : Word) (p : DataPath) :
    (s.noteStore va p).badaddr = s.badaddr := rfl
@[simp] theorem State.noteStore_pteaddr (s : State) (va : Word) (p : DataPath) :
    (s.noteStore va p).pteaddr = s.pteaddr := rfl
@[simp] theorem State.noteStore_tlbacc (s : State) (va : Word) (p : DataPath) :
    (s.noteStore va p).tlbacc = s.tlbacc := rfl
@[simp] theorem State.noteStore_tlbmisc (s : State) (va : Word) (p : DataPath) :
    (s.noteStore va p).tlbmisc = s.tlbmisc := rfl
@[simp] theorem State.noteStore_config (s : State) (va : Word) (p : DataPath) :
    (s.noteStore va p).config = s.config := rfl
@[simp] theorem State.noteStore_mpubase (s : State) (va : Word) (p : DataPath) :
    (s.noteStore va p).mpubase = s.mpubase := rfl
@[simp] theorem State.noteStore_mpuacc (s : State) (va : Word) (p : DataPath) :
    (s.noteStore va p).mpuacc = s.mpuacc := rfl
@[simp] theorem State.noteStore_tlb (s : State) (va : Word) (p : DataPath) : (s.noteStore va p).tlb = s.tlb := rfl
@[simp] theorem State.noteStore_mpuInstr (s : State) (va : Word) (p : DataPath) :
    (s.noteStore va p).mpuInstr = s.mpuInstr := rfl
@[simp] theorem State.noteStore_mpuData (s : State) (va : Word) (p : DataPath) :
    (s.noteStore va p).mpuData = s.mpuData := rfl
@[simp] theorem State.noteStore_mpuOld (s : State) (va : Word) (p : DataPath) :
    (s.noteStore va p).mpuOld = s.mpuOld := rfl
@[simp] theorem State.noteStore_mem (s : State) (va : Word) (p : DataPath) : (s.noteStore va p).mem = s.mem := rfl
@[simp] theorem State.noteStore_dcache (s : State) (va : Word) (p : DataPath) :
    (s.noteStore va p).dcache = s.dcache := rfl
@[simp] theorem State.noteStore_icache (s : State) (va : Word) (p : DataPath) :
    (s.noteStore va p).icache = s.icache := rfl
@[simp] theorem State.noteStore_paused (s : State) (va : Word) (p : DataPath) :
    (s.noteStore va p).paused = s.paused := rfl
@[simp] theorem State.noteStore_pins (s : State) (va : Word) (p : DataPath) : (s.noteStore va p).pins = s.pins := rfl
@[simp] theorem State.noteStore_inputs (s : State) (va : Word) (p : DataPath) :
    (s.noteStore va p).inputs = s.inputs := rfl
@[simp] theorem State.noteStore_draws (s : State) (va : Word) (p : DataPath) :
    (s.noteStore va p).draws = s.draws := rfl

/-! ## State.readRegion -/

@[simp] theorem State.readRegion_cfg (s : State) (r : MpuRegion) : (s.readRegion r).cfg = s.cfg := rfl
@[simp] theorem State.readRegion_pc (s : State) (r : MpuRegion) : (s.readRegion r).pc = s.pc := rfl
@[simp] theorem State.readRegion_regs (s : State) (r : MpuRegion) : (s.readRegion r).regs = s.regs := rfl
@[simp] theorem State.readRegion_status (s : State) (r : MpuRegion) : (s.readRegion r).status = s.status := rfl
@[simp] theorem State.readRegion_estatus (s : State) (r : MpuRegion) : (s.readRegion r).estatus = s.estatus := rfl
@[simp] theorem State.readRegion_bstatus (s : State) (r : MpuRegion) : (s.readRegion r).bstatus = s.bstatus := rfl
@[simp] theorem State.readRegion_ienable (s : State) (r : MpuRegion) : (s.readRegion r).ienable = s.ienable := rfl
@[simp] theorem State.readRegion_cause (s : State) (r : MpuRegion) : (s.readRegion r).cause = s.cause := rfl
@[simp] theorem State.readRegion_badaddr (s : State) (r : MpuRegion) : (s.readRegion r).badaddr = s.badaddr := rfl
@[simp] theorem State.readRegion_pteaddr (s : State) (r : MpuRegion) : (s.readRegion r).pteaddr = s.pteaddr := rfl
@[simp] theorem State.readRegion_tlbacc (s : State) (r : MpuRegion) : (s.readRegion r).tlbacc = s.tlbacc := rfl
@[simp] theorem State.readRegion_tlbmisc (s : State) (r : MpuRegion) : (s.readRegion r).tlbmisc = s.tlbmisc := rfl
@[simp] theorem State.readRegion_config (s : State) (r : MpuRegion) : (s.readRegion r).config = s.config := rfl
@[simp] theorem State.readRegion_mpubase (s : State) (r : MpuRegion) :
    (s.readRegion r).mpubase = { s.mpubase with base := r.base } := rfl
@[simp] theorem State.readRegion_mpuacc (s : State) (r : MpuRegion) :
    (s.readRegion r).mpuacc = { extent := r.extent, c := r.c, perm := r.perm } := rfl
@[simp] theorem State.readRegion_tlb (s : State) (r : MpuRegion) : (s.readRegion r).tlb = s.tlb := rfl
@[simp] theorem State.readRegion_mpuInstr (s : State) (r : MpuRegion) : (s.readRegion r).mpuInstr = s.mpuInstr := rfl
@[simp] theorem State.readRegion_mpuData (s : State) (r : MpuRegion) : (s.readRegion r).mpuData = s.mpuData := rfl
@[simp] theorem State.readRegion_mpuOld (s : State) (r : MpuRegion) : (s.readRegion r).mpuOld = s.mpuOld := rfl
@[simp] theorem State.readRegion_mem (s : State) (r : MpuRegion) : (s.readRegion r).mem = s.mem := rfl
@[simp] theorem State.readRegion_dcache (s : State) (r : MpuRegion) : (s.readRegion r).dcache = s.dcache := rfl
@[simp] theorem State.readRegion_icache (s : State) (r : MpuRegion) : (s.readRegion r).icache = s.icache := rfl
@[simp] theorem State.readRegion_hazards (s : State) (r : MpuRegion) : (s.readRegion r).hazards = s.hazards := rfl
@[simp] theorem State.readRegion_paused (s : State) (r : MpuRegion) : (s.readRegion r).paused = s.paused := rfl
@[simp] theorem State.readRegion_pins (s : State) (r : MpuRegion) : (s.readRegion r).pins = s.pins := rfl
@[simp] theorem State.readRegion_inputs (s : State) (r : MpuRegion) : (s.readRegion r).inputs = s.inputs := rfl
@[simp] theorem State.readRegion_draws (s : State) (r : MpuRegion) : (s.readRegion r).draws = s.draws := rfl

/-! ## State.writeRegion -/

@[simp] theorem State.writeRegion_cfg (s : State) (old : MpuRegion) (a : Mpuacc) :
    (s.writeRegion old a).cfg = s.cfg := rfl
@[simp] theorem State.writeRegion_pc (s : State) (old : MpuRegion) (a : Mpuacc) :
    (s.writeRegion old a).pc = s.pc := rfl
@[simp] theorem State.writeRegion_regs (s : State) (old : MpuRegion) (a : Mpuacc) :
    (s.writeRegion old a).regs = s.regs := rfl
@[simp] theorem State.writeRegion_status (s : State) (old : MpuRegion) (a : Mpuacc) :
    (s.writeRegion old a).status = s.status := rfl
@[simp] theorem State.writeRegion_estatus (s : State) (old : MpuRegion) (a : Mpuacc) :
    (s.writeRegion old a).estatus = s.estatus := rfl
@[simp] theorem State.writeRegion_bstatus (s : State) (old : MpuRegion) (a : Mpuacc) :
    (s.writeRegion old a).bstatus = s.bstatus := rfl
@[simp] theorem State.writeRegion_ienable (s : State) (old : MpuRegion) (a : Mpuacc) :
    (s.writeRegion old a).ienable = s.ienable := rfl
@[simp] theorem State.writeRegion_cause (s : State) (old : MpuRegion) (a : Mpuacc) :
    (s.writeRegion old a).cause = s.cause := rfl
@[simp] theorem State.writeRegion_badaddr (s : State) (old : MpuRegion) (a : Mpuacc) :
    (s.writeRegion old a).badaddr = s.badaddr := rfl
@[simp] theorem State.writeRegion_pteaddr (s : State) (old : MpuRegion) (a : Mpuacc) :
    (s.writeRegion old a).pteaddr = s.pteaddr := rfl
@[simp] theorem State.writeRegion_tlbacc (s : State) (old : MpuRegion) (a : Mpuacc) :
    (s.writeRegion old a).tlbacc = s.tlbacc := rfl
@[simp] theorem State.writeRegion_tlbmisc (s : State) (old : MpuRegion) (a : Mpuacc) :
    (s.writeRegion old a).tlbmisc = s.tlbmisc := rfl
@[simp] theorem State.writeRegion_config (s : State) (old : MpuRegion) (a : Mpuacc) :
    (s.writeRegion old a).config = s.config := rfl
@[simp] theorem State.writeRegion_mpubase (s : State) (old : MpuRegion) (a : Mpuacc) :
    (s.writeRegion old a).mpubase = s.mpubase := rfl
@[simp] theorem State.writeRegion_mpuacc (s : State) (old : MpuRegion) (a : Mpuacc) :
    (s.writeRegion old a).mpuacc = a := rfl
@[simp] theorem State.writeRegion_tlb (s : State) (old : MpuRegion) (a : Mpuacc) :
    (s.writeRegion old a).tlb = s.tlb := rfl
@[simp] theorem State.writeRegion_mpuOld (s : State) (old : MpuRegion) (a : Mpuacc) :
    (s.writeRegion old a).mpuOld = { isData := s.mpubase.d, index := s.mpubase.index.toNat, attrs := old } :: s.mpuOld := rfl
@[simp] theorem State.writeRegion_mem (s : State) (old : MpuRegion) (a : Mpuacc) :
    (s.writeRegion old a).mem = s.mem := rfl
@[simp] theorem State.writeRegion_dcache (s : State) (old : MpuRegion) (a : Mpuacc) :
    (s.writeRegion old a).dcache = s.dcache := rfl
@[simp] theorem State.writeRegion_icache (s : State) (old : MpuRegion) (a : Mpuacc) :
    (s.writeRegion old a).icache = s.icache := rfl
@[simp] theorem State.writeRegion_hazards (s : State) (old : MpuRegion) (a : Mpuacc) :
    (s.writeRegion old a).hazards = s.hazards := rfl
@[simp] theorem State.writeRegion_paused (s : State) (old : MpuRegion) (a : Mpuacc) :
    (s.writeRegion old a).paused = s.paused := rfl
@[simp] theorem State.writeRegion_pins (s : State) (old : MpuRegion) (a : Mpuacc) :
    (s.writeRegion old a).pins = s.pins := rfl
@[simp] theorem State.writeRegion_inputs (s : State) (old : MpuRegion) (a : Mpuacc) :
    (s.writeRegion old a).inputs = s.inputs := rfl
@[simp] theorem State.writeRegion_draws (s : State) (old : MpuRegion) (a : Mpuacc) :
    (s.writeRegion old a).draws = s.draws := rfl

/-! ## takeGeneral -/

@[simp] theorem takeGeneral_cfg (s : State) (e : Exc) : (takeGeneral e s).cfg = s.cfg := rfl
@[simp] theorem takeGeneral_pc (s : State) (e : Exc) : (takeGeneral e s).pc = e.vector s.status.eh s.cfg := rfl
@[simp] theorem takeGeneral_regs (s : State) (e : Exc) :
    (takeGeneral e s).regs = if s.status.eh then s.regs else s.regs.put 0 29 (s.pc + 4) := rfl
@[simp] theorem takeGeneral_status (s : State) (e : Exc) : (takeGeneral e s).status = s.status.inHandler s.cfg := rfl
@[simp] theorem takeGeneral_estatus (s : State) (e : Exc) :
    (takeGeneral e s).estatus = if s.status.eh then s.estatus else s.status := rfl
@[simp] theorem takeGeneral_bstatus (s : State) (e : Exc) : (takeGeneral e s).bstatus = s.bstatus := rfl
@[simp] theorem takeGeneral_ienable (s : State) (e : Exc) : (takeGeneral e s).ienable = s.ienable := rfl
@[simp] theorem takeGeneral_cause (s : State) (e : Exc) :
    (takeGeneral e s).cause = if s.cfg.excInfo then e.cause else s.cause := rfl
@[simp] theorem takeGeneral_badaddr (s : State) (e : Exc) :
    (takeGeneral e s).badaddr = if s.cfg.excInfo then e.newBadaddr s else s.badaddr := rfl
@[simp] theorem takeGeneral_pteaddr (s : State) (e : Exc) :
    (takeGeneral e s).pteaddr = if s.cfg.hasMmu then e.newPteaddr s.status.eh s.pteaddr else s.pteaddr := rfl
@[simp] theorem takeGeneral_tlbacc (s : State) (e : Exc) : (takeGeneral e s).tlbacc = s.tlbacc := rfl
@[simp] theorem takeGeneral_tlbmisc (s : State) (e : Exc) :
    (takeGeneral e s).tlbmisc = if s.cfg.hasMmu then e.newTlbmisc s.status.eh s.tlbmisc else s.tlbmisc := rfl
@[simp] theorem takeGeneral_config (s : State) (e : Exc) : (takeGeneral e s).config = s.config := rfl
@[simp] theorem takeGeneral_mpubase (s : State) (e : Exc) : (takeGeneral e s).mpubase = s.mpubase := rfl
@[simp] theorem takeGeneral_mpuacc (s : State) (e : Exc) : (takeGeneral e s).mpuacc = s.mpuacc := rfl
@[simp] theorem takeGeneral_tlb (s : State) (e : Exc) : (takeGeneral e s).tlb = s.tlb := rfl
@[simp] theorem takeGeneral_mpuInstr (s : State) (e : Exc) : (takeGeneral e s).mpuInstr = s.mpuInstr := rfl
@[simp] theorem takeGeneral_mpuData (s : State) (e : Exc) : (takeGeneral e s).mpuData = s.mpuData := rfl
@[simp] theorem takeGeneral_mpuOld (s : State) (e : Exc) : (takeGeneral e s).mpuOld = [] := rfl
@[simp] theorem takeGeneral_mem (s : State) (e : Exc) : (takeGeneral e s).mem = s.mem := rfl
@[simp] theorem takeGeneral_dcache (s : State) (e : Exc) : (takeGeneral e s).dcache = s.dcache := rfl
@[simp] theorem takeGeneral_icache (s : State) (e : Exc) : (takeGeneral e s).icache = s.icache := rfl
@[simp] theorem takeGeneral_hazards (s : State) (e : Exc) : (takeGeneral e s).hazards = s.hazards := rfl
@[simp] theorem takeGeneral_paused (s : State) (e : Exc) : (takeGeneral e s).paused = s.paused := rfl
@[simp] theorem takeGeneral_pins (s : State) (e : Exc) : (takeGeneral e s).pins = s.pins := rfl
@[simp] theorem takeGeneral_inputs (s : State) (e : Exc) : (takeGeneral e s).inputs = s.inputs := rfl
@[simp] theorem takeGeneral_draws (s : State) (e : Exc) : (takeGeneral e s).draws = s.draws := rfl

/-! ## takeBreak -/

@[simp] theorem takeBreak_cfg (s : State) : (takeBreak s).cfg = s.cfg := rfl
@[simp] theorem takeBreak_pc (s : State) : (takeBreak s).pc = s.cfg.vectorPc s.cfg.breakAddr := rfl
@[simp] theorem takeBreak_regs (s : State) : (takeBreak s).regs = s.breakRegs := rfl
@[simp] theorem takeBreak_estatus (s : State) : (takeBreak s).estatus = s.estatus := rfl
@[simp] theorem takeBreak_bstatus (s : State) : (takeBreak s).bstatus = s.status := rfl
@[simp] theorem takeBreak_ienable (s : State) : (takeBreak s).ienable = s.ienable := rfl
@[simp] theorem takeBreak_cause (s : State) : (takeBreak s).cause = s.cause := rfl
@[simp] theorem takeBreak_badaddr (s : State) : (takeBreak s).badaddr = s.badaddr := rfl
@[simp] theorem takeBreak_pteaddr (s : State) : (takeBreak s).pteaddr = s.pteaddr := rfl
@[simp] theorem takeBreak_tlbacc (s : State) : (takeBreak s).tlbacc = s.tlbacc := rfl
@[simp] theorem takeBreak_tlbmisc (s : State) : (takeBreak s).tlbmisc = s.tlbmisc := rfl
@[simp] theorem takeBreak_config (s : State) : (takeBreak s).config = s.config := rfl
@[simp] theorem takeBreak_mpubase (s : State) : (takeBreak s).mpubase = s.mpubase := rfl
@[simp] theorem takeBreak_mpuacc (s : State) : (takeBreak s).mpuacc = s.mpuacc := rfl
@[simp] theorem takeBreak_tlb (s : State) : (takeBreak s).tlb = s.tlb := rfl
@[simp] theorem takeBreak_mpuInstr (s : State) : (takeBreak s).mpuInstr = s.mpuInstr := rfl
@[simp] theorem takeBreak_mpuData (s : State) : (takeBreak s).mpuData = s.mpuData := rfl
@[simp] theorem takeBreak_mpuOld (s : State) : (takeBreak s).mpuOld = [] := rfl
@[simp] theorem takeBreak_mem (s : State) : (takeBreak s).mem = s.mem := rfl
@[simp] theorem takeBreak_dcache (s : State) : (takeBreak s).dcache = s.dcache := rfl
@[simp] theorem takeBreak_icache (s : State) : (takeBreak s).icache = s.icache := rfl
@[simp] theorem takeBreak_hazards (s : State) : (takeBreak s).hazards = s.hazards := rfl
@[simp] theorem takeBreak_paused (s : State) : (takeBreak s).paused = s.cfg.hasDebug := rfl
@[simp] theorem takeBreak_pins (s : State) : (takeBreak s).pins = s.pins := rfl
@[simp] theorem takeBreak_inputs (s : State) : (takeBreak s).inputs = s.inputs := rfl
@[simp] theorem takeBreak_draws (s : State) :
    (takeBreak s).draws = if s.cfg.hasDebug then s.draws + 1 else s.draws := rfl

/-! ## debugged -/

@[simp] theorem State.debugged_cfg (s : State) (d : DebugWrites) : (s.debugged d).cfg = s.cfg := rfl
@[simp] theorem State.debugged_pc (s : State) (d : DebugWrites) : (s.debugged d).pc = s.pc := rfl
@[simp] theorem State.debugged_status (s : State) (d : DebugWrites) : (s.debugged d).status = s.status := rfl
@[simp] theorem State.debugged_estatus (s : State) (d : DebugWrites) : (s.debugged d).estatus = s.estatus := rfl
@[simp] theorem State.debugged_ienable (s : State) (d : DebugWrites) : (s.debugged d).ienable = s.ienable := rfl
@[simp] theorem State.debugged_cause (s : State) (d : DebugWrites) : (s.debugged d).cause = s.cause := rfl
@[simp] theorem State.debugged_badaddr (s : State) (d : DebugWrites) : (s.debugged d).badaddr = s.badaddr := rfl
@[simp] theorem State.debugged_pteaddr (s : State) (d : DebugWrites) : (s.debugged d).pteaddr = s.pteaddr := rfl
@[simp] theorem State.debugged_tlbacc (s : State) (d : DebugWrites) : (s.debugged d).tlbacc = s.tlbacc := rfl
@[simp] theorem State.debugged_tlbmisc (s : State) (d : DebugWrites) : (s.debugged d).tlbmisc = s.tlbmisc := rfl
@[simp] theorem State.debugged_config (s : State) (d : DebugWrites) : (s.debugged d).config = s.config := rfl
@[simp] theorem State.debugged_mpubase (s : State) (d : DebugWrites) : (s.debugged d).mpubase = s.mpubase := rfl
@[simp] theorem State.debugged_mpuacc (s : State) (d : DebugWrites) : (s.debugged d).mpuacc = s.mpuacc := rfl
@[simp] theorem State.debugged_tlb (s : State) (d : DebugWrites) : (s.debugged d).tlb = s.tlb := rfl
@[simp] theorem State.debugged_mpuInstr (s : State) (d : DebugWrites) : (s.debugged d).mpuInstr = s.mpuInstr := rfl
@[simp] theorem State.debugged_mpuData (s : State) (d : DebugWrites) : (s.debugged d).mpuData = s.mpuData := rfl
@[simp] theorem State.debugged_mpuOld (s : State) (d : DebugWrites) : (s.debugged d).mpuOld = s.mpuOld := rfl
@[simp] theorem State.debugged_mem (s : State) (d : DebugWrites) : (s.debugged d).mem = s.mem := rfl
@[simp] theorem State.debugged_dcache (s : State) (d : DebugWrites) : (s.debugged d).dcache = s.dcache := rfl
@[simp] theorem State.debugged_icache (s : State) (d : DebugWrites) : (s.debugged d).icache = s.icache := rfl
@[simp] theorem State.debugged_hazards (s : State) (d : DebugWrites) : (s.debugged d).hazards = s.hazards := rfl
@[simp] theorem State.debugged_paused (s : State) (d : DebugWrites) : (s.debugged d).paused = s.paused := rfl
@[simp] theorem State.debugged_pins (s : State) (d : DebugWrites) : (s.debugged d).pins = s.pins := rfl
@[simp] theorem State.debugged_inputs (s : State) (d : DebugWrites) : (s.debugged d).inputs = s.inputs := rfl
@[simp] theorem State.debugged_draws (s : State) (d : DebugWrites) : (s.debugged d).draws = s.draws := rfl
@[simp] theorem State.debugged_regs (s : State) (d : DebugWrites) :
    (s.debugged d).regs = (s.regs.put 0 25 d.bt).put 0 30 d.ba := rfl
@[simp] theorem State.debugged_bstatus (s : State) (d : DebugWrites) :
    (s.debugged d).bstatus = (Status.ofWord d.bstatus).implement s.cfg := rfl

/-! ## debuggerActs and released -/

/-- What a debug module changes at a boundary (60_exceptions.md rule R442). -/
theorem State.debuggerActs_frame (s : State) (d : Option DebugWrites) :
    { s.debuggerActs d with regs := s.regs, bstatus := s.bstatus } = s := by
  unfold State.debuggerActs
  split
  · split <;> rfl
  · rfl

/-- What giving up control changes (60_exceptions.md rule R442). -/
theorem State.released_frame (s : State) :
    { s.released with regs := s.regs, bstatus := s.bstatus, paused := s.paused, draws := s.draws } = s := by
  unfold State.released
  split <;> rfl

@[simp] theorem State.debuggerActs_cfg (s : State) (d : Option DebugWrites) : (s.debuggerActs d).cfg = s.cfg :=
  (congrArg State.cfg (s.debuggerActs_frame d) :)
@[simp] theorem State.debuggerActs_pc (s : State) (d : Option DebugWrites) : (s.debuggerActs d).pc = s.pc :=
  (congrArg State.pc (s.debuggerActs_frame d) :)
@[simp] theorem State.debuggerActs_status (s : State) (d : Option DebugWrites) : (s.debuggerActs d).status = s.status :=
  (congrArg State.status (s.debuggerActs_frame d) :)
@[simp] theorem State.debuggerActs_estatus (s : State) (d : Option DebugWrites) : (s.debuggerActs d).estatus = s.estatus :=
  (congrArg State.estatus (s.debuggerActs_frame d) :)
@[simp] theorem State.debuggerActs_ienable (s : State) (d : Option DebugWrites) : (s.debuggerActs d).ienable = s.ienable :=
  (congrArg State.ienable (s.debuggerActs_frame d) :)
@[simp] theorem State.debuggerActs_cause (s : State) (d : Option DebugWrites) : (s.debuggerActs d).cause = s.cause :=
  (congrArg State.cause (s.debuggerActs_frame d) :)
@[simp] theorem State.debuggerActs_badaddr (s : State) (d : Option DebugWrites) : (s.debuggerActs d).badaddr = s.badaddr :=
  (congrArg State.badaddr (s.debuggerActs_frame d) :)
@[simp] theorem State.debuggerActs_pteaddr (s : State) (d : Option DebugWrites) : (s.debuggerActs d).pteaddr = s.pteaddr :=
  (congrArg State.pteaddr (s.debuggerActs_frame d) :)
@[simp] theorem State.debuggerActs_tlbacc (s : State) (d : Option DebugWrites) : (s.debuggerActs d).tlbacc = s.tlbacc :=
  (congrArg State.tlbacc (s.debuggerActs_frame d) :)
@[simp] theorem State.debuggerActs_tlbmisc (s : State) (d : Option DebugWrites) : (s.debuggerActs d).tlbmisc = s.tlbmisc :=
  (congrArg State.tlbmisc (s.debuggerActs_frame d) :)
@[simp] theorem State.debuggerActs_config (s : State) (d : Option DebugWrites) : (s.debuggerActs d).config = s.config :=
  (congrArg State.config (s.debuggerActs_frame d) :)
@[simp] theorem State.debuggerActs_mpubase (s : State) (d : Option DebugWrites) : (s.debuggerActs d).mpubase = s.mpubase :=
  (congrArg State.mpubase (s.debuggerActs_frame d) :)
@[simp] theorem State.debuggerActs_mpuacc (s : State) (d : Option DebugWrites) : (s.debuggerActs d).mpuacc = s.mpuacc :=
  (congrArg State.mpuacc (s.debuggerActs_frame d) :)
@[simp] theorem State.debuggerActs_tlb (s : State) (d : Option DebugWrites) : (s.debuggerActs d).tlb = s.tlb :=
  (congrArg State.tlb (s.debuggerActs_frame d) :)
@[simp] theorem State.debuggerActs_mpuInstr (s : State) (d : Option DebugWrites) : (s.debuggerActs d).mpuInstr = s.mpuInstr :=
  (congrArg State.mpuInstr (s.debuggerActs_frame d) :)
@[simp] theorem State.debuggerActs_mpuData (s : State) (d : Option DebugWrites) : (s.debuggerActs d).mpuData = s.mpuData :=
  (congrArg State.mpuData (s.debuggerActs_frame d) :)
@[simp] theorem State.debuggerActs_mpuOld (s : State) (d : Option DebugWrites) : (s.debuggerActs d).mpuOld = s.mpuOld :=
  (congrArg State.mpuOld (s.debuggerActs_frame d) :)
@[simp] theorem State.debuggerActs_mem (s : State) (d : Option DebugWrites) : (s.debuggerActs d).mem = s.mem :=
  (congrArg State.mem (s.debuggerActs_frame d) :)
@[simp] theorem State.debuggerActs_dcache (s : State) (d : Option DebugWrites) : (s.debuggerActs d).dcache = s.dcache :=
  (congrArg State.dcache (s.debuggerActs_frame d) :)
@[simp] theorem State.debuggerActs_icache (s : State) (d : Option DebugWrites) : (s.debuggerActs d).icache = s.icache :=
  (congrArg State.icache (s.debuggerActs_frame d) :)
@[simp] theorem State.debuggerActs_hazards (s : State) (d : Option DebugWrites) : (s.debuggerActs d).hazards = s.hazards :=
  (congrArg State.hazards (s.debuggerActs_frame d) :)
@[simp] theorem State.debuggerActs_pins (s : State) (d : Option DebugWrites) : (s.debuggerActs d).pins = s.pins :=
  (congrArg State.pins (s.debuggerActs_frame d) :)
@[simp] theorem State.debuggerActs_inputs (s : State) (d : Option DebugWrites) : (s.debuggerActs d).inputs = s.inputs :=
  (congrArg State.inputs (s.debuggerActs_frame d) :)
@[simp] theorem State.debuggerActs_paused (s : State) (d : Option DebugWrites) : (s.debuggerActs d).paused = s.paused :=
  (congrArg State.paused (s.debuggerActs_frame d) :)
@[simp] theorem State.debuggerActs_draws (s : State) (d : Option DebugWrites) : (s.debuggerActs d).draws = s.draws :=
  (congrArg State.draws (s.debuggerActs_frame d) :)
@[simp] theorem State.released_cfg (s : State) : s.released.cfg = s.cfg :=
  (congrArg State.cfg s.released_frame :)
@[simp] theorem State.released_pc (s : State) : s.released.pc = s.pc :=
  (congrArg State.pc s.released_frame :)
@[simp] theorem State.released_status (s : State) : s.released.status = s.status :=
  (congrArg State.status s.released_frame :)
@[simp] theorem State.released_estatus (s : State) : s.released.estatus = s.estatus :=
  (congrArg State.estatus s.released_frame :)
@[simp] theorem State.released_ienable (s : State) : s.released.ienable = s.ienable :=
  (congrArg State.ienable s.released_frame :)
@[simp] theorem State.released_cause (s : State) : s.released.cause = s.cause :=
  (congrArg State.cause s.released_frame :)
@[simp] theorem State.released_badaddr (s : State) : s.released.badaddr = s.badaddr :=
  (congrArg State.badaddr s.released_frame :)
@[simp] theorem State.released_pteaddr (s : State) : s.released.pteaddr = s.pteaddr :=
  (congrArg State.pteaddr s.released_frame :)
@[simp] theorem State.released_tlbacc (s : State) : s.released.tlbacc = s.tlbacc :=
  (congrArg State.tlbacc s.released_frame :)
@[simp] theorem State.released_tlbmisc (s : State) : s.released.tlbmisc = s.tlbmisc :=
  (congrArg State.tlbmisc s.released_frame :)
@[simp] theorem State.released_config (s : State) : s.released.config = s.config :=
  (congrArg State.config s.released_frame :)
@[simp] theorem State.released_mpubase (s : State) : s.released.mpubase = s.mpubase :=
  (congrArg State.mpubase s.released_frame :)
@[simp] theorem State.released_mpuacc (s : State) : s.released.mpuacc = s.mpuacc :=
  (congrArg State.mpuacc s.released_frame :)
@[simp] theorem State.released_tlb (s : State) : s.released.tlb = s.tlb :=
  (congrArg State.tlb s.released_frame :)
@[simp] theorem State.released_mpuInstr (s : State) : s.released.mpuInstr = s.mpuInstr :=
  (congrArg State.mpuInstr s.released_frame :)
@[simp] theorem State.released_mpuData (s : State) : s.released.mpuData = s.mpuData :=
  (congrArg State.mpuData s.released_frame :)
@[simp] theorem State.released_mpuOld (s : State) : s.released.mpuOld = s.mpuOld :=
  (congrArg State.mpuOld s.released_frame :)
@[simp] theorem State.released_mem (s : State) : s.released.mem = s.mem :=
  (congrArg State.mem s.released_frame :)
@[simp] theorem State.released_dcache (s : State) : s.released.dcache = s.dcache :=
  (congrArg State.dcache s.released_frame :)
@[simp] theorem State.released_icache (s : State) : s.released.icache = s.icache :=
  (congrArg State.icache s.released_frame :)
@[simp] theorem State.released_hazards (s : State) : s.released.hazards = s.hazards :=
  (congrArg State.hazards s.released_frame :)
@[simp] theorem State.released_pins (s : State) : s.released.pins = s.pins :=
  (congrArg State.pins s.released_frame :)
@[simp] theorem State.released_inputs (s : State) : s.released.inputs = s.inputs :=
  (congrArg State.inputs s.released_frame :)
@[simp] theorem State.released_paused (s : State) : s.released.paused = false := by
  unfold State.released
  split
  · rfl
  · exact Bool.eq_false_iff.2 ‹_›

/-- The machine that no debug module controls. -/
theorem State.released_of_running (s : State) (h : s.paused = false) : s.released = s := by simp [State.released, h]

/-! ## takeExternal -/

@[simp] theorem takeExternal_cfg (s : State) (q : EicRequest) : (takeExternal q s).cfg = s.cfg := rfl
@[simp] theorem takeExternal_pc (s : State) (q : EicRequest) : (takeExternal q s).pc = q.rha := rfl
@[simp] theorem takeExternal_regs (s : State) (q : EicRequest) :
    (takeExternal q s).regs = if s.status.eh then s.regs else s.interruptRegs q := rfl
@[simp] theorem takeExternal_status (s : State) (q : EicRequest) :
    (takeExternal q s).status = (s.status.inInterrupt q s.config.ani).implement s.cfg := rfl
@[simp] theorem takeExternal_estatus (s : State) (q : EicRequest) :
    (takeExternal q s).estatus = if s.status.eh || q.rrs != 0 then s.estatus else s.status := rfl
@[simp] theorem takeExternal_bstatus (s : State) (q : EicRequest) : (takeExternal q s).bstatus = s.bstatus := rfl
@[simp] theorem takeExternal_ienable (s : State) (q : EicRequest) : (takeExternal q s).ienable = s.ienable := rfl
@[simp] theorem takeExternal_cause (s : State) (q : EicRequest) : (takeExternal q s).cause = s.cause := rfl
@[simp] theorem takeExternal_badaddr (s : State) (q : EicRequest) : (takeExternal q s).badaddr = s.badaddr := rfl
@[simp] theorem takeExternal_pteaddr (s : State) (q : EicRequest) : (takeExternal q s).pteaddr = s.pteaddr := rfl
@[simp] theorem takeExternal_tlbacc (s : State) (q : EicRequest) : (takeExternal q s).tlbacc = s.tlbacc := rfl
@[simp] theorem takeExternal_tlbmisc (s : State) (q : EicRequest) : (takeExternal q s).tlbmisc = s.tlbmisc := rfl
@[simp] theorem takeExternal_config (s : State) (q : EicRequest) : (takeExternal q s).config = s.config := rfl
@[simp] theorem takeExternal_mpubase (s : State) (q : EicRequest) : (takeExternal q s).mpubase = s.mpubase := rfl
@[simp] theorem takeExternal_mpuacc (s : State) (q : EicRequest) : (takeExternal q s).mpuacc = s.mpuacc := rfl
@[simp] theorem takeExternal_tlb (s : State) (q : EicRequest) : (takeExternal q s).tlb = s.tlb := rfl
@[simp] theorem takeExternal_mpuInstr (s : State) (q : EicRequest) : (takeExternal q s).mpuInstr = s.mpuInstr := rfl
@[simp] theorem takeExternal_mpuData (s : State) (q : EicRequest) : (takeExternal q s).mpuData = s.mpuData := rfl
@[simp] theorem takeExternal_mpuOld (s : State) (q : EicRequest) : (takeExternal q s).mpuOld = [] := rfl
@[simp] theorem takeExternal_mem (s : State) (q : EicRequest) : (takeExternal q s).mem = s.mem := rfl
@[simp] theorem takeExternal_dcache (s : State) (q : EicRequest) : (takeExternal q s).dcache = s.dcache := rfl
@[simp] theorem takeExternal_icache (s : State) (q : EicRequest) : (takeExternal q s).icache = s.icache := rfl
@[simp] theorem takeExternal_hazards (s : State) (q : EicRequest) : (takeExternal q s).hazards = s.hazards := rfl
@[simp] theorem takeExternal_paused (s : State) (q : EicRequest) : (takeExternal q s).paused = s.paused := rfl
@[simp] theorem takeExternal_pins (s : State) (q : EicRequest) : (takeExternal q s).pins = s.pins := rfl
@[simp] theorem takeExternal_inputs (s : State) (q : EicRequest) : (takeExternal q s).inputs = s.inputs := rfl
@[simp] theorem takeExternal_draws (s : State) (q : EicRequest) : (takeExternal q s).draws = s.draws := rfl

end Sys2Proof.Machine
end

