-- ==== Sys2Proof/Laws/Cache.lean ====
section
/-! SUPPORT. Data accesses through the caches: filling a line changes no byte, a store changes the bytes stored and no
other (20_memory.md rules R96, R104, R106 and R110). -/

namespace Sys2Proof.Machine

/-- A line number is only ever selected where there is a data cache. -/
theorem dcacheLine_pos (c : Config) (h : c.hasDcache = true) : 0 < c.dcacheLine := by
  simp only [Config.hasDcache, Bool.and_eq_true, bne_iff_ne, ne_eq] at h
  exact Nat.pos_of_ne_zero h.2

/-- The line number of an address is that of the first address of its number. -/
theorem index_of_number (c : Config) (va : Word) (n count k : Nat) (hn : 0 < n)
    (h : c.indexAddress va / n % count = k) :
    c.indexAddress (BitVec.ofNat 32 (k * n)) / n % count = k := by
  have hk : k * n ≤ c.indexAddress va := by
    subst h
    exact Nat.le_trans (Nat.mul_le_mul_right n (Nat.mod_le _ _)) (Nat.div_mul_le_self _ _)
  have hx : c.indexAddress (BitVec.ofNat 32 (k * n)) = k * n := by
    have hv := va.isLt
    unfold Config.indexAddress Config.plainAddress at *
    split
    · rename_i hm
      rw [if_pos hm] at hk
      rw [BitVec.toNat_ofNat, Nat.mod_eq_of_lt (by omega)]
    · rename_i hm
      rw [if_neg hm] at hk
      simp only [BitVec.extractLsb'_toNat, Nat.shiftRight_zero, BitVec.toNat_ofNat] at hk ⊢
      have h1 : va.toNat % 2 ^ 31 % 2 ^ c.addrBits < 2 ^ c.addrBits := Nat.mod_lt _ (Nat.two_pow_pos _)
      have h2 : va.toNat % 2 ^ 31 % 2 ^ c.addrBits ≤ va.toNat % 2 ^ 31 := Nat.mod_le _ _
      rw [Nat.mod_eq_of_lt (a := k * n) (b := 2 ^ 32) (by omega), Nat.mod_eq_of_lt (a := k * n) (by omega),
        Nat.mod_eq_of_lt (by omega)]
  rw [hx, Nat.mul_div_cancel _ hn, ← h, Nat.mod_mod]

/-- A byte lies in the line that begins at its base. -/
theorem dBase_le (c : Config) (a : Nat) (h : 0 < c.dcacheLine) :
    c.dBase a ≤ a ∧ a < c.dBase a + c.dcacheLine := by
  unfold Config.dBase
  have h1 := Nat.div_add_mod a c.dcacheLine
  have h2 := Nat.mod_lt a h
  rw [Nat.mul_comm] at h1
  omega

/-- A line number that an address selects is one that the loop of 70_reset_and_hazards.md rule R485 reaches. -/
theorem hasDLine_of_dIndex (c : Config) (va : Word) (k : Nat) (h : c.dIndex va = some k) : c.hasDLine k = true := by
  have hd : c.hasDcache = true := by
    unfold Config.dIndex at h
    split at h
    · assumption
    · cases h
  simp only [Config.dIndex, hd, if_true, Option.some.injEq, Config.hasDLine, beq_iff_eq] at h ⊢
  exact index_of_number c va _ _ k (dcacheLine_pos c hd) h

/-- The same of the instruction cache. -/
theorem hasILine_of_iIndex (c : Config) (va : Word) (k : Nat) (h : c.iIndex va = some k) : c.hasILine k = true := by
  have hi : c.hasIcache = true := by
    unfold Config.iIndex at h
    split at h
    · assumption
    · cases h
  have hn : 0 < c.icacheLine := by
    simp only [Config.hasIcache, Bool.and_eq_true, bne_iff_ne, ne_eq] at hi
    exact Nat.pos_of_ne_zero hi.2
  simp only [Config.iIndex, hi, if_true, Option.some.injEq, Config.hasILine, beq_iff_eq] at h ⊢
  exact index_of_number c va _ _ k hn h

/-! ## Filling a line -/

@[simp] theorem State.fillData_cfg (s : State) (p : DataPath) : (s.fillData p).cfg = s.cfg := by
  unfold State.fillData
  split <;> split <;> rfl

@[simp] theorem State.fillData_mem (s : State) (p : DataPath) : (s.fillData p).mem = s.mem := by
  unfold State.fillData
  split <;> split <;> rfl

/-- Looking up a line after a fill: the lines that were there, and the one filled from the bus. -/
theorem State.findLine_fillData (s : State) (p : DataPath) (i : Nat) (hp : p.line = some i) (k b : Nat) :
    findLine (s.fillData p).dcache k b =
      if k = i ∧ b = s.cfg.dBase p.pa ∧ findLine s.dcache i (s.cfg.dBase p.pa) = none then
        some (newLine s.busByte i (s.cfg.dBase p.pa) s.cfg.dcacheLine)
      else findLine s.dcache k b := by
  unfold State.fillData
  simp only [hp]
  cases h : findLine s.dcache i (s.cfg.dBase p.pa) with
  | some l => simp
  | none =>
    simp only [findLine, List.find?_cons, newLine]
    by_cases hk : i = k ∧ s.cfg.dBase p.pa = b
    · obtain ⟨rfl, rfl⟩ := hk; simp
    · have hk' : ¬(k = i ∧ b = s.cfg.dBase p.pa) := fun e => hk ⟨e.1.symm, e.2.symm⟩
      have : ((i == k) && (s.cfg.dBase p.pa == b)) = false := by
        rw [← Bool.not_eq_true]; simpa using hk
      simp only [this]
      rw [if_neg (fun e => hk' ⟨e.1, e.2.1⟩)]

/-- A fill adds no line but the one it fills. -/
theorem State.mem_fillData (s : State) (p : DataPath) (l : CacheLine) (h : l ∈ (s.fillData p).dcache) :
    l ∈ s.dcache ∨ ∃ i, p.line = some i ∧ findLine s.dcache i (s.cfg.dBase p.pa) = none ∧
      l = newLine s.busByte i (s.cfg.dBase p.pa) s.cfg.dcacheLine := by
  unfold State.fillData at h
  split at h
  · split at h
    · exact .inl h
    · exact (List.mem_cons.1 h).elim (fun e => .inr ⟨_, ‹_›, ‹_›, e⟩) .inl
  · split at h <;> exact .inl h

/-- A byte of a line filled from the bus. -/
theorem newLine_read (c : Config) (bus : Nat → Byte) (i a : Nat) (h : 0 < c.dcacheLine) :
    (newLine bus i (c.dBase a) c.dcacheLine).data.read a = bus a := by
  have := dBase_le c a h
  rw [newLine, Memory.read_copy, if_pos (by omega)]

/-- What a fill leaves: every byte that no device has to supply reads as before on every path. -/
theorem State.dataByte_fillData (s : State) (p : DataPath) (h : p.line.isSome → s.cfg.hasDcache = true)
    (line : Option Nat) (a : Nat) (ha : Held s line a) : (s.fillData p).dataByte line a = s.dataByte line a := by
  have hbus : s.cfg.isDevice a = false → (s.fillData p).busByte a = s.busByte a := by
    intro hd
    simp [State.busByte, hd]
  cases line with
  | none => exact hbus (ha.resolve_right (by rintro ⟨_, _, e, -⟩; cases e))
  | some k =>
    simp only [State.dataByte, State.cachedByte, State.fillData_cfg]
    cases hp : p.line with
    | none =>
      have e : (s.fillData p).dcache = s.dcache := by
        unfold State.fillData
        simp only [hp]
        split <;> rfl
      rw [e]
      split
      · rfl
      · rename_i hn
        exact hbus (ha.resolve_right (by rintro ⟨_, l, e, hl⟩; cases e; rw [hn] at hl; cases hl))
    | some i =>
      rw [State.findLine_fillData s p i hp]
      split
      · rename_i hc
        split at hc
        · rename_i hk
          cases hc
          obtain ⟨rfl, hb, hn⟩ := hk
          rw [hb, hn, ← hb, newLine_read _ _ _ _ (dcacheLine_pos s.cfg (h (by rw [hp]; rfl)))]
        · rw [hc]
      · rename_i hc
        split at hc
        · cases hc
        · rw [hc]
          exact hbus (ha.resolve_right (by rintro ⟨_, l, e, hl⟩; cases e; rw [hc] at hl; cases hl))

/-- Through its own line an access reads, after the fill, what it read before: also what a device supplied. -/
theorem State.dataByte_fillData_own (s : State) (p : DataPath) (h : s.cfg.hasDcache = true) (hp : p.line.isSome)
    (a : Nat) (hb : s.cfg.dBase a = s.cfg.dBase p.pa) :
    (s.fillData p).dataByte p.line a = s.dataByte p.line a := by
  obtain ⟨i, hi⟩ := Option.isSome_iff_exists.1 hp
  simp only [hi, State.dataByte, State.cachedByte, State.fillData_cfg]
  rw [State.findLine_fillData s p i hi]
  cases hn : findLine s.dcache i (s.cfg.dBase a) with
  | none =>
    rw [if_pos ⟨rfl, hb, hb ▸ hn⟩]
    simp only [← hb]
    exact newLine_read _ _ _ _ (dcacheLine_pos s.cfg h)
  | some l =>
    rw [if_neg (fun e => by rw [← hb, hn] at e; cases e.2.2)]

/-- Mapping lines without moving them keeps what is found. -/
theorem findLine_map (lines : List CacheLine) (f : CacheLine → CacheLine) (k b : Nat)
    (hf : ∀ l, (f l).index = l.index ∧ (f l).base = l.base) :
    findLine (lines.map f) k b = (findLine lines k b).map f := by
  unfold findLine
  induction lines with
  | nil => rfl
  | cons l rest ih =>
    simp only [List.map_cons, List.find?_cons, (hf l).1, (hf l).2]
    split
    · rfl
    · exact ih

/-- What is found is what was looked for. -/
theorem findLine_spec (lines : List CacheLine) (k b : Nat) (l : CacheLine) (h : findLine lines k b = some l) :
    l.index = k ∧ l.base = b := by
  have := List.find?_some h
  simpa using this

/-- After a fill the line is there. -/
theorem State.findLine_fillData_self (s : State) (p : DataPath) (i : Nat) (hp : p.line = some i) :
    ∃ l, findLine (s.fillData p).dcache i (s.cfg.dBase p.pa) = some l := by
  rw [State.findLine_fillData s p i hp]
  cases h : findLine s.dcache i (s.cfg.dBase p.pa) with
  | none => exact ⟨_, if_pos ⟨rfl, rfl, rfl⟩⟩
  | some l => exact ⟨l, if_neg (by simp)⟩

/-! ## Storing -/

/-- The bytes a store to memory or to a line leaves: inside the stored range, on the store's own path. -/
theorem State.dataByte_storeData_in (s : State) (p : DataPath) (bytes : List Byte) (k : Nat) (hk : k < bytes.length)
    (hd : p.line = none → p.device = false ∧ s.cfg.isDevice (p.pa + k) = false)
    (hb : p.line.isSome → s.cfg.dBase (p.pa + k) = s.cfg.dBase p.pa) :
    (s.storeData p bytes).dataByte p.line (p.pa + k) = bytes[k] := by
  unfold State.storeData
  cases hp : p.line with
  | none =>
    simp only [State.dataByte, State.busByte, (hd hp).1, (hd hp).2, Memory.read_writeBytes, Bool.false_eq_true, if_false]
    rw [dif_pos (by omega)]
    simp
  | some i =>
    simp only [State.dataByte, State.cachedByte, State.fillData_cfg]
    rw [hb (by rw [hp]; rfl), findLine_map _ _ _ _ (by intro l; split <;> exact ⟨rfl, rfl⟩)]
    obtain ⟨l, hl⟩ := State.findLine_fillData_self s p i hp
    have hs := findLine_spec _ _ _ _ hl
    simp only [hl, Option.map_some, hs.1, hs.2, beq_self_eq_true, Bool.and_self, if_true, CacheLine.store,
      Memory.read_writeBytes]
    rw [dif_pos (by omega)]
    simp

/-- The bytes a store leaves: outside the stored range, on every path, those that no device has to supply. -/
theorem State.dataByte_storeData_out (s : State) (p : DataPath) (bytes : List Byte)
    (h : p.line.isSome → s.cfg.hasDcache = true) (line : Option Nat) (a : Nat)
    (ha : a < p.pa ∨ p.pa + bytes.length ≤ a) (hh : Held s line a) :
    (s.storeData p bytes).dataByte line a = s.dataByte line a := by
  unfold State.storeData
  cases hp : p.line with
  | none =>
    dsimp only
    split
    · rfl
    · have hw : (s.mem.writeBytes p.pa bytes).read a = s.mem.read a := by
        rw [Memory.read_writeBytes, dif_neg (by omega)]
      cases line with
      | none => simp only [State.dataByte, State.busByte, hw]
      | some i => simp only [State.dataByte, State.cachedByte, State.busByte, hw]
  | some i =>
    rw [← State.dataByte_fillData s p h line a hh]
    cases line with
    | none => rfl
    | some i' =>
      simp only [State.dataByte, State.cachedByte, State.fillData_cfg]
      rw [findLine_map _ _ _ _ (by intro l; split <;> exact ⟨rfl, rfl⟩)]
      cases hl : findLine (s.fillData p).dcache i' (s.cfg.dBase a) with
      | none => simp [State.busByte]
      | some l =>
        simp only [Option.map_some]
        split
        · simp only [CacheLine.store, Memory.read_writeBytes]
          rw [dif_neg (by omega)]
        · rfl

/-! ## The lines after reset -/

/-- Whatever a line holds after reset, it has its own number, begins where lines begin and is in canonical form. -/
theorem CacheLine.afterReset_some (isData : Bool) (n k : Nat) (l : CacheLine)
    (h : CacheLine.afterReset isData n k = some l) :
    l.index = k ∧ l.data.wf = true ∧ ∃ a, l.base = a / n * n := by
  unfold CacheLine.afterReset at h
  obtain ⟨held, -, rfl⟩ := Option.map_eq_some_iff.1 h
  exact ⟨rfl, Memory.writeBytes_wf _ _ _ rfl, _, rfl⟩

/-- After reset no line is there twice. -/
theorem CacheLine.afterReset_nodup (isData : Bool) (n count : Nat) :
    (((List.range count).filterMap (CacheLine.afterReset isData n)).map (fun l => (l.index, l.base))).Nodup := by
  refine List.Nodup.map_on ?_ (List.nodup_range.filterMap ?_)
  · intro l hl m hm e
    obtain ⟨j, -, hj⟩ := List.mem_filterMap.1 hl
    obtain ⟨k, -, hk⟩ := List.mem_filterMap.1 hm
    obtain rfl : j = k :=
      (afterReset_some _ _ _ _ hj).1.symm.trans ((congrArg Prod.fst e).trans (afterReset_some _ _ _ _ hk).1)
    exact Option.some.inj (hj.symm.trans hk)
  · intro j k l hj hk
    exact (afterReset_some _ _ _ _ hj).1.symm.trans (afterReset_some _ _ _ _ hk).1

/-! ## Writing lines back -/

/-- A byte of memory after a line is written back: that of the line where it is dirty and no device answers. -/
theorem CacheLine.read_writeBack (c : Config) (m : Memory) (l : CacheLine) (a : Nat) :
    (l.writeBack c m).read a =
      if l.dirty = true ∧ (l.base ≤ a ∧ a < l.base + c.dcacheLine) ∧ c.isDevice a = false then l.data.read a
      else m.read a := by
  unfold CacheLine.writeBack
  by_cases hd : l.dirty = true
  · simp only [hd, if_true, Memory.read_copy, true_and]
    by_cases hr : l.base ≤ a ∧ a < l.base + c.dcacheLine
    · cases c.isDevice a <;> simp [hr]
    · rw [if_neg hr, if_neg (fun e => hr e.1)]
  · rw [if_neg hd, if_neg (fun e => hd e.1)]

/-- Writing lines back leaves a byte that a device supplies or no dirty one of them holds. -/
theorem read_writeBack_out (c : Config) (lines : List CacheLine) (m : Memory) (a : Nat)
    (h : c.isDevice a = true ∨ ∀ l ∈ lines, l.dirty = true → ¬(l.base ≤ a ∧ a < l.base + c.dcacheLine)) :
    (lines.foldl (CacheLine.writeBack c) m).read a = m.read a := by
  induction lines generalizing m with
  | nil => rfl
  | cons l rest ih =>
    rw [List.foldl_cons, ih _ (h.imp_right (fun h k hk => h k (List.mem_cons_of_mem _ hk)))]
    rw [CacheLine.read_writeBack, if_neg]
    rintro ⟨hd, hr, hv⟩
    rcases h with h | h
    · rw [h] at hv; cases hv
    · exact h l (by simp) hd hr

/-- Writing lines back leaves in memory what the one dirty line holding an address has there. -/
theorem read_writeBack_in (c : Config) (lines : List CacheLine) (m : Memory) (a : Nat) (l : CacheLine) (hm : l ∈ lines)
    (hd : l.dirty = true) (hr : l.base ≤ a ∧ a < l.base + c.dcacheLine) (hv : c.isDevice a = false)
    (h : ∀ k ∈ lines, k.dirty = true → (k.base ≤ a ∧ a < k.base + c.dcacheLine) → k = l) :
    (lines.foldl (CacheLine.writeBack c) m).read a = l.data.read a := by
  induction lines generalizing m with
  | nil => simp at hm
  | cons k rest ih =>
    rw [List.foldl_cons]
    by_cases hin : l ∈ rest
    · exact ih _ hin (fun j hj => h j (List.mem_cons_of_mem _ hj))
    · obtain rfl : k = l := by
        rcases List.mem_cons.1 hm with e | e
        · exact e.symm
        · exact absurd e hin
      rw [read_writeBack_out _ _ _ _
        (.inr (fun j hj hd' hr' => hin (h j (List.mem_cons_of_mem _ hj) hd' hr' ▸ hj)))]
      rw [CacheLine.read_writeBack, if_pos ⟨hd, hr, hv⟩]

/-- In a cache whose lines begin where lines begin and are there once, the line with a number that holds an address is the
one found for it. -/
theorem findLine_of_mem (s : State) (hL : 0 < s.cfg.dcacheLine)
    (hn : (s.dcache.map (fun l => (l.index, l.base))).Nodup) (hb : ∀ l ∈ s.dcache, s.cfg.dBase l.base = l.base)
    (l : CacheLine) (hl : l ∈ s.dcache) (a : Nat) (hr : l.base ≤ a ∧ a < l.base + s.cfg.dcacheLine) :
    findLine s.dcache l.index (s.cfg.dBase a) = some l := by
  have e : l.base = s.cfg.dBase a := by
    have hbl := hb l hl
    unfold Config.dBase at *
    rw [← hbl] at hr ⊢
    congr 1
    have e1 := Nat.div_lt_iff_lt_mul hL (x := a) (y := l.base / s.cfg.dcacheLine + 1)
    have e2 := Nat.le_div_iff_mul_le hL (x := l.base / s.cfg.dcacheLine) (y := a)
    rw [Nat.add_mul] at e1
    omega
  unfold findLine
  cases hf : s.dcache.find? (fun k => k.index == l.index && k.base == s.cfg.dBase a) with
  | none => rw [List.find?_eq_none] at hf; exact absurd (by simp [e]) (hf l hl)
  | some k =>
    have hp := List.find?_some hf
    simp only [Bool.and_eq_true, beq_iff_eq] at hp
    rw [List.inj_on_of_nodup_map hn (List.mem_of_find?_eq_some hf) hl (by simp [hp, e])]

end Sys2Proof.Machine
end

