-- ==== Sys2Proof/Laws/Checks.lean ====
section
/-! SUPPORT. What the address checks can answer (20_memory.md rules R100, R130, R150 and R158). -/

namespace Sys2Proof.Machine

/-- A check in two parts passes when both do. -/
theorem Check.bind_ok {α β : Type} (c : Check α) (k : α → Check β) (b : β) :
    c.bind k = .ok b ↔ ∃ a, c = .ok a ∧ k a = .ok b := by
  cases c <;> simp [Check.bind]

/-- An instruction that passes its check goes on. -/
theorem Check.run_ok {α : Type} (a : α) (s : State) (k : α → Result) : (Check.ok a).run s k = k a := rfl

/-- A configuration that rule R7 allows, as far as the data cache and the address space go. -/
theorem legal_sizes (c : Config) (h : c.legal = true) :
    6 ≤ c.addrBits ∧ (c.dcacheLine = 0 ∨ c.dcacheLine = 4 ∨ c.dcacheLine = 16 ∨ c.dcacheLine = 32) := by
  simp only [Config.legal, Bool.and_eq_true, decide_eq_true_eq, and_assoc] at h
  exact ⟨h.2.2.1, by simpa using h.2.2.2.2.1⟩

/-- The low bits of an aligned address. -/
theorem aligned_toNat (w : Width) (va : Word) (h : w.aligned va = true) : va.toNat % w.bytes = 0 := by
  cases w with
  | byte => simp [Width.bytes, Nat.mod_one]
  | half =>
    simp only [Width.aligned, beq_iff_eq] at h
    have := congrArg BitVec.toNat h
    simp only [BitVec.toNat_and, BitVec.toNat_ofNat, Width.bytes] at this ⊢
    rwa [show (1 % 2 ^ 32 : Nat) = 2 ^ 1 - 1 by decide, Nat.and_two_pow_sub_one_eq_mod] at this
  | word =>
    simp only [Width.aligned, beq_iff_eq] at h
    have := congrArg BitVec.toNat h
    simp only [BitVec.toNat_and, BitVec.toNat_ofNat, Width.bytes] at this ⊢
    rwa [show (3 % 2 ^ 32 : Nat) = 2 ^ 2 - 1 by decide, Nat.and_two_pow_sub_one_eq_mod] at this

theorem checkAlign_ok (c : Config) (w : Width) (va : Word) (h : checkAlign c w va = .ok ()) : w.aligned va = true := by
  unfold checkAlign at h
  split at h
  · assumption
  · split at h <;> cases h

theorem mod_bytes_of_dvd (w : Width) (x m : Nat) (hm : 4 ∣ m) (h : x % w.bytes = 0) : x % m % w.bytes = 0 := by
  have hd : w.bytes ∣ m := by
    refine Nat.dvd_trans ?_ hm
    cases w <;> decide
  rw [Nat.mod_mod_of_dvd _ hd]
  exact h

/-- The physical address of an aligned load or store is aligned. -/
theorem translateData_aligned (s : State) (k : Kind) (w : Width) (va : Word) (p : Physical)
    (hc : s.cfg.legal = true) (hk : k = .load ∨ k = .store) (h : s.translateData k w va = .ok p) :
    w.aligned va = true ∧ p.pa % w.bytes = 0 := by
  have halign : ∀ u, alignmentOf s.cfg k w va = .ok u → w.aligned va = true := by
    intro u hu
    rcases hk with rfl | rfl <;> exact checkAlign_ok _ _ _ hu
  have h6 := (legal_sizes s.cfg hc).1
  unfold State.translateData at h
  split at h
  · unfold State.mmuData at h
    split at h
    · cases h
    · rw [Check.bind_ok] at h
      obtain ⟨u, hu, h⟩ := h
      have ha := halign u hu
      have hm := aligned_toNat w va ha
      refine ⟨ha, ?_⟩
      split at h
      · cases h
        simp only [directAddress, BitVec.extractLsb'_toNat, Nat.shiftRight_zero]
        exact mod_bytes_of_dvd w _ _ (by decide) hm
      · rw [Check.bind_ok] at h
        obtain ⟨e, -, h⟩ := h
        rw [Check.bind_ok] at h
        obtain ⟨-, -, h⟩ := h
        cases h
        simp only [frameAddress, BitVec.toNat_append, BitVec.extractLsb'_toNat, Nat.shiftRight_zero]
        rw [← Nat.shiftLeft_add_eq_or_of_lt (Nat.mod_lt _ (by decide)), Nat.shiftLeft_eq]
        have := mod_bytes_of_dvd w _ (2 ^ 12) (by decide) hm
        cases w <;> simp only [Width.bytes] at * <;> omega
  · rw [Check.bind_ok] at h
    obtain ⟨u, hu, h⟩ := h
    have ha := halign u hu
    have hm := aligned_toNat w va ha
    refine ⟨ha, ?_⟩
    have hp : s.cfg.plainAddress va % w.bytes = 0 := by
      simp only [Config.plainAddress, BitVec.extractLsb'_toNat, Nat.shiftRight_zero]
      exact mod_bytes_of_dvd w _ _ (by
        rw [show s.cfg.addrBits = 2 + (s.cfg.addrBits - 2) by omega, Nat.pow_add]; exact Nat.dvd_mul_right _ _)
        (mod_bytes_of_dvd w _ _ (by decide) hm)
    split at h
    · rw [Check.bind_ok] at h
      obtain ⟨c, -, h⟩ := h
      cases h
      exact hp
    · cases h
      exact hp

/-- What a master reaches at several bytes it reaches at each of them. -/
theorem regionOf_some (c : Config) (reaches : Region → Bool) (pa n : Nat) (kind : RegionKind)
    (h : c.regionOf reaches pa n = some kind) (j : Nat) (hj : j < n) : c.byteRegion reaches (pa + j) = some kind := by
  unfold Config.regionOf at h
  split at h
  · rename_i ha
    rw [← h]
    simpa using List.all_eq_true.1 ha j (List.mem_range.2 hj)
  · cases h

/-- Where a load or store goes: the translated address, of which each byte is a device's or none is, and a data cache
line only where there is a data cache, the one the index bits select. -/
theorem dataPath_ok (s : State) (k : Kind) (w : Width) (io : Bool) (va : Word) (p : DataPath)
    (h : s.dataPath k w io va = .ok p) :
    (∃ q, s.translateData k w va = .ok q ∧ p.pa = q.pa) ∧ (p.line = none ∨ io = false ∧ p.line = s.cfg.dIndex va)
      ∧ (p.line.isSome → s.cfg.hasDcache = true) ∧ ∀ j < w.bytes, s.cfg.isDevice (p.pa + j) = p.device := by
  unfold State.dataPath at h
  rw [Check.bind_ok] at h
  obtain ⟨q, hq, h⟩ := h
  have hidx : (s.cfg.dIndex va).isSome → s.cfg.hasDcache = true := by
    unfold Config.dIndex
    split
    · intro; assumption
    · intro h; cases h
  split at h
  · cases h
  · rename_i hr
    cases h
    refine ⟨⟨q, hq, rfl⟩, .inl rfl, nofun, fun j hj => ?_⟩
    rw [Config.isDevice, regionOf_some _ _ _ _ _ hr j hj]
    rfl
  · rename_i kind _ hr
    cases h
    refine ⟨⟨q, hq, rfl⟩, ?_, ?_, fun j hj => ?_⟩
    · dsimp only
      split
      · rename_i hio
        exact .inr ⟨by simp only [Bool.and_eq_true, Bool.not_eq_true'] at hio; exact hio.2, rfl⟩
      · exact .inl rfl
    · dsimp only
      split
      · exact hidx
      · intro h; cases h
    · rw [Config.isDevice, regionOf_some _ _ _ _ _ hr j hj]
      cases kind <;> rfl

/-- The bytes of a load or store lie in one line of the data cache. -/
theorem dataPath_one_line (s : State) (k : Kind) (w : Width) (io : Bool) (va : Word) (p : DataPath)
    (hc : s.cfg.legal = true) (hk : k = .load ∨ k = .store) (h : s.dataPath k w io va = .ok p)
    (j : Nat) (hj : j < w.bytes) (hl : p.line.isSome) : s.cfg.dBase (p.pa + j) = s.cfg.dBase p.pa := by
  obtain ⟨⟨q, hq, hpa⟩, -, hd, -⟩ := dataPath_ok s k w io va p h
  have ha := (translateData_aligned s k w va q hc hk hq).2
  have hpos := dcacheLine_pos s.cfg (hd hl)
  have hs := (legal_sizes s.cfg hc).2
  rw [hpa]
  unfold Config.dBase
  have hdiv : (q.pa + j) / s.cfg.dcacheLine = q.pa / s.cfg.dcacheLine := by
    rcases hs with h0 | h0 | h0 | h0
    · omega
    all_goals
      rw [h0]
      cases w <;> simp only [Width.bytes] at * <;> omega
  rw [hdiv]

end Sys2Proof.Machine
end

