-- ==== Sys2Proof/Laws/Encoding.lean ====
section
/-! SUPPORT. The fields of the words that the encoder makes (30_encoding.md rules R162 to R165). -/

namespace Sys2Proof

/-- A field inside the low part of a concatenation. -/
theorem extract_append_low {m n : Nat} (x : BitVec m) (y : BitVec n) (k w : Nat) (h : k + w ≤ n) :
    (x ++ y).extractLsb' k w = y.extractLsb' k w := by
  ext i hi
  simp only [BitVec.getElem_extractLsb', BitVec.getLsbD_append]
  rw [if_pos (by omega)]

/-- A field inside the high part of a concatenation. -/
theorem extract_append_high {m n : Nat} (x : BitVec m) (y : BitVec n) (k w : Nat) (h : n ≤ k) :
    (x ++ y).extractLsb' k w = x.extractLsb' (k - n) w := by
  ext i hi
  simp only [BitVec.getElem_extractLsb', BitVec.getLsbD_append]
  rw [if_neg (by omega), show k + i - n = k - n + i by omega]

/-- A field that is the whole. -/
theorem extract_whole {n : Nat} (x : BitVec n) : x.extractLsb' 0 n = x := by
  ext i hi
  simp

section Fields

variable (a b c : BitVec 5) (imm16 : BitVec 16) (op opx : BitVec 6) (imm5 : BitVec 5) (imm26 : BitVec 26)

@[simp] theorem fieldOp_iWord : fieldOp (iWord a b imm16 op) = op := by
  rw [fieldOp, iWord, extract_append_low _ _ _ _ (by decide), extract_whole]

@[simp] theorem fieldA_iWord : fieldA (iWord a b imm16 op) = a := by
  rw [fieldA, iWord, extract_append_high _ _ _ _ (by decide), extract_append_high _ _ _ _ (by decide), extract_append_high _ _ _ _ (by decide), extract_whole]

@[simp] theorem fieldB_iWord : fieldB (iWord a b imm16 op) = b := by
  rw [fieldB, iWord, extract_append_high _ _ _ _ (by decide), extract_append_high _ _ _ _ (by decide), extract_append_low _ _ _ _ (by decide), extract_whole]

@[simp] theorem fieldImm16_iWord : fieldImm16 (iWord a b imm16 op) = imm16 := by
  rw [fieldImm16, iWord, extract_append_high _ _ _ _ (by decide), extract_append_low _ _ _ _ (by decide), extract_whole]

@[simp] theorem fieldOp_rWord : fieldOp (rWord a b c opx imm5) = 0x3A#6 := by
  rw [fieldOp, rWord, extract_append_low _ _ _ _ (by decide), extract_whole]

@[simp] theorem fieldA_rWord : fieldA (rWord a b c opx imm5) = a := by
  rw [fieldA, rWord, extract_append_high _ _ _ _ (by decide), extract_append_high _ _ _ _ (by decide), extract_append_high _ _ _ _ (by decide), extract_append_high _ _ _ _ (by decide), extract_append_high _ _ _ _ (by decide), extract_whole]

@[simp] theorem fieldB_rWord : fieldB (rWord a b c opx imm5) = b := by
  rw [fieldB, rWord, extract_append_high _ _ _ _ (by decide), extract_append_high _ _ _ _ (by decide), extract_append_high _ _ _ _ (by decide), extract_append_high _ _ _ _ (by decide), extract_append_low _ _ _ _ (by decide), extract_whole]

@[simp] theorem fieldC_rWord : fieldC (rWord a b c opx imm5) = c := by
  rw [fieldC, rWord, extract_append_high _ _ _ _ (by decide), extract_append_high _ _ _ _ (by decide), extract_append_high _ _ _ _ (by decide), extract_append_low _ _ _ _ (by decide), extract_whole]

@[simp] theorem fieldOpx_rWord : fieldOpx (rWord a b c opx imm5) = opx := by
  rw [fieldOpx, rWord, extract_append_high _ _ _ _ (by decide), extract_append_high _ _ _ _ (by decide), extract_append_low _ _ _ _ (by decide), extract_whole]

@[simp] theorem fieldImm5_rWord : fieldImm5 (rWord a b c opx imm5) = imm5 := by
  rw [fieldImm5, rWord, extract_append_high _ _ _ _ (by decide), extract_append_low _ _ _ _ (by decide), extract_whole]

@[simp] theorem fieldOp_jWord : fieldOp (jWord imm26 op) = op := by
  rw [fieldOp, jWord, extract_append_low _ _ _ _ (by decide), extract_whole]

@[simp] theorem fieldImm26_jWord : fieldImm26 (jWord imm26 op) = imm26 := by
  rw [fieldImm26, jWord, extract_append_high _ _ _ _ (by decide), extract_whole]

end Fields

section Custom

variable (n : BitVec 8) (c a b : CustomReg)

@[simp] theorem fieldOp_customWord : fieldOp (customWord n c a b) = 0x32#6 := by
  rw [fieldOp, customWord,
    extract_append_low _ _ _ _ (by decide), extract_whole]

@[simp] theorem fieldN_customWord : fieldN (customWord n c a b) = n := by
  rw [fieldN, customWord,
    extract_append_high _ _ _ _ (by decide),
    extract_append_low _ _ _ _ (by decide), extract_whole]

@[simp] theorem fieldA_customWord : fieldA (customWord n c a b) = a.number := by
  rw [fieldA, customWord,
    extract_append_high _ _ _ _ (by decide),
    extract_append_high _ _ _ _ (by decide),
    extract_append_high _ _ _ _ (by decide),
    extract_append_high _ _ _ _ (by decide),
    extract_append_high _ _ _ _ (by decide),
    extract_append_high _ _ _ _ (by decide),
    extract_append_high _ _ _ _ (by decide), extract_whole]

@[simp] theorem fieldB_customWord : fieldB (customWord n c a b) = b.number := by
  rw [fieldB, customWord,
    extract_append_high _ _ _ _ (by decide),
    extract_append_high _ _ _ _ (by decide),
    extract_append_high _ _ _ _ (by decide),
    extract_append_high _ _ _ _ (by decide),
    extract_append_high _ _ _ _ (by decide),
    extract_append_high _ _ _ _ (by decide),
    extract_append_low _ _ _ _ (by decide), extract_whole]

@[simp] theorem fieldC_customWord : fieldC (customWord n c a b) = c.number := by
  rw [fieldC, customWord,
    extract_append_high _ _ _ _ (by decide),
    extract_append_high _ _ _ _ (by decide),
    extract_append_high _ _ _ _ (by decide),
    extract_append_high _ _ _ _ (by decide),
    extract_append_high _ _ _ _ (by decide),
    extract_append_low _ _ _ _ (by decide), extract_whole]

/-- A single bit of a word as a field of one bit. -/
theorem getLsbD_eq_extract {m : Nat} (x : BitVec m) (k : Nat) : x.getLsbD k = (x.extractLsb' k 1).getLsbD 0 := by
  simp

@[simp] theorem fieldReadra_customWord : fieldReadra (customWord n c a b) = a.flag := by
  rw [fieldReadra, getLsbD_eq_extract, customWord,
    extract_append_high _ _ _ _ (by decide),
    extract_append_high _ _ _ _ (by decide),
    extract_append_high _ _ _ _ (by decide),
    extract_append_high _ _ _ _ (by decide),
    extract_append_low _ _ _ _ (by decide), extract_whole]
  cases a.flag <;> rfl

@[simp] theorem fieldReadrb_customWord : fieldReadrb (customWord n c a b) = b.flag := by
  rw [fieldReadrb, getLsbD_eq_extract, customWord,
    extract_append_high _ _ _ _ (by decide),
    extract_append_high _ _ _ _ (by decide),
    extract_append_high _ _ _ _ (by decide),
    extract_append_low _ _ _ _ (by decide), extract_whole]
  cases b.flag <;> rfl

@[simp] theorem fieldWriterc_customWord : fieldWriterc (customWord n c a b) = c.flag := by
  rw [fieldWriterc, getLsbD_eq_extract, customWord,
    extract_append_high _ _ _ _ (by decide),
    extract_append_high _ _ _ _ (by decide),
    extract_append_low _ _ _ _ (by decide), extract_whole]
  cases c.flag <;> rfl

@[simp] theorem CustomReg.ofFlag_flag : CustomReg.ofFlag c.flag c.number = c := by
  cases c <;> rfl

end Custom

/-! ## Decoding by format -/

theorem decodeWord_rWord (a b c : BitVec 5) (opx : BitVec 6) (imm5 : BitVec 5) :
    decodeWord (rWord a b c opx imm5) = decodeOpx (rWord a b c opx imm5) := by
  unfold decodeWord; rw [fieldOp_rWord]; rfl

theorem decodeWord_customWord (n : BitVec 8) (c a b : CustomReg) :
    decodeWord (customWord n c a b) = .ok (decodeCustom (customWord n c a b)) := by
  unfold decodeWord; rw [fieldOp_customWord]; rfl

theorem decodeCustom_customWord (n : BitVec 8) (c a b : CustomReg) :
    decodeCustom (customWord n c a b) = .custom n c a b := by
  simp [decodeCustom]

/-- A control register is found again by its number. -/
theorem CtlReg.ofNumber_number (n : CtlReg) (h : n.wellFormed = true) : CtlReg.ofNumber n.number = n := by
  cases n with
  | reserved k => revert h; revert k; decide
  | _ => rfl

/-- Every number reads as a control register that the syntax can write. -/
theorem CtlReg.ofNumber_wellFormed (k : BitVec 5) : (CtlReg.ofNumber k).wellFormed = true := by
  revert k; decide

/-! ## Words and bytes -/

/-- A word laid out as bytes and read again (20_memory.md rule R95). -/
theorem wordOfBytes_byteOfWord (w : Word) :
    wordOfBytes (byteOfWord w 0) (byteOfWord w 1) (byteOfWord w 2) (byteOfWord w 3) = w := by
  apply BitVec.eq_of_getLsbD_eq
  intro i hi
  simp only [wordOfBytes, byteOfWord, BitVec.getLsbD_append, BitVec.getLsbD_extractLsb']
  by_cases h1 : i < 8
  · simp [h1]
  · by_cases h2 : i - 8 < 8
    · simp [h1, h2, show 8 + (i - 8) = i by omega]
    · by_cases h3 : i - 8 - 8 < 8
      · simp [h1, h2, h3, show 16 + (i - 8 - 8) = i by omega]
      · simp [h1, h2, h3, show 24 + (i - 8 - 8 - 8) = i by omega, show i - 8 - 8 - 8 < 8 by omega]

end Sys2Proof
end

