-- ==== Sys2Proof/Laws/Registers.lean ====
section
/-! SUPPORT. The register file: what a write leaves in every register (10_state.md rules R20 to R24). -/

namespace Sys2Proof.Machine

@[simp] theorem RegFile.get_zero (f : RegFile) : f.get 0#6 0#5 = 0#32 := by simp [RegFile.get]

@[simp] theorem RegFile.put_zero (f : RegFile) (v : Word) : f.put 0#6 0#5 v = f := by simp [RegFile.put]

/-- A read after a write: the register written holds the value, every other is the same; r0 of the normal set is never
written. -/
theorem RegFile.get_put (f : RegFile) (s s' : SetNum) (i i' : RegNum) (v : Word) :
    (f.put s i v).get s' i' = if s' = s ∧ i' = i ∧ ¬(s = 0 ∧ i = 0) then v else f.get s' i' := by
  unfold RegFile.put
  by_cases h0 : s = 0 ∧ i = 0
  · rw [if_pos h0, if_neg (fun h => h.2.2 h0)]
  · rw [if_neg h0]
    by_cases hz : s' = 0 ∧ i' = 0
    · rw [if_neg (by rintro ⟨rfl, rfl, h⟩; exact h hz), hz.1, hz.2]; simp
    · simp only [RegFile.get, if_neg hz]
      by_cases hs : s' = s
      · subst hs
        by_cases hi : i' = i
        · subst hi; rw [if_pos ⟨rfl, rfl, h0⟩]; simp
        · have : i.toNat ≠ i'.toNat := fun h => hi (BitVec.eq_of_toNat_eq h.symm)
          simp [hi, this]
      · have : s.toNat ≠ s'.toNat := fun h => hs (BitVec.eq_of_toNat_eq h.symm)
        simp [hs, this]

/-- What `x[i] <- v` leaves in every register. -/
theorem State.regsWith_get (s : State) (i : RegNum) (v : Word) (set : SetNum) (j : RegNum) :
    (s.regsWith i v).get set j = if set = s.status.crs ∧ j = i ∧ i ≠ 0 then v else s.regs.get set j := by
  unfold State.regsWith
  by_cases h : i = 0
  · rw [if_pos h, if_neg (fun k => k.2.2 h)]
  · rw [if_neg h, RegFile.get_put]
    exact if_congr ⟨fun k => ⟨k.1, k.2.1, h⟩, fun k => ⟨k.1, k.2.1, fun z => h z.2⟩⟩ rfl rfl

/-- What a break leaves in every register: ba, and with a debug module a free value in bt (60_exceptions.md rules R441 and
R442). -/
theorem State.breakRegs_get (s : State) (set : SetNum) (j : RegNum) :
    s.breakRegs.get set j =
      if set = 0 ∧ j = 30 then s.pc + 4
      else if s.cfg.hasDebug = true ∧ set = 0 ∧ j = 25 then Config.freeWord s.draws
      else s.regs.get set j := by
  unfold State.breakRegs
  cases s.cfg.hasDebug <;> simp [RegFile.get_put]

/-- What a debug module's writes leave in every register (60_exceptions.md rule R442). -/
theorem State.debugged_get (s : State) (d : DebugWrites) (set : SetNum) (j : RegNum) :
    (s.debugged d).regs.get set j =
      if set = 0 ∧ j = 30 then d.ba else if set = 0 ∧ j = 25 then d.bt else s.regs.get set j := by
  simp [RegFile.get_put]

/-- Giving up control leaves every register but bt and ba of the normal set (60_exceptions.md rule R442). -/
theorem State.released_xs (s : State) (set : SetNum) (j : RegNum) (h : ¬(set = 0 ∧ (j = 25 ∨ j = 30))) :
    s.released.xs set j = s.xs set j := by
  unfold State.released
  split
  · have h30 : ¬(set = 0 ∧ j = 30) := fun k => h ⟨k.1, .inr k.2⟩
    have h25 : ¬(set = 0 ∧ j = 25) := fun k => h ⟨k.1, .inl k.2⟩
    exact (State.debugged_get s _ set j).trans (by rw [if_neg h30, if_neg h25]; rfl)
  · rfl

/-- A register file made by `x[i] <- v` is what `WritesRegister` says. -/
theorem writesRegister_of_regs (s t : State) (i : RegNum) (v : Word) (h : t.regs = s.regsWith i v) :
    WritesRegister s t i v := by
  refine ⟨fun hi set' j => ?_, fun hi set' j => ?_⟩
  · rw [State.xs, h, State.regsWith_get]
    exact if_congr ⟨fun k => ⟨k.1, k.2.1⟩, fun k => ⟨k.1, k.2, hi⟩⟩ rfl rfl
  · rw [State.xs, h, State.regsWith_get, if_neg (fun k => k.2.2 hi), State.xs]

/-- The end of an instruction with a result. -/
theorem retires_retire (s : State) (i : RegNum) (v : Word) : Retires s (s.retire i v) i v :=
  ⟨rfl, writesRegister_of_regs _ _ _ _ rfl, rfl, fun _ => rfl⟩

/-- The register an instruction of the current set reads back (rule R21: r0 discards). -/
theorem State.x_setX (s : State) (i j : RegNum) (v : Word) :
    (s.setX i v).x j = if j = i ∧ i ≠ 0 then v else s.x j := by
  simp only [State.x, State.setX_status, State.setX_regs, State.regsWith_get, true_and]

end Sys2Proof.Machine
end

