-- ==== Sys2Proof/Laws/Outcomes.lean ====
section
/-! SUPPORT. What each shared operation can do, said once: if it answers a next state, which one and why. Proofs about
instructions cite these and do not unfold the operation. -/

namespace Sys2Proof.Machine

/-- A control transfer goes on at an aligned target and otherwise takes the misaligned destination exception. -/
theorem transfer_next (target : Word) (s u : State) (k : Result) (h : transfer target s k = .next u) :
    (target &&& 3#32 = 0 ∧ k = .next u) ∨
      (¬target &&& 3#32 = 0 ∧ s.cfg.illegalMem = true ∧ u = takeGeneral (.misalignedDest target) s) := by
  unfold transfer at h
  split at h
  · exact .inl ⟨‹_›, h⟩
  · split at h
    · cases h; exact .inr ⟨‹_›, ‹_›, rfl⟩
    · cases h

/-- A supervisor-only instruction goes on in supervisor mode and takes its exception in user mode. -/
theorem supervisorOnly_next (s u : State) (k : Result) (h : supervisorOnly s k = .next u) :
    (s.status.u = false ∧ k = .next u) ∨ (s.status.u = true ∧ u = takeGeneral .supervisorOnlyInstr s) := by
  unfold supervisorOnly at h
  split at h
  · cases h; exact .inr ⟨‹_›, rfl⟩
  · exact .inl ⟨Bool.eq_false_iff.2 ‹_›, h⟩

/-- An optional instruction goes on where it is implemented and takes its exception elsewhere. -/
theorem ifImplemented_next (present : Bool) (s u : State) (k : Result) (h : ifImplemented present s k = .next u) :
    (present = true ∧ k = .next u) ∨ (present = false ∧ u = takeGeneral .unimplemented s) := by
  unfold ifImplemented at h
  split at h
  · exact .inl ⟨‹_›, h⟩
  · cases h; exact .inr ⟨Bool.eq_false_iff.2 ‹_›, rfl⟩

/-- A return goes to an aligned address and a status of the core's register sets, or takes the exception of its target. -/
theorem returnFrom_next (saved : Status) (target : Word) (after s u : State)
    (h : returnFrom saved target after s = .next u) :
    (target &&& 3#32 = 0 ∧ (saved.implement s.cfg).setsExist s.cfg = true ∧
        u = { after with status := saved.implement s.cfg, pc := target, mpuOld := [] }) ∨
      (¬target &&& 3#32 = 0 ∧ s.cfg.illegalMem = true ∧ u = takeGeneral (.misalignedDest target) s) := by
  rcases transfer_next _ _ _ _ h with ⟨ht, hk⟩ | ht
  · split at hk
    · cases hk; exact .inl ⟨ht, ‹_›, rfl⟩
    · cases hk
  · exact .inr ht

/-- An instruction goes on with the value of its check, or takes the exception of the check. -/
theorem Check.run_next {α : Type} (c : Check α) (s u : State) (k : α → Result) (h : c.run s k = .next u) :
    (∃ a, c = .ok a ∧ k a = .next u) ∨ ∃ e, c = .exc e ∧ u = takeGeneral e s := by
  cases c with
  | ok a => exact .inl ⟨a, rfl, h⟩
  | exc e => cases h; exact .inr ⟨e, rfl, rfl⟩
  | fault f => cases h
  | refused r => cases h

/-- What the bus access of a load can change: the data cache lines present and the counter of free values. -/
theorem State.fillData_frame (s : State) (p : DataPath) :
    { s.fillData p with dcache := s.dcache, draws := s.draws } = s := by
  unfold State.fillData
  split
  · split <;> rfl
  · split <;> rfl

/-- What the bus access of a store can change: memory, the data cache, the words whose fetch is pending and the counter of
free values. -/
theorem State.delivered_frame (s : State) (va : Word) (p : DataPath) (bytes : List Byte) :
    { s.delivered va p bytes with mem := s.mem, dcache := s.dcache, hazards := s.hazards, draws := s.draws } = s := by
  have h : { s.storeData p bytes with mem := s.mem, dcache := s.dcache, draws := s.draws } = s := by
    unfold State.storeData State.fillData
    cases p.line with
    | none => cases p.device <;> rfl
    | some i => simp only; split <;> rfl
  unfold State.delivered
  split
  · exact congrArg (fun t : State => { t with hazards := s.hazards }) h
  · exact congrArg (fun t : State => { t with hazards := s.hazards }) h

/-- A load makes its bus access and writes its register, or takes an exception of its address. -/
theorem loadInto_next (w : Width) (io : Bool) (value : State → DataPath → Word) (rB rA : RegNum) (imm : BitVec 16)
    (s u : State) (h : loadInto w io value rB rA imm s = .next u) :
    (∃ p, s.dataPath .load w io (s.effective rA imm) = .ok p ∧
        u = ((s.drawn s.accessDraws).fillData p).retire rB (value (s.drawn s.accessDraws) p)) ∨
      ∃ e, s.dataPath .load w io (s.effective rA imm) = .exc e ∧ u = takeGeneral e (s.drawn s.accessDraws) := by
  rcases Check.run_next _ _ _ _ h with ⟨p, hp, hk⟩ | he
  · cases hk; exact .inl ⟨p, hp, rfl⟩
  · exact .inr he

/-- A store delivers its bytes, or takes an exception of its address. -/
theorem storeFrom_next (w : Width) (io : Bool) (rB rA : RegNum) (imm : BitVec 16) (s u : State)
    (h : storeFrom w io rB rA imm s = .next u) :
    (∃ p, s.dataPath .store w io (s.effective rA imm) = .ok p ∧
        u = ((s.drawn s.accessDraws).delivered (s.effective rA imm) p (storedBytes w (s.x rB))).advance) ∨
      ∃ e, s.dataPath .store w io (s.effective rA imm) = .exc e ∧ u = takeGeneral e (s.drawn s.accessDraws) := by
  rcases Check.run_next _ _ _ _ h with ⟨p, hp, hk⟩ | he
  · cases hk; exact .inl ⟨p, hp, rfl⟩
  · exact .inr he

/-- A divide writes its quotient, takes the division error, or with detection off writes a free value. -/
theorem divideInto_next (signed : Bool) (quotient : Word) (rC : RegNum) (a b : Word) (s u : State)
    (h : divideInto signed quotient rC a b s = .next u) :
    (divisionError signed a b = false ∧ u = s.retire rC quotient) ∨
      (divisionError signed a b = true ∧ s.cfg.divErrorDetect = true ∧ u = takeGeneral .division s) ∨
      (divisionError signed a b = true ∧ s.cfg.divErrorDetect = false ∧
        u = (s.drawn 1).retire rC (Config.freeWord s.draws)) := by
  unfold divideInto at h
  split at h
  · split at h
    · cases h; exact .inr (.inl ⟨‹_›, ‹_›, rfl⟩)
    · cases h; exact .inr (.inr ⟨‹_›, Bool.eq_false_iff.2 ‹_›, rfl⟩)
  · cases h; exact .inl ⟨Bool.eq_false_iff.2 ‹_›, rfl⟩

/-- A conditional branch goes to its aligned target or to the next instruction, or takes the exception of its target. -/
theorem branchIf_next (r : Relation) (rA rB : RegNum) (imm : BitVec 16) (s u : State)
    (h : branchIf r rA rB imm s = .next u) :
    (r.holds (s.x rA) (s.x rB) = true ∧ s.branchTarget imm &&& 3#32 = 0 ∧ u = s.goto (s.branchTarget imm)) ∨
      (r.holds (s.x rA) (s.x rB) = false ∧ u = s.advance) ∨
      (r.holds (s.x rA) (s.x rB) = true ∧ u = takeGeneral (.misalignedDest (s.branchTarget imm)) s) := by
  unfold branchIf at h
  split at h
  · rcases transfer_next _ _ _ _ h with ⟨ht, hk⟩ | ht
    · cases hk; exact .inl ⟨‹_›, ht, rfl⟩
    · exact .inr (.inr ⟨‹_›, ht.2.2⟩)
  · cases h; exact .inr (.inl ⟨Bool.eq_false_iff.2 ‹_›, rfl⟩)

/-- A shadow register instruction goes on where there are shadow sets and is illegal elsewhere. -/
theorem needsShadow_next (s u : State) (k : Result) (h : needsShadow s k = .next u) :
    (s.cfg.hasShadow = true ∧ k = .next u) ∨ (s.cfg.hasShadow = false ∧ u = takeGeneral .illegalInstr s) := by
  unfold needsShadow at h
  split at h
  · exact .inl ⟨‹_›, h⟩
  · split at h
    · cases h; exact .inr ⟨Bool.eq_false_iff.2 ‹_›, rfl⟩
    · cases h

/-- It goes on only where PRS names a register set of the core. -/
theorem prsExists_next (s u : State) (k : Result) (h : prsExists s k = .next u) :
    s.status.prs ≤ s.cfg.numShadow ∧ k = .next u := by
  unfold prsExists at h
  split at h
  · exact ⟨‹_›, h⟩
  · cases h

/-- A write to a control register changes control registers, the TLB and the MPU regions only. -/
theorem writeCtl_ok (s u : State) (n : CtlReg) (v : Word) (h : s.writeCtl n v = .ok u) :
    { u with status := s.status, estatus := s.estatus, bstatus := s.bstatus, ienable := s.ienable,
             pteaddr := s.pteaddr, tlbacc := s.tlbacc, tlbmisc := s.tlbmisc, config := s.config, mpubase := s.mpubase,
             mpuacc := s.mpuacc, tlb := s.tlb, mpuInstr := s.mpuInstr, mpuData := s.mpuData, mpuOld := s.mpuOld } = s ∧
      u.status.crs = s.status.crs ∧ u.status.nmi = s.status.nmi ∧ u.tlb.length = s.tlb.length ∧
      u.mpuInstr.length = s.mpuInstr.length ∧ u.mpuData.length = s.mpuData.length := by
  cases n with
  | status =>
    simp only [State.writeCtl] at h
    split at h
    · cases h; exact ⟨rfl, rfl, rfl, rfl, rfl, rfl⟩
    · cases h
  | tlbacc =>
    simp only [State.writeCtl, State.writeTlbacc] at h
    split at h <;> cases h <;> refine ⟨rfl, rfl, rfl, ?_, rfl, rfl⟩ <;> simp
  | tlbmisc =>
    simp only [State.writeCtl, State.writeTlbmisc] at h
    split at h <;> cases h <;> exact ⟨rfl, rfl, rfl, rfl, rfl, rfl⟩
  | mpuacc =>
    simp only [State.writeCtl, State.writeMpuacc] at h
    repeat' split at h
    all_goals cases h
    all_goals refine ⟨rfl, rfl, rfl, rfl, ?_, ?_⟩
    all_goals first
      | rfl
      | (simp only [State.writeRegion]; split <;> simp)
  | _ => cases h; try exact ⟨rfl, rfl, rfl, rfl, rfl, rfl⟩

end Sys2Proof.Machine
end

