-- ==== Sys2Proof/Laws/Execute.lean ====
section
/-! SUPPORT. What any instruction can do, said once: it runs to its end, takes an exception or a break, or is one of the
four that change the registers behind the machine's mode. -/

namespace Sys2Proof.Machine

/-- The end of an instruction of any mode: only the pc, the current register set, memory and the caches, and the model's
record of what is pending have changed. -/
def Ordinary (s t : State) : Prop :=
  { t with pc := s.pc, regs := s.regs, mem := s.mem, dcache := s.dcache, icache := s.icache, hazards := s.hazards,
           mpuOld := s.mpuOld, draws := s.draws } = s ∧
    ∀ set j, set ≠ s.status.crs → t.xs set j = s.xs set j

theorem ordinary_of_regs (s t : State) (r : t.regs = s.regs)
    (h : { t with pc := s.pc, regs := s.regs, mem := s.mem, dcache := s.dcache, icache := s.icache,
                  hazards := s.hazards, mpuOld := s.mpuOld, draws := s.draws } = s) : Ordinary s t :=
  ⟨h, fun set j _ => by rw [State.xs, r, State.xs]⟩

theorem ordinary_of_regsWith (s t : State) (i : RegNum) (v : Word) (r : t.regs = s.regsWith i v)
    (h : { t with pc := s.pc, regs := s.regs, mem := s.mem, dcache := s.dcache, icache := s.icache,
                  hazards := s.hazards, mpuOld := s.mpuOld, draws := s.draws } = s) : Ordinary s t :=
  ⟨h, fun set j n => by rw [State.xs, r, State.regsWith_get, if_neg (fun k => n k.1), State.xs]⟩

theorem ordinary_retire (s : State) (i : RegNum) (v : Word) : Ordinary s (s.retire i v) :=
  ordinary_of_regsWith _ _ _ _ rfl rfl

theorem ordinary_goto (s : State) (target : Word) : Ordinary s (s.goto target) := ordinary_of_regs _ _ rfl rfl

theorem ordinary_advance (s : State) : Ordinary s s.advance := ordinary_of_regs _ _ rfl rfl

/-- What an instruction leaves: it ran to its end, took an exception or a break, or is `eret`, `bret`, `wrctl` or `wrprs`
in supervisor mode. -/
def Left (i : Instr) (s t : State) : Prop :=
  Ordinary s t ∨ (∃ e n, t = takeGeneral e (s.drawn n)) ∨ t = takeBreak s ∨
    (s.status.u = false ∧
      ((∃ saved target after, (i = .eret ∧ after = s ∨ i = .bret ∧ after = s.released) ∧ target &&& 3#32 = 0 ∧
          (Status.implement s.cfg saved).setsExist s.cfg = true ∧
          t = { after with status := saved.implement s.cfg, pc := target, mpuOld := [] }) ∨
        (∃ n rA u, i = .wrctl n rA ∧ ctlPresent s.cfg n = true ∧ s.writeCtl n (s.x rA) = .ok u ∧ t = u.advance) ∨
        (∃ rC rA, i = .wrprs rC rA ∧ s.status.prs ≤ s.cfg.numShadow ∧
          t = (s.setXs s.status.prs rC (s.x rA)).advance)))

theorem left_raise (i : Instr) (s : State) (e : Exc) : Left i s (takeGeneral e s) := .inr (.inl ⟨e, 0, rfl⟩)

theorem left_load (i : Instr) (w : Width) (io : Bool) (value : State → DataPath → Word) (rB rA : RegNum)
    (imm : BitVec 16) (s t : State) (h : loadInto w io value rB rA imm s = .next t) : Left i s t := by
  rcases loadInto_next _ _ _ _ _ _ _ _ h with ⟨p, -, rfl⟩ | ⟨e, -, rfl⟩
  · refine .inl ?_
    unfold State.fillData
    split <;> split <;> exact ordinary_of_regsWith _ _ _ _ rfl rfl
  · exact .inr (.inl ⟨e, _, rfl⟩)

theorem left_store (i : Instr) (w : Width) (io : Bool) (rB rA : RegNum) (imm : BitVec 16) (s t : State)
    (h : storeFrom w io rB rA imm s = .next t) : Left i s t := by
  rcases storeFrom_next _ _ _ _ _ _ _ h with ⟨p, -, rfl⟩ | ⟨e, -, rfl⟩
  · have f := State.delivered_frame (s.drawn s.accessDraws) (s.effective rA imm) p (storedBytes w (s.x rB))
    have r := congrArg State.regs f
    have o := congrArg (fun u : State => { u with pc := s.pc, regs := s.regs, icache := s.icache, mpuOld := s.mpuOld,
                                                  draws := s.draws }) f
    exact .inl (ordinary_of_regs _ _ r o)
  · exact .inr (.inl ⟨e, _, rfl⟩)

theorem left_branch (i : Instr) (r : Relation) (rA rB : RegNum) (imm : BitVec 16) (s t : State)
    (h : branchIf r rA rB imm s = .next t) : Left i s t := by
  rcases branchIf_next _ _ _ _ _ _ h with ⟨-, -, rfl⟩ | ⟨-, rfl⟩ | ⟨-, rfl⟩
  · exact .inl (ordinary_goto _ _)
  · exact .inl (ordinary_advance _)
  · exact left_raise _ _ _

theorem left_transfer (i : Instr) (target : Word) (s t u : State) (o : Ordinary s u)
    (h : transfer target s (.next u) = .next t) : Left i s t := by
  rcases transfer_next _ _ _ _ h with ⟨-, hk⟩ | ⟨-, -, rfl⟩
  · cases hk; exact .inl o
  · exact left_raise _ _ _

theorem left_optional (i : Instr) (present : Bool) (s t : State) (k : Result) (o : k = .next t → Left i s t)
    (h : ifImplemented present s k = .next t) : Left i s t := by
  rcases ifImplemented_next _ _ _ _ h with ⟨-, hk⟩ | ⟨-, rfl⟩
  · exact o hk
  · exact left_raise _ _ _

theorem left_divide (i : Instr) (signed : Bool) (q : Word) (rC : RegNum) (a b : Word) (s t : State)
    (h : divideInto signed q rC a b s = .next t) : Left i s t := by
  rcases divideInto_next _ _ _ _ _ _ _ h with ⟨-, rfl⟩ | ⟨-, -, rfl⟩ | ⟨-, -, rfl⟩
  · exact .inl (ordinary_retire _ _ _)
  · exact left_raise _ _ _
  · exact .inl (ordinary_of_regsWith _ _ _ _ rfl rfl)

theorem left_supervisor (i : Instr) (s t : State) (k : Result) (o : s.status.u = false → k = .next t → Left i s t)
    (h : supervisorOnly s k = .next t) : Left i s t := by
  rcases supervisorOnly_next _ _ _ h with ⟨hu, hk⟩ | ⟨-, rfl⟩
  · exact o hu hk
  · exact left_raise _ _ _

theorem left_check {α : Type} (i : Instr) (c : Check α) (s t : State) (n : Nat) (k : α → Result)
    (o : ∀ a, k a = .next t → Ordinary s t) (h : c.run (s.drawn n) k = .next t) : Left i s t := by
  rcases Check.run_next _ _ _ _ h with ⟨a, -, hk⟩ | ⟨e, -, rfl⟩
  · exact .inl (o a hk)
  · exact .inr (.inl ⟨e, n, rfl⟩)

theorem left_return (i : Instr) (saved : Status) (target : Word) (after s t : State)
    (hi : i = .eret ∧ after = s ∨ i = .bret ∧ after = s.released)
    (h : supervisorOnly s (returnFrom saved target after s) = .next t) : Left i s t := by
  refine left_supervisor _ _ _ _ (fun hu hk => ?_) h
  rcases returnFrom_next _ _ _ _ _ hk with ⟨ha, hs, rfl⟩ | ⟨-, -, rfl⟩
  · exact .inr (.inr (.inr ⟨hu, .inl ⟨saved, target, after, hi, ha, hs, rfl⟩⟩))
  · exact left_raise _ _ _

theorem left_wrctl (n : CtlReg) (rA : RegNum) (s t : State) (h : execWrctl n rA s = .next t) :
    Left (.wrctl n rA) s t := by
  refine left_supervisor _ _ _ _ (fun hu hk => ?_) h
  split at hk
  · rename_i hp
    split at hk
    · rename_i u hw
      cases hk
      exact .inr (.inr (.inr ⟨hu, .inr (.inl ⟨n, rA, u, rfl, hp, hw, rfl⟩)⟩))
    · cases hk
  · cases hk

theorem left_wrprs (rC rA : RegNum) (s t : State) (h : execWrprs rC rA s = .next t) : Left (.wrprs rC rA) s t := by
  refine left_supervisor _ _ _ _ (fun hu hk => ?_) h
  rcases needsShadow_next _ _ _ hk with ⟨-, hk⟩ | ⟨-, rfl⟩
  · obtain ⟨hp, hk⟩ := prsExists_next _ _ _ hk
    cases hk
    exact .inr (.inr (.inr ⟨hu, .inr (.inr ⟨rC, rA, rfl, hp, rfl⟩)⟩))
  · exact left_raise _ _ _

theorem left_rdprs (i : Instr) (rB rA : RegNum) (imm : BitVec 16) (s t : State)
    (h : execRdprs rB rA imm s = .next t) : Left i s t := by
  refine left_supervisor _ _ _ _ (fun _ hk => ?_) h
  rcases needsShadow_next _ _ _ hk with ⟨-, hk⟩ | ⟨-, rfl⟩
  · cases (prsExists_next _ _ _ hk).2
    exact .inl (ordinary_retire _ _ _)
  · exact left_raise _ _ _

theorem left_rdctl (i : Instr) (rC : RegNum) (n : CtlReg) (s t : State) (h : execRdctl rC n s = .next t) :
    Left i s t := by
  refine left_supervisor _ _ _ _ (fun _ hk => ?_) h
  split at hk
  · cases hk; exact .inl (ordinary_retire _ _ _)
  · cases hk

theorem left_custom (i : Instr) (n : BitVec 8) (c a b : CustomReg) (s t : State)
    (h : execCustom n c a b s = .next t) : Left i s t := by
  unfold execCustom at h
  split at h
  · cases h
  · cases c <;> cases h
    · exact .inl (ordinary_of_regsWith _ _ _ _ rfl rfl)
    · exact .inl (ordinary_of_regs _ _ rfl rfl)

/-- Every instruction that answers a next state leaves it as `Left` says. -/
theorem exec_next (i : Instr) (s t : State) (h : exec i s = .next t) : Left i s t := by
  cases i
  case mul | muli | mulxss | mulxuu | mulxsu =>
    exact left_optional _ _ _ _ _ (fun hk => by cases hk; exact .inl (ordinary_retire _ _ _)) h
  case div | divu => exact left_optional _ _ _ _ _ (fun hk => left_divide _ _ _ _ _ _ _ _ hk) h
  case beq | bne | bge | bgeu | blt | bltu => exact left_branch _ _ _ _ _ _ _ h
  case callr rA =>
    exact left_transfer _ _ _ _ _ (ordinary_of_regsWith s ((s.setX 31 (s.pc + 4)).goto (s.x rA)) 31 (s.pc + 4) rfl rfl) h
  case ret | jmp | br => exact left_transfer _ _ _ _ _ (ordinary_goto _ _) h
  case call => cases h; exact .inl (ordinary_of_regsWith _ _ 31 (s.pc + 4) rfl rfl)
  case jmpi => cases h; exact .inl (ordinary_goto _ _)
  case trap => cases h; exact left_raise _ _ _
  case brk => cases h; exact .inr (.inr (.inl rfl))
  case eret => exact left_return _ _ _ _ _ _ (.inl ⟨rfl, rfl⟩) h
  case bret => exact left_return _ _ _ _ _ _ (.inr ⟨rfl, rfl⟩) h
  case rdctl => exact left_rdctl _ _ _ _ _ h
  case wrctl => exact left_wrctl _ _ _ _ h
  case rdprs => exact left_rdprs _ _ _ _ _ _ h
  case wrprs => exact left_wrprs _ _ _ _ h
  case custom => exact left_custom _ _ _ _ _ _ _ h
  case flushd rA imm =>
    cases h
    unfold State.flushIndex
    split <;> exact .inl (ordinary_of_regs _ _ rfl rfl)
  case flushda rA imm =>
    refine left_check _ _ _ _ _ _ (fun p hk => ?_) h
    cases hk
    unfold State.flushAddress
    split <;> exact ordinary_of_regs _ _ rfl rfl
  case initda rA imm =>
    refine left_optional _ _ _ _ _ (fun hk => left_check _ _ _ _ _ _ (fun p hp => ?_) hk) h
    cases hp
    unfold State.dropAddress
    split <;> exact ordinary_of_regs _ _ rfl rfl
  case initd rA imm =>
    refine left_supervisor _ _ _ _ (fun _ hk => ?_) h
    cases hk
    unfold State.dropIndex
    split <;> exact .inl (ordinary_of_regs _ _ rfl rfl)
  case flushi rA =>
    cases h
    unfold State.invalidateInstr
    split <;> exact .inl (ordinary_of_regs _ _ rfl rfl)
  case initi rA =>
    refine left_supervisor _ _ _ _ (fun _ hk => ?_) h
    cases hk
    unfold State.invalidateInstr
    split <;> exact .inl (ordinary_of_regs _ _ rfl rfl)
  case flushp | sync => cases h; exact .inl (ordinary_of_regs _ _ rfl rfl)
  all_goals first
    | (cases h; exact .inl (ordinary_retire _ _ _))
    | exact left_load _ _ _ (fun t p => t.readWord p) _ _ _ _ _ h
    | exact left_load _ _ _ (fun t p => (t.readHalf p).signExtend 32) _ _ _ _ _ h
    | exact left_load _ _ _ (fun t p => (t.readHalf p).setWidth 32) _ _ _ _ _ h
    | exact left_load _ _ _ (fun t p => (t.readByte p).signExtend 32) _ _ _ _ _ h
    | exact left_load _ _ _ (fun t p => (t.readByte p).setWidth 32) _ _ _ _ _ h
    | exact left_store _ _ _ _ _ _ _ _ h

end Sys2Proof.Machine
end

