-- ==== Sys2Proof/Laws/PerInstr.lean ====
section
/-! SUPPORT. Statements about every instruction, one lemma per constructor. -/

/-- The opcode and, in an R-type word, the opcode extension that spec/opcode_table.json gives an instruction. -/
def Sys2Proof.Laws.OpcodeMatches.opcode : Sys2Proof.Instr → BitVec 6 × Option (BitVec 6)
  | .ldw _ _ _ => (0x17, none)
  | .stw _ _ _ => (0x15, none)
  | .ldwio _ _ _ => (0x37, none)
  | .stwio _ _ _ => (0x35, none)
  | .ldh _ _ _ => (0x0F, none)
  | .ldhu _ _ _ => (0x0B, none)
  | .ldb _ _ _ => (0x07, none)
  | .ldbu _ _ _ => (0x03, none)
  | .sth _ _ _ => (0x0D, none)
  | .stb _ _ _ => (0x05, none)
  | .ldhio _ _ _ => (0x2F, none)
  | .ldhuio _ _ _ => (0x2B, none)
  | .ldbio _ _ _ => (0x27, none)
  | .ldbuio _ _ _ => (0x23, none)
  | .sthio _ _ _ => (0x2D, none)
  | .stbio _ _ _ => (0x25, none)
  | .and _ _ _ => (0x3A, some 0x0E)
  | .or _ _ _ => (0x3A, some 0x16)
  | .xor _ _ _ => (0x3A, some 0x1E)
  | .nor _ _ _ => (0x3A, some 0x06)
  | .andi _ _ _ => (0x0C, none)
  | .ori _ _ _ => (0x14, none)
  | .xori _ _ _ => (0x1C, none)
  | .andhi _ _ _ => (0x2C, none)
  | .orhi _ _ _ => (0x34, none)
  | .xorhi _ _ _ => (0x3C, none)
  | .add _ _ _ => (0x3A, some 0x31)
  | .sub _ _ _ => (0x3A, some 0x39)
  | .addi _ _ _ => (0x04, none)
  | .mul _ _ _ => (0x3A, some 0x27)
  | .muli _ _ _ => (0x24, none)
  | .mulxss _ _ _ => (0x3A, some 0x1F)
  | .mulxuu _ _ _ => (0x3A, some 0x07)
  | .mulxsu _ _ _ => (0x3A, some 0x17)
  | .div _ _ _ => (0x3A, some 0x25)
  | .divu _ _ _ => (0x3A, some 0x24)
  | .cmpeq _ _ _ => (0x3A, some 0x20)
  | .cmpne _ _ _ => (0x3A, some 0x18)
  | .cmpge _ _ _ => (0x3A, some 0x08)
  | .cmpgeu _ _ _ => (0x3A, some 0x28)
  | .cmplt _ _ _ => (0x3A, some 0x10)
  | .cmpltu _ _ _ => (0x3A, some 0x30)
  | .cmpeqi _ _ _ => (0x20, none)
  | .cmpnei _ _ _ => (0x18, none)
  | .cmpgei _ _ _ => (0x08, none)
  | .cmpgeui _ _ _ => (0x28, none)
  | .cmplti _ _ _ => (0x10, none)
  | .cmpltui _ _ _ => (0x30, none)
  | .rol _ _ _ => (0x3A, some 0x03)
  | .ror _ _ _ => (0x3A, some 0x0B)
  | .roli _ _ _ => (0x3A, some 0x02)
  | .sll _ _ _ => (0x3A, some 0x13)
  | .slli _ _ _ => (0x3A, some 0x12)
  | .srl _ _ _ => (0x3A, some 0x1B)
  | .srli _ _ _ => (0x3A, some 0x1A)
  | .sra _ _ _ => (0x3A, some 0x3B)
  | .srai _ _ _ => (0x3A, some 0x3A)
  | .call _ => (0x00, none)
  | .callr _ => (0x3A, some 0x1D)
  | .ret => (0x3A, some 0x05)
  | .jmp _ => (0x3A, some 0x0D)
  | .jmpi _ => (0x01, none)
  | .nextpc _ => (0x3A, some 0x1C)
  | .br _ => (0x06, none)
  | .beq _ _ _ => (0x26, none)
  | .bne _ _ _ => (0x1E, none)
  | .bge _ _ _ => (0x0E, none)
  | .bgeu _ _ _ => (0x2E, none)
  | .blt _ _ _ => (0x16, none)
  | .bltu _ _ _ => (0x36, none)
  | .trap _ => (0x3A, some 0x2D)
  | .eret => (0x3A, some 0x01)
  | .brk _ => (0x3A, some 0x34)
  | .bret => (0x3A, some 0x09)
  | .rdctl _ _ => (0x3A, some 0x26)
  | .wrctl _ _ => (0x3A, some 0x2E)
  | .flushd _ _ => (0x3B, none)
  | .flushda _ _ => (0x1B, none)
  | .flushi _ => (0x3A, some 0x0C)
  | .initd _ _ => (0x33, none)
  | .initda _ _ => (0x13, none)
  | .initi _ => (0x3A, some 0x29)
  | .flushp => (0x3A, some 0x04)
  | .sync => (0x3A, some 0x36)
  | .rdprs _ _ _ => (0x38, none)
  | .wrprs _ _ => (0x3A, some 0x14)
  | .custom _ _ _ _ => (0x32, none)

open Sys2Proof

/-- The encoder writes the opcode and opcode extension of the table (30_encoding.md rules R170 and R171). -/
def Sys2Proof.Laws.OpcodeMatches.Statement (i : Instr) : Prop :=
  fieldOp (encode i) = (opcode i).1 ∧ ∀ x, (opcode i).2 = some x → fieldOpx (encode i) = x

theorem Sys2Proof.Laws.OpcodeMatches.ldw (rB rA : RegNum) (imm : BitVec 16) : Statement (.ldw rB rA imm) :=
  ⟨fieldOp_iWord _ _ _ _, nofun⟩
theorem Sys2Proof.Laws.OpcodeMatches.stw (rB rA : RegNum) (imm : BitVec 16) : Statement (.stw rB rA imm) :=
  ⟨fieldOp_iWord _ _ _ _, nofun⟩
theorem Sys2Proof.Laws.OpcodeMatches.ldwio (rB rA : RegNum) (imm : BitVec 16) : Statement (.ldwio rB rA imm) :=
  ⟨fieldOp_iWord _ _ _ _, nofun⟩
theorem Sys2Proof.Laws.OpcodeMatches.stwio (rB rA : RegNum) (imm : BitVec 16) : Statement (.stwio rB rA imm) :=
  ⟨fieldOp_iWord _ _ _ _, nofun⟩
theorem Sys2Proof.Laws.OpcodeMatches.ldh (rB rA : RegNum) (imm : BitVec 16) : Statement (.ldh rB rA imm) :=
  ⟨fieldOp_iWord _ _ _ _, nofun⟩
theorem Sys2Proof.Laws.OpcodeMatches.ldhu (rB rA : RegNum) (imm : BitVec 16) : Statement (.ldhu rB rA imm) :=
  ⟨fieldOp_iWord _ _ _ _, nofun⟩
theorem Sys2Proof.Laws.OpcodeMatches.ldb (rB rA : RegNum) (imm : BitVec 16) : Statement (.ldb rB rA imm) :=
  ⟨fieldOp_iWord _ _ _ _, nofun⟩
theorem Sys2Proof.Laws.OpcodeMatches.ldbu (rB rA : RegNum) (imm : BitVec 16) : Statement (.ldbu rB rA imm) :=
  ⟨fieldOp_iWord _ _ _ _, nofun⟩
theorem Sys2Proof.Laws.OpcodeMatches.sth (rB rA : RegNum) (imm : BitVec 16) : Statement (.sth rB rA imm) :=
  ⟨fieldOp_iWord _ _ _ _, nofun⟩
theorem Sys2Proof.Laws.OpcodeMatches.stb (rB rA : RegNum) (imm : BitVec 16) : Statement (.stb rB rA imm) :=
  ⟨fieldOp_iWord _ _ _ _, nofun⟩
theorem Sys2Proof.Laws.OpcodeMatches.ldhio (rB rA : RegNum) (imm : BitVec 16) : Statement (.ldhio rB rA imm) :=
  ⟨fieldOp_iWord _ _ _ _, nofun⟩
theorem Sys2Proof.Laws.OpcodeMatches.ldhuio (rB rA : RegNum) (imm : BitVec 16) : Statement (.ldhuio rB rA imm) :=
  ⟨fieldOp_iWord _ _ _ _, nofun⟩
theorem Sys2Proof.Laws.OpcodeMatches.ldbio (rB rA : RegNum) (imm : BitVec 16) : Statement (.ldbio rB rA imm) :=
  ⟨fieldOp_iWord _ _ _ _, nofun⟩
theorem Sys2Proof.Laws.OpcodeMatches.ldbuio (rB rA : RegNum) (imm : BitVec 16) : Statement (.ldbuio rB rA imm) :=
  ⟨fieldOp_iWord _ _ _ _, nofun⟩
theorem Sys2Proof.Laws.OpcodeMatches.sthio (rB rA : RegNum) (imm : BitVec 16) : Statement (.sthio rB rA imm) :=
  ⟨fieldOp_iWord _ _ _ _, nofun⟩
theorem Sys2Proof.Laws.OpcodeMatches.stbio (rB rA : RegNum) (imm : BitVec 16) : Statement (.stbio rB rA imm) :=
  ⟨fieldOp_iWord _ _ _ _, nofun⟩
theorem Sys2Proof.Laws.OpcodeMatches.and (rC rA rB : RegNum) : Statement (.and rC rA rB) :=
  ⟨fieldOp_rWord _ _ _ _ _, fun _ h => (fieldOpx_rWord _ _ _ _ _).trans (Option.some.inj h)⟩
theorem Sys2Proof.Laws.OpcodeMatches.or (rC rA rB : RegNum) : Statement (.or rC rA rB) :=
  ⟨fieldOp_rWord _ _ _ _ _, fun _ h => (fieldOpx_rWord _ _ _ _ _).trans (Option.some.inj h)⟩
theorem Sys2Proof.Laws.OpcodeMatches.xor (rC rA rB : RegNum) : Statement (.xor rC rA rB) :=
  ⟨fieldOp_rWord _ _ _ _ _, fun _ h => (fieldOpx_rWord _ _ _ _ _).trans (Option.some.inj h)⟩
theorem Sys2Proof.Laws.OpcodeMatches.nor (rC rA rB : RegNum) : Statement (.nor rC rA rB) :=
  ⟨fieldOp_rWord _ _ _ _ _, fun _ h => (fieldOpx_rWord _ _ _ _ _).trans (Option.some.inj h)⟩
theorem Sys2Proof.Laws.OpcodeMatches.andi (rB rA : RegNum) (imm : BitVec 16) : Statement (.andi rB rA imm) :=
  ⟨fieldOp_iWord _ _ _ _, nofun⟩
theorem Sys2Proof.Laws.OpcodeMatches.ori (rB rA : RegNum) (imm : BitVec 16) : Statement (.ori rB rA imm) :=
  ⟨fieldOp_iWord _ _ _ _, nofun⟩
theorem Sys2Proof.Laws.OpcodeMatches.xori (rB rA : RegNum) (imm : BitVec 16) : Statement (.xori rB rA imm) :=
  ⟨fieldOp_iWord _ _ _ _, nofun⟩
theorem Sys2Proof.Laws.OpcodeMatches.andhi (rB rA : RegNum) (imm : BitVec 16) : Statement (.andhi rB rA imm) :=
  ⟨fieldOp_iWord _ _ _ _, nofun⟩
theorem Sys2Proof.Laws.OpcodeMatches.orhi (rB rA : RegNum) (imm : BitVec 16) : Statement (.orhi rB rA imm) :=
  ⟨fieldOp_iWord _ _ _ _, nofun⟩
theorem Sys2Proof.Laws.OpcodeMatches.xorhi (rB rA : RegNum) (imm : BitVec 16) : Statement (.xorhi rB rA imm) :=
  ⟨fieldOp_iWord _ _ _ _, nofun⟩
theorem Sys2Proof.Laws.OpcodeMatches.add (rC rA rB : RegNum) : Statement (.add rC rA rB) :=
  ⟨fieldOp_rWord _ _ _ _ _, fun _ h => (fieldOpx_rWord _ _ _ _ _).trans (Option.some.inj h)⟩
theorem Sys2Proof.Laws.OpcodeMatches.sub (rC rA rB : RegNum) : Statement (.sub rC rA rB) :=
  ⟨fieldOp_rWord _ _ _ _ _, fun _ h => (fieldOpx_rWord _ _ _ _ _).trans (Option.some.inj h)⟩
theorem Sys2Proof.Laws.OpcodeMatches.addi (rB rA : RegNum) (imm : BitVec 16) : Statement (.addi rB rA imm) :=
  ⟨fieldOp_iWord _ _ _ _, nofun⟩
theorem Sys2Proof.Laws.OpcodeMatches.mul (rC rA rB : RegNum) : Statement (.mul rC rA rB) :=
  ⟨fieldOp_rWord _ _ _ _ _, fun _ h => (fieldOpx_rWord _ _ _ _ _).trans (Option.some.inj h)⟩
theorem Sys2Proof.Laws.OpcodeMatches.muli (rB rA : RegNum) (imm : BitVec 16) : Statement (.muli rB rA imm) :=
  ⟨fieldOp_iWord _ _ _ _, nofun⟩
theorem Sys2Proof.Laws.OpcodeMatches.mulxss (rC rA rB : RegNum) : Statement (.mulxss rC rA rB) :=
  ⟨fieldOp_rWord _ _ _ _ _, fun _ h => (fieldOpx_rWord _ _ _ _ _).trans (Option.some.inj h)⟩
theorem Sys2Proof.Laws.OpcodeMatches.mulxuu (rC rA rB : RegNum) : Statement (.mulxuu rC rA rB) :=
  ⟨fieldOp_rWord _ _ _ _ _, fun _ h => (fieldOpx_rWord _ _ _ _ _).trans (Option.some.inj h)⟩
theorem Sys2Proof.Laws.OpcodeMatches.mulxsu (rC rA rB : RegNum) : Statement (.mulxsu rC rA rB) :=
  ⟨fieldOp_rWord _ _ _ _ _, fun _ h => (fieldOpx_rWord _ _ _ _ _).trans (Option.some.inj h)⟩
theorem Sys2Proof.Laws.OpcodeMatches.div (rC rA rB : RegNum) : Statement (.div rC rA rB) :=
  ⟨fieldOp_rWord _ _ _ _ _, fun _ h => (fieldOpx_rWord _ _ _ _ _).trans (Option.some.inj h)⟩
theorem Sys2Proof.Laws.OpcodeMatches.divu (rC rA rB : RegNum) : Statement (.divu rC rA rB) :=
  ⟨fieldOp_rWord _ _ _ _ _, fun _ h => (fieldOpx_rWord _ _ _ _ _).trans (Option.some.inj h)⟩
theorem Sys2Proof.Laws.OpcodeMatches.cmpeq (rC rA rB : RegNum) : Statement (.cmpeq rC rA rB) :=
  ⟨fieldOp_rWord _ _ _ _ _, fun _ h => (fieldOpx_rWord _ _ _ _ _).trans (Option.some.inj h)⟩
theorem Sys2Proof.Laws.OpcodeMatches.cmpne (rC rA rB : RegNum) : Statement (.cmpne rC rA rB) :=
  ⟨fieldOp_rWord _ _ _ _ _, fun _ h => (fieldOpx_rWord _ _ _ _ _).trans (Option.some.inj h)⟩
theorem Sys2Proof.Laws.OpcodeMatches.cmpge (rC rA rB : RegNum) : Statement (.cmpge rC rA rB) :=
  ⟨fieldOp_rWord _ _ _ _ _, fun _ h => (fieldOpx_rWord _ _ _ _ _).trans (Option.some.inj h)⟩
theorem Sys2Proof.Laws.OpcodeMatches.cmpgeu (rC rA rB : RegNum) : Statement (.cmpgeu rC rA rB) :=
  ⟨fieldOp_rWord _ _ _ _ _, fun _ h => (fieldOpx_rWord _ _ _ _ _).trans (Option.some.inj h)⟩
theorem Sys2Proof.Laws.OpcodeMatches.cmplt (rC rA rB : RegNum) : Statement (.cmplt rC rA rB) :=
  ⟨fieldOp_rWord _ _ _ _ _, fun _ h => (fieldOpx_rWord _ _ _ _ _).trans (Option.some.inj h)⟩
theorem Sys2Proof.Laws.OpcodeMatches.cmpltu (rC rA rB : RegNum) : Statement (.cmpltu rC rA rB) :=
  ⟨fieldOp_rWord _ _ _ _ _, fun _ h => (fieldOpx_rWord _ _ _ _ _).trans (Option.some.inj h)⟩
theorem Sys2Proof.Laws.OpcodeMatches.cmpeqi (rB rA : RegNum) (imm : BitVec 16) : Statement (.cmpeqi rB rA imm) :=
  ⟨fieldOp_iWord _ _ _ _, nofun⟩
theorem Sys2Proof.Laws.OpcodeMatches.cmpnei (rB rA : RegNum) (imm : BitVec 16) : Statement (.cmpnei rB rA imm) :=
  ⟨fieldOp_iWord _ _ _ _, nofun⟩
theorem Sys2Proof.Laws.OpcodeMatches.cmpgei (rB rA : RegNum) (imm : BitVec 16) : Statement (.cmpgei rB rA imm) :=
  ⟨fieldOp_iWord _ _ _ _, nofun⟩
theorem Sys2Proof.Laws.OpcodeMatches.cmpgeui (rB rA : RegNum) (imm : BitVec 16) : Statement (.cmpgeui rB rA imm) :=
  ⟨fieldOp_iWord _ _ _ _, nofun⟩
theorem Sys2Proof.Laws.OpcodeMatches.cmplti (rB rA : RegNum) (imm : BitVec 16) : Statement (.cmplti rB rA imm) :=
  ⟨fieldOp_iWord _ _ _ _, nofun⟩
theorem Sys2Proof.Laws.OpcodeMatches.cmpltui (rB rA : RegNum) (imm : BitVec 16) : Statement (.cmpltui rB rA imm) :=
  ⟨fieldOp_iWord _ _ _ _, nofun⟩
theorem Sys2Proof.Laws.OpcodeMatches.rol (rC rA rB : RegNum) : Statement (.rol rC rA rB) :=
  ⟨fieldOp_rWord _ _ _ _ _, fun _ h => (fieldOpx_rWord _ _ _ _ _).trans (Option.some.inj h)⟩
theorem Sys2Proof.Laws.OpcodeMatches.ror (rC rA rB : RegNum) : Statement (.ror rC rA rB) :=
  ⟨fieldOp_rWord _ _ _ _ _, fun _ h => (fieldOpx_rWord _ _ _ _ _).trans (Option.some.inj h)⟩
theorem Sys2Proof.Laws.OpcodeMatches.roli (rC rA : RegNum) (imm : BitVec 5) : Statement (.roli rC rA imm) :=
  ⟨fieldOp_rWord _ _ _ _ _, fun _ h => (fieldOpx_rWord _ _ _ _ _).trans (Option.some.inj h)⟩
theorem Sys2Proof.Laws.OpcodeMatches.sll (rC rA rB : RegNum) : Statement (.sll rC rA rB) :=
  ⟨fieldOp_rWord _ _ _ _ _, fun _ h => (fieldOpx_rWord _ _ _ _ _).trans (Option.some.inj h)⟩
theorem Sys2Proof.Laws.OpcodeMatches.slli (rC rA : RegNum) (imm : BitVec 5) : Statement (.slli rC rA imm) :=
  ⟨fieldOp_rWord _ _ _ _ _, fun _ h => (fieldOpx_rWord _ _ _ _ _).trans (Option.some.inj h)⟩
theorem Sys2Proof.Laws.OpcodeMatches.srl (rC rA rB : RegNum) : Statement (.srl rC rA rB) :=
  ⟨fieldOp_rWord _ _ _ _ _, fun _ h => (fieldOpx_rWord _ _ _ _ _).trans (Option.some.inj h)⟩
theorem Sys2Proof.Laws.OpcodeMatches.srli (rC rA : RegNum) (imm : BitVec 5) : Statement (.srli rC rA imm) :=
  ⟨fieldOp_rWord _ _ _ _ _, fun _ h => (fieldOpx_rWord _ _ _ _ _).trans (Option.some.inj h)⟩
theorem Sys2Proof.Laws.OpcodeMatches.sra (rC rA rB : RegNum) : Statement (.sra rC rA rB) :=
  ⟨fieldOp_rWord _ _ _ _ _, fun _ h => (fieldOpx_rWord _ _ _ _ _).trans (Option.some.inj h)⟩
theorem Sys2Proof.Laws.OpcodeMatches.srai (rC rA : RegNum) (imm : BitVec 5) : Statement (.srai rC rA imm) :=
  ⟨fieldOp_rWord _ _ _ _ _, fun _ h => (fieldOpx_rWord _ _ _ _ _).trans (Option.some.inj h)⟩
theorem Sys2Proof.Laws.OpcodeMatches.call (imm : BitVec 26) : Statement (.call imm) :=
  ⟨fieldOp_jWord _ _, nofun⟩
theorem Sys2Proof.Laws.OpcodeMatches.callr (rA : RegNum) : Statement (.callr rA) :=
  ⟨fieldOp_rWord _ _ _ _ _, fun _ h => (fieldOpx_rWord _ _ _ _ _).trans (Option.some.inj h)⟩
theorem Sys2Proof.Laws.OpcodeMatches.ret : Statement .ret :=
  ⟨fieldOp_rWord _ _ _ _ _, fun _ h => (fieldOpx_rWord _ _ _ _ _).trans (Option.some.inj h)⟩
theorem Sys2Proof.Laws.OpcodeMatches.jmp (rA : RegNum) : Statement (.jmp rA) :=
  ⟨fieldOp_rWord _ _ _ _ _, fun _ h => (fieldOpx_rWord _ _ _ _ _).trans (Option.some.inj h)⟩
theorem Sys2Proof.Laws.OpcodeMatches.jmpi (imm : BitVec 26) : Statement (.jmpi imm) :=
  ⟨fieldOp_jWord _ _, nofun⟩
theorem Sys2Proof.Laws.OpcodeMatches.nextpc (rC : RegNum) : Statement (.nextpc rC) :=
  ⟨fieldOp_rWord _ _ _ _ _, fun _ h => (fieldOpx_rWord _ _ _ _ _).trans (Option.some.inj h)⟩
theorem Sys2Proof.Laws.OpcodeMatches.br (imm : BitVec 16) : Statement (.br imm) :=
  ⟨fieldOp_iWord _ _ _ _, nofun⟩
theorem Sys2Proof.Laws.OpcodeMatches.beq (rA rB : RegNum) (imm : BitVec 16) : Statement (.beq rA rB imm) :=
  ⟨fieldOp_iWord _ _ _ _, nofun⟩
theorem Sys2Proof.Laws.OpcodeMatches.bne (rA rB : RegNum) (imm : BitVec 16) : Statement (.bne rA rB imm) :=
  ⟨fieldOp_iWord _ _ _ _, nofun⟩
theorem Sys2Proof.Laws.OpcodeMatches.bge (rA rB : RegNum) (imm : BitVec 16) : Statement (.bge rA rB imm) :=
  ⟨fieldOp_iWord _ _ _ _, nofun⟩
theorem Sys2Proof.Laws.OpcodeMatches.bgeu (rA rB : RegNum) (imm : BitVec 16) : Statement (.bgeu rA rB imm) :=
  ⟨fieldOp_iWord _ _ _ _, nofun⟩
theorem Sys2Proof.Laws.OpcodeMatches.blt (rA rB : RegNum) (imm : BitVec 16) : Statement (.blt rA rB imm) :=
  ⟨fieldOp_iWord _ _ _ _, nofun⟩
theorem Sys2Proof.Laws.OpcodeMatches.bltu (rA rB : RegNum) (imm : BitVec 16) : Statement (.bltu rA rB imm) :=
  ⟨fieldOp_iWord _ _ _ _, nofun⟩
theorem Sys2Proof.Laws.OpcodeMatches.trap (imm : BitVec 5) : Statement (.trap imm) :=
  ⟨fieldOp_rWord _ _ _ _ _, fun _ h => (fieldOpx_rWord _ _ _ _ _).trans (Option.some.inj h)⟩
theorem Sys2Proof.Laws.OpcodeMatches.eret : Statement .eret :=
  ⟨fieldOp_rWord _ _ _ _ _, fun _ h => (fieldOpx_rWord _ _ _ _ _).trans (Option.some.inj h)⟩
theorem Sys2Proof.Laws.OpcodeMatches.brk (imm : BitVec 5) : Statement (.brk imm) :=
  ⟨fieldOp_rWord _ _ _ _ _, fun _ h => (fieldOpx_rWord _ _ _ _ _).trans (Option.some.inj h)⟩
theorem Sys2Proof.Laws.OpcodeMatches.bret : Statement .bret :=
  ⟨fieldOp_rWord _ _ _ _ _, fun _ h => (fieldOpx_rWord _ _ _ _ _).trans (Option.some.inj h)⟩
theorem Sys2Proof.Laws.OpcodeMatches.rdctl (rC : RegNum) (n : CtlReg) : Statement (.rdctl rC n) :=
  ⟨fieldOp_rWord _ _ _ _ _, fun _ h => (fieldOpx_rWord _ _ _ _ _).trans (Option.some.inj h)⟩
theorem Sys2Proof.Laws.OpcodeMatches.wrctl (n : CtlReg) (rA : RegNum) : Statement (.wrctl n rA) :=
  ⟨fieldOp_rWord _ _ _ _ _, fun _ h => (fieldOpx_rWord _ _ _ _ _).trans (Option.some.inj h)⟩
theorem Sys2Proof.Laws.OpcodeMatches.flushd (rA : RegNum) (imm : BitVec 16) : Statement (.flushd rA imm) :=
  ⟨fieldOp_iWord _ _ _ _, nofun⟩
theorem Sys2Proof.Laws.OpcodeMatches.flushda (rA : RegNum) (imm : BitVec 16) : Statement (.flushda rA imm) :=
  ⟨fieldOp_iWord _ _ _ _, nofun⟩
theorem Sys2Proof.Laws.OpcodeMatches.flushi (rA : RegNum) : Statement (.flushi rA) :=
  ⟨fieldOp_rWord _ _ _ _ _, fun _ h => (fieldOpx_rWord _ _ _ _ _).trans (Option.some.inj h)⟩
theorem Sys2Proof.Laws.OpcodeMatches.initd (rA : RegNum) (imm : BitVec 16) : Statement (.initd rA imm) :=
  ⟨fieldOp_iWord _ _ _ _, nofun⟩
theorem Sys2Proof.Laws.OpcodeMatches.initda (rA : RegNum) (imm : BitVec 16) : Statement (.initda rA imm) :=
  ⟨fieldOp_iWord _ _ _ _, nofun⟩
theorem Sys2Proof.Laws.OpcodeMatches.initi (rA : RegNum) : Statement (.initi rA) :=
  ⟨fieldOp_rWord _ _ _ _ _, fun _ h => (fieldOpx_rWord _ _ _ _ _).trans (Option.some.inj h)⟩
theorem Sys2Proof.Laws.OpcodeMatches.flushp : Statement .flushp :=
  ⟨fieldOp_rWord _ _ _ _ _, fun _ h => (fieldOpx_rWord _ _ _ _ _).trans (Option.some.inj h)⟩
theorem Sys2Proof.Laws.OpcodeMatches.sync : Statement .sync :=
  ⟨fieldOp_rWord _ _ _ _ _, fun _ h => (fieldOpx_rWord _ _ _ _ _).trans (Option.some.inj h)⟩
theorem Sys2Proof.Laws.OpcodeMatches.rdprs (rB rA : RegNum) (imm : BitVec 16) : Statement (.rdprs rB rA imm) :=
  ⟨fieldOp_iWord _ _ _ _, nofun⟩
theorem Sys2Proof.Laws.OpcodeMatches.wrprs (rC rA : RegNum) : Statement (.wrprs rC rA) :=
  ⟨fieldOp_rWord _ _ _ _ _, fun _ h => (fieldOpx_rWord _ _ _ _ _).trans (Option.some.inj h)⟩
theorem Sys2Proof.Laws.OpcodeMatches.custom (n : BitVec 8) (c a b : CustomReg) : Statement (.custom n c a b) :=
  ⟨fieldOp_customWord _ _ _ _, nofun⟩
end

