-- ==== Sys2Proof/Tests/Slice0.lean ====
section
/-! SUPPORT. The model's own tests. Words and expected values are those of the spec: the examples of its rules and the
vectors of 95_test_vectors.md. A `test_witness_` theorem shows operands and a state that meet all the hypotheses of the
statement it is named after. -/

namespace Sys2Proof.Tests

open Sys2Proof.Machine

/-! ## Small states -/

/-- The state after reset with some registers set and the pc at 0x1000. -/
def at1000 (regs : List (RegNum × Word)) : State :=
  regs.foldl (fun s r => s.setX r.1 r.2) { State.reset with pc := 0x1000 }

/-- The state with bytes in memory. -/
def holding (a : Nat) (bytes : List Byte) (s : State) : State := { s with mem := s.mem.writeBytes a bytes }

/-- The eight bytes the data transfer vectors put at 0x2000. -/
def vectorBytes : List Byte := [0x78, 0x56, 0x34, 0x92, 0x80, 0xFF, 0x7F, 0x01]

/-- The next state of one step that runs the word at the pc. -/
def ran (w : Nat) (s : State) : Option State :=
  match step (s.withFetchWord 32 w) with
  | .next t => some t
  | _ => none

/-- A register and the pc after the word runs. -/
def result (w : Nat) (r : RegNum) (s : State) : Option (Word × Word) := (ran w s).map (fun t => (t.x r, t.pc))

/-- Bytes of memory and the pc after the word runs. -/
def stored (w a n : Nat) (s : State) : Option (List Byte × Word) :=
  (ran w s).map (fun t => ((List.range n).map (fun k => t.mem.read (a + k)), t.pc))

/-- The exception register, ea, badaddr and the pc after the word runs. -/
def entry (w : Nat) (s : State) : Option (Word × Word × Word × Word) :=
  (ran w s).map (fun t => (t.readCtl .exception, t.xs 0 29, t.badaddr, t.pc))

/-- The outcome is a refusal of this name. -/
def refuses (r : Refusal) (o : Result) : Bool :=
  match o with
  | .refused q => q == r
  | _ => false

/-! ## Well-formedness -/

theorem test_wellFormed_refuses :
    [Instr.rdctl 3 (.reserved 5), .wrctl (.reserved 15) 1, .rdctl 3 (.reserved 7), .wrctl (.reserved 0) 0].map
      Instr.wellFormed = [false, false, false, false] := by decide

theorem test_wellFormed_accepts :
    [Instr.rdctl 3 (.reserved 6), .wrctl (.reserved 16) 1, .rdctl 31 (.reserved 31), .wrctl .mpuacc 0].map
      Instr.wellFormed = [true, true, true, true] := by decide

/-! ## Decoding -/

/-- The examples of the data transfer instructions, words as the spec writes them. -/
theorem test_decode_data_transfer :
    [
      0x21400117, 0x21400115, 0x21400137, 0x21400135, 0x2140010F, 0x2140010B, 0x21400107, 0x21400103, 0x2140010D,
      0x21400105, 0x2140012F, 0x2140012B, 0x21400127, 0x21400123, 0x2140012D, 0x21400125].map (decodeTableWord 32) =
      [
        some (.ldw 5 4 0x0004), some (.stw 5 4 0x0004), some (.ldwio 5 4 0x0004), some (.stwio 5 4 0x0004),
        some (.ldh 5 4 0x0004), some (.ldhu 5 4 0x0004), some (.ldb 5 4 0x0004), some (.ldbu 5 4 0x0004),
        some (.sth 5 4 0x0004), some (.stb 5 4 0x0004), some (.ldhio 5 4 0x0004), some (.ldhuio 5 4 0x0004),
        some (.ldbio 5 4 0x0004), some (.ldbuio 5 4 0x0004), some (.sthio 5 4 0x0004), some (.stbio 5 4 0x0004)] := by decide

/-- The examples of the arithmetic instructions, words as the spec writes them. -/
theorem test_decode_arithmetic :
    [
      0x214C703A, 0x214CB03A, 0x214CF03A, 0x214C303A, 0x217FC00C, 0x217FC014, 0x217FC01C, 0x217FC02C, 0x217FC034,
      0x217FC03C, 0x214D883A, 0x214DC83A, 0x217FFF44, 0x214D383A, 0x217FFF64, 0x214CF83A, 0x214C383A, 0x214CB83A,
      0x214D283A, 0x214D203A].map (decodeTableWord 32) =
      [
        some (.and 6 4 5), some (.or 6 4 5), some (.xor 6 4 5), some (.nor 6 4 5), some (.andi 5 4 0xFF00),
        some (.ori 5 4 0xFF00), some (.xori 5 4 0xFF00), some (.andhi 5 4 0xFF00), some (.orhi 5 4 0xFF00),
        some (.xorhi 5 4 0xFF00), some (.add 6 4 5), some (.sub 6 4 5), some (.addi 5 4 0xFFFD), some (.mul 6 4 5),
        some (.muli 5 4 0xFFFD), some (.mulxss 6 4 5), some (.mulxuu 6 4 5), some (.mulxsu 6 4 5), some (.div 6 4 5),
        some (.divu 6 4 5)] := by decide

/-- The examples of the comparison instructions, words as the spec writes them. -/
theorem test_decode_comparison :
    [
      0x214D003A, 0x214CC03A, 0x214C403A, 0x214D403A, 0x214C803A, 0x214D803A, 0x214002A0, 0x21400298, 0x21400288,
      0x214002A8, 0x21400290, 0x214002B0].map (decodeTableWord 32) =
      [
        some (.cmpeq 6 4 5), some (.cmpne 6 4 5), some (.cmpge 6 4 5), some (.cmpgeu 6 4 5), some (.cmplt 6 4 5),
        some (.cmpltu 6 4 5), some (.cmpeqi 5 4 0x000A), some (.cmpnei 5 4 0x000A), some (.cmpgei 5 4 0x000A),
        some (.cmpgeui 5 4 0x000A), some (.cmplti 5 4 0x000A), some (.cmpltui 5 4 0x000A)] := by decide

/-- The examples of the shift instructions, words as the spec writes them. -/
theorem test_decode_shift :
    [
      0x214C183A, 0x214C583A, 0x200C113A, 0x214C983A, 0x200C913A, 0x200C97FA, 0x200C903A, 0x0806903A, 0x214CD83A,
      0x200CD13A, 0x214DD83A, 0x200DD13A].map (decodeTableWord 32) =
      [
        some (.rol 6 4 5), some (.ror 6 4 5), some (.roli 6 4 4), some (.sll 6 4 5), some (.slli 6 4 4),
        some (.slli 6 4 31), some (.slli 6 4 0), some (.slli 3 1 0), some (.srl 6 4 5), some (.srli 6 4 4),
        some (.sra 6 4 5), some (.srai 6 4 4)] := by decide

/-- The examples of the program control instructions, words as the spec writes them. -/
theorem test_decode_program_control :
    [
      0x04001000, 0x203EE83A, 0xF800283A, 0x2000683A, 0x04001001, 0x0008E03A, 0x00000706, 0x21400726, 0x2140071E,
      0x2140070E, 0x2140072E, 0x21400716, 0x21400736].map (decodeTableWord 32) =
      [
        some (.call 0x100040), some (.callr 4), some .ret, some (.jmp 4), some (.jmpi 0x100040), some (.nextpc 4),
        some (.br 0x001C), some (.beq 4 5 0x001C), some (.bne 4 5 0x001C), some (.bge 4 5 0x001C),
        some (.bgeu 4 5 0x001C), some (.blt 4 5 0x001C), some (.bltu 4 5 0x001C)] := by decide

/-- The examples of the other control instructions, words as the spec writes them. -/
theorem test_decode_other_control :
    [
      0x003B683A, 0x003B697A, 0x003B69FA, 0xEF80083A, 0x003DA03A, 0xF03C483A, 0x0009303A, 0x000930FA, 0x000B33FA,
      0x0007303A, 0x2001703A, 0x2000003B, 0x2000001B, 0x2000603A, 0x20000033, 0x20000013, 0x2001483A, 0x0000203A,
      0x0001B03A, 0x21400038, 0x200AA03A, 0x214DC032, 0x214DFFF2, 0x214C0172, 0x214D4072].map (decodeTableWord 32) =
      [
        some (.trap 0), some (.trap 5), some (.trap 7), some .eret, some (.brk 0), some .bret,
        some (.rdctl 4 .status), some (.rdctl 4 .ienable), some (.rdctl 5 .mpuacc), some (.rdctl 3 .status),
        some (.wrctl .status 4), some (.flushd 4 0x0000), some (.flushda 4 0x0000), some (.flushi 4),
        some (.initd 4 0x0000), some (.initda 4 0x0000), some (.initi 4), some .flushp, some .sync,
        some (.rdprs 5 4 0x0000), some (.wrprs 5 4), some (.custom 0 (.r 6) (.r 4) (.r 5)),
        some (.custom 255 (.r 6) (.r 4) (.r 5)), some (.custom 5 (.c 6) (.c 4) (.c 5)),
        some (.custom 1 (.r 6) (.r 4) (.c 5))] := by decide

/-! ## One step (95_test_vectors.md) -/

theorem test_ldw :
    result 0x10C00017 3 (holding 0x2000 vectorBytes (at1000 [(2, 0x2000)])) = some (0x92345678, 0x1004) := by decide
theorem test_ldw_2 :
    entry 0x10C00017 (holding 0x2000 vectorBytes (at1000 [(2, 0x2002)])) =
      some (0x0018, 0x1004, 0x2002, 0x0020) := by decide
theorem test_stw :
    stored 0x10C00015 0x2000 4 (at1000 [(2, 0x2000), (3, 0xDEADBEEF)]) =
      some ([0xEF, 0xBE, 0xAD, 0xDE], 0x1004) := by decide
theorem test_stw_2 :
    entry 0x10C00055 (holding 0x2000 vectorBytes (at1000 [(2, 0x2000), (3, 0x0001)])) =
      some (0x0018, 0x1004, 0x2001, 0x0020) := by decide
theorem test_ldwio :
    result 0x10C00137 3 (holding 0x2000 vectorBytes (at1000 [(2, 0x2000)])) = some (0x017FFF80, 0x1004) := by decide
theorem test_stwio :
    stored 0x10C00035 0x2000 4 (at1000 [(2, 0x2000), (3, 0x01020304)]) =
      some ([0x04, 0x03, 0x02, 0x01], 0x1004) := by decide
theorem test_ldh :
    result 0x10C0008F 3 (holding 0x2000 vectorBytes (at1000 [(2, 0x2000)])) = some (0xFFFF9234, 0x1004) := by decide
theorem test_ldh_2 :
    entry 0x10C0004F (holding 0x2000 vectorBytes (at1000 [(2, 0x2000)])) =
      some (0x0018, 0x1004, 0x2001, 0x0020) := by decide
theorem test_ldhu :
    result 0x10C0008B 3 (holding 0x2000 vectorBytes (at1000 [(2, 0x2000)])) = some (0x9234, 0x1004) := by decide
theorem test_ldb :
    result 0x10C00107 3 (holding 0x2000 vectorBytes (at1000 [(2, 0x2000)])) = some (0xFFFFFF80, 0x1004) := by decide
theorem test_ldb_2 :
    result 0x10C000C7 3 (holding 0x2000 vectorBytes (at1000 [(2, 0x2000)])) = some (0xFFFFFF92, 0x1004) := by decide
theorem test_ldbu :
    result 0x10C00103 3 (holding 0x2000 vectorBytes (at1000 [(2, 0x2000)])) = some (0x0080, 0x1004) := by decide
theorem test_sth :
    stored 0x10C0008D 0x2002 2 (at1000 [(2, 0x2000), (3, 0xDEADBEEF)]) = some ([0xEF, 0xBE], 0x1004) := by decide
theorem test_sth_2 :
    entry 0x10C0000D (holding 0x2000 vectorBytes (at1000 [(2, 0x2003), (3, 0x0001)])) =
      some (0x0018, 0x1004, 0x2003, 0x0020) := by decide
theorem test_stb :
    stored 0x10C000C5 0x2003 1 (at1000 [(2, 0x2000), (3, 0xDEADBEEF)]) = some ([0xEF], 0x1004) := by decide
theorem test_ldhio :
    result 0x10C0012F 3 (holding 0x2000 vectorBytes (at1000 [(2, 0x2000)])) = some (0xFFFFFF80, 0x1004) := by decide
theorem test_ldhuio :
    result 0x10C0012B 3 (holding 0x2000 vectorBytes (at1000 [(2, 0x2000)])) = some (0xFF80, 0x1004) := by decide
theorem test_ldhuio_2 :
    entry 0x10C0006B (holding 0x2000 vectorBytes (at1000 [(2, 0x2000)])) =
      some (0x0018, 0x1004, 0x2001, 0x0020) := by decide
theorem test_ldbio :
    result 0x10C00167 3 (holding 0x2000 vectorBytes (at1000 [(2, 0x2000)])) = some (0xFFFFFFFF, 0x1004) := by decide
theorem test_ldbuio :
    result 0x10C001E3 3 (holding 0x2000 vectorBytes (at1000 [(2, 0x2000)])) = some (0x0001, 0x1004) := by decide
theorem test_sthio :
    stored 0x10C0002D 0x2000 2 (at1000 [(2, 0x2000), (3, 0xFFFF1234)]) = some ([0x34, 0x12], 0x1004) := by decide
theorem test_stbio :
    stored 0x10FFFFE5 0x2000 1 (at1000 [(2, 0x2001), (3, 0x0155)]) = some ([0x55], 0x1004) := by decide
theorem test_and :
    result 0x0886703A 3 (at1000 [(1, 0xF0F0FF00), (2, 0x0FF0F0F0)]) = some (0x00F0F000, 0x1004) := by decide
theorem test_or :
    result 0x0886B03A 3 (at1000 [(1, 0xF0F0FF00), (2, 0x0FF0F0F0)]) = some (0xFFF0FFF0, 0x1004) := by decide
theorem test_xor :
    result 0x0886F03A 3 (at1000 [(1, 0xF0F0FF00), (2, 0x0FF0F0F0)]) = some (0xFF000FF0, 0x1004) := by decide
theorem test_nor :
    result 0x0886303A 3 (at1000 [(1, 0xF0F0FF00), (2, 0x0FF0F0F0)]) = some (0x000F000F, 0x1004) := by decide
theorem test_nor_2 : result 0x0806303A 3 (at1000 [(1, 0xFFFF)]) = some (0xFFFF0000, 0x1004) := by decide
theorem test_andi : result 0x08E0004C 3 (at1000 [(1, 0xFFFFFFFF)]) = some (0x8001, 0x1004) := by decide
theorem test_ori : result 0x08E00054 3 (at1000 [(1, 0xFFFF0000)]) = some (0xFFFF8001, 0x1004) := by decide
theorem test_xori : result 0x08FFFFDC 3 (at1000 [(1, 0x12345678)]) = some (0x1234A987, 0x1004) := by decide
theorem test_andhi : result 0x08E0006C 3 (at1000 [(1, 0xFFFFFFFF)]) = some (0x80010000, 0x1004) := by decide
theorem test_orhi : result 0x08E00074 3 (at1000 [(1, 0x1234)]) = some (0x80011234, 0x1004) := by decide
theorem test_xorhi : result 0x08FFFFFC 3 (at1000 [(1, 0x12345678)]) = some (0xEDCB5678, 0x1004) := by decide
theorem test_add :
    result 0x0887883A 3 (at1000 [(1, 0x7FFFFFFF), (2, 0x0001)]) = some (0x80000000, 0x1004) := by decide
theorem test_add_2 : result 0x0881883A 0 (at1000 [(1, 0x0005), (2, 0x0006)]) = some (0, 0x1004) := by decide
theorem test_sub :
    result 0x0887C83A 3 (at1000 [(1, 0x0000), (2, 0x0001)]) = some (0xFFFFFFFF, 0x1004) := by decide
theorem test_sub_2 :
    result 0x0887C83A 3 (at1000 [(1, 0x80000000), (2, 0x0001)]) = some (0x7FFFFFFF, 0x1004) := by decide
theorem test_addi : result 0x08FFFFC4 3 (at1000 [(1, 0x0000)]) = some (0xFFFFFFFF, 0x1004) := by decide
theorem test_addi_2 : result 0x08E00004 3 (at1000 [(1, 0x8000)]) = some (0x0000, 0x1004) := by decide
theorem test_mul :
    result 0x0887383A 3 (at1000 [(1, 0x00010000), (2, 0x00010000)]) = some (0x0000, 0x1004) := by decide
theorem test_muli : result 0x08FFFFA4 3 (at1000 [(1, 0x40000001)]) = some (0x7FFFFFFE, 0x1004) := by decide
theorem test_mulxss :
    result 0x0886F83A 3 (at1000 [(1, 0x80000000), (2, 0x80000000)]) = some (0x40000000, 0x1004) := by decide
theorem test_mulxss_2 :
    result 0x0886F83A 3 (at1000 [(1, 0xFFFFFFFF), (2, 0x0002)]) = some (0xFFFFFFFF, 0x1004) := by decide
theorem test_mulxuu :
    result 0x0886383A 3 (at1000 [(1, 0xFFFFFFFF), (2, 0xFFFFFFFF)]) = some (0xFFFFFFFE, 0x1004) := by decide
theorem test_mulxuu_2 :
    result 0x0886383A 3 (at1000 [(1, 0x12345678), (2, 0x9ABCDEF0)]) = some (0x0B00EA4E, 0x1004) := by decide
theorem test_mulxsu :
    result 0x0886B83A 3 (at1000 [(1, 0xFFFFFFFF), (2, 0xFFFFFFFF)]) = some (0xFFFFFFFF, 0x1004) := by decide
theorem test_mulxsu_2 :
    result 0x0886B83A 3 (at1000 [(1, 0x7FFFFFFF), (2, 0xFFFFFFFF)]) = some (0x7FFFFFFE, 0x1004) := by decide
theorem test_div :
    result 0x0887283A 3 (at1000 [(1, 0xFFFFFFF9), (2, 0x0002)]) = some (0xFFFFFFFD, 0x1004) := by decide
theorem test_div_2 :
    entry 0x0887283A (at1000 [(1, 0x0005), (2, 0x0000)]) = some (0x0020, 0x1004, 0, 0x0020) := by decide
theorem test_divu :
    result 0x0887203A 3 (at1000 [(1, 0xFFFFFFF9), (2, 0x0002)]) = some (0x7FFFFFFC, 0x1004) := by decide
theorem test_divu_2 :
    entry 0x0887203A (at1000 [(1, 0x0005), (2, 0x0000)]) = some (0x0020, 0x1004, 0, 0x0020) := by decide
theorem test_cmpeq :
    result 0x0887003A 3 (at1000 [(1, 0xFFFFFFFF), (2, 0x0001)]) = some (0x0000, 0x1004) := by decide
theorem test_cmpeq_2 :
    result 0x0887003A 3 (at1000 [(1, 0x80000000), (2, 0x80000000)]) = some (0x0001, 0x1004) := by decide
theorem test_cmpne :
    result 0x0886C03A 3 (at1000 [(1, 0xFFFFFFFF), (2, 0x0001)]) = some (0x0001, 0x1004) := by decide
theorem test_cmpge :
    result 0x0886403A 3 (at1000 [(1, 0xFFFFFFFF), (2, 0x0001)]) = some (0x0000, 0x1004) := by decide
theorem test_cmpge_2 :
    result 0x0886403A 3 (at1000 [(1, 0x80000000), (2, 0x80000000)]) = some (0x0001, 0x1004) := by decide
theorem test_cmpgeu :
    result 0x0887403A 3 (at1000 [(1, 0xFFFFFFFF), (2, 0x0001)]) = some (0x0001, 0x1004) := by decide
theorem test_cmpgeu_2 :
    result 0x0887403A 3 (at1000 [(1, 0x80000000), (2, 0x80000000)]) = some (0x0001, 0x1004) := by decide
theorem test_cmplt :
    result 0x0886803A 3 (at1000 [(1, 0xFFFFFFFF), (2, 0x0001)]) = some (0x0001, 0x1004) := by decide
theorem test_cmplt_2 :
    result 0x0886803A 3 (at1000 [(1, 0x80000000), (2, 0x80000000)]) = some (0x0000, 0x1004) := by decide
theorem test_cmpltu :
    result 0x0887803A 3 (at1000 [(1, 0xFFFFFFFF), (2, 0x0001)]) = some (0x0000, 0x1004) := by decide
theorem test_cmpltu_2 :
    result 0x0887803A 3 (at1000 [(1, 0x80000000), (2, 0x80000000)]) = some (0x0000, 0x1004) := by decide
theorem test_cmpeqi : result 0x08FFFFE0 3 (at1000 [(1, 0xFFFFFFFF)]) = some (0x0001, 0x1004) := by decide
theorem test_cmpeqi_2 : result 0x08FFFFE0 3 (at1000 [(1, 0xFFFF)]) = some (0x0000, 0x1004) := by decide
theorem test_cmpnei : result 0x08C00018 3 (at1000 [(1, 0x0000)]) = some (0x0000, 0x1004) := by decide
theorem test_cmpgei : result 0x08FFFFC8 3 (at1000 [(1, 0xFFFFFFFF)]) = some (0x0001, 0x1004) := by decide
theorem test_cmpgei_2 : result 0x08E00008 3 (at1000 [(1, 0x80000000)]) = some (0x0000, 0x1004) := by decide
theorem test_cmpgeui : result 0x08FFFFE8 3 (at1000 [(1, 0xFFFF)]) = some (0x0001, 0x1004) := by decide
theorem test_cmpgeui_2 : result 0x08FFFFE8 3 (at1000 [(1, 0xFFFE)]) = some (0x0000, 0x1004) := by decide
theorem test_cmplti : result 0x08C00010 3 (at1000 [(1, 0x80000000)]) = some (0x0001, 0x1004) := by decide
theorem test_cmpltui : result 0x08E00030 3 (at1000 [(1, 0x7FFF)]) = some (0x0001, 0x1004) := by decide
theorem test_cmpltui_2 : result 0x08E00030 3 (at1000 [(1, 0xFFFFFFFF)]) = some (0x0000, 0x1004) := by decide
theorem test_rol :
    result 0x0886183A 3 (at1000 [(1, 0x12345678), (2, 0x0008)]) = some (0x34567812, 0x1004) := by decide
theorem test_rol_2 :
    result 0x0886183A 3 (at1000 [(1, 0x12345678), (2, 0x0028)]) = some (0x34567812, 0x1004) := by decide
theorem test_ror :
    result 0x0886583A 3 (at1000 [(1, 0x12345678), (2, 0x0008)]) = some (0x78123456, 0x1004) := by decide
theorem test_ror_2 :
    result 0x0886583A 3 (at1000 [(1, 0x12345678), (2, 0x0020)]) = some (0x12345678, 0x1004) := by decide
theorem test_roli : result 0x0806113A 3 (at1000 [(1, 0x80000001)]) = some (0x0018, 0x1004) := by decide
theorem test_roli_2 : result 0x0806103A 3 (at1000 [(1, 0x80000001)]) = some (0x80000001, 0x1004) := by decide
theorem test_sll : result 0x0886983A 3 (at1000 [(1, 0x0001), (2, 0x0021)]) = some (0x0002, 0x1004) := by decide
theorem test_sll_2 :
    result 0x0886983A 3 (at1000 [(1, 0x0001), (2, 0xFFFFFFE0)]) = some (0x0001, 0x1004) := by decide
theorem test_slli : result 0x0806903A 3 (at1000 [(1, 0x80000001)]) = some (0x80000001, 0x1004) := by decide
theorem test_slli_2 : result 0x080697FA 3 (at1000 [(1, 0x80000001)]) = some (0x80000000, 0x1004) := by decide
theorem test_srl :
    result 0x0886D83A 3 (at1000 [(1, 0x80000000), (2, 0x003F)]) = some (0x0001, 0x1004) := by decide
theorem test_srli : result 0x0806D7FA 3 (at1000 [(1, 0x80000001)]) = some (0x0001, 0x1004) := by decide
theorem test_sra :
    result 0x0887D83A 3 (at1000 [(1, 0x80000000), (2, 0x003F)]) = some (0xFFFFFFFF, 0x1004) := by decide
theorem test_sra_2 :
    result 0x0887D83A 3 (at1000 [(1, 0x40000000), (2, 0x003F)]) = some (0x0000, 0x1004) := by decide
theorem test_srai : result 0x0807D7FA 3 (at1000 [(1, 0x80000001)]) = some (0xFFFFFFFF, 0x1004) := by decide
theorem test_srai_2 : result 0x0807D13A 3 (at1000 [(1, 0x7FFFFFF0)]) = some (0x07FFFFFF, 0x1004) := by decide
theorem test_call : result 0x00020000 31 (at1000 []) = some (0x1004, 0x2000) := by decide
theorem test_callr : result 0x283EE83A 31 (at1000 [(5, 0x4000)]) = some (0x1004, 0x4000) := by decide
theorem test_callr_2 :
    entry 0x283EE83A (at1000 [(5, 0x4002)]) = some (0x001C, 0x1004, 0x4002, 0x0020) := by decide
theorem test_ret : result 0xF800283A 0 (at1000 [(31, 0x1234)]) = some (0, 0x1234) := by decide
theorem test_ret_2 :
    entry 0xF800283A (at1000 [(31, 0x1236)]) = some (0x001C, 0x1004, 0x1236, 0x0020) := by decide
theorem test_jmp : result 0x2800683A 0 (at1000 [(5, 0xFFFFFFFC)]) = some (0, 0xFFFFFFFC) := by decide
theorem test_jmp_2 : entry 0x2800683A (at1000 [(5, 0x4001)]) = some (0x001C, 0x1004, 0x4001, 0x0020) := by decide
theorem test_nextpc : result 0x0006E03A 3 (at1000 []) = some (0x1004, 0x1004) := by decide
theorem test_br : result 0x0106 0 (at1000 []) = some (0, 0x1008) := by decide
theorem test_br_2 : result 0x003FBF06 0 (at1000 []) = some (0, 0x0F00) := by decide
theorem test_beq : result 0x08803F26 0 (at1000 [(1, 0x0005), (2, 0x0005)]) = some (0, 0x1100) := by decide
theorem test_beq_2 : entry 0x00A6 (at1000 []) = some (0x001C, 0x1004, 0x1006, 0x0020) := by decide
theorem test_bne : result 0x08803F1E 0 (at1000 [(1, 0x0005), (2, 0x0006)]) = some (0, 0x1100) := by decide
theorem test_bne_2 : result 0x009E 0 (at1000 []) = some (0, 0x1004) := by decide
theorem test_bge : result 0x08803F0E 0 (at1000 [(1, 0xFFFFFFFF), (2, 0x0001)]) = some (0, 0x1004) := by decide
theorem test_bgeu : result 0x08803F2E 0 (at1000 [(1, 0xFFFFFFFF), (2, 0x0001)]) = some (0, 0x1100) := by decide
theorem test_blt : result 0x08803F16 0 (at1000 [(1, 0xFFFFFFFF), (2, 0x0001)]) = some (0, 0x1100) := by decide
theorem test_bltu : result 0x08803F36 0 (at1000 [(1, 0xFFFFFFFF), (2, 0x0001)]) = some (0, 0x1004) := by decide
theorem test_flushd : result 0x0800013B 0 (at1000 [(1, 0x1001)]) = some (0, 0x1004) := by decide
theorem test_flushda : result 0x083FFF1B 0 (at1000 [(1, 0x2000)]) = some (0, 0x1004) := by decide
theorem test_flushi : result 0x0800603A 0 (at1000 [(1, 0x1003)]) = some (0, 0x1004) := by decide
theorem test_initd : result 0x08000033 0 (at1000 [(1, 0x0000)]) = some (0, 0x1004) := by decide
theorem test_initda : result 0x081FFF13 0 (at1000 [(1, 0x0000)]) = some (0, 0x1004) := by decide
theorem test_initi : result 0x0801483A 0 (at1000 [(1, 0x1000)]) = some (0, 0x1004) := by decide
theorem test_flushp : result 0x203A 0 (at1000 []) = some (0, 0x1004) := by decide
theorem test_sync : result 0x0001B03A 0 (at1000 []) = some (0, 0x1004) := by decide

/-! ## One step: other control, custom -/

/-- Status with PIE. -/
def pieStatus : Status := { Status.afterReset with pie := true }

theorem test_trap :
    (ran 0x003B69FA { at1000 [] with status := pieStatus }).map
      (fun t => (t.estatus.toWord, t.status.toWord, t.xs 0 29, t.readCtl .exception, t.pc)) =
      some (0x00800001, 0x00800000, 0x00001004, 0x0000000C, 0x00000020) := by decide
theorem test_break :
    (ran 0x003DA03A { at1000 [] with status := pieStatus }).map
      (fun t => (t.bstatus.toWord, t.status.toWord, t.xs 0 30, t.pc)) =
      some (0x00800001, 0x00800000, 0x00001004, 0x00000040) := by decide
theorem test_eret :
    (ran 0xEF80083A { at1000 [(29, 0x2000)] with estatus := pieStatus }).map (fun t => (t.status.toWord, t.pc)) =
      some (0x00800001, 0x00002000) := by decide
theorem test_eret_misaligned :
    (ran 0xEF80083A { at1000 [(29, 0x2002)] with estatus := pieStatus }).map
      (fun t => (t.estatus.toWord, t.xs 0 29, t.badaddr, t.pc)) =
      some (0x00800000, 0x00001004, 0x00002002, 0x00000020) := by decide
theorem test_bret :
    (ran 0xF03C483A { at1000 [(30, 0x1004)] with bstatus := pieStatus }).map (fun t => (t.status.toWord, t.pc)) =
      some (0x00800001, 0x00001004) := by decide
theorem test_rdctl : result 0x0007303A 3 { at1000 [] with status := pieStatus } = some (0x00800001, 0x00001004) := by
  decide
theorem test_rdctl_ipending :
    result 0x0007313A 3 { at1000 [] with ienable := 6, pins := { Pins.idle with irq := 0xC } } =
      some (0x00000004, 0x00001004) := by decide
theorem test_wrctl :
    (ran 0x0801703A (at1000 [(1, 0x00000001)])).map (fun t => (t.status.toWord, t.pc)) =
      some (0x00800001, 0x00001004) := by decide
theorem test_wrctl_unimplemented_field :
    (ran 0x0801703A (at1000 [(1, 0x00000002)])).map (fun t => (t.status.toWord, t.pc)) =
      some (0x00800000, 0x00001004) := by decide
/-- A wrctl writes the bits of ienable with an input and leaves the others as configured (46_other_control.md R355). -/
theorem test_wrctl_ienable :
    (match exec (.wrctl .ienable 1) { at1000 [(1, 0xFFFF0000)] with
        cfg := { firstConfig with irqConnected := 0x0FF00000, ienableUnconnected := 0x00F00003 } } with
      | .next t => some (t.readCtl .ienable)
      | _ => none) = some 0x0FF00003 := by decide
theorem test_custom :
    result 0x0887C172 3 (at1000 [(1, 6), (2, 7)]) =
      some (Config.customResult 5 (some 6) (some 7) 1 2 3 none, 0x00001004) := rfl
theorem test_unimplemented :
    entry 0x0887383A
        { at1000 [] with cfg := { firstConfig with implemented := { firstConfig.implemented with mul := false } } } =
      some (0x00000010, 0x00001004, 0, 0x00000020) := by decide
theorem test_reserved_word : entry 0x0000003A (at1000 []) = some (0x00000014, 0x00001004, 0, 0x00000020) := by decide
theorem test_reserved_control : refuses .reservedControl (step ((at1000 []).withFetchWord 32 0x000731BA)) = true := by
  decide

/-! ## Register sets and the external interrupt controller (46_other_control.md rules R380, R381; 95_test_vectors.md) -/

def eicConfig : Config := { firstConfig with hasEic := true, numShadow := 2 }

/-- A request for register set 2 at level 5, and what it interrupts: PIE set, level 3. -/
def request : EicRequest := { rha := 0x8000, rrs := 2, ril := 5, rnmi := false }

def eicState : State :=
  { State.resetOf eicConfig with
    pc := 0x1000, status := { Status.afterReset with pie := true, il := 3 },
    pins := { Pins.idle with eic := some request } }

theorem test_external_interrupt :
    (ran 0 eicState).map (fun t => (t.xs 2 30, t.xs 2 29, t.status.toWord, t.pc)) =
      some (0x80800031, 0x00001004, 0x00000858, 0x00008000) := by decide
theorem test_nmi_masked :
    ({ eicState with
        status := { eicState.status with nmi := true }
        pins := { Pins.idle with eic := some { request with rnmi := true } } } : State).event.isNone = true := by decide
theorem test_wrprs_zero_register :
    (ran 0x0000A03A { eicState with status := { Status.afterReset with prs := 1 }, pins := Pins.idle }).map
      (fun t => (t.xs 1 0, t.pc)) = some (0, 0x00001004) := by decide
theorem test_rdprs :
    result 0x21400238 5
      ({ eicState with status := { Status.afterReset with prs := 2 }, pins := Pins.idle }.setXs 2 4 0x100) =
      some (0x108, 0x00001004) := by decide

/-! ## The MMU and the MPU (95_test_vectors.md) -/

/-- Two lines of two ways, and the first 256 MB of physical memory. -/
def mmuConfig : Config :=
  { firstConfig with
    hasMmu := true, addrBits := 32, tlbLineBits := 1, tlbWayBits := 1
    map := [{ base := 0, size := 2 ^ 28, kind := .memory, fetch := true, data := true }] }

/-- The entry that the vectors write: page 0x12 of process 5, frame 0xABC, readable and cacheable. -/
def page12 : TlbEntry :=
  { vpn := 0x00012, pid := 5, g := false, pfn := 0x00ABC, c := true, r := true, w := false, x := false }

/-- Process 5 with that page, at the first address of the kernel partition. -/
def mmuState : State :=
  { State.resetOf mmuConfig with
    pc := 0xC0000000
    tlb := [.unused, page12, .unused, .unused]
    tlbmisc := { way := 1, we := true, pid := 5, dbl := false, bad := false, perm := false, d := false }
    pteaddr := { ptbase := 0x300, vpn := 0x00012 } }

def asUser (s : State) : State := { s with status := { s.status with u := true } }

theorem test_tlb_hit :
    (asUser mmuState).translateData .load .word 0x00012344 = .ok { pa := 0x00ABC344, cacheable := true } := by decide
theorem test_tlb_other_process :
    ({ mmuState with tlbmisc := { mmuState.tlbmisc with pid := 6 } } : State).translateData .load .word 0x00012344 =
      .exc (.tlbMissData 0x00012344) := by decide
theorem test_priority_of_supervisor_only :
    (asUser mmuState).translateData .load .word 0x80001002 = .exc (.supervisorOnlyData 0x80001002) := by decide
theorem test_tlb_write :
    (match exec (.wrctl .tlbacc 1) (mmuState.setX 1 0x01800ABC) with
      | .next t => (t.readCtl .tlbacc, t.tlb[1]?, t.tlbmisc.way)
      | _ => (0, none, 9)) = (0x01800ABC, some page12, 0) := by decide

def mpuConfig : Config := { firstConfig with hasMpu := true, mpuIRegions := 4, mpuDRegions := 4 }

/-- Data region 3 of the vectors: 4 KB at 0x4000, readable and writable in both modes. -/
def region3 : MpuRegion := { base := 0x100, extent := 0x1FFFFC0, c := true, perm := 6 }

/-- A region that matches no address: its base is outside its mask. -/
def noRegion : MpuRegion := { MpuRegion.zero with base := 1 }

def mpuState : State :=
  { State.resetOf mpuConfig with
    pc := 0x1000, config := { pe := true, ani := false }, mpuData := [noRegion, noRegion, noRegion, region3]
    mpubase := { base := 0x100, index := 3, d := true } }

theorem test_region_write :
    (match exec (.wrctl .mpuacc 2) ({ mpuState with mpuData := List.replicate 4 .zero }.setX 2 0x7FFFF039) with
      | .next t => t.mpuData[3]?
      | _ => none) = some region3 := by decide
theorem test_region_match : [0x4FFF, 0x5000, 0x3FFF].map (region3.isFor mpuConfig) = [true, false, false] := by decide
theorem test_region_by_limit :
    [0x4FFF, 0x5000, 0x3FFF].map ({ region3 with extent := 0x140 }.isFor { mpuConfig with mpuUseLimit := true }) =
      [true, false, false] := by decide

/-! ## Witnesses: encoding and fetch -/

theorem test_witness_DecodeOfEncode :
    [Instr.rdctl 31 .mpuacc, .wrctl (.reserved 6) 0, .rdctl 0 (.reserved 16), .wrctl (.reserved 31) 31,
      .custom 255 (.c 31) (.r 31) (.c 0)].all Instr.wellFormed = true := by decide

theorem test_witness_EncodeOfDecode :
    decodeWord 0x003B683A = .ok (.trap 0) ∧ fieldOp 0x003B683A = 0x3A ∧ decodeWord 0xFFFFFFC0 = .ok (.call 0x3FFFFFF) := by
  decide

theorem test_witness_StepRunsDecoded :
    ((at1000 []).placeWord 0x0887883A).boundary.event = none ∧
      ((at1000 []).placeWord 0x0887883A).boundary.fetchPath = .ok { pa := 0x1000, line := none } ∧
      decodeWord (((at1000 []).placeWord 0x0887883A).boundary.instrWord { pa := 0x1000, line := none }) =
        .ok (.add 3 1 2) ∧
      ((at1000 []).placeWord 0x0887883A).inputs = [] := ⟨rfl, by decide, by decide, rfl⟩

/-- A boundary at which another bus master writes two bytes twice over, a dirty line leaves and a debugger writes. -/
def busyBoundary : Boundary :=
  { pins := { Pins.idle with irq := 1 }, busWrites := [(0x40, 1), (0x41, 2), (0x40, 3)], evictData := [(0, 0x2000)]
    evictInstr := [(0, 0x2000)], debugger := some { bt := 5, ba := 0x1234, bstatus := 1 } }

theorem test_witness_StepRunsDecoded_inputs :
    ∀ s ∈ [{ State.resetOf { firstConfig with dcacheBytes := 512, dcacheLine := 4, icacheBytes := 512, icacheLine := 4,
                                              hasDebug := true } with
        dcache := [{ index := 0, base := 0x2000, dirty := true, data := [(0x2003, 7)] },
                   { index := 1, base := 0x2004, dirty := true, data := [] }]
        inputs := [busyBoundary] }],
      s.inputs = [busyBoundary] ∧ s.cfg.hasDebug = true ∧
      (∀ l ∈ s.dcache, l.index = 0 → (l.index, l.base) ∈ busyBoundary.evictData ∧ l.dirty = true ∧ l.base ≤ 0x2003 ∧
        0x2003 < l.base + s.cfg.dcacheLine) ∧
      [0x40, 0x41, 0x2003, 0x2004].map s.boundary.mem.read = [3, 2, 7, 0] ∧
      s.boundary.dcache.map (·.index) = [1] ∧ s.boundary.xs 0 25 = 5 ∧
      ({ busyBoundary with debugger := none } : Boundary).debugger = none := by decide

/-- The state after reset at some pc. -/
def atPc (pc : Word) : State := { State.reset with pc := pc }

/-- The last word of the address space, with no MPU check. -/
theorem test_witness_FetchedWord :
    (atPc 0x7FFFFFFC).cfg.hasMmu = false ∧ (atPc 0x7FFFFFFC).mpuOn = false ∧
      (atPc 0x7FFFFFFC).pc.toNat % 4 = 0 ∧
      (atPc 0x7FFFFFFC).cfg.fetchRegion (atPc 0x7FFFFFFC).pc.toNat = some .memory ∧
      (atPc 0x7FFFFFFC).isStale (atPc 0x7FFFFFFC).pc.toNat = false :=
  ⟨rfl, rfl, by decide, by decide, by decide⟩

theorem test_witness_PlacedInstructionRuns : (Instr.wrctl (.reserved 31) 0).wellFormed = true := by decide

theorem test_witness_FetchExceptionsTaken_supervisor :
    ({ asUser mmuState with pc := 0x80000000 } : State).inputs = [] ∧
      ({ asUser mmuState with pc := 0x80000000 } : State).event = none ∧ mmuState.cfg.hasMmu = true ∧
      (asUser mmuState).status.u = true := ⟨rfl, rfl, rfl, rfl⟩

theorem test_witness_FetchExceptionsTaken_miss :
    ({ mmuState with pc := 0xBFFFFFFC } : State).event = none ∧ mmuState.status.u = false ∧
      mmuState.tlbMatches 0xBFFFFFFC = [] ∧ (0xBFFFFFFC : Word).toNat < 0xC0000000 := ⟨rfl, rfl, by decide, by decide⟩

theorem test_witness_FetchExceptionsTaken_execute :
    ({ asUser mmuState with pc := 0x00012000 } : State).event = none ∧
      (asUser mmuState).tlbMatches 0x00012000 = [page12] ∧ page12.x = false := ⟨rfl, by decide, rfl⟩

theorem test_witness_FetchExceptionsTaken_illegal :
    ((at1000 []).placeWord 0x0000003A).event = none ∧
      ((at1000 []).placeWord 0x0000003A).fetchPath = .ok { pa := 0x1000, line := none } ∧
      decodeWord (((at1000 []).placeWord 0x0000003A).instrWord { pa := 0x1000, line := none }) =
        .error (.reservedOpx 0) ∧
      (at1000 []).cfg.illegalInsn = true := ⟨rfl, by decide, by decide, rfl⟩

/-- The last word of a page with X, and the first of the kernel partition. -/
theorem test_witness_FetchExceptionsTaken_translated :
    (∀ s ∈ [{ asUser mmuState with tlb := [.unused, { page12 with x := true }, .unused, .unused], pc := 0x00012FFC }],
      s.inputs = [] ∧ s.pins.recognise = true ∧ s.event.isNone = true ∧ s.pc.toNat < 0xC0000000 ∧
        s.tlbMatches s.pc = [{ page12 with x := true }] ∧
        page12.pfn.toNat * 4096 + s.pc.toNat % 4096 = 0xABCFFC ∧ s.cfg.fetchRegion 0xABCFFC = some .memory ∧
        s.isStale 0xABCFFC = false) ∧
      mmuState.status.u = false ∧ mmuState.pc.toNat = 0xC0000000 ∧ mmuState.cfg.fetchRegion 0 = some .memory := by decide

/-- An instruction region at 0x1000 that forbids its mode to execute. -/
def forbidden : MpuRegion := { base := 0x40, extent := 0x1FFFFC0, c := false, perm := 0 }

/-- A pc just outside a small address space, one in no region, and one in a region that forbids its mode. -/
theorem test_witness_FetchExceptionsTaken_mpu :
    (∀ s ∈ [{ mpuState with cfg := { mpuConfig with addrBits := 12 } },
        { mpuState with mpuInstr := [noRegion, noRegion, noRegion, noRegion] },
        { mpuState with mpuInstr := [noRegion, noRegion, noRegion, forbidden] }],
      s.inputs = [] ∧ s.pins.recognise = true ∧ s.event.isNone = true ∧ s.pc.toNat % 4 = 0 ∧ s.cfg.hasMmu = false ∧
        s.mpuOn = true ∧ s.mpuOld = []) ∧
      2 ^ 12 ≤ mpuState.pc.toNat ∧
      [noRegion, noRegion, noRegion, noRegion].find? (fun r => r.isFor mpuState.cfg mpuState.pc) = none ∧
      [noRegion, noRegion, noRegion, forbidden].find? (fun r => r.isFor mpuState.cfg mpuState.pc) = some forbidden ∧
      mayExecute forbidden.perm mpuState.status.u = some false := by decide

/-! ## Witnesses: data transfer and address checks -/

/-- A 512-byte data cache and a 512-byte instruction cache, lines of four bytes. -/
def cacheConfig : Config :=
  { firstConfig with dcacheBytes := 512, dcacheLine := 4, icacheBytes := 512, icacheLine := 4 }

/-- A dirty data cache line and an instruction cache line of the word at 0x2000. -/
def cacheState : State :=
  { State.resetOf cacheConfig with
    pc := 0x1000
    dcache := [{ index := 0, base := 0x2000, dirty := true, data := [(0x2000, 7)] }]
    icache := [{ index := 0, base := 0x2000, dirty := false, data := [] }] }

/-- The last word of an instruction region that lets its mode execute. -/
theorem test_witness_FetchedWord_mpu :
    ∀ s ∈ [{ asUser mpuState with mpuInstr := [noRegion, noRegion, noRegion, { forbidden with perm := 2 }], pc := 0x1FFC }],
      s.cfg.hasMmu = false ∧ s.mpuOn = true ∧ s.mpuOld = [] ∧ s.pc.toNat % 4 = 0 ∧
        s.mpuInstr.find? (fun r => r.isFor s.cfg s.pc) = some { forbidden with perm := 2 } ∧
        mayExecute 2 s.status.u = some true ∧ s.cfg.fetchRegion s.pc.toNat = some .memory ∧
        s.isStale s.pc.toNat = false := by decide

/-- A fetch that uses no line, one that finds its line, and one that fills it. -/
theorem test_witness_FetchedWord_line :
    (atPc 0).fetchPath = .ok { pa := 0, line := none } ∧ cacheState.cfg.legal = true ∧
      ({ cacheState with pc := 0x2000 } : State).fetchPath = .ok { pa := 0x2000, line := some 0 } ∧
      (findLine cacheState.icache 0 (cacheState.cfg.iBase 0x2000)).isSome = true ∧
      cacheState.fetchPath = .ok { pa := 0x1000, line := some 0 } ∧
      findLine cacheState.icache 0 (cacheState.cfg.iBase 0x1000) = none := by decide

/-- Memory up to 0x8000 and a device from there on; r2 is the first word of the device. -/
def deviceState : State :=
  { State.resetOf { firstConfig with
      map := [{ base := 0, size := 0x8000, kind := .memory, fetch := true, data := true },
              { base := 0x8000, size := 0x100, kind := .device, fetch := false, data := true }] } with
    pc := 0x1000 }.setX 2 0x8000

/-- A load from a device completes with a free value and counts it; a store there changes the pc alone. -/
theorem test_device_load :
    (match exec (.ldbuio 3 2 1) deviceState with
      | .next t => some (t.x 3, t.pc, t.draws)
      | _ => none) = some ((Config.deviceByte 0 0x8001).setWidth 32, 0x1004, 1) := rfl
theorem test_device_store : exec (.stwio 2 2 0) deviceState = .next { deviceState with pc := 0x1004 } := rfl

/-- The same with a data cache of lines of 16 bytes. -/
def cachedDeviceState : State :=
  { deviceState with cfg := { deviceState.cfg with dcacheBytes := 512, dcacheLine := 16 } }

/-- And with a line of the device present that holds stores. -/
def dirtyDeviceState : State :=
  { cachedDeviceState with dcache := [{ index := 0, base := 0x8000, dirty := true, data := [(0x8001, 7)] }] }

/-- A normal load of a device fills a data cache line (40_data_transfer.md rule R202); one that finds its line reads it. -/
theorem test_device_cached_load :
    (match exec (.ldbu 3 2 1) cachedDeviceState with
      | .next t => some (t.x 3, t.dcache.map (·.base), t.draws)
      | _ => none) = some ((Config.deviceByte 0 0x8001).setWidth 32, [0x8000], 1) ∧
    result 0x10C00043 3 dirtyDeviceState = some (7, 0x1004) :=
  ⟨rfl, by decide⟩

/-- A normal store to a device stays in the line; what a flush writes back goes to the device, not to memory. -/
theorem test_device_cached_store :
    (match exec (.stb 2 2 1) cachedDeviceState with
      | .next t => some (t.dcache.map (fun l => (l.base, l.dirty)), t.mem, t.hazards)
      | _ => none) = some ([(0x8000, true)], [], []) ∧
    exec (.flushd 2 0) dirtyDeviceState = .next { cachedDeviceState with pc := 0x1004 } := ⟨rfl, rfl⟩

/-- An access whose bytes lie in two adjacent regions of memory passes, one partly in a device does not. -/
theorem test_adjacent_regions :
    [0x3E, 0x7FFE, 0x7FFC].map (fun pa => ({ deviceState.cfg with
      map := { base := 0, size := 64, kind := .memory, fetch := true, data := true } :: deviceState.cfg.map } :
        Config).dataRegion pa 4) = [some .memory, none, some .memory] := by decide

theorem test_witness_device_path :
    deviceState.dataPath .load .word true (deviceState.effective 2 0) =
        .ok { pa := 0x8000, line := none, device := true } ∧
      deviceState.dataPath .store .byte false (deviceState.effective 2 0xFF) =
        .ok { pa := 0x80FF, line := none, device := true } ∧
      cachedDeviceState.dataPath .load .word false (cachedDeviceState.effective 2 0) =
        .ok { pa := 0x8000, line := some 0, device := true } ∧
      cachedDeviceState.dataPath .store .byte true (cachedDeviceState.effective 2 0xFF) =
        .ok { pa := 0x80FF, line := none, device := true } ∧
      findLine dirtyDeviceState.dcache 0 (dirtyDeviceState.cfg.dBase 0x800F) = dirtyDeviceState.dcache.head? ∧
      cachedDeviceState.cfg.legal = true ∧ [0x7FFF, 0x8000].map cachedDeviceState.cfg.isDevice = [false, true] ∧
      deviceState.cfg.legal = true ∧
      deviceState.cfg.dataRegion ((0x8000 : Word).toNat % 2 ^ 31 % 2 ^ deviceState.cfg.addrBits) 4 = some .device ∧
      ({ firstConfig with map := [{ base := 0, size := 64, kind := .tightlyCoupled, fetch := true, data := true }] } :
        Config).dataRegion 60 4 = some .tightlyCoupled := by decide

theorem test_witness_LoadWordResult :
    (cacheState.setX 2 0x7FFFFFFC).dataPath .load .word false ((cacheState.setX 2 0x7FFFFFFC).effective 2 0) =
        .ok { pa := 0x7FFFFFFC, line := some 127 } ∧
      (cacheState.setX 2 0).dataPath .load .word true ((cacheState.setX 2 0).effective 2 0) =
        .ok { pa := 0, line := none } := by decide

theorem test_witness_LoadNarrowResult :
    (cacheState.setX 2 0x7FFFFFFE).dataPath .load .half false ((cacheState.setX 2 0x7FFFFFFE).effective 2 0) =
        .ok { pa := 0x7FFFFFFE, line := some 127 } ∧
      (at1000 [(2, 0)]).dataPath .load .byte true ((at1000 [(2, 0)]).effective 2 0xFFFF) =
        .ok { pa := 2 ^ 31 - 1, line := none } := by decide

theorem test_witness_StoreResult :
    cacheState.cfg.legal = true ∧
      (cacheState.setX 2 0x2000).dataPath .store .word false ((cacheState.setX 2 0x2000).effective 2 0) =
        .ok { pa := 0x2000, line := some 0 } ∧
      (cacheState.setX 2 0x7FFFFFFE).dataPath .store .half true ((cacheState.setX 2 0x7FFFFFFE).effective 2 0) =
        .ok { pa := 0x7FFFFFFE, line := none } ∧
      (cacheState.setX 2 0x7FFFFFFF).dataPath .store .byte false ((cacheState.setX 2 0x7FFFFFFF).effective 2 0) =
        .ok { pa := 0x7FFFFFFF, line := some 127 } := by decide

/-- The last word of the space, with bit 31 and without. -/
theorem test_witness_DataAccessPaths :
    cacheState.cfg.hasMmu = false ∧ cacheState.mpuOn = false ∧ (0xFFFFFFFC : Word).toNat % Width.word.bytes = 0 ∧
      cacheState.translateData .store .word 0xFFFFFFFC = .ok { pa := 0x7FFFFFFC, cacheable := false } ∧
      cacheState.translateData .load .word 0x7FFFFFFC = .ok { pa := 0x7FFFFFFC, cacheable := true } ∧
      cacheState.cfg.dataRegion 0x7FFFFFFC Width.word.bytes = some .memory := by decide

/-- The last word of a region that lets user mode read and write. -/
theorem test_witness_DataAccessPaths_mpu :
    ∀ s ∈ [asUser mpuState], s.cfg.hasMmu = false ∧ (0x4FFC : Word).toNat % Width.word.bytes = 0 ∧ s.mpuOn = true ∧
      s.mpuOld = [] ∧ inSpace s.cfg (mpuAddress s.cfg 0x4FFC) = true ∧
      s.mpuData.find? (fun r => r.isFor s.cfg (mpuAddress s.cfg 0x4FFC)) = some region3 ∧
      mayRead region3.perm s.status.u = some true ∧ mayWrite region3.perm s.status.u = some true := by decide

/-- What memory, tightly-coupled memory, a device and nothing answer, and an access through the TLB. -/
theorem test_witness_DataAccessPaths_regions :
    (∀ s ∈ [{ deviceState with cfg := { deviceState.cfg with
        map := { base := 0, size := 64, kind := .tightlyCoupled, fetch := false, data := true } :: deviceState.cfg.map } }],
      [(60 : Word), 64, 0x80FC, 0x8100].map (fun va => (s.translateData .load .word va, s.cfg.dataRegion va.toNat 4)) =
        [(.ok { pa := 60, cacheable := true }, some .tightlyCoupled), (.ok { pa := 64, cacheable := true }, some .memory),
          (.ok { pa := 0x80FC, cacheable := true }, some .device), (.ok { pa := 0x8100, cacheable := true }, none)]) ∧
      mmuState.translateData .load .word 0x00012FFC = .ok { pa := 0xABCFFC, cacheable := true } ∧
      mmuState.cfg.dataRegion 0xABCFFC 4 = some .memory := by decide

/-- A data cache larger than the address space: 0x400 and 0 are two spellings of one byte. -/
def wrapState : State :=
  { State.resetOf { firstConfig with
      addrBits := 10, dcacheBytes := 2048, dcacheLine := 32
      map := [{ base := 0, size := 2 ^ 10, kind := .memory, fetch := true, data := true }] } with
    pc := 0x100, dcache := [] }.setX 2 0x400

/-- Only the line numbers that an address selects are there, and each is that of its address in the loop of rule R485. -/
theorem test_line_numbers : [0, 31, 32, 63].map wrapState.cfg.hasDLine = [true, true, false, false] := by decide

/-- The two spellings use one line, so a load of one sees what was stored to the other (20_memory.md rule R110). -/
theorem test_wrapped_address :
    (match exec (.stw 2 2 0) wrapState with
      | .next t => match exec (.ldw 3 0 0) t with
        | .next u => (u.x 3, t.dcache.map (·.index), t.mem.read 1)
        | _ => (0, [], 9)
      | _ => (0, [], 9)) = (0x400, [0], 0) := by decide

theorem test_witness_StoreThenLoad :
    (cachedDeviceState.cfg.dataRegion ((cachedDeviceState.effective 2 0).toNat % 2 ^ 31 %
        2 ^ cachedDeviceState.cfg.addrBits) 4 = some .device ∧ cachedDeviceState.cfg.hasDcache = true ∧
      (cachedDeviceState.effective 2 0).toNat < 2 ^ 31) ∧
    (wrapState.cfg.legal = true ∧ (wrapState.effective 2 0).toNat % 2 ^ 31 % 2 ^ wrapState.cfg.addrBits =
        (wrapState.effective 0 0).toNat % 2 ^ 31 % 2 ^ wrapState.cfg.addrBits) ∧
    cacheState.cfg.legal = true ∧ cacheState.cfg.hasMmu = false ∧ cacheState.mpuOn = false ∧ (3 : RegNum) ≠ 0 ∧
      ((cacheState.setX 2 0x2000).effective 2 0).toNat % 4 = 0 ∧
      cacheState.cfg.dataRegion (0x2000 % 2 ^ 31 % 2 ^ cacheState.cfg.addrBits) 4 = some .memory ∧
      ∃ t, exec (.stw 3 2 0) (cacheState.setX 2 0x2000) = .next t :=
  ⟨by decide, by decide, by decide, rfl, rfl, by decide, by decide, by decide, _, rfl⟩

theorem test_witness_MisalignedDataTaken :
    (at1000 [(2, 0x2002)]).cfg.illegalMem = true ∧ (at1000 [(2, 0x2002)]).cfg.hasMmu = false ∧
      ¬((at1000 [(2, 0x2002)]).effective 2 0).toNat % 4 = 0 ∧ ¬((at1000 [(2, 0x2002)]).effective 2 1).toNat % 2 = 0 := by
  decide

theorem test_witness_SupervisorOnlyDataTaken :
    (asUser mmuState).cfg.hasMmu = true ∧ (asUser mmuState).status.u = true ∧
      2 ^ 31 ≤ (((asUser mmuState).setX 2 0x80000000).effective 2 0).toNat ∧
      (asUser mmuState).cfg.implemented.initda = true ∧ (asUser mmuState).status.eh = false ∧
      firstConfig.hasMmu = false := by decide

theorem test_witness_MmuTranslation :
    mmuState.cfg.hasMmu = true ∧ mmuState.status.u = false ∧ (0xC0000000 : Word).toNat % Width.word.bytes = 0 ∧
      0xC0000000 ≤ (0xC0000000 : Word).toNat ∧ mmuState.tlbMatches 0x00012FFC = [page12] ∧ page12.r = true ∧
      ({ mmuState with tlb := [{ page12 with w := true }, .unused, .unused, .unused] } : State).tlbMatches 0x00012000 =
        [{ page12 with w := true }] := by decide

theorem test_witness_TlbExceptionsTaken :
    (mmuState.setX 2 0xBFFFFFFC).tlbMatches ((mmuState.setX 2 0xBFFFFFFC).effective 2 0) = [] ∧
      ((mmuState.setX 2 0xBFFFFFFC).effective 2 0).toNat < 0xC0000000 ∧
      ((mmuState.setX 2 0xBFFFFFFC).effective 2 0).toNat % 4 = 0 ∧
      ((mmuState.setX 2 0xBFFFFFFF).effective 2 0).toNat % 1 = 0 ∧
      (mmuState.setX 2 0xBFFFFFFF).tlbMatches ((mmuState.setX 2 0xBFFFFFFF).effective 2 0) = [] ∧
      mmuState.cfg.implemented.initda = true ∧
      (mmuState.setX 2 0x12000).tlbMatches ((mmuState.setX 2 0x12000).effective 2 0) = [page12] ∧ page12.w = false ∧
      ({ mmuState with tlb := [{ page12 with r := false }, .unused, .unused, .unused] } : State).tlbMatches 0x00012000 =
        [{ page12 with r := false }] := by decide

theorem test_witness_MpuRegionDecides :
    (0x7FFFFFFF : Word).toNat < 2 ^ 31 ∧ mpuConfig.mpuUseLimit = false ∧
      ({ mpuConfig with mpuUseLimit := true } : Config).mpuUseLimit = true ∧ mpuState.mpuOld = [] := by decide

/-- User mode with a region that forbids everything; r2 is its last word, r3 the first word after it. -/
def deniedState : State :=
  ((asUser { mpuState with mpuData := [noRegion, noRegion, noRegion, { region3 with perm := 0 }] }).setX 2 0x4FFC).setX 3
    0x5000

theorem test_witness_MpuViolationTaken :
    deniedState.cfg.hasMmu = false ∧ deniedState.mpuOn = true ∧ deniedState.mpuOld = [] ∧
      (deniedState.effective 2 0).toNat % 4 = 0 ∧ (deniedState.effective 3 0).toNat % 4 = 0 ∧
      deniedState.mpuData.find? (fun r => r.isFor deniedState.cfg (mpuAddress deniedState.cfg (deniedState.effective 2 0))) =
        some { region3 with perm := 0 } ∧
      mayRead 0 deniedState.status.u = some false ∧ mayWrite 0 deniedState.status.u = some false ∧
      deniedState.mpuData.find? (fun r => r.isFor deniedState.cfg (mpuAddress deniedState.cfg (deniedState.effective 3 0))) =
        none := by decide

theorem test_witness_MpuViolationTaken_space :
    inSpace { mpuConfig with addrBits := 14 } (mpuAddress { mpuConfig with addrBits := 14 } 0x4000) = false ∧
      inSpace { mpuConfig with addrBits := 14 } (mpuAddress { mpuConfig with addrBits := 14 } 0x3FFC) = true := by decide

/-- A region that lets its mode read and not write: `flushda` and `initda` there are refused (D37). -/
def readOnlyState : State :=
  { mpuState with mpuData := [noRegion, noRegion, noRegion, { region3 with perm := 5 }] }.setX 2 0x4001

theorem test_flushda_permission : refuses .mpuFlushPermission (exec (.flushda 2 0) (asUser readOnlyState)) = true := by
  decide

theorem test_witness_MpuViolationTaken_flush :
    ∀ s ∈ [asUser readOnlyState], s.cfg.hasMmu = false ∧ s.mpuOn = true ∧ s.mpuOld = [] ∧
      inSpace s.cfg (mpuAddress s.cfg (s.effective 2 0)) = true ∧
      s.mpuData.find? (fun r => r.isFor s.cfg (mpuAddress s.cfg (s.effective 2 0))) = some { region3 with perm := 5 } ∧
      mayRead 5 s.status.u = some true ∧ mayWrite 5 s.status.u = some false ∧ s.cfg.implemented.initda = true ∧
      (s.effective 2 0).toNat % 1 = 0 := by decide

/-! ## Witnesses: arithmetic and program control -/

theorem test_witness_ProductResults :
    [firstConfig.implemented.mul, firstConfig.implemented.muli, firstConfig.implemented.mulxuu,
      firstConfig.implemented.mulxss, firstConfig.implemented.mulxsu] = [true, true, true, true, true] := by decide

theorem test_witness_QuotientResults :
    (at1000 [(1, 0x80000000), (2, 1)]).x 2 ≠ 0 ∧ (at1000 []).cfg.implemented.div = true ∧
      ¬((at1000 [(1, 0x80000000), (2, 1)]).x 1 = 0x80000000 ∧ (at1000 [(1, 0x80000000), (2, 1)]).x 2 = 0xFFFFFFFF) ∧
      (at1000 []).cfg.implemented.divu = true := by decide

theorem test_witness_DivisionErrorOutcome :
    (at1000 [(1, 0x80000000), (2, 0xFFFFFFFF)]).x 1 = 0x80000000 ∧
      (at1000 [(1, 0x80000000), (2, 0xFFFFFFFF)]).x 2 = 0xFFFFFFFF ∧ (at1000 [(1, 5)]).x 2 = 0 ∧
      firstConfig.divErrorDetect = true ∧ ({ firstConfig with divErrorDetect := false } : Config).divErrorDetect = false ∧
      firstConfig.implemented.div = true ∧ firstConfig.implemented.divu = true := by decide

theorem test_witness_UnimplementedTaken :
    ∀ s ∈ [{ State.reset with
        cfg := { firstConfig with implemented := ⟨false, false, false, false, false, false, false, false⟩ } }],
      [s.cfg.implemented.mul, s.cfg.implemented.muli, s.cfg.implemented.mulxss, s.cfg.implemented.mulxsu,
        s.cfg.implemented.mulxuu, s.cfg.implemented.div, s.cfg.implemented.divu, s.cfg.implemented.initda].all
          (fun b => !b) = true ∧
      s.cfg.excInfo = true ∧ s.cause ≠ 4 ∧ s.status.eh = false ∧
      (match exec (.divu 3 1 2) s with | .next t => t.cause | _ => 0) = 4 := by decide

theorem test_witness_RegisterJumps :
    ((at1000 [(5, 0xFFFFFFFC)]).x 5).toNat % 4 = 0 ∧ ((at1000 []).x 31).toNat % 4 = 0 := by decide

theorem test_witness_BranchOutcomes :
    (at1000 []).pc.toNat % 4 = 0 ∧ (0xFFFC : BitVec 16).toNat % 4 = 0 ∧ (0x8000 : BitVec 16).toNat % 4 = 0 := by decide

theorem test_witness_MisalignedTargetTaken :
    (at1000 [(5, 2), (31, 1)]).cfg.illegalMem = true ∧ ¬((at1000 [(5, 2), (31, 1)]).x 5).toNat % 4 = 0 ∧
      ¬((at1000 [(5, 2), (31, 1)]).x 31).toNat % 4 = 0 ∧ (at1000 []).pc.toNat % 4 = 0 ∧
      ¬(0xFFFF : BitVec 16).toNat % 4 = 0 ∧ (at1000 []).status.u = false ∧
      ¬((at1000 [(29, 3)]).xs (at1000 [(29, 3)]).status.crs 29).toNat % 4 = 0 ∧
      ¬((at1000 [(30, 3)]).xs 0 30).toNat % 4 = 0 := by decide

/-! ## Witnesses: exceptions and control registers -/

theorem test_witness_GeneralEntry :
    takeGeneral .trap mmuState = takeGeneral .trap mmuState ∧ mmuState.status.eh = false ∧
      ({ mmuState with status := { mmuState.status with eh := true } } : State).status.eh = true ∧
      mmuState.cfg.excInfo = true ∧ ({ firstConfig with extraExcInfo := false } : Config).excInfo = false ∧
      (Exc.tlbMissData 0).isTlbMiss = true ∧ Exc.trap.isTlbMiss = false := ⟨rfl, rfl, rfl, rfl, rfl, rfl, rfl⟩

theorem test_witness_MmuEntryRecords_plain :
    firstConfig.hasMmu = false ∧ firstConfig.excInfo = true ∧ firstConfig.hasMpu = false ∧ firstConfig.addrBits ≤ 31 ∧
      mpuConfig.hasMmu = false ∧ mpuConfig.excInfo = true ∧ mpuConfig.hasMpu = true := by decide

theorem test_witness_MmuEntryRecords :
    mmuState.cfg.hasMmu = true ∧ Exc.mpuInstr.isTlbMiss = false ∧ Exc.mpuInstr.isTlbPermission = false := by decide

theorem test_witness_BreakEntry :
    ∀ s ∈ [{ State.resetOf { firstConfig with hasDebug := true } with
        pins := { Pins.idle with debugRequest := true } }],
      s.pins.reset = false ∧ s.cfg.hasDebug = true ∧ s.pins.debugRequest = true ∧ s.paused = false ∧
        firstConfig.hasDebug = false := by decide

/-- With a debug module a break leaves a free value in bt. -/
theorem test_break_bt :
    (match exec (.brk 0) { at1000 [(25, 7)] with cfg := { firstConfig with hasDebug := true } } with
      | .next t => some (t.xs 0 25, t.xs 0 30, t.draws)
      | _ => none) = some (Config.freeWord 0, 0x1004, 1) := rfl

/-- A debug module that gives up control leaves free values in bt, ba and bstatus; the return uses what the break saved. -/
theorem test_bret_havoc :
    (match exec .bret (takeBreak { at1000 [(25, 7)] with cfg := { firstConfig with hasDebug := true } }) with
      | .next t => some (t.pc, t.status, t.xs 0 25, t.xs 0 30, t.paused)
      | _ => none) = some (0x1004, Status.afterReset, Config.freeWord 1, Config.freeWord 2, false) := rfl

/-- A debug module writes bt, ba and bstatus at a boundary; without one the input does nothing. -/
theorem test_debugger_writes :
    [true, false].map (fun d =>
      let s := State.boundary { State.resetOf { firstConfig with hasDebug := d } with
        inputs := [{ pins := .idle, busWrites := [], evictData := [], evictInstr := [],
                     debugger := some { bt := 5, ba := 0x1234, bstatus := 1 } }] }
      (s.xs 0 25, s.xs 0 30, s.bstatus.toWord)) = [(5, 0x1234, 0x00800001), (0, 0, 0)] := by decide

/-- Without an MMU nothing is connected above the address space, though the map lists it. -/
theorem test_fetch_outside :
    (match step { State.reset with pc := 0x80000000, cfg := { firstConfig with map :=
        [{ base := 0, size := 2 ^ 32, kind := .memory, fetch := true, data := true }] } } with
      | .fault f => some f
      | _ => none) = some .unmappedAddress := by decide

theorem test_witness_ReturnsRestore :
    (at1000 [(29, 0x2000), (30, 0x1004)]).status.u = false ∧ (at1000 [(29, 0x2000)]).status.crs = 0 ∧
      ((at1000 [(29, 0x2000)]).xs 0 29).toNat % 4 = 0 ∧ ((at1000 [(30, 0x1004)]).xs 0 30).toNat % 4 = 0 ∧
      (pieStatus.implement firstConfig).setsExist firstConfig = true ∧
      (∀ s ∈ [({ eicState with status := { Status.afterReset with crs := 2 } } : State)], s.status.u = false ∧
        s.status.crs ≠ 0 ∧ (s.xs s.status.crs 29).toNat % 4 = 0 ∧
        ((Status.ofWord (s.xs s.status.crs 30)).implement s.cfg).setsExist s.cfg = true) ∧
      (∀ s ∈ [takeBreak { at1000 [] with cfg := { firstConfig with hasDebug := true } }], s.status.u = false ∧
        (s.xs 0 30).toNat % 4 = 0 ∧ (s.bstatus.implement s.cfg).setsExist s.cfg = true ∧ s.paused = true) ∧
      (at1000 []).paused = false := by decide

/-- A state with an MMU that the invariant holds of. -/
theorem test_inv_mmu : Inv (asUser mmuState) := by constructor <;> decide

/-- A state with caches that the invariant holds of. -/
theorem test_inv_cache : Inv (cacheState.setX 2 0x2000) := by constructor <;> decide

/-- A state with an external interrupt controller that the invariant holds of. -/
theorem test_inv_eic : Inv eicState := by constructor <;> decide

theorem test_witness_EntryThenReturn : Inv (asUser mmuState) ∧ (asUser mmuState).status.eh = false :=
  ⟨test_inv_mmu, by decide⟩

theorem test_witness_SupervisorOnlyTaken : (asUser mmuState).status.u = true := by decide

theorem test_witness_RdctlReads :
    mmuState.status.u = false ∧ ctlPresent mmuState.cfg .tlbacc = true ∧ ctlPresent mmuState.cfg .eccinj = false ∧
      ctlPresent mmuState.cfg (.reserved 31) = false := by decide

theorem test_witness_WrctlStatus :
    eicState.status.u = false ∧
      ((eicState.setX 1 0x00020000).x 1).extractLsb' 16 6 &&& eicConfig.setMask ≤ eicConfig.numShadow ∧
      ¬((eicState.setX 1 0x00030000).x 1).extractLsb' 16 6 &&& eicConfig.setMask ≤ eicConfig.numShadow := by decide

theorem test_witness_WrctlPlain :
    mmuState.status.u = false ∧ mmuState.cfg.hasEic = false ∧ mmuState.cfg.excInfo = true ∧ mmuState.cfg.hasMmu = true ∧
      eicConfig.hasConfigReg = true ∧ mpuConfig.hasMpu = true := by decide

/-- A state with an MMU in supervisor mode that the invariant holds of; r1 is a value for tlbacc, r2 one for tlbmisc that
reads way 1 back. -/
def tlbState : State := (mmuState.setX 1 0x01800ABC).setX 2 0x00180000

theorem test_inv_tlb : Inv tlbState := by constructor <;> decide

/-- The later state reads another page of the same line: only bit 0 of VPN is line number. -/
theorem test_witness_TlbWriteThenRead :
    Inv tlbState ∧ tlbState.status.u = false ∧ tlbState.cfg.hasMmu = true ∧ tlbState.tlbmisc.we = true ∧
      ∃ t, exec (.wrctl .tlbacc 1) tlbState = .next t ∧
        ∀ later ∈ [{ tlbState with tlb := t.tlb, pteaddr := { tlbState.pteaddr with vpn := 0xFFFF0 } }],
          later.cfg = tlbState.cfg ∧ later.status.u = false ∧
            later.pteaddr.vpn.toNat % 2 ^ tlbState.cfg.tlbLineBits =
              tlbState.pteaddr.vpn.toNat % 2 ^ tlbState.cfg.tlbLineBits ∧
            (later.x 2).getLsbD 19 = true ∧ (later.x 2).extractLsb' 20 4 = tlbState.tlbmisc.way :=
  ⟨test_inv_tlb, rfl, rfl, rfl, _, rfl, by decide⟩

theorem test_witness_WrctlTlbRegisters :
    mmuState.status.u = false ∧ mmuState.cfg.hasMmu = true ∧
      ({ mmuState with tlbmisc := { mmuState.tlbmisc with we := false } } : State).tlbmisc.we = false ∧
      ((mmuState.setX 1 0x0017FFF0).x 1).getLsbD 19 = false := by decide

theorem test_witness_MpuRegionOperations :
    mpuState.status.u = false ∧ mpuState.cfg.hasMpu = true ∧
      [(0 : Word), 1, 2, 3].map (fun v => (v.getLsbD 1, v.getLsbD 0)) =
        [(false, false), (false, true), (true, false), (true, true)] ∧
      mpuState.mpubase.d = true ∧ mpuState.mpubase.index.toNat < mpuState.mpuData.length ∧
      (∀ s ∈ [({ mpuState with mpubase := { base := 0, index := 3, d := false } } : State)],
        s.mpubase.d = false ∧ s.mpubase.index.toNat < s.mpuInstr.length) ∧
      mpuState.mpuData[mpuState.mpubase.index.toNat]? = some region3 := by decide

/-- mpuacc.C reads 0 while an instruction region is selected, whatever was written (10_state.md rule R65). -/
theorem test_mpuacc_c :
    (match exec (.wrctl .mpuacc 1) ({ mpuState with mpubase := { base := 0x40, index := 0, d := false } }.setX 1 0x3C) with
      | .next t => [t.readCtl .mpuacc, { t with mpubase := { t.mpubase with d := true } }.readCtl .mpuacc]
      | _ => []) = [0x1C, 0x3C] := by decide

/-! ## Witnesses: caches, register sets, custom logic, events, the whole machine -/

theorem test_witness_CachelessOps :
    (at1000 []).cfg.hasDcache = false ∧ (at1000 []).cfg.hasIcache = false ∧ (at1000 []).status.u = false ∧
      (at1000 []).cfg.implemented.initda = true ∧
      (at1000 []).translateData .flushda .byte ((at1000 []).effective 1 0xFFFF) =
        .ok { pa := 2 ^ 31 - 1, cacheable := false } ∧
      (at1000 []).translateData .initda .byte ((at1000 []).effective 1 0) = .ok { pa := 0, cacheable := true } := by
  decide

theorem test_witness_FlushWritesBack :
    Inv (cacheState.setX 2 0x2000) ∧
      (cacheState.setX 2 0x2000).cfg.dIndex ((cacheState.setX 2 0x2000).effective 2 0) = some 0 ∧
      (cacheState.setX 2 0x2000).translateData .flushda .byte ((cacheState.setX 2 0x2000).effective 2 0) =
        .ok { pa := 0x2000, cacheable := true } ∧
      ∃ l, findLine cacheState.dcache 0 (cacheState.cfg.dBase 0x2003) = some l ∧ l.dirty = true :=
  ⟨test_inv_cache, by decide, by decide, _, rfl, rfl⟩

theorem test_witness_LinesDropped :
    (cacheState.setX 2 0x2000).status.u = false ∧
      (cacheState.setX 2 0x2000).cfg.dIndex ((cacheState.setX 2 0x2000).effective 2 0) = some 0 ∧
      (cacheState.setX 2 0x2000).cfg.iIndex ((cacheState.setX 2 0x2000).x 2) = some 0 ∧
      (cacheState.setX 2 0x2000).cfg.implemented.initda = true ∧
      (cacheState.setX 2 0x2000).translateData .initda .byte ((cacheState.setX 2 0x2000).effective 2 0) =
        .ok { pa := 0x2000, cacheable := true } := by decide

/-- Without an instruction cache too `flushp` alone does not end the wait for a stored word; `flushi` must run first. -/
theorem test_flushi_needed :
    (match exec (.stw 3 2 0) (at1000 [(2, 0x2000)]) with
      | .next t =>
        [exec .flushp t, match exec (.flushi 2) t with | .next u => exec .flushp u | o => o].map (fun o =>
          match o with
          | .next u => some (u.isStale 0x2000)
          | _ => none)
      | _ => []) = [some true, some false] := by decide

theorem test_witness_CodeUpdateSequence :
    (cacheState.setX 2 0x2000).hazards = [] ∧ cacheState.cfg.hasMmu = false ∧ cacheState.mpuOn = false ∧
      (cacheState.setX 2 0x2000).dataPath .store .word false ((cacheState.setX 2 0x2000).x 2) =
        .ok { pa := 0x2000, line := some 0 } ∧
      ∃ t1, exec (.stw 3 2 0) (cacheState.setX 2 0x2000) = .next t1 ∧ ∃ t2, exec (.flushd 2 0) t1 = .next t2 ∧
        ∃ t3, exec (.flushi 2) t2 = .next t3 ∧ ∃ t4, exec .flushp t3 = .next t4 :=
  ⟨rfl, rfl, rfl, by decide, _, rfl, _, rfl, _, rfl, _, rfl⟩

theorem test_witness_ShadowAccess :
    eicState.status.u = false ∧ eicState.cfg.numShadow ≠ 0 ∧
      (2 : BitVec 6) ≤ eicState.cfg.numShadow ∧ firstConfig.numShadow = 0 ∧ firstConfig.illegalInsn = true := by decide

theorem test_witness_CustomOutcomes :
    (∃ logic, (at1000 []).cfg.customLogic 255 = some logic ∧ logic.stateful = false) ∧
      ({ firstConfig with customs := [] } : Config).customLogic 0 = none := ⟨⟨_, rfl, rfl⟩, rfl⟩

theorem test_witness_InternalInterruptTaken :
    ∀ s ∈ [{ at1000 [] with pins := { Pins.idle with irq := 0x80000000 }, ienable := 0x80000000, status := pieStatus }],
      s.cfg.hasEic = false ∧ s.pins.reset = false ∧ s.pins.debugRequest = false ∧ s.pins.cpuResetRequest = false ∧
        s.pins.recognise = true ∧ s.status.pie = true ∧ s.pins.irq.getLsbD 31 = true ∧ s.ienable.getLsbD 31 = true := by
  decide

/-- Not taken: no input is asserted. -/
theorem test_witness_InternalInterruptTaken_none :
    (at1000 []).cfg.hasEic = false ∧ (at1000 []).pins.recognise = true ∧
      ¬((at1000 []).status.pie = true ∧ ∃ n < 32, (at1000 []).pins.irq.getLsbD n = true ∧
        (at1000 []).ienable.getLsbD n = true) := by decide

/-- A request that was not recognised, when no inputs are left. -/
theorem test_witness_InternalInterruptTaken_persisting :
    ∀ s ∈ [{ at1000 [] with pins := { Pins.idle with irq := 1, recognise := false }, ienable := 1, status := pieStatus }],
      s.inputs = [] ∧ s.status.pie = true ∧ s.pins.irq.getLsbD 0 = true ∧ s.ienable.getLsbD 0 = true ∧
        s.event.isNone = true := by decide

theorem test_witness_ExternalInterruptTaken :
    Inv eicState ∧ eicState.cfg.hasEic = true ∧ eicState.pins.reset = false ∧ eicState.pins.debugRequest = false ∧
      eicState.pins.cpuResetRequest = false ∧ eicState.pins.recognise = true ∧ eicState.pins.eic = some request ∧
      request.rrs ≤ eicState.cfg.numShadow ∧ request.rnmi = false ∧ eicState.status.pie = true ∧
      eicState.status.il.toNat < request.ril.toNat ∧ request.rrs ≠ eicState.status.crs :=
  ⟨test_inv_eic, by decide⟩

theorem test_witness_ResetTaken :
    ({ Pins.idle with reset := true } : Pins).reset = true ∧
      (∀ s ∈ [{ State.resetOf { firstConfig with hasResetRequest := true } with
          pins := { Pins.idle with cpuResetRequest := true } }],
        s.pins.reset = false ∧ s.pins.debugRequest = false ∧ s.cfg.hasResetRequest = true ∧
          s.pins.cpuResetRequest = true ∧ s.paused = false) ∧
      (∀ s ∈ [{ State.resetOf { firstConfig with hasResetRequest := true, hasDebug := true } with
          paused := true, pins := { Pins.idle with irq := 1, cpuResetRequest := true }, ienable := 1, status := pieStatus }],
        s.pins.reset = false ∧ s.paused = true ∧ s.event.isSome = true ∧
          ({ s with pins := { s.pins with recognise := false } } : State).pins.recognise = false) ∧
      cacheConfig.excInfo = true ∧ cacheConfig.iIndex (cacheConfig.vectorPc cacheConfig.resetAddr) = some 0 := by decide

theorem test_witness_ResetValues : cacheConfig.iIndex (cacheConfig.vectorPc cacheConfig.resetAddr) = some 0 := by decide

theorem test_witness_ZeroRegister : (at1000 []).status.crs = 0 := by decide

theorem test_witness_ResetIsLegal :
    cacheConfig.legal = true ∧ mmuConfig.legal = true ∧ mpuConfig.legal = true ∧ eicConfig.legal = true := by decide

/-- Ranges of rule R7: no line size with a data cache, a fifth tightly-coupled data port, detection with no divide. -/
theorem test_legal_refuses :
    ([{ cacheConfig with dcacheLine := 0 },
        { firstConfig with map := List.replicate 5 { base := 0, size := 64, kind := .tightlyCoupled, fetch := false,
                                                     data := true } },
        { firstConfig with implemented := { firstConfig.implemented with div := false, divu := false } }] :
      List Config).map Config.legal = [false, false, false] := by decide

theorem test_witness_StepKeepsInv :
    Inv (asUser mmuState) ∧ ∃ t, step (asUser mmuState) = .next t := ⟨test_inv_mmu, _, rfl⟩

theorem test_witness_UserModeConfined :
    (asUser mmuState).status.u = true ∧ (∃ t, exec (.add 3 1 2) (asUser mmuState) = .next t) ∧
      ∃ t, exec .eret (asUser mmuState) = .next t := ⟨by decide, ⟨_, rfl⟩, _, rfl⟩

theorem test_witness_MemoryWriters :
    (∃ t, exec (.ldw 3 2 0) (at1000 []) = .next t) ∧ ∀ rB rA imm, (Instr.ldw 3 2 0) ∉ [Instr.stw rB rA imm,
      .stwio rB rA imm, .sth rB rA imm, .sthio rB rA imm, .stb rB rA imm, .stbio rB rA imm, .flushd rA imm,
      .flushda rA imm] := ⟨⟨_, rfl⟩, by simp⟩

end Sys2Proof.Tests
end

section
/-! PROOFS. The zero register (10_state.md rules R21 and R24). -/

namespace Sys2Proof.Machine

/-- r0 of the normal set reads 0. -/
@[simp] theorem State.xs_normal_zero (s : State) : s.xs 0#6 0#5 = 0#32 := RegFile.get_zero s.regs

/-- Writing r0 of the normal set by name changes nothing: the register file drops the write. -/
@[simp] theorem State.setXs_normal_zero (s : State) (v : Word) : s.setXs 0#6 0#5 v = s := by
  rw [State.setXs, RegFile.put_zero]

/-- Writing r0 of the current set leaves the register file, whichever set is current (10_state.md rule R24). -/
@[simp] theorem State.regsWith_zero (s : State) (v : Word) : s.regsWith 0#5 v = s.regs := if_pos rfl

/-- Writing r0 of the current set changes nothing in the whole state. -/
@[simp] theorem State.setX_zero (s : State) (v : Word) : s.setX 0#5 v = s := by
  rw [State.setX, State.regsWith_zero]

/-- A read of the current set is a read of that set by name. -/
theorem State.x_eq_xs_of_crs (s : State) (set : SetNum) (i : RegNum) (h : s.status.crs = set) :
    s.x i = s.xs set i := by
  rw [State.x, State.xs, h]

/-- Settles O56: the register file answers 0 for r0 of the normal set and drops a write to it; a read of
the current set is that read when the normal set is current, and a write to its r0 is dropped whichever set that is. -/
theorem zeroRegister : Obligations.ZeroRegister := by
  intro s
  refine ⟨s.xs_normal_zero, s.setXs_normal_zero, fun hcrs => ⟨?_, s.setX_zero⟩⟩
  calc s.x 0 = s.xs 0 0 := s.x_eq_xs_of_crs 0 0 hcrs
    _ = 0 := s.xs_normal_zero

end Sys2Proof.Machine
end

section
/-! PROOFS. The unimplemented instruction exception (47_custom_nop_unimplemented.md rule R395): which instructions take
it, and that no other operation of the machine leaves its cause code. -/

namespace Sys2Proof

/-- The core has the instruction: one of the eight that may be left out where its option says so, any other always. -/
def Instr.presentIn (m : Implemented) : Instr → Bool
  | .mul _ _ _ => m.mul
  | .muli _ _ _ => m.muli
  | .mulxss _ _ _ => m.mulxss
  | .mulxsu _ _ _ => m.mulxsu
  | .mulxuu _ _ _ => m.mulxuu
  | .div _ _ _ => m.div
  | .divu _ _ _ => m.divu
  | .initda _ _ => m.initda
  | _ => true

/-- The eight optional instructions with given operands, each with the option that says whether the core has it. -/
def optionalForms (m : Implemented) (rC rA rB : RegNum) (imm : BitVec 16) : List (Instr × Bool) :=
  [(.mul rC rA rB, m.mul), (.muli rB rA imm, m.muli), (.mulxss rC rA rB, m.mulxss), (.mulxsu rC rA rB, m.mulxsu),
    (.mulxuu rC rA rB, m.mulxuu), (.div rC rA rB, m.div), (.divu rC rA rB, m.divu), (.initda rA imm, m.initda)]

theorem presentIn_of_mem_optionalForms (m : Implemented) (rC rA rB : RegNum) (imm : BitVec 16) :
    ∀ f ∈ optionalForms m rC rA rB imm, f.1.presentIn m = f.2 := by
  simp [optionalForms, Instr.presentIn]

/-- Only an optional instruction can be absent. -/
theorem mem_optionalForms_of_absent (m : Implemented) (i : Instr) (h : i.presentIn m = false) :
    ∃ rC rA rB imm, (i, false) ∈ optionalForms m rC rA rB imm := by
  cases i
  case mul rC rA rB | mulxss rC rA rB | mulxsu rC rA rB | mulxuu rC rA rB | div rC rA rB | divu rC rA rB =>
    exact ⟨rC, rA, rB, 0, by simp_all [optionalForms, Instr.presentIn]⟩
  case muli rB rA imm => exact ⟨0, rA, rB, imm, by simp_all [optionalForms, Instr.presentIn]⟩
  case initda rA imm => exact ⟨0, rA, 0, imm, by simp_all [optionalForms, Instr.presentIn]⟩
  all_goals cases h

end Sys2Proof

namespace Sys2Proof.Machine

/-! ## Registers after an exception (60_exceptions.md rule R410) -/

theorem takeGeneral_onlyRegister (e : Exc) (s : State) (h : s.status.eh = false) :
    OnlyRegister s (takeGeneral e s) 0 29 (s.pc + 4) := by
  intro set j
  simp [State.xs, h, RegFile.get_put]

theorem takeGeneral_sameRegisters (e : Exc) (s : State) (h : s.status.eh = true) :
    SameRegisters s (takeGeneral e s) := by
  intro set j
  simp [State.xs, h]

/-! ## Exceptions of a data access -/

theorem Exc.cause_eq_four_iff (e : Exc) : e.cause = 4 ↔ e = .unimplemented := by
  cases e <;> simp [Exc.cause]

/-- A check in two parts takes the exception of the first, or passes it and takes that of the second. -/
theorem Check.bind_exc {α β : Type} (c : Check α) (k : α → Check β) (e : Exc) :
    c.bind k = .exc e ↔ c = .exc e ∨ ∃ a, c = .ok a ∧ k a = .exc e := by
  cases c <;> simp [Check.bind]

theorem checkAlign_exc (c : Config) (w : Width) (va : Word) (e : Exc) (h : checkAlign c w va = .exc e) :
    e.dataAddress? = some va := by
  unfold checkAlign at h
  split at h
  · cases h
  · split at h <;> cases h
    rfl

theorem alignmentOf_exc (c : Config) (k : Kind) (w : Width) (va : Word) (e : Exc)
    (h : alignmentOf c k w va = .exc e) : e.dataAddress? = some va := by
  cases k
  case load | store => exact checkAlign_exc c w va e h
  case flushda | initda => cases h

theorem tlbLookup_exc (s : State) (va : Word) (miss e : Exc) (h : s.tlbLookup va miss = .exc e) : e = miss := by
  unfold State.tlbLookup at h
  split at h <;> cases h
  rfl

theorem tlbPermission_exc (entry : TlbEntry) (k : Kind) (va : Word) (e : Exc)
    (h : tlbPermission entry k va = .exc e) : e.dataAddress? = some va := by
  cases k
  case load | store =>
    simp only [tlbPermission] at h
    split at h <;> cases h
    rfl
  case flushda | initda => cases h

theorem mmuData_exc (s : State) (k : Kind) (w : Width) (va : Word) (e : Exc) (h : s.mmuData k w va = .exc e) :
    e.dataAddress? = some va := by
  unfold State.mmuData at h
  split at h
  · cases h; rfl
  · rw [Check.bind_exc] at h
    rcases h with h | ⟨-, -, h⟩
    · exact alignmentOf_exc _ _ _ _ _ h
    · split at h
      · cases h
      · rw [Check.bind_exc] at h
        rcases h with h | ⟨entry, -, h⟩
        · rw [tlbLookup_exc _ _ _ _ h]; rfl
        · rw [Check.bind_exc] at h
          rcases h with h | ⟨-, -, h⟩
          · exact tlbPermission_exc _ _ _ _ h
          · cases h

theorem permissionCheck_exc (perm : BitVec 3) (u : Bool) (k : Kind) (va : Word) (e : Exc)
    (h : permissionCheck perm u k va = .exc e) : e.dataAddress? = some va := by
  unfold permissionCheck at h
  split at h
  · cases k
    case load | store =>
      simp only at h
      split at h <;> cases h
      rfl
    case flushda | initda =>
      simp only at h
      split at h <;> cases h
  · cases h

theorem mpuDataCheck_exc (s : State) (k : Kind) (va : Word) (e : Exc) (h : s.mpuDataCheck k va = .exc e) :
    e.dataAddress? = some va := by
  unfold State.mpuDataCheck at h
  simp only at h
  split at h
  · cases h; rfl
  · split at h
    · cases h; rfl
    · rw [Check.bind_exc] at h
      rcases h with h | ⟨-, -, h⟩
      · exact permissionCheck_exc _ _ _ _ _ h
      · cases h

/-- The exceptions of the address checks of a data access give the handler its address (60_exceptions.md rule R413). -/
theorem translateData_exc (s : State) (k : Kind) (w : Width) (va : Word) (e : Exc)
    (h : s.translateData k w va = .exc e) : e.dataAddress? = some va := by
  unfold State.translateData at h
  split at h
  · exact mmuData_exc _ _ _ _ _ h
  · rw [Check.bind_exc] at h
    rcases h with h | ⟨-, -, h⟩
    · exact alignmentOf_exc _ _ _ _ _ h
    · split at h
      · rw [Check.bind_exc] at h
        rcases h with h | ⟨cached, -, h⟩
        · exact mpuDataCheck_exc _ _ _ _ h
        · cases h
      · cases h

theorem dataPath_exc (s : State) (k : Kind) (w : Width) (io : Bool) (va : Word) (e : Exc)
    (h : s.dataPath k w io va = .exc e) : e.dataAddress? = some va := by
  unfold State.dataPath at h
  rw [Check.bind_exc] at h
  rcases h with h | ⟨p, -, h⟩
  · exact translateData_exc _ _ _ _ _ h
  · split at h <;> cases h

/-- The unimplemented instruction exception gives its handler no address. -/
theorem Exc.ne_unimplemented_of_dataAddress (e : Exc) (va : Word) (h : e.dataAddress? = some va) :
    e ≠ .unimplemented := by
  rintro rfl
  cases h

/-! ## What leaves CAUSE clear of the unimplemented instruction code -/

/-- From a state whose CAUSE is not 4, the outcome is no state whose CAUSE is 4. -/
def Spares (s : State) (r : Result) : Prop := s.cause ≠ 4 → ∀ t, r = .next t → t.cause ≠ 4

/-- What keeps CAUSE spares it. -/
theorem spares_next (s t : State) (h : t.cause = s.cause) : Spares s (.next t) := by
  intro hc u hu
  cases hu
  rwa [h]

theorem spares_refused (s : State) (r : Refusal) : Spares s (.refused r) := by
  intro _ t h
  cases h

theorem spares_takeGeneral (s : State) (e : Exc) (n : Nat) (he : e ≠ .unimplemented) :
    Spares s (.next (takeGeneral e (s.drawn n))) := by
  rintro hc t ⟨⟩
  rw [takeGeneral_cause]
  split
  · exact mt e.cause_eq_four_iff.1 he
  · exact hc

theorem spares_transfer (target : Word) (s : State) (k : Result) (hk : Spares s k) :
    Spares s (transfer target s k) := by
  intro hc t h
  rcases transfer_next _ _ _ _ h with ⟨-, h⟩ | ⟨-, -, rfl⟩
  · exact hk hc t h
  · exact spares_takeGeneral s (.misalignedDest target) 0 nofun hc _ rfl

theorem spares_supervisorOnly (s : State) (k : Result) (hk : Spares s k) : Spares s (supervisorOnly s k) := by
  intro hc t h
  rcases supervisorOnly_next _ _ _ h with ⟨-, h⟩ | ⟨-, rfl⟩
  · exact hk hc t h
  · exact spares_takeGeneral s .supervisorOnlyInstr 0 nofun hc _ rfl

theorem spares_ifImplemented (present : Bool) (s : State) (k : Result) (hp : present = true) (hk : Spares s k) :
    Spares s (ifImplemented present s k) := by
  subst hp
  exact hk

theorem spares_shadow (s : State) (k : Result) (hk : Spares s k) : Spares s (needsShadow s (prsExists s k)) := by
  intro hc t h
  rcases needsShadow_next _ _ _ h with ⟨-, h⟩ | ⟨-, rfl⟩
  · exact hk hc t (prsExists_next _ _ _ h).2
  · exact spares_takeGeneral s .illegalInstr 0 nofun hc _ rfl

theorem spares_return (saved : Status) (target : Word) (after s : State) (ha : after.cause = s.cause) :
    Spares s (supervisorOnly s (returnFrom saved target after s)) := by
  refine spares_supervisorOnly _ _ (spares_transfer _ _ _ ?_)
  split
  · exact spares_next _ _ ha
  · exact spares_refused _ _

theorem spares_branchIf (r : Relation) (rA rB : RegNum) (imm : BitVec 16) (s : State) :
    Spares s (branchIf r rA rB imm s) := by
  unfold branchIf
  split
  · exact spares_transfer _ _ _ (spares_next _ _ rfl)
  · exact spares_next _ _ rfl

theorem spares_divideInto (signed : Bool) (q : Word) (rC : RegNum) (a b : Word) (s : State) :
    Spares s (divideInto signed q rC a b s) := by
  unfold divideInto
  split
  · split
    · exact spares_takeGeneral s .division 0 nofun
    · exact spares_next _ _ rfl
  · exact spares_next _ _ rfl

/-- An instruction that accesses data: its checks raise only exceptions that have a data address. -/
theorem spares_access {α : Type} (c : Check α) (va : Word) (s : State) (n : Nat) (k : α → Result)
    (hc : ∀ e, c = .exc e → e.dataAddress? = some va) (hk : ∀ a, Spares s (k a)) : Spares s (c.run (s.drawn n) k) := by
  intro h4 t h
  rcases Check.run_next _ _ _ _ h with ⟨a, -, h⟩ | ⟨e, he, rfl⟩
  · exact hk a h4 t h
  · exact spares_takeGeneral s e n (e.ne_unimplemented_of_dataAddress va (hc e he)) h4 _ rfl

theorem spares_loadInto (w : Width) (io : Bool) (value : State → DataPath → Word) (rB rA : RegNum) (imm : BitVec 16)
    (s : State) : Spares s (loadInto w io value rB rA imm s) :=
  spares_access _ _ _ _ _ (fun e => dataPath_exc _ _ _ _ _ e)
    (fun p => spares_next _ _ (congrArg State.cause ((s.drawn s.accessDraws).fillData_frame p) :))

theorem spares_storeFrom (w : Width) (io : Bool) (rB rA : RegNum) (imm : BitVec 16) (s : State) :
    Spares s (storeFrom w io rB rA imm s) :=
  spares_access _ _ _ _ _ (fun e => dataPath_exc _ _ _ _ _ e)
    (fun p => spares_next _ _ (congrArg State.cause ((s.drawn s.accessDraws).delivered_frame _ p _) :))

/-! ## The cache operations leave CAUSE -/

@[simp] theorem State.flushIndex_cause (s : State) (index : Option Nat) : (s.flushIndex index).cause = s.cause := by
  cases index <;> rfl

@[simp] theorem State.flushAddress_cause (s : State) (index : Option Nat) (pa : Nat) :
    (s.flushAddress index pa).cause = s.cause := by
  cases index <;> rfl

@[simp] theorem State.dropIndex_cause (s : State) (index : Option Nat) : (s.dropIndex index).cause = s.cause := by
  cases index <;> rfl

@[simp] theorem State.dropAddress_cause (s : State) (index : Option Nat) (pa : Nat) :
    (s.dropAddress index pa).cause = s.cause := by
  cases index <;> rfl

@[simp] theorem State.invalidateInstr_cause (s : State) (va : Word) : (s.invalidateInstr va).cause = s.cause := by
  unfold State.invalidateInstr
  split <;> rfl

/-! ## Every instruction -/

theorem spares_wrctl (n : CtlReg) (rA : RegNum) (s : State) : Spares s (execWrctl n rA s) := by
  refine spares_supervisorOnly _ _ ?_
  split
  · split
    · rename_i u hu
      obtain ⟨hframe, -⟩ := writeCtl_ok _ _ _ _ hu
      exact spares_next _ _ (congrArg State.cause hframe :)
    · exact spares_refused _ _
  · exact spares_refused _ _

theorem spares_custom (n : BitVec 8) (c a b : CustomReg) (s : State) : Spares s (execCustom n c a b s) := by
  unfold execCustom
  split
  · exact spares_refused _ _
  · cases c <;> exact spares_next _ _ rfl

theorem ifImplemented_of_absent (present : Bool) (s : State) (k : Result) (h : present = false) :
    ifImplemented present s k = raise .unimplemented s := by
  subst h
  rfl

/-- An optional instruction that the core leaves out takes the exception, and nothing else happens. -/
theorem exec_of_absent (i : Instr) (s : State) (h : i.presentIn s.cfg.implemented = false) :
    exec i s = raise .unimplemented s := by
  cases i
  case mul | muli | mulxss | mulxsu | mulxuu | div | divu | initda =>
    exact ifImplemented_of_absent _ _ _ h
  all_goals cases h

/-- An instruction that the core has never takes the exception: "All other instructions are guaranteed not to generate
an unimplemented instruction exception" (rule R395). -/
theorem exec_spares_of_present (i : Instr) (s : State) (h : i.presentIn s.cfg.implemented = true) :
    Spares s (exec i s) := by
  cases i
  case mul | muli | mulxss | mulxsu | mulxuu => exact spares_ifImplemented _ _ _ h (spares_next _ _ rfl)
  case div | divu => exact spares_ifImplemented _ _ _ h (spares_divideInto _ _ _ _ _ _)
  case initda =>
    exact spares_ifImplemented _ _ _ h
      (spares_access _ _ _ _ _ (fun e => translateData_exc _ _ _ _ e) (fun _ => spares_next _ _ (by simp)))
  case flushda =>
    exact spares_access _ _ _ _ _ (fun e => translateData_exc _ _ _ _ e) (fun _ => spares_next _ _ (by simp))
  case ldw | ldwio => exact spares_loadInto _ _ (fun t p => t.readWord p) _ _ _ _
  case ldh | ldhio => exact spares_loadInto _ _ (fun t p => (t.readHalf p).signExtend 32) _ _ _ _
  case ldhu | ldhuio => exact spares_loadInto _ _ (fun t p => (t.readHalf p).setWidth 32) _ _ _ _
  case ldb | ldbio => exact spares_loadInto _ _ (fun t p => (t.readByte p).signExtend 32) _ _ _ _
  case ldbu | ldbuio => exact spares_loadInto _ _ (fun t p => (t.readByte p).setWidth 32) _ _ _ _
  case stw | stwio | sth | stb | sthio | stbio => exact spares_storeFrom _ _ _ _ _ _
  case beq | bne | bge | bgeu | blt | bltu => exact spares_branchIf _ _ _ _ _
  case callr | ret | jmp | br => exact spares_transfer _ _ _ (spares_next _ _ rfl)
  case trap => exact spares_takeGeneral s .trap 0 nofun
  case eret => exact spares_return _ _ _ _ rfl
  case bret => exact spares_return _ _ _ _ s.released_cause
  case rdctl =>
    refine spares_supervisorOnly _ _ ?_
    split
    · exact spares_next _ _ rfl
    · exact spares_refused _ _
  case wrctl => exact spares_wrctl _ _ _
  case rdprs | wrprs => exact spares_supervisorOnly _ _ (spares_shadow _ _ (spares_next _ _ rfl))
  case initd | initi => exact spares_supervisorOnly _ _ (spares_next _ _ (by simp))
  case flushd | flushi => exact spares_next _ _ (by simp)
  case custom => exact spares_custom _ _ _ _ _
  all_goals exact spares_next _ _ rfl

/-- Settles O25: an absent instruction raises the exception, whose entry gives the vector and the registers; an
instruction that the core has spares CAUSE, so one that leaves 4 there is absent, and only an optional one can be. -/
theorem unimplementedTaken : Obligations.UnimplementedTaken := by
  refine ⟨fun s rC rA rB imm f hf habsent => ?_, fun s t i _ hcause h ht => ?_⟩
  · have hpresent := presentIn_of_mem_optionalForms s.cfg.implemented rC rA rB imm f hf
    exact ⟨takeGeneral .unimplemented s, exec_of_absent f.1 s (hpresent.trans habsent), rfl,
      fun hinfo => (takeGeneral_cause s .unimplemented).trans (if_pos hinfo), rfl,
      takeGeneral_onlyRegister _ s, takeGeneral_sameRegisters _ s⟩
  · have hpresent : ¬i.presentIn s.cfg.implemented = true :=
      fun hp => exec_spares_of_present i s hp hcause t h ht
    exact mem_optionalForms_of_absent s.cfg.implemented i (Bool.eq_false_iff.2 hpresent)

end Sys2Proof.Machine
end

section
/-! PROOFS. The supervisor-only data address exception (60_exceptions.md rule R456): which check raises it, and that an
instruction takes the exception of its address checks. -/

namespace Sys2Proof

/-- What an instruction accesses: why, how wide, and at which base register and offset. -/
structure DataAccess where
  kind : Machine.Kind
  width : Machine.Width
  base : RegNum
  offset : BitVec 16

/-- The access whose address an instruction has checked: that of a load, a store, `flushda` or `initda` (20_memory.md
rule R158). -/
def Instr.dataAccess? : Instr → Option DataAccess
  | .ldw _ rA imm | .ldwio _ rA imm => some ⟨.load, .word, rA, imm⟩
  | .ldh _ rA imm | .ldhu _ rA imm | .ldhio _ rA imm | .ldhuio _ rA imm => some ⟨.load, .half, rA, imm⟩
  | .ldb _ rA imm | .ldbu _ rA imm | .ldbio _ rA imm | .ldbuio _ rA imm => some ⟨.load, .byte, rA, imm⟩
  | .stw _ rA imm | .stwio _ rA imm => some ⟨.store, .word, rA, imm⟩
  | .sth _ rA imm | .sthio _ rA imm => some ⟨.store, .half, rA, imm⟩
  | .stb _ rA imm | .stbio _ rA imm => some ⟨.store, .byte, rA, imm⟩
  | .flushda rA imm => some ⟨.flushda, .byte, rA, imm⟩
  | .initda rA imm => some ⟨.initda, .byte, rA, imm⟩
  | _ => none

/-- The instructions with a checked data address, with given operands. -/
def dataForms (rB rA : RegNum) (imm : BitVec 16) : List Instr :=
  [.ldw rB rA imm, .ldwio rB rA imm, .stw rB rA imm, .stwio rB rA imm, .ldh rB rA imm, .ldhu rB rA imm,
    .ldhio rB rA imm, .ldhuio rB rA imm, .sth rB rA imm, .sthio rB rA imm, .ldb rB rA imm, .ldbu rB rA imm,
    .ldbio rB rA imm, .ldbuio rB rA imm, .stb rB rA imm, .stbio rB rA imm, .flushda rA imm, .initda rA imm]

theorem dataAccess?_of_mem_dataForms (rB rA : RegNum) (imm : BitVec 16) :
    ∀ i ∈ dataForms rB rA imm, ∃ k w, i.dataAccess? = some ⟨k, w, rA, imm⟩ := by
  simp [dataForms, Instr.dataAccess?]

/-- Of the instructions that access data, only `initda` can be absent. -/
theorem presentIn_of_dataAccess (m : Implemented) (i : Instr) (a : DataAccess) (ha : i.dataAccess? = some a)
    (hinitda : i = .initda a.base a.offset → m.initda = true) : i.presentIn m = true := by
  cases i
  case initda => cases ha; exact hinitda rfl
  case mul | muli | mulxss | mulxsu | mulxuu | div | divu => cases ha
  all_goals rfl

end Sys2Proof

namespace Sys2Proof.Machine

/-! ## An instruction takes the exception of its address checks -/

theorem dataPath_of_translateData_exc (s : State) (k : Kind) (w : Width) (io : Bool) (va : Word) (e : Exc)
    (h : s.translateData k w va = .exc e) : s.dataPath k w io va = .exc e := by
  unfold State.dataPath
  rw [h]
  rfl

theorem Check.run_exc {α : Type} (c : Check α) (s : State) (k : α → Result) (e : Exc) (h : c = .exc e) :
    c.run s k = raise e s := by
  subst h
  rfl

/-- An instruction whose address checks raise an exception takes it, and nothing else happens (00_scope.md rule R12). -/
theorem exec_of_translateData_exc (i : Instr) (s : State) (a : DataAccess) (e : Exc) (ha : i.dataAccess? = some a)
    (hp : i.presentIn s.cfg.implemented = true)
    (h : s.translateData a.kind a.width (s.effective a.base a.offset) = .exc e) :
    exec i s = raise e (s.drawn s.accessDraws) := by
  cases i
  case ldw | ldwio | ldh | ldhu | ldhio | ldhuio | ldb | ldbu | ldbio | ldbuio | stw | stwio | sth | sthio | stb
      | stbio =>
    cases ha
    exact Check.run_exc _ _ _ _ (dataPath_of_translateData_exc _ _ _ _ _ _ h)
  case flushda =>
    cases ha
    exact Check.run_exc _ _ _ _ h
  case initda =>
    cases ha
    exact (if_pos hp).trans (Check.run_exc _ _ _ _ h)
  all_goals cases ha

/-! ## With an MMU -/

/-- The checks of a user-mode address in the upper half stop at its partition, before alignment and the TLB
(20_memory.md rule R130). -/
theorem translateData_upperHalf (s : State) (k : Kind) (w : Width) (va : Word) (hm : s.cfg.hasMmu = true)
    (hu : s.status.u = true) (hva : 2 ^ 31 ≤ va.toNat) :
    s.translateData k w va = .exc (.supervisorOnlyData va) := by
  have hmsb : va.msb = true := BitVec.msb_eq_true_iff_two_mul_ge.2 (by omega)
  simp [State.translateData, State.mmuData, hm, hu, hmsb]

/-- Only an MPU access draws free values (log 34). -/
theorem drawn_accessDraws_of_mmu (s : State) (hm : s.cfg.hasMmu = true) : s.drawn s.accessDraws = s := by
  simp [State.accessDraws, hm, State.drawn]

theorem excInfo_of_mmu (c : Config) (hm : c.hasMmu = true) : c.excInfo = true := by
  simp [Config.excInfo, Config.hasModes, hm]

theorem takeGeneral_cause_of_mmu (e : Exc) (s : State) (hm : s.cfg.hasMmu = true) :
    (takeGeneral e s).cause = e.cause := by
  rw [takeGeneral_cause, if_pos (excInfo_of_mmu s.cfg hm)]

/-- With an MMU badaddr keeps every bit of a data address (10_state.md rule R59). -/
theorem takeGeneral_badaddr_of_mmu (e : Exc) (s : State) (va : Word) (hm : s.cfg.hasMmu = true)
    (he : e.dataAddress? = some va) : (takeGeneral e s).badaddr = va := by
  rw [takeGeneral_badaddr, if_pos (excInfo_of_mmu s.cfg hm)]
  simp [Exc.newBadaddr, he, badDataAddress, hm]

theorem takeGeneral_tlbmisc_of_mmu (e : Exc) (s : State) (hm : s.cfg.hasMmu = true) :
    (takeGeneral e s).tlbmisc = e.newTlbmisc s.status.eh s.tlbmisc := by
  rw [takeGeneral_tlbmisc, if_pos hm]

/-- The exception return address (60_exceptions.md rule R410). -/
theorem takeGeneral_ea (e : Exc) (s : State) (h : s.status.eh = false) : (takeGeneral e s).xs 0 29 = s.pc + 4 := by
  rw [takeGeneral_onlyRegister e s h 0 29, if_pos ⟨rfl, rfl⟩]

/-! ## Without an MMU -/

theorem alignmentOf_exc_eq (c : Config) (k : Kind) (w : Width) (va : Word) (e : Exc)
    (h : alignmentOf c k w va = .exc e) : e = .misalignedData va := by
  cases k
  case load | store =>
    simp only [alignmentOf, checkAlign] at h
    split at h
    · cases h
    · split at h <;> cases h
      rfl
  case flushda | initda => cases h

theorem permissionCheck_exc_eq (perm : BitVec 3) (u : Bool) (k : Kind) (va : Word) (e : Exc)
    (h : permissionCheck perm u k va = .exc e) : e = .mpuData va := by
  unfold permissionCheck at h
  split at h
  · cases k
    case load | store =>
      simp only at h
      split at h <;> cases h
      rfl
    case flushda | initda =>
      simp only at h
      split at h <;> cases h
  · cases h

theorem mpuDataCheck_exc_eq (s : State) (k : Kind) (va : Word) (e : Exc) (h : s.mpuDataCheck k va = .exc e) :
    e = .mpuData va := by
  unfold State.mpuDataCheck at h
  simp only at h
  split at h
  · cases h; rfl
  · split at h
    · cases h; rfl
    · rw [Check.bind_exc] at h
      rcases h with h | ⟨-, -, h⟩
      · exact permissionCheck_exc_eq _ _ _ _ _ h
      · cases h

/-- The exceptions of a data address without an MMU: misalignment and the MPU's violation (20_memory.md rules R150 and
R158). -/
theorem translateData_exc_of_no_mmu (s : State) (k : Kind) (w : Width) (va : Word) (e : Exc)
    (hm : s.cfg.hasMmu = false) (h : s.translateData k w va = .exc e) : e = .misalignedData va ∨ e = .mpuData va := by
  rw [State.translateData, if_neg (by simp [hm]), Check.bind_exc] at h
  rcases h with halign | ⟨-, -, h⟩
  · exact .inl (alignmentOf_exc_eq _ _ _ _ _ halign)
  · split at h
    · rw [Check.bind_exc] at h
      rcases h with hmpu | ⟨cacheable, -, h⟩
      · exact .inr (mpuDataCheck_exc_eq _ _ _ _ hmpu)
      · cases h
    · cases h

/-- Settles O15: the first check of the address raises the exception and the instruction takes it; without an MMU a data
address raises only the misaligned and the MPU exceptions. -/
theorem supervisorOnlyDataTaken : Obligations.SupervisorOnlyDataTaken := by
  refine ⟨fun s rB rA imm hm hu hva i hi hinitda => ?_, fun s k w va va' hm h => ?_⟩
  · obtain ⟨k, w, ha⟩ := dataAccess?_of_mem_dataForms rB rA imm i hi
    have hraise := exec_of_translateData_exc i s _ _ ha (presentIn_of_dataAccess _ i _ ha hinitda)
      (translateData_upperHalf s k w _ hm hu hva)
    rw [drawn_accessDraws_of_mmu s hm] at hraise
    have htlbmisc := takeGeneral_tlbmisc_of_mmu (.supervisorOnlyData (s.effective rA imm)) s hm
    exact ⟨_, hraise, rfl, takeGeneral_cause_of_mmu _ s hm, takeGeneral_badaddr_of_mmu _ s _ hm rfl,
      congrArg Tlbmisc.bad htlbmisc, congrArg Tlbmisc.d htlbmisc, takeGeneral_ea _ s, rfl⟩
  · rcases translateData_exc_of_no_mmu s k w va _ hm h with he | he <;> cases he

end Sys2Proof.Machine
end

section
/-! PROOFS. Decoding and encoding agree, and which words are reserved (30_encoding.md rules R160 to R183). -/

namespace Sys2Proof

/-! ## Decoding an encoded instruction -/

/-- By the format of the word: the fields of each format hold what the encoder put there. -/
theorem decodeWord_encode (i : Instr) (h : i.wellFormed = true) : decodeWord (encode i) = .ok i := by
  cases i
  case custom n c a b =>
    calc decodeWord (customWord n c a b) = .ok (decodeCustom (customWord n c a b)) := decodeWord_customWord n c a b
      _ = .ok (.custom n c a b) := congrArg _ (decodeCustom_customWord n c a b)
  case rdctl rC n => simp [encode, decodeWord_rWord, decodeOpx, CtlReg.ofNumber_number n h]
  case wrctl n rA => simp [encode, decodeWord_rWord, decodeOpx, CtlReg.ofNumber_number n h]
  case and | or | xor | nor | add | sub | mul | mulxss | mulxuu | mulxsu | div | divu | cmpeq | cmpne | cmpge | cmpgeu
      | cmplt | cmpltu | rol | ror | roli | sll | slli | srl | srli | sra | srai | callr | ret | jmp | nextpc | trap
      | eret | brk | bret | flushi | initi | flushp | sync | wrprs =>
    simp [encode, decodeWord_rWord, decodeOpx]
  all_goals simp [encode, decodeWord]

/-- The four bytes of an instruction at the head of a program read as its word. -/
theorem decodeBytes_encodeBytes (i : Instr) (rest : List Byte) :
    decodeBytes (encodeBytes i ++ rest) = (decodeWord (encode i)).map (fun j => (j, rest)) := by
  simp [encodeBytes, decodeBytes, wordOfBytes_byteOfWord]

/-- Settles O1: the word decodes by its format, and the bytes in memory order are those of the word. -/
theorem decodeOfEncode : Obligations.DecodeOfEncode := by
  intro i rest h
  refine ⟨decodeWord_encode i h, ?_⟩
  rw [decodeBytes_encodeBytes, decodeWord_encode i h]
  rfl

/-! ## Encoding a decoded word -/

/-- What an R-type word decodes to: the encoder writes its opcode extension again. -/
theorem decodeOpx_ok (w : Word) (i : Instr) (h : decodeOpx w = .ok i) :
    i.wellFormed = true ∧ fieldOp (encode i) = 0x3A#6 ∧ fieldOpx (encode i) = fieldOpx w := by
  unfold decodeOpx at h
  split at h
  case h_43 => cases h
  all_goals
    rename_i hopx
    cases h
    refine ⟨?_, fieldOp_rWord _ _ _ _ _, BitVec.eq_of_toNat_eq ?_⟩
    · simp [Instr.wellFormed, Instr.ctlReg?, CtlReg.ofNumber_wellFormed]
    · rw [hopx, encode, fieldOpx_rWord]; rfl

/-- Settles O2: opcode by opcode, the encoder writes the opcode that the decoder read; the R-type opcode hands the
word to the decoder of extensions. -/
theorem encodeOfDecode : Obligations.EncodeOfDecode := by
  intro w i h
  unfold decodeWord at h
  split at h
  case h_44 hop =>
    obtain ⟨hwf, hop', hopx⟩ := decodeOpx_ok w i h
    exact ⟨hwf, hop'.trans (BitVec.eq_of_toNat_eq hop.symm), fun _ => hopx⟩
  case h_47 => cases h
  all_goals
    rename_i hop
    cases h
    refine ⟨rfl, BitVec.eq_of_toNat_eq ?_, fun hR => absurd (hR ▸ hop) (by decide)⟩
    rw [hop]
    simp [encode, decodeCustom]

/-! ## Reserved words (rule R175) -/

theorem decodeOpx_error_iff (w : Word) : (∃ e, decodeOpx w = .error e) ↔
    (fieldOpx w).toNat ∈ [0x00, 0x0A, 0x0F, 0x11, 0x15, 0x19, 0x21, 0x22, 0x23, 0x2A, 0x2B, 0x2C, 0x2F, 0x32, 0x33,
        0x35,
      0x37, 0x38, 0x3C, 0x3D, 0x3E, 0x3F] := by
  have hlt : (fieldOpx w).toNat < 64 := (fieldOpx w).isLt
  unfold decodeOpx
  interval_cases (fieldOpx w).toNat <;> simp

/-- Settles O3: the 64 opcodes one by one, the R-type opcode by its 64 extensions. -/
theorem reservedWordsRejected : Obligations.ReservedWordsRejected := by
  intro w
  have hR : fieldOp w = 0x3A ↔ (fieldOp w).toNat = 0x3A := ⟨fun h => by rw [h]; rfl, fun h => BitVec.eq_of_toNat_eq h⟩
  have hlt : (fieldOp w).toNat < 64 := (fieldOp w).isLt
  rw [hR, ← decodeOpx_error_iff]
  unfold decodeWord
  interval_cases (fieldOp w).toNat <;> simp

/-- Settles O4: the thirteen closed words are decoded. -/
theorem workedWordsDecode : Obligations.WorkedWordsDecode := by
  unfold Obligations.WorkedWordsDecode
  decide

end Sys2Proof
end

section
/-! PROOFS. What an instruction can do to the machine, said once and case by case, and the facts about alignment, masks
and status values that the invariant needs. -/

namespace Sys2Proof.Machine

/-! ## Alignment -/

theorem and_three_toNat (a : Word) : (a &&& 3#32).toNat = a.toNat % 4 := by
  rw [BitVec.toNat_and, show (3#32).toNat = 2 ^ 2 - 1 from rfl, Nat.and_two_pow_sub_one_eq_mod]

theorem and_three_eq_zero_iff (a : Word) : a &&& 3#32 = 0 ↔ a.toNat % 4 = 0 := by
  rw [← and_three_toNat, ← BitVec.toNat_inj]
  rfl

theorem isInstrAddress_iff (a : Word) : isInstrAddress a = true ↔ a.toNat % 4 = 0 := by
  rw [isInstrAddress, beq_iff_eq, and_three_eq_zero_iff]

theorem isInstrAddress_next (a : Word) (h : isInstrAddress a = true) : isInstrAddress (a + 4) = true := by
  rw [isInstrAddress_iff] at *
  rw [BitVec.toNat_add, show (4 : Word).toNat = 4 from rfl]
  omega

theorem isInstrAddress_jumpTarget (s : State) (imm : BitVec 26) : isInstrAddress (s.jumpTarget imm) = true := by
  rw [isInstrAddress_iff, State.jumpTarget, BitVec.toNat_append, show (0#2).toNat = 0 from rfl, Nat.or_zero,
    Nat.shiftLeft_eq]
  omega

theorem isInstrAddress_of_and (a : Word) (h : a &&& 3#32 = 0) : isInstrAddress a = true := by
  rw [isInstrAddress, h]
  rfl

/-- The four vectors of a configuration that rule R7 allows are addresses of instructions, where they are reached
(20_memory.md rule R94). -/
theorem isInstrAddress_vectorPc (c : Config) (hc : c.legal = true) (v : Word)
    (hv : v ∈ [c.resetAddr, c.exceptionAddr, c.breakAddr, c.fastTlbMissAddr]) :
    isInstrAddress (c.vectorPc v) = true := by
  have hall : isInstrAddress v = true := by
    simp only [Config.legal, Bool.and_eq_true, and_assoc] at hc
    have := List.all_eq_true.1 hc.2.1 v hv
    rw [Bool.and_eq_true] at this
    exact this.1
  rw [isInstrAddress_iff] at *
  unfold Config.vectorPc
  split
  · rw [BitVec.toNat_add, show (0xC0000000 : Word).toNat = 0xC0000000 from rfl]
    omega
  · exact hall

theorem isInstrAddress_vector (e : Exc) (eh : Bool) (c : Config) (hc : c.legal = true) :
    isInstrAddress (e.vector eh c) = true := by
  unfold Exc.vector
  split <;> exact isInstrAddress_vectorPc c hc _ (by simp)

/-! ## Status values (10_state.md rules R31 and R37) -/

theorem implement_eq_iff (c : Config) (t u : Status) :
    t.implement c = u ↔ (t.rsie || !c.hasNesting) = u.rsie ∧ (t.nmi && c.hasEic) = u.nmi ∧ t.prs &&& c.setMask = u.prs ∧
      t.crs &&& c.setMask = u.crs ∧ (if c.hasEic then t.il else 0) = u.il ∧ (t.ih && c.hasEic) = u.ih ∧
      (t.eh && c.hasMmu) = u.eh ∧ (t.u && c.hasModes) = u.u ∧ t.pie = u.pie := by
  cases u
  simp [Status.implement]

theorem implement_implement (c : Config) (t : Status) : (t.implement c).implement c = t.implement c := by
  rw [implement_eq_iff]
  refine ⟨?_, ?_, ?_, ?_, ?_, ?_, ?_, ?_, rfl⟩ <;> simp [Status.implement, BitVec.and_assoc]
  exact fun h h' => absurd h' (by simp [h])

theorem legal_implement (c : Config) (t : Status) (h : (t.implement c).setsExist c = true) :
    (t.implement c).legal c = true := by
  simp [Status.legal, implement_implement, h]

theorem legal_iff (c : Config) (t : Status) :
    t.legal c = true ↔ t.implement c = t ∧ t.crs ≤ c.numShadow ∧ t.prs ≤ c.numShadow := by
  simp [Status.legal, Status.setsExist]

/-- A register set number cut to its significant bits is no greater. -/
theorem and_le_of_le {n : Nat} (a m b : BitVec n) (h : a ≤ b) : a &&& m ≤ b := by
  rw [BitVec.le_def] at *
  rw [BitVec.toNat_and]
  exact Nat.le_trans Nat.and_le_left h

/-- status at the entry of an exception or a break is legal: its fields were, and EH is set only where it is
implemented. -/
theorem legal_entered (c : Config) (t : Status) (h : t.legal c = true) (p : SetNum) (hp : p = t.prs ∨ p = t.crs) :
    Status.legal c { t with prs := p, crs := 0, pie := false, u := false, eh := t.eh || c.hasMmu } = true := by
  rw [legal_iff, implement_eq_iff] at *
  obtain ⟨⟨hrsie, hnmi, hprs', hcrs', hil, hih, heh, -, -⟩, hcrs, hprs⟩ := h
  have hmask : p &&& c.setMask = p := by rcases hp with rfl | rfl <;> assumption
  have hset : p ≤ c.numShadow := by rcases hp with rfl | rfl <;> assumption
  exact ⟨⟨hrsie, hnmi, hmask, BitVec.zero_and, hil, hih, by simp [Bool.and_or_distrib_right, heh], rfl, rfl⟩,
    by simp [BitVec.le_def], hset⟩

theorem legal_inHandler (c : Config) (t : Status) (h : t.legal c = true) : (t.inHandler c).legal c = true := by
  refine legal_entered c t h _ ?_
  split
  · exact .inl rfl
  · exact .inr rfl

theorem ienableOf_ienableOf (c : Config) (v : Word) : c.ienableOf (c.ienableOf v) = c.ienableOf v := by
  ext i hi
  simp only [Config.ienableOf, BitVec.getElem_or, BitVec.getElem_and, BitVec.getElem_not]
  cases c.irqConnected[i] <;> simp

end Sys2Proof.Machine
end

section
/-! PROOFS. What an instruction that answers a next state has done, case by case: the refinement of `Left` that says
what it did to memory, the caches and the pc. -/

namespace Sys2Proof

/-- The instructions that can write memory: the stores and the two that write the data cache back (20_memory.md rules
R104 and R116). -/
def Instr.writesMemory : Instr → Bool
  | .stw _ _ _ | .stwio _ _ _ | .sth _ _ _ | .sthio _ _ _ | .stb _ _ _ | .stbio _ _ _ => true
  | .flushd _ _ | .flushda _ _ => true
  | _ => false

end Sys2Proof

namespace Sys2Proof.Machine

/-- What instruction `i` has done where it answers a next state. -/
inductive Effect (i : Instr) (s : State) : State → Prop where
  | raised (e : Exc) (n : Nat) : Effect i s (takeGeneral e (s.drawn n))
  | broke : Effect i s (takeBreak s)
  | retired (n : Nat) (r : RegNum) (v : Word) : Effect i s ((s.drawn n).retire r v)
  | advanced (n : Nat) : Effect i s (s.drawn n).advance
  | jumped (target : Word) (aligned : isInstrAddress target = true) : Effect i s (s.goto target)
  | linked (target : Word) (aligned : isInstrAddress target = true) :
      Effect i s ((s.setX 31 (s.pc + 4)).goto target)
  | loaded (w : Width) (io : Bool) (va : Word) (p : DataPath) (r : RegNum) (v : Word)
      (path : s.dataPath .load w io va = .ok p) : Effect i s (((s.drawn s.accessDraws).fillData p).retire r v)
  | stored (w : Width) (io : Bool) (va : Word) (p : DataPath) (bytes : List Byte) (writes : i.writesMemory = true)
      (path : s.dataPath .store w io va = .ok p) :
      Effect i s ((s.drawn s.accessDraws).delivered va p bytes).advance
  | flushedIndex (index : Option Nat) (writes : i.writesMemory = true) : Effect i s (s.flushIndex index).advance
  | flushedAddress (n : Nat) (index : Option Nat) (pa : Nat) (writes : i.writesMemory = true) :
      Effect i s ((s.drawn n).flushAddress index pa).advance
  | droppedIndex (index : Option Nat) : Effect i s (s.dropIndex index).advance
  | droppedAddress (n : Nat) (index : Option Nat) (pa : Nat) : Effect i s ((s.drawn n).dropAddress index pa).advance
  | invalidated (va : Word) : Effect i s (s.invalidateInstr va).advance
  | flushedPipeline : Effect i s { s with pc := s.pc + 4, mpuOld := [], hazards := hazardsAfterFlushp s.hazards }
  | returned (saved : Status) (target : Word) (after : State) (hafter : after = s ∨ after = s.released)
      (aligned : isInstrAddress target = true) (sets : (saved.implement s.cfg).setsExist s.cfg = true) :
      Effect i s { after with status := saved.implement s.cfg, pc := target, mpuOld := [] }
  | controlled (n : CtlReg) (rA : RegNum) (u : State) (hi : i = .wrctl n rA) (write : s.writeCtl n (s.x rA) = .ok u) :
      Effect i s u.advance
  | wrotePrevious (r : RegNum) (v : Word) : Effect i s (s.setXs s.status.prs r v).advance

/-! ## The shared operations -/

theorem effect_raise (i : Instr) (s : State) (e : Exc) : Effect i s (takeGeneral e s) := .raised e 0

theorem effect_retire (i : Instr) (s : State) (r : RegNum) (v : Word) : Effect i s (s.retire r v) := .retired 0 r v

theorem effect_load (i : Instr) (w : Width) (io : Bool) (value : State → DataPath → Word) (rB rA : RegNum)
    (imm : BitVec 16) (s t : State) (h : loadInto w io value rB rA imm s = .next t) : Effect i s t := by
  rcases loadInto_next _ _ _ _ _ _ _ _ h with ⟨p, hp, rfl⟩ | ⟨e, -, rfl⟩
  · exact .loaded _ _ _ _ _ _ hp
  · exact .raised _ _

theorem effect_store (i : Instr) (w : Width) (io : Bool) (rB rA : RegNum) (imm : BitVec 16) (s t : State)
    (hi : i.writesMemory = true) (h : storeFrom w io rB rA imm s = .next t) : Effect i s t := by
  rcases storeFrom_next _ _ _ _ _ _ _ h with ⟨p, hp, rfl⟩ | ⟨e, -, rfl⟩
  · exact .stored _ _ _ _ _ hi hp
  · exact .raised _ _

theorem effect_transfer (i : Instr) (target : Word) (s t u : State) (h : transfer target s (.next u) = .next t)
    (hu : isInstrAddress target = true → Effect i s u) : Effect i s t := by
  rcases transfer_next _ _ _ _ h with ⟨ha, hk⟩ | ⟨-, -, rfl⟩
  · cases hk; exact hu (isInstrAddress_of_and _ ha)
  · exact effect_raise _ _ _

theorem effect_branch (i : Instr) (r : Relation) (rA rB : RegNum) (imm : BitVec 16) (s t : State)
    (h : branchIf r rA rB imm s = .next t) : Effect i s t := by
  rcases branchIf_next _ _ _ _ _ _ h with ⟨-, ha, rfl⟩ | ⟨-, rfl⟩ | ⟨-, rfl⟩
  · exact .jumped _ (isInstrAddress_of_and _ ha)
  · exact .advanced 0
  · exact effect_raise _ _ _

theorem effect_optional (i : Instr) (present : Bool) (s t : State) (k : Result)
    (h : ifImplemented present s k = .next t) (hk : k = .next t → Effect i s t) : Effect i s t := by
  rcases ifImplemented_next _ _ _ _ h with ⟨-, h⟩ | ⟨-, rfl⟩
  · exact hk h
  · exact effect_raise _ _ _

theorem effect_divide (i : Instr) (signed : Bool) (q : Word) (rC : RegNum) (a b : Word) (s t : State)
    (h : divideInto signed q rC a b s = .next t) : Effect i s t := by
  rcases divideInto_next _ _ _ _ _ _ _ h with ⟨-, rfl⟩ | ⟨-, -, rfl⟩ | ⟨-, -, rfl⟩
  · exact effect_retire _ _ _ _
  · exact effect_raise _ _ _
  · exact .retired 1 _ _

theorem effect_supervisor (i : Instr) (s t : State) (k : Result) (h : supervisorOnly s k = .next t)
    (hk : k = .next t → Effect i s t) : Effect i s t := by
  rcases supervisorOnly_next _ _ _ h with ⟨-, h⟩ | ⟨-, rfl⟩
  · exact hk h
  · exact effect_raise _ _ _

theorem effect_return (i : Instr) (saved : Status) (target : Word) (after s t : State)
    (ha : after = s ∨ after = s.released) (h : supervisorOnly s (returnFrom saved target after s) = .next t) :
    Effect i s t := by
  refine effect_supervisor _ _ _ _ h (fun hk => ?_)
  rcases returnFrom_next _ _ _ _ _ hk with ⟨halign, hsets, rfl⟩ | ⟨-, -, rfl⟩
  · exact .returned saved target after ha (isInstrAddress_of_and _ halign) hsets
  · exact effect_raise _ _ _

theorem effect_shadow (i : Instr) (s t u : State)
    (h : supervisorOnly s (needsShadow s (prsExists s (.next u))) = .next t) (hu : Effect i s u) : Effect i s t := by
  refine effect_supervisor _ _ _ _ h (fun hk => ?_)
  rcases needsShadow_next _ _ _ hk with ⟨-, hk⟩ | ⟨-, rfl⟩
  · cases (prsExists_next _ _ _ hk).2
    exact hu
  · exact effect_raise _ _ _

theorem effect_check {α : Type} (i : Instr) (c : Check α) (s t : State) (n : Nat) (k : α → Result)
    (h : c.run (s.drawn n) k = .next t) (hk : ∀ a, k a = .next t → Effect i s t) : Effect i s t := by
  rcases Check.run_next _ _ _ _ h with ⟨a, -, h⟩ | ⟨e, -, rfl⟩
  · exact hk a h
  · exact .raised _ _

theorem effect_rdctl (i : Instr) (rC : RegNum) (n : CtlReg) (s t : State) (h : execRdctl rC n s = .next t) :
    Effect i s t := by
  refine effect_supervisor _ _ _ _ h (fun hk => ?_)
  split at hk
  · cases hk; exact effect_retire _ _ _ _
  · cases hk

theorem effect_wrctl (n : CtlReg) (rA : RegNum) (s t : State) (h : execWrctl n rA s = .next t) :
    Effect (.wrctl n rA) s t := by
  refine effect_supervisor _ _ _ _ h (fun hk => ?_)
  split at hk
  · split at hk
    · rename_i u hw
      cases hk
      exact .controlled n rA u rfl hw
    · cases hk
  · cases hk

theorem effect_custom (i : Instr) (n : BitVec 8) (c a b : CustomReg) (s t : State)
    (h : execCustom n c a b s = .next t) : Effect i s t := by
  unfold execCustom at h
  split at h
  · cases h
  · cases c <;> cases h
    · exact .retired _ _ _
    · exact .advanced _

/-! ## Every instruction -/

theorem exec_effect (i : Instr) (s t : State) (h : exec i s = .next t) : Effect i s t := by
  cases i
  case ldw | ldwio => exact effect_load _ _ _ (fun t p => t.readWord p) _ _ _ _ _ h
  case ldh | ldhio => exact effect_load _ _ _ (fun t p => (t.readHalf p).signExtend 32) _ _ _ _ _ h
  case ldhu | ldhuio => exact effect_load _ _ _ (fun t p => (t.readHalf p).setWidth 32) _ _ _ _ _ h
  case ldb | ldbio => exact effect_load _ _ _ (fun t p => (t.readByte p).signExtend 32) _ _ _ _ _ h
  case ldbu | ldbuio => exact effect_load _ _ _ (fun t p => (t.readByte p).setWidth 32) _ _ _ _ _ h
  case stw | stwio | sth | sthio | stb | stbio => exact effect_store _ _ _ _ _ _ _ _ rfl h
  case mul | muli | mulxss | mulxuu | mulxsu =>
    exact effect_optional _ _ _ _ _ h (fun hk => by cases hk; exact effect_retire _ _ _ _)
  case div | divu => exact effect_optional _ _ _ _ _ h (fun hk => effect_divide _ _ _ _ _ _ _ _ hk)
  case beq | bne | bge | bgeu | blt | bltu => exact effect_branch _ _ _ _ _ _ _ h
  case callr => exact effect_transfer _ _ _ _ _ h (.linked _)
  case ret | jmp | br => exact effect_transfer _ _ _ _ _ h (.jumped _)
  case call imm => cases h; exact .linked _ (isInstrAddress_jumpTarget s imm)
  case jmpi imm => cases h; exact .jumped _ (isInstrAddress_jumpTarget s imm)
  case trap => cases h; exact effect_raise _ _ _
  case brk => cases h; exact .broke
  case eret => exact effect_return _ _ _ _ _ _ (.inl rfl) h
  case bret => exact effect_return _ _ _ _ _ _ (.inr rfl) h
  case rdctl => exact effect_rdctl _ _ _ _ _ h
  case wrctl => exact effect_wrctl _ _ _ _ h
  case rdprs => exact effect_shadow _ _ _ _ h (effect_retire _ _ _ _)
  case wrprs => exact effect_shadow _ _ _ _ h (.wrotePrevious _ _)
  case custom => exact effect_custom _ _ _ _ _ _ _ h
  case flushd => cases h; exact .flushedIndex _ rfl
  case flushda => exact effect_check _ _ _ _ _ _ h (fun p hk => by cases hk; exact .flushedAddress _ _ _ rfl)
  case initd => exact effect_supervisor _ _ _ _ h (fun hk => by cases hk; exact .droppedIndex _)
  case initda =>
    exact effect_optional _ _ _ _ _ h (fun h =>
      effect_check _ _ _ _ _ _ h (fun p hk => by cases hk; exact .droppedAddress _ _ _))
  case flushi => cases h; exact .invalidated _
  case initi => exact effect_supervisor _ _ _ _ h (fun hk => by cases hk; exact .invalidated _)
  case flushp => cases h; exact .flushedPipeline
  case sync => cases h; exact .advanced 0
  all_goals
    cases h
    exact effect_retire _ _ _ _

end Sys2Proof.Machine
end

section
/-! PROOFS. The invariant: it holds after reset, and what happens at a boundary, an event, a fetch and every instruction
keep it (10_state.md rules R28, R31, R37, R52, R60, R72 and R73). -/

namespace Sys2Proof.Machine

/-! ## The lines of a cache -/

/-- What the invariant says of one cache, whose lines begin where `base` says and have the numbers that `has` allows. -/
def LinesLegal (base : Nat → Nat) (has : Nat → Bool) (lines : List CacheLine) : Prop :=
  (lines.map (fun l => (l.index, l.base))).Nodup ∧
    ∀ l ∈ lines, l.data.wf = true ∧ base l.base = l.base ∧ has l.index = true

section Lines

variable {base : Nat → Nat} {has : Nat → Bool} {lines : List CacheLine}

theorem LinesLegal.filter (h : LinesLegal base has lines) (test : CacheLine → Bool) :
    LinesLegal base has (lines.filter test) :=
  ⟨h.1.sublist (List.filter_sublist.map _), fun l hl => h.2 l (List.mem_of_mem_filter hl)⟩

/-- A line that was missing may be filled from any source. -/
theorem LinesLegal.fill (h : LinesLegal base has lines) (source : Nat → Byte) (index b n : Nat)
    (hmiss : findLine lines index b = none) (hb : base b = b) (hi : has index = true) :
    LinesLegal base has (newLine source index b n :: lines) := by
  refine ⟨List.nodup_cons.2 ⟨fun hin => ?_, h.1⟩, fun l hl => ?_⟩
  · obtain ⟨l, hl, he⟩ := List.mem_map.1 hin
    simp only [newLine, Prod.mk.injEq] at he
    exact List.find?_eq_none.1 hmiss l hl (by simp [he.1, he.2])
  · rcases List.mem_cons.1 hl with rfl | hl
    · exact ⟨Memory.copy_wf _ _ _ _ rfl, hb, hi⟩
    · exact h.2 l hl

/-- Bytes may be stored in lines. -/
theorem LinesLegal.map (h : LinesLegal base has lines) (f : CacheLine → CacheLine)
    (hf : ∀ l, (f l).index = l.index ∧ (f l).base = l.base ∧ (l.data.wf = true → (f l).data.wf = true)) :
    LinesLegal base has (lines.map f) := by
  refine ⟨?_, fun l hl => ?_⟩
  · rw [List.map_map]
    rw [show (fun l => (l.index, l.base)) ∘ f = fun l : CacheLine => (l.index, l.base) from
      funext fun l => Prod.ext (hf l).1 (hf l).2.1]
    exact h.1
  · obtain ⟨k, hk, rfl⟩ := List.mem_map.1 hl
    obtain ⟨hwf, hbase, hhas⟩ := h.2 k hk
    obtain ⟨hi, hb, hd⟩ := hf k
    exact ⟨hd hwf, by rw [hb, hbase], by rw [hi, hhas]⟩

end Lines

theorem dBase_dBase (c : Config) (a : Nat) : c.dBase (c.dBase a) = c.dBase a := by
  unfold Config.dBase
  rcases Nat.eq_zero_or_pos c.dcacheLine with h | h
  · simp [h]
  · rw [Nat.mul_div_cancel _ h]

theorem iBase_iBase (c : Config) (a : Nat) : c.iBase (c.iBase a) = c.iBase a := by
  unfold Config.iBase
  rcases Nat.eq_zero_or_pos c.icacheLine with h | h
  · simp [h]
  · rw [Nat.mul_div_cancel _ h]

/-! ## The invariant in three parts -/

/-- What the invariant says of memory and the caches. -/
structure ContentsLegal (s : State) : Prop where
  mem_wf : s.mem.wf = true
  dcache : LinesLegal s.cfg.dBase s.cfg.hasDLine s.dcache
  icache : LinesLegal s.cfg.iBase s.cfg.hasILine s.icache

/-- What the invariant says of the configuration, the control registers, the TLB, the MPU regions and the inputs. -/
structure ControlLegal (s : State) : Prop where
  config_legal : s.cfg.legal = true
  status_legal : s.status.legal s.cfg = true
  config_reg : (s.config.pe → s.cfg.hasMpu) ∧ (s.config.ani → s.cfg.hasNesting)
  way_significant : s.tlbmisc.way &&& s.cfg.wayMask = s.tlbmisc.way
  tlb_size : s.tlb.length = 2 ^ (s.cfg.tlbLineBits + s.cfg.tlbWayBits)
  mpu_sizes : s.mpuInstr.length = s.cfg.mpuIRegions ∧ s.mpuData.length = s.cfg.mpuDRegions
  ienable_connected : s.cfg.ienableOf s.ienable = s.ienable
  pins_legal : s.pins.legal s.cfg = true
  inputs_legal : ∀ b ∈ s.inputs, b.pins.legal s.cfg = true

theorem inv_iff (s : State) : Inv s ↔ ControlLegal s ∧ isInstrAddress s.pc = true ∧ ContentsLegal s := by
  constructor
  · intro h
    exact ⟨⟨h.config_legal, h.status_legal, h.config_reg, h.way_significant, h.tlb_size, h.mpu_sizes,
        h.ienable_connected, h.pins_legal, h.inputs_legal⟩, h.pc_aligned,
      ⟨h.mem_wf,
        ⟨h.dcache_lines.1, fun l hl => ⟨h.dcache_wf l hl, h.dcache_lines.2 l hl, h.dcache_numbers l hl⟩⟩,
        ⟨h.icache_lines.1, fun l hl => ⟨h.icache_wf l hl, h.icache_lines.2 l hl, h.icache_numbers l hl⟩⟩⟩⟩
  · rintro ⟨hc, hpc, hm⟩
    exact
      { config_legal := hc.config_legal, pc_aligned := hpc, status_legal := hc.status_legal,
        config_reg := hc.config_reg, way_significant := hc.way_significant, tlb_size := hc.tlb_size,
        mpu_sizes := hc.mpu_sizes, mem_wf := hm.mem_wf
        dcache_wf := fun l hl => (hm.dcache.2 l hl).1
        icache_wf := fun l hl => (hm.icache.2 l hl).1
        dcache_lines := ⟨hm.dcache.1, fun l hl => (hm.dcache.2 l hl).2.1⟩
        icache_lines := ⟨hm.icache.1, fun l hl => (hm.icache.2 l hl).2.1⟩
        dcache_numbers := fun l hl => (hm.dcache.2 l hl).2.2
        icache_numbers := fun l hl => (hm.icache.2 l hl).2.2
        ienable_connected := hc.ienable_connected, pins_legal := hc.pins_legal, inputs_legal := hc.inputs_legal }

/-- `t` is `s` as far as the configuration, status and the other state that `ControlLegal` speaks of go. -/
def ControlFrame (s t : State) : Prop :=
  t.cfg = s.cfg ∧ t.status = s.status ∧ t.config = s.config ∧ t.tlbmisc = s.tlbmisc ∧ t.tlb = s.tlb ∧
    t.mpuInstr = s.mpuInstr ∧ t.mpuData = s.mpuData ∧ t.ienable = s.ienable ∧ t.pins = s.pins ∧ t.inputs = s.inputs

theorem ControlLegal.of_frame {s t : State} (h : ControlLegal s) (f : ControlFrame s t) : ControlLegal t := by
  obtain ⟨hcfg, hstatus, hconfig, htlbmisc, htlb, hinstr, hdata, hienable, hpins, hinputs⟩ := f
  refine ⟨?_, ?_, ?_, ?_, ?_, ?_, ?_, ?_, ?_⟩
  · rw [hcfg]; exact h.config_legal
  · rw [hcfg, hstatus]; exact h.status_legal
  · rw [hcfg, hconfig]; exact h.config_reg
  · rw [hcfg, htlbmisc]; exact h.way_significant
  · rw [hcfg, htlb]; exact h.tlb_size
  · rw [hcfg, hinstr, hdata]; exact h.mpu_sizes
  · rw [hcfg, hienable]; exact h.ienable_connected
  · rw [hcfg, hpins]; exact h.pins_legal
  · rw [hcfg, hinputs]; exact h.inputs_legal

/-- `t` has memory and both caches of `s`. -/
def SameContents (s t : State) : Prop := t.cfg = s.cfg ∧ t.mem = s.mem ∧ t.dcache = s.dcache ∧ t.icache = s.icache

theorem ContentsLegal.of_same {s t : State} (h : ContentsLegal s) (f : SameContents s t) : ContentsLegal t := by
  obtain ⟨hcfg, hmem, hd, hi⟩ := f
  refine ⟨?_, ?_, ?_⟩
  · rw [hmem]; exact h.mem_wf
  · rw [hcfg, hd]; exact h.dcache
  · rw [hcfg, hi]; exact h.icache

/-! ## After reset -/

theorem resetOf_dcache_legal (c : Config) : LinesLegal c.dBase c.hasDLine (dcacheAtReset c) := by
  refine ⟨(CacheLine.afterReset_nodup _ _ _).sublist (List.filter_sublist.map _), fun l hl => ?_⟩
  obtain ⟨hin, hhas⟩ := List.mem_filter.1 hl
  obtain ⟨k, -, hk⟩ := List.mem_filterMap.1 hin
  obtain ⟨-, hwf, a, hbase⟩ := CacheLine.afterReset_some _ _ _ _ hk
  exact ⟨hwf, by rw [hbase]; exact dBase_dBase c a, hhas⟩

theorem resetOf_icache_legal (c : Config) : LinesLegal c.iBase c.hasILine (icacheAtReset c) := by
  refine ⟨(CacheLine.afterReset_nodup _ _ _).sublist (List.filter_sublist.map _), fun l hl => ?_⟩
  obtain ⟨hin, hhas⟩ := List.mem_filter.1 hl
  obtain ⟨k, -, hk⟩ := List.mem_filterMap.1 hin
  obtain ⟨-, hwf, a, hbase⟩ := CacheLine.afterReset_some _ _ _ _ hk
  rw [Bool.and_eq_true] at hhas
  exact ⟨hwf, by rw [hbase]; exact iBase_iBase c a, hhas.1⟩

theorem legal_afterReset (c : Config) : Status.afterReset.legal c = true := by
  simp [legal_iff, implement_eq_iff, Status.afterReset, Status.zero, BitVec.le_def]

theorem inv_resetOf (c : Config) (h : c.legal = true) : Inv (State.resetOf c) := by
  rw [inv_iff]
  refine ⟨?_, isInstrAddress_vectorPc c h _ (by simp), rfl, resetOf_dcache_legal c, resetOf_icache_legal c⟩
  exact
    { config_legal := h
      status_legal := legal_afterReset c
      config_reg := ⟨nofun, nofun⟩
      way_significant := BitVec.zero_and
      tlb_size := List.length_replicate
      mpu_sizes := ⟨List.length_replicate, List.length_replicate⟩
      ienable_connected := ienableOf_ienableOf c 0
      pins_legal := by simp [State.resetOf, Pins.idle, Pins.legal]
      inputs_legal := nofun }

/-- Settles O58: the parts of the invariant one by one; the reset state of the model is that of `firstConfig`. -/
theorem resetIsLegal : Obligations.ResetIsLegal :=
  ⟨inv_resetOf, inv_resetOf firstConfig (by decide)⟩

/-! ## Memory and caches through the operations -/

section Contents

variable {s : State}

theorem ContentsLegal.fillData (h : ContentsLegal s) (p : DataPath)
    (hp : ∀ k, p.line = some k → s.cfg.hasDLine k = true) : ContentsLegal (s.fillData p) := by
  unfold State.fillData
  split
  · rename_i k hk
    split
    · exact h
    · rename_i hmiss
      exact ⟨h.mem_wf, h.dcache.fill _ _ _ _ hmiss (dBase_dBase _ _) (hp k hk), h.icache⟩
  · split
    · exact h.of_same ⟨rfl, rfl, rfl, rfl⟩
    · exact h

theorem ContentsLegal.storeData (h : ContentsLegal s) (p : DataPath) (bytes : List Byte)
    (hp : ∀ k, p.line = some k → s.cfg.hasDLine k = true) : ContentsLegal (s.storeData p bytes) := by
  unfold State.storeData
  split
  · have hf := h.fillData p hp
    refine ⟨hf.mem_wf, hf.dcache.map _ (fun l => ?_), hf.icache⟩
    split
    · exact ⟨rfl, rfl, Memory.writeBytes_wf _ _ _⟩
    · exact ⟨rfl, rfl, id⟩
  · split
    · exact h
    · exact ⟨Memory.writeBytes_wf _ _ _ h.mem_wf, h.dcache, h.icache⟩

theorem ContentsLegal.delivered (h : ContentsLegal s) (va : Word) (p : DataPath) (bytes : List Byte)
    (hp : ∀ k, p.line = some k → s.cfg.hasDLine k = true) : ContentsLegal (s.delivered va p bytes) := by
  unfold State.delivered
  split
  · exact h.storeData p bytes hp
  · exact (h.storeData p bytes hp).of_same ⟨rfl, rfl, rfl, rfl⟩

theorem writeBack_wf (c : Config) (m : Memory) (l : CacheLine) (h : m.wf = true) : (l.writeBack c m).wf = true := by
  unfold CacheLine.writeBack
  split
  · exact Memory.copy_wf _ _ _ _ h
  · exact h

theorem writeBacks_wf (c : Config) (lines : List CacheLine) (m : Memory) (h : m.wf = true) :
    (lines.foldl (CacheLine.writeBack c) m).wf = true := by
  induction lines generalizing m with
  | nil => exact h
  | cons l rest ih => exact ih _ (writeBack_wf c m l h)

theorem ContentsLegal.flushLines (h : ContentsLegal s) (test : CacheLine → Bool) : ContentsLegal (s.flushLines test) :=
  ⟨writeBacks_wf _ _ _ h.mem_wf, h.dcache.filter _, h.icache⟩

theorem ContentsLegal.dropLines (h : ContentsLegal s) (test : CacheLine → Bool) : ContentsLegal (s.dropLines test) :=
  ⟨h.mem_wf, h.dcache.filter _, h.icache⟩

theorem ContentsLegal.dropInstrLines (h : ContentsLegal s) (test : CacheLine → Bool) :
    ContentsLegal (s.dropInstrLines test) :=
  ⟨h.mem_wf, h.dcache, h.icache.filter _⟩

theorem ContentsLegal.flushIndex (h : ContentsLegal s) (index : Option Nat) : ContentsLegal (s.flushIndex index) := by
  cases index with
  | none => exact h
  | some k => exact (h.flushLines (·.hasIndex k)).of_same ⟨rfl, rfl, rfl, rfl⟩

theorem ContentsLegal.flushAddress (h : ContentsLegal s) (index : Option Nat) (pa : Nat) :
    ContentsLegal (s.flushAddress index pa) := by
  cases index with
  | none => exact h
  | some k => exact (h.flushLines (·.isAt k (s.cfg.dBase pa))).of_same ⟨rfl, rfl, rfl, rfl⟩

theorem ContentsLegal.dropIndex (h : ContentsLegal s) (index : Option Nat) : ContentsLegal (s.dropIndex index) := by
  cases index with
  | none => exact h
  | some k => exact h.dropLines _

theorem ContentsLegal.dropAddress (h : ContentsLegal s) (index : Option Nat) (pa : Nat) :
    ContentsLegal (s.dropAddress index pa) := by
  cases index with
  | none => exact h
  | some k => exact h.dropLines _

theorem ContentsLegal.invalidateInstr (h : ContentsLegal s) (va : Word) : ContentsLegal (s.invalidateInstr va) := by
  unfold State.invalidateInstr
  split
  · exact ⟨h.mem_wf, h.dcache, h.icache.filter _⟩
  · exact h.of_same ⟨rfl, rfl, rfl, rfl⟩

end Contents

/-- The line number of a load or store is one that the data cache has. -/
theorem hasDLine_of_dataPath (s : State) (k : Kind) (w : Width) (io : Bool) (va : Word) (p : DataPath)
    (h : s.dataPath k w io va = .ok p) (n : Nat) (hn : p.line = some n) : s.cfg.hasDLine n = true := by
  obtain ⟨-, hline, -, -⟩ := dataPath_ok s k w io va p h
  rcases hline with e | ⟨-, e⟩
  · rw [e] at hn; cases hn
  · exact hasDLine_of_dIndex _ _ _ (e ▸ hn)

end Sys2Proof.Machine
end

section
/-! PROOFS. Every step keeps the invariant (10_state.md rules R28, R31, R37, R52, R60, R72 and R73). -/

namespace Sys2Proof.Machine

/-! ## Exceptions, breaks, interrupts and resets -/

theorem ControlLegal.entered {s : State} (h : ControlLegal s) (t : State)
    (f : ControlFrame { s with status := t.status, tlbmisc := t.tlbmisc } t)
    (hstatus : t.status.legal s.cfg = true) (hway : t.tlbmisc.way &&& s.cfg.wayMask = t.tlbmisc.way) : ControlLegal t :=
  ControlLegal.of_frame (s := { s with status := t.status, tlbmisc := t.tlbmisc })
    { h with status_legal := hstatus, way_significant := hway } f

theorem newTlbmisc_way (e : Exc) (eh : Bool) (m : Tlbmisc) : (e.newTlbmisc eh m).way = m.way := rfl

theorem inv_takeGeneral (e : Exc) (s : State) (h : Inv s) : Inv (takeGeneral e s) := by
  rw [inv_iff] at *
  obtain ⟨hc, -, hm⟩ := h
  refine ⟨hc.entered _ ⟨rfl, rfl, rfl, rfl, rfl, rfl, rfl, rfl, rfl, rfl⟩ (legal_inHandler _ _ hc.status_legal) ?_,
    isInstrAddress_vector _ _ _ hc.config_legal, hm.of_same ⟨rfl, rfl, rfl, rfl⟩⟩
  rw [takeGeneral_tlbmisc]
  split <;> exact hc.way_significant

theorem inv_takeBreak (s : State) (h : Inv s) : Inv (takeBreak s) := by
  rw [inv_iff] at *
  obtain ⟨hc, -, hm⟩ := h
  exact ⟨hc.entered _ ⟨rfl, rfl, rfl, rfl, rfl, rfl, rfl, rfl, rfl, rfl⟩
      (legal_entered _ _ hc.status_legal _ (.inr rfl)) hc.way_significant,
    isInstrAddress_vectorPc _ hc.config_legal _ (by simp), hm.of_same ⟨rfl, rfl, rfl, rfl⟩⟩

/-- The controller asks for a register set of the core, and its handler address is one (60_exceptions.md rule R424). -/
theorem inv_takeExternal (q : EicRequest) (s : State) (h : Inv s) (hset : q.rrs ≤ s.cfg.numShadow)
    (hrha : isInstrAddress q.rha = true) : Inv (takeExternal q s) := by
  rw [inv_iff] at *
  obtain ⟨hc, -, hm⟩ := h
  refine ⟨hc.entered _ ⟨rfl, rfl, rfl, rfl, rfl, rfl, rfl, rfl, rfl, rfl⟩ (legal_implement _ _ ?_) hc.way_significant,
    hrha, hm.of_same ⟨rfl, rfl, rfl, rfl⟩⟩
  obtain ⟨-, hcrs, hprs⟩ := (legal_iff _ _).1 hc.status_legal
  have hprevious : (s.status.inInterrupt q s.config.ani).prs ≤ s.cfg.numShadow := by
    simp only [Status.inInterrupt]
    split
    · exact hprs
    · exact hcrs
  rw [Status.setsExist, Bool.and_eq_true, decide_eq_true_eq, decide_eq_true_eq]
  exact ⟨and_le_of_le _ _ _ hset, and_le_of_le _ _ _ hprevious⟩

theorem inv_takeReset (cause : BitVec 5) (s : State) (h : Inv s) : Inv (takeReset cause s) := by
  rw [inv_iff] at *
  obtain ⟨hc, -, hm⟩ := h
  refine ⟨{ hc with status_legal := legal_afterReset _, config_reg := ⟨nofun, nofun⟩,
                    way_significant := BitVec.zero_and },
    isInstrAddress_vectorPc _ hc.config_legal _ (by simp), hm.mem_wf, hm.dcache, ?_⟩
  show LinesLegal _ _ (takeReset cause s).icache
  unfold takeReset
  dsimp only
  split
  · exact hm.icache.filter _
  · exact hm.icache

/-! ## Control register writes -/

theorem Status.write_legal (c : Config) (old : Status) (v : Word) (h : old.legal c = true)
    (hp : (Status.write c old v).prs ≤ c.numShadow) : (Status.write c old v).legal c = true := by
  obtain ⟨himp, hcrs, -⟩ := (legal_iff c old).1 h
  obtain ⟨-, hnmi, -, hmask, -⟩ := (implement_eq_iff c old old).1 himp
  obtain ⟨hrsie, -, hprs, -, hrest⟩ := (implement_eq_iff c _ _).1 (implement_implement c (Status.ofWord v))
  exact (legal_iff _ _).2 ⟨(implement_eq_iff _ _ _).2 ⟨hrsie, hnmi, hprs, hmask, hrest⟩, hcrs, hp⟩

theorem controlLegal_writeTlbacc (s : State) (v : Word) (h : ControlLegal s) : ControlLegal (s.writeTlbacc v) := by
  unfold State.writeTlbacc
  dsimp only
  split
  · exact { h with tlb_size := (List.length_set ..).trans h.tlb_size
                   way_significant := by simp [BitVec.and_assoc] }
  · exact h.of_frame ⟨rfl, rfl, rfl, rfl, rfl, rfl, rfl, rfl, rfl, rfl⟩

theorem controlLegal_writeTlbmisc (s : State) (v : Word) (h : ControlLegal s) : ControlLegal (s.writeTlbmisc v) := by
  have hway : (v.extractLsb' 20 4 &&& s.cfg.wayMask) &&& s.cfg.wayMask = v.extractLsb' 20 4 &&& s.cfg.wayMask := by
    rw [BitVec.and_assoc, BitVec.and_self]
  unfold State.writeTlbmisc
  dsimp only
  split
  · exact { h with way_significant := hway }
  · exact { h with way_significant := hway }

theorem controlLegal_writeMpuacc (s u : State) (v : Word) (h : ControlLegal s) (hw : s.writeMpuacc v = .ok u) :
    ControlLegal u := by
  obtain ⟨hframe, -, -, -, hinstr, hdata⟩ := writeCtl_ok s u .mpuacc v hw
  have hsizes : u.mpuInstr.length = s.cfg.mpuIRegions ∧ u.mpuData.length = s.cfg.mpuDRegions :=
    ⟨hinstr.trans h.mpu_sizes.1, hdata.trans h.mpu_sizes.2⟩
  unfold State.writeMpuacc at hw
  dsimp only at hw
  split at hw
  · cases hw
  · split at hw
    · split at hw
      · cases hw
      · split at hw
        · cases hw; exact { h with mpu_sizes := hsizes }
        · cases hw; exact h.of_frame ⟨rfl, rfl, rfl, rfl, rfl, rfl, rfl, rfl, rfl, rfl⟩
    · cases hw; exact h.of_frame ⟨rfl, rfl, rfl, rfl, rfl, rfl, rfl, rfl, rfl, rfl⟩

theorem controlLegal_writeCtl (s u : State) (n : CtlReg) (v : Word) (h : ControlLegal s)
    (hw : s.writeCtl n v = .ok u) : ControlLegal u := by
  cases n
  case status =>
    simp only [State.writeCtl] at hw
    split at hw
    · rename_i hp
      cases hw
      exact { h with status_legal := Status.write_legal _ _ _ h.status_legal hp }
    · cases hw
  case tlbacc =>
    cases hw
    exact (controlLegal_writeTlbacc s v h).of_frame ⟨rfl, rfl, rfl, rfl, rfl, rfl, rfl, rfl, rfl, rfl⟩
  case tlbmisc =>
    cases hw
    exact (controlLegal_writeTlbmisc s v h).of_frame ⟨rfl, rfl, rfl, rfl, rfl, rfl, rfl, rfl, rfl, rfl⟩
  case mpuacc => exact controlLegal_writeMpuacc s u v h hw
  case ienable => cases hw; exact { h with ienable_connected := ienableOf_ienableOf _ _ }
  case config =>
    cases hw
    exact { h with config_reg := ⟨by simp [ConfigReg.ofWord], by simp [ConfigReg.ofWord]⟩ }
  case eccinj | reserved => cases hw
  all_goals
    cases hw
    exact h.of_frame ⟨rfl, rfl, rfl, rfl, rfl, rfl, rfl, rfl, rfl, rfl⟩

theorem sameContents_writeCtl (s u : State) (n : CtlReg) (v : Word) (hw : s.writeCtl n v = .ok u) :
    SameContents s u ∧ u.pc = s.pc := by
  obtain ⟨hframe, -⟩ := writeCtl_ok s u n v hw
  exact ⟨⟨(congrArg State.cfg hframe :), (congrArg State.mem hframe :), (congrArg State.dcache hframe :),
    (congrArg State.icache hframe :)⟩, (congrArg State.pc hframe :)⟩

/-! ## What the accesses and the cache operations leave alone -/

/-- `t` has the pc of `s` and all that `ControlLegal` speaks of. -/
def Undisturbed (s t : State) : Prop := ControlFrame s t ∧ t.pc = s.pc

theorem undisturbed_drawn (s : State) (n : Nat) : Undisturbed s (s.drawn n) :=
  ⟨⟨rfl, rfl, rfl, rfl, rfl, rfl, rfl, rfl, rfl, rfl⟩, rfl⟩

theorem undisturbed_fillData (s : State) (p : DataPath) : Undisturbed s (s.fillData p) := by
  have f := s.fillData_frame p
  exact ⟨⟨(congrArg State.cfg f :), (congrArg State.status f :), (congrArg State.config f :),
    (congrArg State.tlbmisc f :), (congrArg State.tlb f :), (congrArg State.mpuInstr f :),
    (congrArg State.mpuData f :), (congrArg State.ienable f :), (congrArg State.pins f :),
    (congrArg State.inputs f :)⟩, (congrArg State.pc f :)⟩

theorem undisturbed_delivered (s : State) (va : Word) (p : DataPath) (bytes : List Byte) :
    Undisturbed s (s.delivered va p bytes) := by
  have f := s.delivered_frame va p bytes
  exact ⟨⟨(congrArg State.cfg f :), (congrArg State.status f :), (congrArg State.config f :),
    (congrArg State.tlbmisc f :), (congrArg State.tlb f :), (congrArg State.mpuInstr f :),
    (congrArg State.mpuData f :), (congrArg State.ienable f :), (congrArg State.pins f :),
    (congrArg State.inputs f :)⟩, (congrArg State.pc f :)⟩

theorem undisturbed_flushIndex (s : State) (index : Option Nat) : Undisturbed s (s.flushIndex index) := by
  cases index <;> exact ⟨⟨rfl, rfl, rfl, rfl, rfl, rfl, rfl, rfl, rfl, rfl⟩, rfl⟩

theorem undisturbed_flushAddress (s : State) (index : Option Nat) (pa : Nat) :
    Undisturbed s (s.flushAddress index pa) := by
  cases index <;> exact ⟨⟨rfl, rfl, rfl, rfl, rfl, rfl, rfl, rfl, rfl, rfl⟩, rfl⟩

theorem undisturbed_dropIndex (s : State) (index : Option Nat) : Undisturbed s (s.dropIndex index) := by
  cases index <;> exact ⟨⟨rfl, rfl, rfl, rfl, rfl, rfl, rfl, rfl, rfl, rfl⟩, rfl⟩

theorem undisturbed_dropAddress (s : State) (index : Option Nat) (pa : Nat) :
    Undisturbed s (s.dropAddress index pa) := by
  cases index <;> exact ⟨⟨rfl, rfl, rfl, rfl, rfl, rfl, rfl, rfl, rfl, rfl⟩, rfl⟩

theorem undisturbed_invalidateInstr (s : State) (va : Word) : Undisturbed s (s.invalidateInstr va) := by
  unfold State.invalidateInstr
  split <;> exact ⟨⟨rfl, rfl, rfl, rfl, rfl, rfl, rfl, rfl, rfl, rfl⟩, rfl⟩

/-! ## Instructions -/

/-- A state that is legal in each part is legal at any address of an instruction, whatever the registers hold. -/
theorem inv_of_undisturbed (s u t : State) (hs : Inv s) (hu : Undisturbed s u) (hm : ContentsLegal u)
    (hf : ControlFrame u t) (hc : SameContents u t) (hpc : t.pc = u.pc + 4 ∨ isInstrAddress t.pc = true) : Inv t := by
  obtain ⟨hctl, hpc', -⟩ := (inv_iff s).1 hs
  refine (inv_iff t).2 ⟨(hctl.of_frame hu.1).of_frame hf, ?_, hm.of_same hc⟩
  rcases hpc with h | h
  · rw [h, hu.2]
    exact isInstrAddress_next _ hpc'
  · exact h

theorem inv_advance (s u : State) (hs : Inv s) (hu : Undisturbed s u) (hm : ContentsLegal u) : Inv u.advance :=
  inv_of_undisturbed s u _ hs hu hm ⟨rfl, rfl, rfl, rfl, rfl, rfl, rfl, rfl, rfl, rfl⟩ ⟨rfl, rfl, rfl, rfl⟩ (.inl rfl)

theorem inv_retire (s u : State) (r : RegNum) (v : Word) (hs : Inv s) (hu : Undisturbed s u)
    (hm : ContentsLegal u) : Inv (u.retire r v) :=
  inv_of_undisturbed s u _ hs hu hm ⟨rfl, rfl, rfl, rfl, rfl, rfl, rfl, rfl, rfl, rfl⟩ ⟨rfl, rfl, rfl, rfl⟩ (.inl rfl)

theorem inv_drawn (s : State) (n : Nat) (hs : Inv s) : Inv (s.drawn n) := by
  obtain ⟨hc, hpc, hm⟩ := (inv_iff s).1 hs
  exact (inv_iff _).2 ⟨hc.of_frame (undisturbed_drawn s n).1, hpc, hm.of_same ⟨rfl, rfl, rfl, rfl⟩⟩

theorem inv_returned (saved : Status) (target : Word) (s after : State) (hs : Inv s)
    (hafter : after = s ∨ after = s.released) (aligned : isInstrAddress target = true)
    (sets : (saved.implement s.cfg).setsExist s.cfg = true) :
    Inv { after with status := saved.implement s.cfg, pc := target, mpuOld := [] } := by
  obtain ⟨hc, -, hm⟩ := (inv_iff s).1 hs
  have hstatus : (saved.implement s.cfg).legal s.cfg = true := legal_implement _ _ sets
  rcases hafter with rfl | rfl
  · exact (inv_iff _).2 ⟨{ hc with status_legal := hstatus }, aligned, hm.of_same ⟨rfl, rfl, rfl, rfl⟩⟩
  · refine (inv_iff _).2 ⟨hc.entered _ ?_ (by simpa using hstatus) (by simpa using hc.way_significant), aligned,
      hm.of_same ?_⟩
    · simp [ControlFrame]
    · simp [SameContents]

theorem inv_exec (i : Instr) (s t : State) (hs : Inv s) (h : exec i s = .next t) : Inv t := by
  obtain ⟨hc, hpc, hm⟩ := (inv_iff s).1 hs
  have hdrawn : ∀ n, ContentsLegal (s.drawn n) := fun n => hm.of_same ⟨rfl, rfl, rfl, rfl⟩
  have hafter : ∀ n u, Undisturbed (s.drawn n) u → ContentsLegal u → Inv u.advance :=
    fun n u hu => inv_advance _ u (inv_drawn s n hs) hu
  cases exec_effect i s t h with
  | raised e n => exact inv_takeGeneral e _ (inv_drawn s n hs)
  | broke => exact inv_takeBreak s hs
  | retired n r v => exact inv_retire s _ r v hs (undisturbed_drawn s n) (hdrawn n)
  | advanced n => exact inv_advance s _ hs (undisturbed_drawn s n) (hdrawn n)
  | jumped target aligned | linked target aligned =>
    exact inv_of_undisturbed s s _ hs (undisturbed_drawn s 0) hm ⟨rfl, rfl, rfl, rfl, rfl, rfl, rfl, rfl, rfl, rfl⟩
      ⟨rfl, rfl, rfl, rfl⟩ (.inr aligned)
  | loaded w io va p r v path =>
    exact inv_retire _ _ r v (inv_drawn s _ hs) (undisturbed_fillData _ p)
      ((hdrawn _).fillData p (hasDLine_of_dataPath s _ w io va p path))
  | stored w io va p bytes _ path =>
    exact hafter _ _ (undisturbed_delivered _ va p bytes)
      ((hdrawn _).delivered va p bytes (hasDLine_of_dataPath s _ w io va p path))
  | flushedIndex index => exact inv_advance s _ hs (undisturbed_flushIndex s index) (hm.flushIndex index)
  | flushedAddress n index pa =>
    exact hafter n _ (undisturbed_flushAddress _ index pa) ((hdrawn n).flushAddress index pa)
  | droppedIndex index => exact inv_advance s _ hs (undisturbed_dropIndex s index) (hm.dropIndex index)
  | droppedAddress n index pa =>
    exact hafter n _ (undisturbed_dropAddress _ index pa) ((hdrawn n).dropAddress index pa)
  | invalidated va => exact inv_advance s _ hs (undisturbed_invalidateInstr s va) (hm.invalidateInstr va)
  | flushedPipeline | wrotePrevious r v =>
    exact inv_of_undisturbed s s _ hs (undisturbed_drawn s 0) hm ⟨rfl, rfl, rfl, rfl, rfl, rfl, rfl, rfl, rfl, rfl⟩
      ⟨rfl, rfl, rfl, rfl⟩ (.inl rfl)
  | returned saved target after hafter aligned sets => exact inv_returned saved target s after hs hafter aligned sets
  | controlled n rA u _ write =>
    obtain ⟨hsame, hpc'⟩ := sameContents_writeCtl s u n _ write
    refine (inv_iff _).2 ⟨(controlLegal_writeCtl s u n _ hc write).of_frame
      ⟨rfl, rfl, rfl, rfl, rfl, rfl, rfl, rfl, rfl, rfl⟩, ?_, (hm.of_same hsame).of_same ⟨rfl, rfl, rfl, rfl⟩⟩
    rw [State.advance_pc, hpc']
    exact isInstrAddress_next _ hpc

/-! ## The boundary, events and the fetch -/

theorem controlLegal_debuggerActs (s : State) (d : Option DebugWrites) (h : ControlLegal s) :
    ControlLegal (s.debuggerActs d) :=
  h.of_frame (by simp [ControlFrame])

theorem inv_boundary (s : State) (hs : Inv s) : Inv s.boundary := by
  obtain ⟨hc, hpc, hm⟩ := (inv_iff s).1 hs
  unfold State.boundary
  split
  · exact (inv_iff _).2 ⟨{ hc with }, hpc, hm.of_same ⟨rfl, rfl, rfl, rfl⟩⟩
  · rename_i b rest hin
    have hb := hc.inputs_legal b (by simp [hin])
    have hrest : ∀ b' ∈ rest, b'.pins.legal s.cfg = true := fun b' hb' => hc.inputs_legal b' (by simp [hin, hb'])
    have hmem : ContentsLegal { s with mem := s.mem.writeCells b.busWrites } :=
      ⟨Memory.writeCells_wf _ _ hm.mem_wf, hm.dcache, hm.icache⟩
    have hlines := (hmem.flushLines (·.isNamed b.evictData)).dropInstrLines (·.isNamed b.evictInstr)
    refine (inv_iff _).2 ⟨ControlLegal.of_frame (s := { s with pins := b.pins, inputs := rest })
      { hc with pins_legal := hb, inputs_legal := hrest } ?_, ?_, hlines.of_same ?_⟩
    · simp [ControlFrame]
    · simpa using hpc
    · simp [SameContents]

theorem inv_takeRequest (q : EicRequest) (s t : State) (hs : Inv s) (hq : s.pins.eic = some q)
    (h : takeRequest q s = .next t) : Inv t := by
  have hrha : isInstrAddress q.rha = true := by
    have := hs.pins_legal
    rw [Pins.legal, hq, Option.all_some, Bool.and_eq_true] at this
    exact this.1
  unfold takeRequest at h
  split at h
  · cases h; exact inv_takeExternal q s hs ‹_› hrha
  · cases h

theorem externalPending_eq_some (s : State) (q : EicRequest) (h : s.externalPending = some q) :
    s.cfg.hasEic = true ∧ s.pins.eic = some q ∧ s.mayTake q = true := by
  unfold State.externalPending at h
  split at h
  · exact ⟨‹_›, Option.filter_eq_some_iff.1 h⟩
  · cases h

theorem inv_event (s t : State) (hs : Inv s) (h : s.event = some (.next t)) : Inv t := by
  unfold State.event at h
  split at h
  · cases h; exact inv_takeReset _ _ hs
  · split at h
    · cases h; exact inv_takeBreak _ hs
    · split at h
      · cases h; exact inv_takeReset _ _ hs
      · split at h
        · cases h; exact inv_takeGeneral _ _ hs
        · split at h
          · obtain ⟨q, hq, htake⟩ := Option.map_eq_some_iff.1 h
            exact inv_takeRequest q s t hs (externalPending_eq_some s q hq).2.1 htake
          · cases h

/-- A fetch that passes its checks: the pc is aligned, its physical address is fetchable and not stale, and an
instruction cache line is used only where the address is ordinary memory (20_memory.md rule R158). -/
theorem fetchPath_ok (s : State) (p : DataPath) (h : s.fetchPath = .ok p) :
    s.pc &&& 3#32 = 0 ∧ ∃ pa kind, s.translateFetch s.pc = .ok pa ∧ s.cfg.fetchRegion pa = some kind ∧
      s.isStale pa = false ∧ p = { pa := pa, line := if kind == .memory then s.cfg.iIndex s.pc else none } := by
  unfold State.fetchPath at h
  split at h
  · cases h
  · rename_i halign
    rw [Check.bind_ok] at h
    obtain ⟨pa, hpa, h⟩ := h
    refine ⟨by simpa using halign, pa, ?_⟩
    split at h
    · cases h
    · rename_i kind hkind
      split at h
      · cases h
      · cases h
        exact ⟨kind, hpa, hkind, Bool.eq_false_iff.2 ‹_›, rfl⟩

theorem hasILine_of_fetchPath (s : State) (p : DataPath) (h : s.fetchPath = .ok p) (k : Nat) (hk : p.line = some k) :
    s.cfg.hasILine k = true := by
  obtain ⟨-, pa, kind, -, -, -, rfl⟩ := fetchPath_ok s p h
  dsimp only at hk
  split at hk
  · exact hasILine_of_iIndex _ _ _ hk
  · cases hk

theorem inv_fetched (s : State) (p : DataPath) (hs : Inv s) (hp : s.fetchPath = .ok p) : Inv (s.fetched p) := by
  have hd := inv_drawn s s.accessDraws hs
  unfold State.fetched
  dsimp only
  split
  · rename_i k hk
    split
    · exact hd
    · rename_i hmiss
      obtain ⟨hc, hpc, hm⟩ := (inv_iff _).1 hd
      exact (inv_iff _).2 ⟨{ hc with }, hpc, hm.mem_wf, hm.dcache,
        hm.icache.fill _ _ _ _ hmiss (iBase_iBase _ _) (hasILine_of_fetchPath s p hp k hk)⟩
  · exact hd

theorem inv_runInstruction (s t : State) (hs : Inv s) (h : runInstruction s = .next t) : Inv t := by
  rcases Check.run_next _ _ _ _ h with ⟨p, hp, hk⟩ | ⟨e, -, rfl⟩
  · have hf := inv_fetched s p hs hp
    split at hk
    · exact inv_exec _ _ _ hf hk
    · unfold illegalInstruction at hk
      split at hk
      · cases hk; exact inv_takeGeneral _ _ hf
      · cases hk
  · exact inv_takeGeneral e _ (inv_drawn s _ hs)

/-- Settles O57: the boundary keeps the invariant, and so does what is taken there or the instruction that runs. -/
theorem stepKeepsInv : Obligations.StepKeepsInv := by
  intro s t hs h
  have hb := inv_boundary s hs
  unfold step at h
  split at h
  · rename_i r hr
    exact inv_event _ _ hb (h ▸ hr)
  · exact inv_runInstruction _ _ hb h

/-! ## What user mode cannot do, and who writes memory -/

/-- Settles O59: of what an instruction leaves (`Left`), an ordinary end is the first case, an exception or a break the
second, and the rest needs supervisor mode. -/
theorem userModeConfined : Obligations.UserModeConfined := by
  intro s t i hu h
  rcases exec_next i s t h with hordinary | ⟨e, n, rfl⟩ | rfl | ⟨hsupervisor, -⟩
  · exact .inl hordinary
  · refine .inr ⟨rfl, rfl, rfl, ?_, rfl⟩
    rw [takeGeneral_pc, Exc.vector]
    split <;> simp
  · exact .inr ⟨rfl, rfl, rfl, by simp, rfl⟩
  · rw [hu] at hsupervisor; cases hsupervisor

/-- An instruction that can write memory is one of the eight. -/
theorem mem_of_writesMemory (i : Instr) (h : i.writesMemory = true) :
    ∃ rB rA imm, i ∈ [Instr.stw rB rA imm, .stwio rB rA imm, .sth rB rA imm, .sthio rB rA imm, .stb rB rA imm,
      .stbio rB rA imm, .flushd rA imm, .flushda rA imm] := by
  cases i
  case stw rB rA imm | stwio rB rA imm | sth rB rA imm | sthio rB rA imm | stb rB rA imm | stbio rB rA imm =>
    exact ⟨rB, rA, imm, by simp⟩
  case flushd rA imm | flushda rA imm => exact ⟨0, rA, imm, by simp⟩
  all_goals cases h

/-- What an instruction leaves as it was: the configuration, the inputs and, if it is no `wrctl`, the TLB and the
regions; if it is not one that writes memory, memory. -/
def Confined (i : Instr) (s t : State) : Prop :=
  t.cfg = s.cfg ∧ t.pins = s.pins ∧ t.inputs = s.inputs ∧
    ((∀ n rA, i ≠ .wrctl n rA) → t.tlb = s.tlb ∧ t.mpuInstr = s.mpuInstr ∧ t.mpuData = s.mpuData) ∧
    (i.writesMemory = false → t.mem = s.mem)

theorem confined_of_frame (i : Instr) (s t : State) (h : ControlFrame s t)
    (hm : i.writesMemory = false → t.mem = s.mem) : Confined i s t := by
  obtain ⟨hcfg, -, -, -, htlb, hinstr, hdata, -, hpins, hinputs⟩ := h
  exact ⟨hcfg, hpins, hinputs, fun _ => ⟨htlb, hinstr, hdata⟩, hm⟩

theorem exec_confined (i : Instr) (s t : State) (h : exec i s = .next t) : Confined i s t := by
  have hwriter : i.writesMemory = true → ∀ m, i.writesMemory = false → m = s.mem := by
    intro hw m hno
    rw [hw] at hno
    cases hno
  cases exec_effect i s t h with
  | loaded w io va p r v path =>
    exact confined_of_frame _ (s.drawn s.accessDraws) _ (undisturbed_fillData _ p).1 (fun _ => State.fillData_mem _ p)
  | stored w io va p bytes writes path =>
    exact confined_of_frame _ (s.drawn s.accessDraws) _ (undisturbed_delivered _ va p bytes).1 (hwriter writes _)
  | flushedIndex index writes => exact confined_of_frame _ s _ (undisturbed_flushIndex s index).1 (hwriter writes _)
  | flushedAddress n index pa writes =>
    exact confined_of_frame _ (s.drawn n) _ (undisturbed_flushAddress _ index pa).1 (hwriter writes _)
  | droppedIndex index =>
    exact confined_of_frame _ s _ (undisturbed_dropIndex s index).1 (fun _ => by cases index <;> rfl)
  | droppedAddress n index pa =>
    exact confined_of_frame _ (s.drawn n) _ (undisturbed_dropAddress _ index pa).1 (fun _ => by cases index <;> rfl)
  | invalidated va =>
    exact confined_of_frame _ s _ (undisturbed_invalidateInstr s va).1
      (fun _ => by unfold State.invalidateInstr; split <;> rfl)
  | returned saved target after hafter => rcases hafter with rfl | rfl <;> simp [Confined]
  | controlled n rA u hi write =>
    obtain ⟨hframe, -⟩ := writeCtl_ok s u n _ write
    exact ⟨(congrArg State.cfg hframe :), (congrArg State.pins hframe :), (congrArg State.inputs hframe :),
      fun hno => absurd hi (hno n rA), fun _ => (congrArg State.mem hframe :)⟩
  | _ => exact ⟨rfl, rfl, rfl, fun _ => ⟨rfl, rfl, rfl⟩, fun _ => rfl⟩

/-- Settles O60: what each effect of an instruction leaves alone. -/
theorem memoryWriters : Obligations.MemoryWriters := by
  intro s t i h
  obtain ⟨hcfg, hpins, hinputs, hregions, hmem⟩ := exec_confined i s t h
  refine ⟨hcfg, hpins, hinputs, hregions, fun hno => hmem (Bool.eq_false_iff.2 fun hw => ?_)⟩
  obtain ⟨rB, rA, imm, hin⟩ := mem_of_writesMemory i hw
  exact hno rB rA imm hin

end Sys2Proof.Machine
end

section
/-! PROOFS. The instructions that compute a result: logic, sums, products, quotients, comparisons, shifts and rotates
(41_arithmetic_logical.md, 43_comparison.md, 44_shift_rotate.md). -/

namespace Sys2Proof.Machine

/-! ## The end of an instruction with a result -/

theorem retires_of_exec {i : Instr} {s : State} {r : RegNum} {v' v : Word} (h : exec i s = .next (s.retire r v'))
    (hv : v' = v) : ∃ t, exec i s = .next t ∧ Retires s t r v :=
  ⟨_, h, hv ▸ retires_retire s r v'⟩

theorem retires_with_of_exec {i : Instr} {s : State} {r : RegNum} {v : Word} {P : Word → Prop}
    (h : exec i s = .next (s.retire r v)) (hv : P v) : ∃ t v, exec i s = .next t ∧ Retires s t r v ∧ P v :=
  ⟨_, v, h, retires_retire s r v, hv⟩

theorem ifImplemented_of_present (present : Bool) (s : State) (k : Result) (h : present = true) :
    ifImplemented present s k = k := by
  subst h
  rfl

/-! ## Immediates -/

theorem zext16_toNat (imm : BitVec 16) : (zext16 imm).toNat = imm.toNat := by
  have := imm.isLt
  rw [zext16, BitVec.toNat_setWidth]
  omega

theorem zext16_eq_append (imm : BitVec 16) : zext16 imm = 0#16 ++ imm := by
  apply BitVec.eq_of_toNat_eq
  rw [zext16_toNat, BitVec.toNat_append]
  simp

theorem sext16_eq_ofInt (imm : BitVec 16) : sext16 imm = BitVec.ofInt 32 imm.toInt := rfl

theorem sext16_toInt (imm : BitVec 16) : (sext16 imm).toInt = imm.toInt := by
  have h1 := imm.toInt_lt
  have h2 := imm.le_toInt
  rw [sext16, BitVec.toInt_signExtend]
  exact Int.bmod_eq_of_le (by norm_num at *; omega) (by norm_num at *; omega)

/-! ## Logic and sums -/

/-- Settles O20: each of the ten ends with its bitwise result; the immediate is extended on the left or on the right. -/
theorem logicalResults : Obligations.LogicalResults := by
  intro s rC rA rB imm
  refine ⟨retires_of_exec rfl rfl, retires_of_exec rfl rfl, retires_of_exec rfl rfl, retires_of_exec rfl rfl,
    retires_of_exec rfl ?_, retires_of_exec rfl ?_, retires_of_exec rfl ?_, retires_of_exec rfl rfl,
    retires_of_exec rfl rfl, retires_of_exec rfl rfl⟩
  all_goals rw [zext16_eq_append]

/-- Settles O21: the sum of words is that of numbers modulo 2^32, also with a signed immediate. -/
theorem sumResults : Obligations.SumResults := by
  intro s rC rA rB imm
  refine ⟨retires_with_of_exec rfl ?_, retires_with_of_exec rfl ?_, retires_with_of_exec rfl ?_⟩
  · exact BitVec.toNat_add _ _
  · have hA := (s.x rA).isLt
    have hB := (s.x rB).isLt
    rw [BitVec.toNat_sub]
    omega
  · have hA := (s.x rA).isLt
    rw [BitVec.toNat_add, sext16_eq_ofInt, BitVec.toNat_ofInt]
    omega

/-! ## Products -/

/-- The two words of a number modulo 2^64. -/
theorem highWord_append (p : Int) : highWord p ++ BitVec.ofInt 32 p = BitVec.ofInt 64 p := by
  apply BitVec.eq_of_toNat_eq
  rw [BitVec.toNat_append, ← Nat.shiftLeft_add_eq_or_of_lt (BitVec.isLt _), Nat.shiftLeft_eq, highWord,
    BitVec.toNat_ofInt, BitVec.toNat_ofInt, BitVec.toNat_ofInt]
  omega

/-- The low word of a product of words, whichever numbers the words stand for. -/
theorem mul_eq_ofInt (a b : Word) (x y : Int) (ha : BitVec.ofInt 32 x = a) (hb : BitVec.ofInt 32 y = b) :
    a * b = BitVec.ofInt 32 (x * y) := by
  rw [BitVec.ofInt_mul, ha, hb]

theorem ofInt_toNat (a : Word) : BitVec.ofInt 32 (a.toNat : Int) = a := by
  rw [BitVec.ofInt_natCast, BitVec.ofNat_toNat, BitVec.setWidth_eq]

/-- A product of which one factor is a signed word and the other at most 2^32 in size fits in 64 bits. -/
theorem toInt_ofInt_mul (x y : Int) (hx : -2 ^ 31 ≤ x ∧ x < 2 ^ 31) (hy : -2 ^ 31 ≤ y ∧ y < 2 ^ 32) :
    (BitVec.ofInt 64 (x * y)).toInt = x * y := by
  have hbound : |x * y| ≤ 2 ^ 31 * (2 ^ 32 - 1) := by
    rw [abs_mul]
    exact mul_le_mul (abs_le.2 (by omega)) (abs_le.2 (by omega)) (abs_nonneg _) (by norm_num)
  rw [abs_le] at hbound
  rw [BitVec.toInt_ofInt]
  exact Int.bmod_eq_of_le (by norm_num at *; omega) (by norm_num at *; omega)

theorem toInt_bounds (a : Word) : -2 ^ 31 ≤ a.toInt ∧ a.toInt < 2 ^ 31 := ⟨a.le_toInt, a.toInt_lt⟩

/-- Settles O22: high and low word are the two words of the product modulo 2^64, in which it fits. -/
theorem productResults : Obligations.ProductResults := by
  intro s rC rA rB imm
  have hB := (s.x rB).isLt
  refine ⟨fun hp => retires_of_exec (ifImplemented_of_present _ _ _ hp) rfl,
    fun hp => retires_of_exec (ifImplemented_of_present _ _ _ hp) rfl,
    fun hp => retires_with_of_exec (ifImplemented_of_present _ _ _ hp) ?_,
    fun hp => retires_with_of_exec (ifImplemented_of_present _ _ _ hp) ?_,
    fun hp => retires_with_of_exec (ifImplemented_of_present _ _ _ hp) ?_⟩
  · have hlt : (s.x rA).toNat * (s.x rB).toNat < 2 ^ 32 * 2 ^ 32 := Nat.mul_lt_mul'' (s.x rA).isLt hB
    rw [mul_eq_ofInt _ _ _ _ (ofInt_toNat (s.x rA)) (ofInt_toNat (s.x rB)), highWord_append, BitVec.toNat_ofInt,
      ← Nat.cast_mul]
    omega
  · rw [mul_eq_ofInt _ _ _ _ (BitVec.ofInt_toInt (x := s.x rA)) (BitVec.ofInt_toInt (x := s.x rB)), highWord_append]
    have hb := toInt_bounds (s.x rB)
    exact toInt_ofInt_mul _ _ (toInt_bounds _) (by omega)
  · rw [mul_eq_ofInt _ _ _ _ (BitVec.ofInt_toInt (x := s.x rA)) (ofInt_toNat (s.x rB)), highWord_append]
    exact toInt_ofInt_mul _ _ (toInt_bounds _) (by omega)

/-! ## Quotients -/

theorem divisionError_eq_false_iff (signed : Bool) (a b : Word) :
    divisionError signed a b = false ↔ b ≠ 0 ∧ (signed = true → ¬(a = 0x80000000 ∧ b = 0xFFFFFFFF)) := by
  cases signed <;> simp [divisionError]

theorem divideInto_of_quotient (signed : Bool) (q : Word) (rC : RegNum) (a b : Word) (s : State)
    (h : divisionError signed a b = false) : divideInto signed q rC a b s = .next (s.retire rC q) := by
  rw [divideInto, if_neg (by simp [h])]

/-- Settles O23: without a division error the quotient is written; a truncated signed quotient fits in a word but for
the one that is excluded. -/
theorem quotientResults : Obligations.QuotientResults := by
  intro s rC rA rB h0
  refine ⟨fun hp hoverflow => ?_, fun hp => ?_⟩
  · have herr : divisionError true (s.x rA) (s.x rB) = false :=
      (divisionError_eq_false_iff _ _ _).2 ⟨h0, fun _ => hoverflow⟩
    refine retires_with_of_exec ((ifImplemented_of_present _ _ _ hp).trans (divideInto_of_quotient _ _ _ _ _ _ herr)) ?_
    have hfits : s.x rA ≠ BitVec.intMin 32 ∨ s.x rB ≠ -1#32 := by
      by_contra hneither
      obtain ⟨hA, hB⟩ := not_or.1 hneither
      exact hoverflow ⟨not_not.1 hA, not_not.1 hB⟩
    rw [BitVec.toInt_ofInt, ← BitVec.toInt_sdiv, BitVec.toInt_sdiv_of_ne_or_ne _ _ hfits]
  · have herr : divisionError false (s.x rA) (s.x rB) = false := (divisionError_eq_false_iff _ _ _).2 ⟨h0, nofun⟩
    refine retires_with_of_exec ((ifImplemented_of_present _ _ _ hp).trans (divideInto_of_quotient _ _ _ _ _ _ herr)) ?_
    have hle := Nat.div_le_self (s.x rA).toNat (s.x rB).toNat
    have hA := (s.x rA).isLt
    rw [BitVec.toNat_ofNat, Nat.mod_eq_of_lt (by omega)]

/-- A division without a representable quotient: the exception, or with detection off a free value in the destination.
-/
theorem divideInto_of_error (signed : Bool) (q : Word) (rC : RegNum) (a b : Word) (s : State)
    (h : divisionError signed a b = true) :
    (s.cfg.divErrorDetect = true → divideInto signed q rC a b s = .next (takeGeneral .division s)) ∧
      (s.cfg.divErrorDetect = false → ∃ t v, divideInto signed q rC a b s = .next t ∧ t.pc = s.pc + 4 ∧
        WritesRegister s t rC v ∧ { t with pc := s.pc, regs := s.regs, draws := s.draws } = s) := by
  rw [divideInto, if_pos h]
  refine ⟨fun hd => by rw [if_pos hd]; rfl, fun hd => ?_⟩
  rw [if_neg (by simp [hd])]
  exact ⟨_, Config.freeWord s.draws, rfl, rfl, writesRegister_of_regs _ _ _ _ rfl, rfl⟩

/-- Settles O24: both corners are division errors. -/
theorem divisionErrorOutcome : Obligations.DivisionErrorOutcome := by
  intro s rC rA rB
  refine ⟨fun hcorner hp => ?_, fun h0 hp => ?_⟩
  · have herr : divisionError true (s.x rA) (s.x rB) = true := by
      rcases hcorner with h0 | ⟨hA, hB⟩
      · simp [divisionError, h0]
      · simp [divisionError, hA, hB]
    rw [show exec (.div rC rA rB) s = _ from ifImplemented_of_present _ _ _ hp]
    exact divideInto_of_error _ _ _ _ _ _ herr
  · have herr : divisionError false (s.x rA) (s.x rB) = true := by simp [divisionError, h0]
    rw [show exec (.divu rC rA rB) s = _ from ifImplemented_of_present _ _ _ hp]
    exact divideInto_of_error _ _ _ _ _ _ herr

/-! ## Comparisons -/

theorem boolWord_eq (b : Bool) (p : Prop) [Decidable p] (h : b = true ↔ p) :
    boolWord b = if p then 1 else 0 := by
  simp only [boolWord, h]

theorem boolWord_eq_not (b : Bool) (p : Prop) [Decidable p] (h : b = true ↔ ¬p) :
    boolWord b = if p then 0 else 1 := by
  simp only [boolWord, h]
  split <;> simp_all

theorem eq_sext16_iff (a : Word) (imm : BitVec 16) : a = sext16 imm ↔ a.toInt = imm.toInt := by
  rw [← BitVec.toInt_inj, sext16_toInt]

/-- Settles O26: each relation and its negation, between words or a word and its extended immediate. -/
theorem comparisonResults : Obligations.ComparisonResults := by
  intro s rC rA rB imm
  refine ⟨retires_of_exec rfl (boolWord_eq _ _ ?_), retires_of_exec rfl (boolWord_eq_not _ _ ?_),
    retires_of_exec rfl (boolWord_eq_not _ _ ?_), retires_of_exec rfl (boolWord_eq_not _ _ ?_),
    retires_of_exec rfl (boolWord_eq _ _ ?_), retires_of_exec rfl (boolWord_eq _ _ ?_),
    retires_of_exec rfl (boolWord_eq _ _ ?_), retires_of_exec rfl (boolWord_eq_not _ _ ?_),
    retires_of_exec rfl (boolWord_eq_not _ _ ?_), retires_of_exec rfl (boolWord_eq_not _ _ ?_),
    retires_of_exec rfl (boolWord_eq _ _ ?_), retires_of_exec rfl (boolWord_eq _ _ ?_)⟩
  all_goals simp [Relation.holds, eq_sext16_iff, sext16_toInt, zext16_toNat]

/-! ## Shifts and rotates -/

theorem shiftCount_eq (v : Word) : shiftCount v = v.toNat % 32 := by
  simp [shiftCount, BitVec.extractLsb'_toNat]

/-- A left rotation by `n` brings bit `j` to `j + n`, around the top. -/
theorem getLsbD_rotateLeftBy (v : Word) (n j : Nat) (hn : n < 32) (hj : j < 32) :
    (rotateLeftBy v n).getLsbD ((j + n) % 32) = v.getLsbD j := by
  rw [rotateLeftBy, BitVec.getLsbD_or, BitVec.getLsbD_shiftLeft, BitVec.getLsbD_ushiftRight]
  by_cases hwrap : j + n < 32
  · rw [Nat.mod_eq_of_lt hwrap, BitVec.getLsbD_of_ge v (32 - n + (j + n)) (by omega), Nat.add_sub_cancel]
    simp [hwrap]
  · rw [show (j + n) % 32 = j + n - 32 by omega, show 32 - n + (j + n - 32) = j by omega]
    simp [show j + n - 32 < n by omega]

/-- A right rotation by `n` brings bit `j + n`, around the top, to `j`. -/
theorem getLsbD_rotateRightBy (v : Word) (n j : Nat) (hn : n < 32) (hj : j < 32) :
    (rotateRightBy v n).getLsbD j = v.getLsbD ((j + n) % 32) := by
  rw [rotateRightBy, BitVec.getLsbD_or, BitVec.getLsbD_shiftLeft, BitVec.getLsbD_ushiftRight]
  by_cases hwrap : j + n < 32
  · rw [Nat.mod_eq_of_lt hwrap, Nat.add_comm j n]
    simp [show j < 32 - n by omega]
  · rw [BitVec.getLsbD_of_ge v (n + j) (by omega), show (j + n) % 32 = j - (32 - n) by omega]
    simp [hj, show ¬j < 32 - n by omega]

theorem getLsbD_sll (v : Word) (n j : Nat) (hj : j < 32) :
    (v <<< n).getLsbD j = (decide (n ≤ j) && v.getLsbD (j - n)) := by
  simp only [BitVec.getLsbD_shiftLeft, hj, decide_true, Bool.true_and, ← decide_not, Nat.not_lt]

theorem getLsbD_srl (v : Word) (n j : Nat) : (v >>> n).getLsbD j = v.getLsbD (j + n) := by
  rw [BitVec.getLsbD_ushiftRight, Nat.add_comm]

theorem getLsbD_sra (v : Word) (n j : Nat) (hj : j < 32) :
    (v.sshiftRight n).getLsbD j = v.getLsbD (min (j + n) 31) := by
  rw [BitVec.getLsbD_sshiftRight, Nat.add_comm n j]
  by_cases hin : j + n < 32
  · rw [Nat.min_eq_left (by omega)]
    simp [hin, hj]
  · rw [Nat.min_eq_right (by omega)]
    simp [hin, hj, BitVec.msb_eq_getLsbD_last]

/-- Settles O27: by the bits of each operation, the count being rB modulo 32 or the immediate. -/
theorem shiftResults : Obligations.ShiftResults := by
  intro s rC rA rB imm
  have hmod : (s.x rB).toNat % 32 < 32 := Nat.mod_lt _ (by decide)
  have himm : imm.toNat < 32 := imm.isLt
  refine ⟨retires_with_of_exec rfl fun j hj => ?_, retires_with_of_exec rfl fun j hj => ?_,
    retires_with_of_exec rfl fun j hj => getLsbD_rotateLeftBy _ _ j himm hj, retires_with_of_exec rfl fun j hj => ?_,
    retires_with_of_exec rfl fun j hj => getLsbD_sll _ _ j hj, retires_with_of_exec rfl fun j _ => ?_,
    retires_with_of_exec rfl fun j _ => getLsbD_srl _ _ j, retires_with_of_exec rfl fun j hj => ?_,
    retires_with_of_exec rfl fun j hj => getLsbD_sra _ _ j hj⟩
  all_goals rw [shiftCount_eq]
  · rw [← Nat.add_mod_mod]
    exact getLsbD_rotateLeftBy _ _ j hmod hj
  · rw [← Nat.add_mod_mod]
    exact getLsbD_rotateRightBy _ _ j hmod hj
  · exact getLsbD_sll _ _ j hj
  · exact getLsbD_srl _ _ j
  · exact getLsbD_sra _ _ j hj

end Sys2Proof.Machine
end

section
/-! PROOFS. Program control: targets, links and the misaligned destination exception (45_program_control.md rules R320
to R337). -/

namespace Sys2Proof.Machine

/-! ## Transfers -/

theorem transfer_of_aligned (target : Word) (s : State) (k : Result) (h : target.toNat % 4 = 0) :
    transfer target s k = k := by
  rw [transfer, if_pos ((and_three_eq_zero_iff _).2 h)]

theorem transfer_of_misaligned (target : Word) (s : State) (k : Result) (h : ¬target.toNat % 4 = 0)
    (hd : s.cfg.illegalMem = true) : transfer target s k = .next (takeGeneral (.misalignedDest target) s) := by
  rw [transfer, if_neg (fun ha => h ((and_three_eq_zero_iff _).1 ha)), if_pos hd]
  rfl

theorem jumpTarget_toNat (s : State) (imm : BitVec 26) :
    (s.jumpTarget imm).toNat = s.pc.toNat / 2 ^ 28 * 2 ^ 28 + imm.toNat * 4 := by
  have hpc := s.pc.isLt
  have himm := imm.isLt
  rw [State.jumpTarget, BitVec.toNat_append, BitVec.toNat_append, ← Nat.shiftLeft_add_eq_or_of_lt himm,
    show (0#2).toNat = 0 from rfl, Nat.or_zero, Nat.shiftLeft_eq, Nat.shiftLeft_eq, BitVec.extractLsb'_toNat,
    Nat.shiftRight_eq_div_pow]
  omega

/-- At an aligned pc the target of a branch is as aligned as its offset. -/
theorem branchTarget_mod (s : State) (imm : BitVec 16) (hpc : s.pc.toNat % 4 = 0) :
    (s.branchTarget imm).toNat % 4 = imm.toNat % 4 := by
  have h16 := imm.isLt
  have hint := BitVec.toInt_eq_toNat_cond imm
  rw [State.branchTarget, BitVec.toNat_add, BitVec.toNat_add, sext16_eq_ofInt, BitVec.toNat_ofInt,
    show (4 : Word).toNat = 4 from rfl]
  split at hint <;> omega

/-! ## Jumps and calls -/

/-- Settles O28: none of the three has its target checked; `call` and `nextpc` write the next address. -/
theorem callsAndJumps : Obligations.CallsAndJumps := by
  intro s rC imm
  exact ⟨⟨_, rfl, jumpTarget_toNat s imm, writesRegister_of_regs _ _ _ _ rfl, rfl⟩,
    ⟨_, rfl, jumpTarget_toNat s imm, rfl⟩, retires_of_exec rfl rfl⟩

/-- Settles O29: an aligned target passes the check of the transfer. -/
theorem registerJumps : Obligations.RegisterJumps := by
  intro s rA
  refine ⟨fun h => ⟨⟨_, transfer_of_aligned _ _ _ h, rfl, writesRegister_of_regs _ _ _ _ rfl, rfl⟩,
    ⟨_, transfer_of_aligned _ _ _ h, rfl⟩⟩, fun h => ⟨_, transfer_of_aligned _ _ _ h, rfl⟩⟩

/-! ## Branches -/

/-- The conditional branches, each with what it tests. -/
def branchForms (s : State) (rA rB : RegNum) (imm : BitVec 16) : List (Instr × Bool) :=
  [(.beq rA rB imm, decide (s.x rA = s.x rB)), (.bne rA rB imm, decide (s.x rA ≠ s.x rB)),
    (.bge rA rB imm, decide ((s.x rB).toInt ≤ (s.x rA).toInt)),
    (.bgeu rA rB imm, decide ((s.x rB).toNat ≤ (s.x rA).toNat)),
    (.blt rA rB imm, decide ((s.x rA).toInt < (s.x rB).toInt)),
    (.bltu rA rB imm, decide ((s.x rA).toNat < (s.x rB).toNat))]

theorem exec_of_mem_branchForms (s : State) (rA rB : RegNum) (imm : BitVec 16) :
    ∀ b ∈ branchForms s rA rB imm, ∃ r : Relation, exec b.1 s = branchIf r rA rB imm s ∧
      r.holds (s.x rA) (s.x rB) = b.2 := by
  simp only [branchForms, List.forall_mem_cons]
  refine ⟨⟨.eq, rfl, rfl⟩, ⟨.ne, rfl, ?_⟩, ⟨.ge, rfl, rfl⟩, ⟨.geu, rfl, rfl⟩, ⟨.lt, rfl, rfl⟩, ⟨.ltu, rfl, rfl⟩, nofun⟩
  exact decide_not.symm

/-- Settles O30: at an aligned pc an offset that is a multiple of four gives an aligned target. -/
theorem branchOutcomes : Obligations.BranchOutcomes := by
  intro s rA rB imm hpc himm
  have htarget : (s.branchTarget imm).toNat % 4 = 0 := (branchTarget_mod s imm hpc).trans himm
  refine ⟨⟨_, transfer_of_aligned _ _ _ htarget, rfl⟩, fun b hb => ?_⟩
  obtain ⟨r, hexec, hholds⟩ := exec_of_mem_branchForms s rA rB imm b hb
  rw [hexec, branchIf, transfer_of_aligned _ _ _ htarget, hholds]
  cases b.2
  · exact ⟨_, rfl, rfl⟩
  · exact ⟨_, rfl, rfl⟩

/-- Settles O31: a misaligned target is refused by the check of the transfer, which an untaken branch does not reach. -/
theorem misalignedTargetTaken : Obligations.MisalignedTargetTaken := by
  intro s rA rB imm hd
  refine ⟨fun h => ⟨transfer_of_misaligned _ _ _ h hd, transfer_of_misaligned _ _ _ h hd⟩,
    fun h => transfer_of_misaligned _ _ _ h hd, fun hpc himm => ?_, fun hu h => ?_, fun hu h => ?_⟩
  · have htarget : ¬(s.branchTarget imm).toNat % 4 = 0 := by rwa [branchTarget_mod s imm hpc]
    refine ⟨transfer_of_misaligned _ _ _ htarget hd, fun b hb => ?_⟩
    obtain ⟨r, hexec, hholds⟩ := exec_of_mem_branchForms s rA rB imm b hb
    rw [hexec, branchIf, transfer_of_misaligned _ _ _ htarget hd, hholds]
    rfl
  · exact (if_neg (by simp [hu])).trans (transfer_of_misaligned _ _ _ h hd)
  · exact (if_neg (by simp [hu])).trans (transfer_of_misaligned _ _ _ h hd)

end Sys2Proof.Machine
end

section
/-! PROOFS. Taking exceptions and breaks and returning from them (60_exceptions.md rules R410 to R415 and R440 to R442,
46_other_control.md rules R350 to R353). -/

namespace Sys2Proof.Machine

/-! ## Masks -/

theorem getLsbD_lowMask (w n i : Nat) : (lowMask w n).getLsbD i = (decide (i < w) && decide (i < n)) := by
  rw [lowMask, BitVec.getLsbD_ofNat, Nat.testBit_two_pow_sub_one]

/-- A mask of low bits takes the remainder by a power of two. -/
theorem toNat_and_lowMask {w : Nat} (x : BitVec w) (n : Nat) : (x &&& lowMask w n).toNat = x.toNat % 2 ^ n := by
  apply Nat.eq_of_testBit_eq
  intro i
  rw [BitVec.testBit_toNat, BitVec.getLsbD_and, getLsbD_lowMask, Nat.testBit_mod_two_pow, BitVec.testBit_toNat]
  by_cases hi : i < w
  · simp [hi, Bool.and_comm]
  · simp [BitVec.getLsbD_of_ge x i (by omega)]

theorem toNat_and_low31 (x : Word) : (x &&& 0x7FFFFFFF).toNat = x.toNat % 2 ^ 31 := toNat_and_lowMask x 31

/-! ## Exception entry -/

/-- Settles O32: the fields of the entry, one by one. -/
theorem generalEntry : Obligations.GeneralEntry := by
  refine ⟨fun _ _ => rfl, fun _ => rfl, ?_⟩
  rintro e s t rfl
  refine ⟨fun h => ⟨by simp [h], by simp [Status.inHandler, h], takeGeneral_onlyRegister e s h⟩,
    fun h => ⟨by simp [h], by simp [Status.inHandler, h], takeGeneral_sameRegisters e s h⟩,
    rfl, rfl, rfl, rfl, rfl, rfl, rfl, rfl, fun h => by simp [h], fun h => by simp [h], ?_, ?_, rfl⟩
  · rintro ⟨hmiss, heh⟩
    simp [Exc.vector, hmiss, heh]
  · rintro (hmiss | heh)
    · simp [Exc.vector, hmiss]
    · simp [Exc.vector, heh]

/-- The address that an exception leaves in badaddr where there is an MMU: the data address, the destination, or what
was there (rule R413). -/
theorem takeGeneral_badaddr_eq (e : Exc) (s : State) (hm : s.cfg.hasMmu = true) :
    (takeGeneral e s).badaddr = (e.dataAddress?.or e.destination?).getD s.badaddr := by
  rw [takeGeneral_badaddr, if_pos (excInfo_of_mmu s.cfg hm), Exc.newBadaddr]
  cases e.dataAddress? <;> cases e.destination? <;> simp [badDataAddress, badInstrAddress, hm, Config.hasModes]

/-- The exceptions that neither miss the TLB nor break a permission of it leave pteaddr. -/
theorem Exc.page?_of_neither (e : Exc) (hmiss : e.isTlbMiss = false) (hperm : e.isTlbPermission = false) :
    e.page? = none := by
  cases e
  case tlbMissInstr | tlbMissData => cases hmiss
  case tlbExecute | tlbRead | tlbWrite => cases hperm
  all_goals rfl

theorem takeGeneral_pteaddr_of_mmu (e : Exc) (s : State) (hm : s.cfg.hasMmu = true) :
    (takeGeneral e s).pteaddr = e.newPteaddr s.status.eh s.pteaddr := by
  rw [takeGeneral_pteaddr, if_pos hm]

/-- What badaddr holds without an MMU (10_state.md rule R59; log 32). -/
theorem takeGeneral_badaddr_of_no_mmu (e : Exc) (s : State) (hx : s.cfg.excInfo = true) :
    (takeGeneral e s).badaddr = e.newBadaddr s := by
  rw [takeGeneral_badaddr, if_pos hx]

/-- Settles O33: the flags, WE and the addresses by the class of each exception. -/
theorem mmuEntryRecords : Obligations.MmuEntryRecords := by
  refine ⟨fun s va hm hx => ⟨fun hmpu => ?_, fun hmpu hbits => ?_, fun e he => ?_⟩,
    fun s va hm => ⟨fun row hrow => ?_, fun e he => ?_, fun e hmiss hperm => ?_⟩⟩
  · have hdata : (badDataAddress s.cfg va).toNat = va.toNat % 2 ^ 31 := by
      rw [badDataAddress, if_neg (by simp [hm]), if_pos hmpu, toNat_and_low31]
    simp only [takeGeneral_badaddr_of_no_mmu _ s hx]
    exact ⟨hdata, hdata, if_pos (by simp [Config.hasModes, hmpu])⟩
  · have hdata : (badDataAddress s.cfg va).toNat = va.toNat % 2 ^ s.cfg.addrBits := by
      rw [badDataAddress, if_neg (by simp [hm]), if_neg (by simp [hmpu]), toNat_and_lowMask, toNat_and_low31]
      exact Nat.mod_mod_of_dvd _ (Nat.pow_dvd_pow 2 hbits)
    have hinstr : (badInstrAddress s.cfg va).toNat = va.toNat % 2 ^ s.cfg.addrBits := by
      rw [badInstrAddress, if_neg (by simp [Config.hasModes, hm, hmpu]), toNat_and_lowMask]
    simp only [takeGeneral_badaddr_of_no_mmu _ s hx]
    exact ⟨hdata, hinstr⟩
  · rw [takeGeneral_badaddr_of_no_mmu _ s hx]
    simp only [List.mem_cons, List.not_mem_nil, or_false] at he
    rcases he with rfl | rfl | rfl | rfl | rfl | rfl | rfl <;> rfl
  · rw [takeGeneral_tlbmisc_of_mmu _ s hm, takeGeneral_badaddr_eq _ s hm]
    simp only [List.mem_cons, List.not_mem_nil, or_false] at hrow
    rcases hrow with rfl | rfl | rfl | rfl | rfl | rfl | rfl | rfl | rfl | rfl | rfl | rfl | rfl | rfl | rfl <;>
      simp [Exc.newTlbmisc, Exc.isDataAccess, Exc.isTlbMiss, Exc.isTlbPermission, Exc.isBadAddress, Exc.dataAddress?,
        Exc.destination?]
  · rw [takeGeneral_pteaddr_of_mmu _ s hm]
    simp only [List.mem_cons, List.not_mem_nil, or_false] at he
    rcases he with rfl | rfl | rfl | rfl | rfl <;> rfl
  · rw [takeGeneral_pteaddr_of_mmu _ s hm, Exc.newPteaddr, e.page?_of_neither hmiss hperm]

/-! ## Break entry -/

theorem event_of_reset (s : State) (h : s.pins.reset = true) : s.event = some (.next (takeReset 0 s)) := by
  rw [State.event, if_pos h]

theorem takeBreak_xs (s : State) (set : SetNum) (j : RegNum) :
    (takeBreak s).xs set j =
      if set = 0 ∧ j = 30 then s.pc + 4
      else if s.cfg.hasDebug = true ∧ set = 0 ∧ j = 25 then Config.freeWord s.draws
      else s.xs set j :=
  s.breakRegs_get set j

/-- Settles O34: the registers through `takeBreak_xs`, the rest by what `takeBreak` writes. -/
theorem breakEntry : Obligations.BreakEntry := by
  refine ⟨fun _ _ => rfl, fun s hreset hdebug hrequest hpaused => ?_, ?_⟩
  · simp [State.event, hreset, hdebug, hrequest, hpaused]
  · rintro s t rfl
    refine ⟨rfl, ?_, rfl, fun h => ⟨fun set j => ?_, ?_⟩, fun set j h => ?_, rfl, rfl, rfl⟩
    · rw [takeBreak_xs, if_pos ⟨rfl, rfl⟩]
    · simp [takeBreak_xs, h]
    · simp [h]
    · rw [takeBreak_xs, if_neg (fun k => h ⟨k.1, .inr k.2⟩), if_neg (fun k => h ⟨k.2.1, .inl k.2.2⟩)]

/-! ## Returns -/

theorem supervisorOnly_of_supervisor (s : State) (k : Result) (h : s.status.u = false) : supervisorOnly s k = k := by
  rw [supervisorOnly, if_neg (by simp [h])]

theorem supervisorOnly_of_user (s : State) (k : Result) (h : s.status.u = true) :
    supervisorOnly s k = .next (takeGeneral .supervisorOnlyInstr s) := by
  rw [supervisorOnly, if_pos h]
  rfl

theorem returnFrom_of_aligned (saved : Status) (target : Word) (after s : State) (h : target.toNat % 4 = 0)
    (hsets : (saved.implement s.cfg).setsExist s.cfg = true) :
    returnFrom saved target after s =
      .next { after with status := saved.implement s.cfg, pc := target, mpuOld := [] } := by
  rw [returnFrom, transfer_of_aligned _ _ _ h, if_pos hsets]

/-- `eret` in supervisor mode to an aligned address and an existing register set. -/
theorem exec_eret (s : State) (hu : s.status.u = false) (h : (s.xs s.status.crs 29).toNat % 4 = 0)
    (hsets : (s.savedStatus.implement s.cfg).setsExist s.cfg = true) :
    exec .eret s =
      .next { s with status := s.savedStatus.implement s.cfg, pc := s.xs s.status.crs 29, mpuOld := [] } :=
  (supervisorOnly_of_supervisor _ _ hu).trans (returnFrom_of_aligned _ _ _ _ h hsets)

theorem exec_bret (s : State) (hu : s.status.u = false) (h : (s.xs 0 30).toNat % 4 = 0)
    (hsets : (s.bstatus.implement s.cfg).setsExist s.cfg = true) :
    exec .bret s = .next { s.released with status := s.bstatus.implement s.cfg, pc := s.xs 0 30, mpuOld := [] } :=
  (supervisorOnly_of_supervisor _ _ hu).trans (returnFrom_of_aligned _ _ _ _ h hsets)

/-- Settles O35: the two returns with what they restore; a debug module in control gives it up. -/
theorem returnsRestore : Obligations.ReturnsRestore := by
  intro s hu
  refine ⟨fun hcrs h hsets => ?_, fun hcrs h hsets => ?_, fun h hsets => ⟨fun hp => ?_, fun hp => ?_⟩⟩
  · have hsaved : s.savedStatus = s.estatus := if_pos hcrs
    rw [exec_eret s hu (by rwa [hcrs]) (by rwa [hsaved]), hsaved, hcrs]
  · have hsaved : s.savedStatus = .ofWord (s.xs s.status.crs 30) := if_neg hcrs
    rw [exec_eret s hu h (by rwa [hsaved]), hsaved]
  · rw [exec_bret s hu h hsets, s.released_of_running hp]
  · refine ⟨_, exec_bret s hu h hsets, rfl, rfl, rfl, s.released_paused, fun set j hj => s.released_xs set j hj, ?_⟩
    exact (congrArg (fun u : State => { u with pc := s.pc, status := s.status, mpuOld := s.mpuOld }) s.released_frame :)

/-- Settles O36: the entry has saved what the return restores, the status being legal. -/
theorem entryThenReturn : Obligations.EntryThenReturn := by
  intro s hs
  obtain ⟨himp, -⟩ := (legal_iff _ _).1 hs.status_legal
  have hsets : (s.status.implement s.cfg).setsExist s.cfg = true := by
    have := hs.status_legal
    rw [Status.legal, Bool.and_eq_true] at this
    rw [himp]
    exact this.2
  have hnext : (s.pc + 4).toNat % 4 = 0 := (isInstrAddress_iff _).1 (isInstrAddress_next _ hs.pc_aligned)
  refine ⟨fun e heh => ?_, ?_⟩
  · have hsaved : (takeGeneral e s).savedStatus = s.status := by
      calc (takeGeneral e s).savedStatus = (takeGeneral e s).estatus := if_pos rfl
        _ = s.status := by simp [heh]
    have hea : (takeGeneral e s).xs (takeGeneral e s).status.crs 29 = s.pc + 4 := takeGeneral_ea e s heh
    refine ⟨_, exec_eret _ rfl (by rwa [hea]) (by rwa [hsaved]), ?_, hea, fun set j hj => ?_⟩
    · rw [hsaved]
      exact himp
    · exact (takeGeneral_onlyRegister e s heh set j).trans (if_neg hj)
  · have hba : (takeBreak s).xs 0 30 = s.pc + 4 := (takeBreak_xs s 0 30).trans (if_pos ⟨rfl, rfl⟩)
    refine ⟨_, exec_bret _ rfl (by rwa [hba]) hsets, himp, hba, fun set j hj => ?_⟩
    calc (takeBreak s).released.xs set j = (takeBreak s).xs set j := ?_
      _ = s.xs set j := by
        rw [takeBreak_xs, if_neg (fun k => hj ⟨k.1, .inl k.2⟩), if_neg (fun k => hj ⟨k.2.1, .inr ⟨k.1, k.2.2⟩⟩)]
    cases hd : s.cfg.hasDebug
    · rw [(takeBreak s).released_of_running hd]
    · refine (takeBreak s).released_xs set j (fun k => hj ⟨k.1, ?_⟩)
      exact k.2.elim (fun h25 => .inr ⟨hd, h25⟩) .inl

/-- Settles O37: each of the eight is behind `supervisorOnly`. -/
theorem supervisorOnlyTaken : Obligations.SupervisorOnlyTaken := by
  intro s rA rB rC imm n hu i hi
  simp only [List.mem_cons, List.not_mem_nil, or_false] at hi
  rcases hi with rfl | rfl | rfl | rfl | rfl | rfl | rfl | rfl <;> exact supervisorOnly_of_user _ _ hu

end Sys2Proof.Machine
end

section
/-! PROOFS. The checks of a data address and where the access goes (20_memory.md rules R90 to R155, 60_exceptions.md
rules R457 and R461 to R464). -/

namespace Sys2Proof

/-! ## The instructions that access data, with their widths -/

section Forms

variable (rB rA : RegNum) (imm : BitVec 16)

/-- The loads, each with its width in bytes. -/
def loadForms : List (Instr × Nat) :=
  [(.ldw rB rA imm, 4), (.ldwio rB rA imm, 4), (.ldh rB rA imm, 2), (.ldhu rB rA imm, 2), (.ldhio rB rA imm, 2),
    (.ldhuio rB rA imm, 2), (.ldb rB rA imm, 1), (.ldbu rB rA imm, 1), (.ldbio rB rA imm, 1), (.ldbuio rB rA imm, 1)]

/-- The stores, each with its width in bytes. -/
def storeForms : List (Instr × Nat) :=
  [(.stw rB rA imm, 4), (.stwio rB rA imm, 4), (.sth rB rA imm, 2), (.sthio rB rA imm, 2), (.stb rB rA imm, 1),
    (.stbio rB rA imm, 1)]

/-- The loads, the stores and `flushda`, each with the width its address is checked for. -/
def accessForms : List (Instr × Nat) :=
  [(.ldw rB rA imm, 4), (.ldwio rB rA imm, 4), (.stw rB rA imm, 4), (.stwio rB rA imm, 4), (.ldh rB rA imm, 2),
    (.ldhu rB rA imm, 2), (.ldhio rB rA imm, 2), (.ldhuio rB rA imm, 2), (.sth rB rA imm, 2), (.sthio rB rA imm, 2),
    (.ldb rB rA imm, 1), (.ldbu rB rA imm, 1), (.ldbio rB rA imm, 1), (.ldbuio rB rA imm, 1), (.stb rB rA imm, 1),
    (.stbio rB rA imm, 1), (.flushda rA imm, 1)]

open Machine (Kind Width)

theorem dataAccess?_of_mem_loadForms :
    ∀ f ∈ loadForms rB rA imm, ∃ w, f.1.dataAccess? = some ⟨.load, w, rA, imm⟩ ∧ w.bytes = f.2 := by
  simp [loadForms, Instr.dataAccess?, Width.bytes]

theorem dataAccess?_of_mem_storeForms :
    ∀ f ∈ storeForms rB rA imm, ∃ w, f.1.dataAccess? = some ⟨.store, w, rA, imm⟩ ∧ w.bytes = f.2 := by
  simp [storeForms, Instr.dataAccess?, Width.bytes]

theorem dataAccess?_of_mem_accessForms :
    ∀ f ∈ accessForms rB rA imm, ∃ k w, f.1.dataAccess? = some ⟨k, w, rA, imm⟩ ∧ w.bytes = f.2 ∧ k ≠ .initda := by
  simp [accessForms, Instr.dataAccess?, Width.bytes]

end Forms

/-- Only `initda` accesses data as `initda` does. -/
theorem presentIn_of_kind (m : Implemented) (i : Instr) (a : DataAccess) (ha : i.dataAccess? = some a)
    (hk : a.kind ≠ .initda) : i.presentIn m = true := by
  refine presentIn_of_dataAccess m i a ha (fun hi => ?_)
  subst hi
  exact absurd (congrArg DataAccess.kind (Option.some.inj ha)).symm hk

end Sys2Proof

namespace Sys2Proof.Machine

/-! ## Alignment -/

theorem aligned_iff (w : Width) (va : Word) : w.aligned va = true ↔ va.toNat % w.bytes = 0 := by
  refine ⟨aligned_toNat w va, fun h => ?_⟩
  cases w with
  | byte => rfl
  | half =>
    rw [Width.aligned, beq_iff_eq, ← BitVec.toNat_inj]
    exact (toNat_and_lowMask va 1).trans h
  | word =>
    rw [Width.aligned, beq_iff_eq]
    exact (and_three_eq_zero_iff va).2 h

theorem alignmentOf_of_aligned (c : Config) (k : Kind) (w : Width) (va : Word) (h : va.toNat % w.bytes = 0) :
    alignmentOf c k w va = .ok () := by
  cases k
  case load | store => exact if_pos ((aligned_iff w va).2 h)
  case flushda | initda => rfl

theorem alignmentOf_of_misaligned (c : Config) (k : Kind) (w : Width) (va : Word) (hk : k = .load ∨ k = .store)
    (h : ¬va.toNat % w.bytes = 0) (hd : c.illegalMem = true) : alignmentOf c k w va = .exc (.misalignedData va) := by
  have hno : ¬w.aligned va = true := mt (aligned_iff w va).1 h
  rcases hk with rfl | rfl <;> rw [alignmentOf, checkAlign, if_neg hno, if_pos hd]

/-- Alignment is checked before all else but the partition of a user-mode address (rules R100 and R130). -/
theorem translateData_of_misaligned (s : State) (k : Kind) (w : Width) (va : Word) (hk : k = .load ∨ k = .store)
    (h : ¬va.toNat % w.bytes = 0) (hd : s.cfg.illegalMem = true)
    (hupper : ¬(s.cfg.hasMmu = true ∧ s.status.u = true ∧ 2 ^ 31 ≤ va.toNat)) :
    s.translateData k w va = .exc (.misalignedData va) := by
  unfold State.translateData
  rw [alignmentOf_of_misaligned _ _ _ _ hk h hd]
  split
  · rename_i hm
    have huser : ¬(s.status.u && va.msb) = true := by
      rw [Bool.and_eq_true, BitVec.msb_eq_true_iff_two_mul_ge]
      exact fun hu => hupper ⟨hm, hu.1, by omega⟩
    rw [State.mmuData, if_neg huser, alignmentOf_of_misaligned _ _ _ _ hk h hd]
    rfl
  · rfl

/-- Settles O14: the misaligned access takes the exception of its check. -/
theorem misalignedDataTaken : Obligations.MisalignedDataTaken := by
  intro s rB rA imm hd hupper
  have htaken : ∀ (i : Instr) (k : Kind) (w : Width), i.dataAccess? = some ⟨k, w, rA, imm⟩ → k = .load ∨ k = .store →
      ¬(s.effective rA imm).toNat % w.bytes = 0 →
      exec i s = .next (takeGeneral (.misalignedData (s.effective rA imm)) (s.drawn s.accessDraws)) := by
    intro i k w ha hk h
    exact exec_of_translateData_exc i s _ _ ha (presentIn_of_kind _ i _ ha (by rcases hk with rfl | rfl <;> nofun))
      (translateData_of_misaligned s k w _ hk h hd hupper)
  refine ⟨fun h i hi => ?_, fun h i hi => ?_⟩
  · simp only [List.mem_cons, List.not_mem_nil, or_false] at hi
    rcases hi with rfl | rfl | rfl | rfl
    · exact htaken _ .load .word rfl (.inl rfl) h
    · exact htaken _ .load .word rfl (.inl rfl) h
    · exact htaken _ .store .word rfl (.inr rfl) h
    · exact htaken _ .store .word rfl (.inr rfl) h
  · simp only [List.mem_cons, List.not_mem_nil, or_false] at hi
    rcases hi with rfl | rfl | rfl | rfl | rfl | rfl
    · exact htaken _ .load .half rfl (.inl rfl) h
    · exact htaken _ .load .half rfl (.inl rfl) h
    · exact htaken _ .load .half rfl (.inl rfl) h
    · exact htaken _ .load .half rfl (.inl rfl) h
    · exact htaken _ .store .half rfl (.inr rfl) h
    · exact htaken _ .store .half rfl (.inr rfl) h

/-! ## Translation with an MMU -/

theorem isDirect_iff (va : Word) : isDirect va = true ↔ 0xC0000000 ≤ va.toNat := by
  have hlt := va.isLt
  rw [isDirect, beq_iff_eq, ← BitVec.toNat_inj, BitVec.extractLsb'_toNat, Nat.shiftRight_eq_div_pow,
    show (3#2).toNat = 3 from rfl]
  omega

theorem directAddress_eq (va : Word) : directAddress va = va.toNat % 2 ^ 29 := by
  rw [directAddress, BitVec.extractLsb'_toNat, Nat.shiftRight_zero]

theorem frameAddress_eq (pfn : BitVec 20) (va : Word) : frameAddress pfn va = pfn.toNat * 4096 + va.toNat % 4096 := by
  rw [frameAddress, BitVec.toNat_append, ← Nat.shiftLeft_add_eq_or_of_lt (BitVec.isLt _), Nat.shiftLeft_eq,
    BitVec.extractLsb'_toNat, Nat.shiftRight_zero]

/-- Bit 29 tells the kernel partition, which is cacheable, from the I/O partition (rules R127 and R128). -/
theorem kernel_iff (va : Word) (h : 0xC0000000 ≤ va.toNat) : va.getLsbD 29 = decide (0xE0000000 ≤ va.toNat) := by
  have hlt := va.isLt
  rw [← BitVec.testBit_toNat, Nat.testBit_eq_decide_div_mod_eq]
  exact decide_eq_decide.2 (by omega)

theorem tlbLookup_of_one (s : State) (va : Word) (miss : Exc) (e : TlbEntry) (h : s.tlbMatches va = [e]) :
    s.tlbLookup va miss = .ok e := by
  rw [State.tlbLookup, h]

theorem tlbLookup_of_none (s : State) (va : Word) (miss : Exc) (h : s.tlbMatches va = []) :
    s.tlbLookup va miss = .exc miss := by
  rw [State.tlbLookup, h]

/-- An aligned address that the mode may use passes the checks before the TLB (rule R130). -/
theorem translateData_of_mmu (s : State) (k : Kind) (w : Width) (va : Word) (hm : s.cfg.hasMmu = true)
    (hmode : s.status.u = false ∨ va.toNat < 2 ^ 31) (halign : va.toNat % w.bytes = 0) :
    s.translateData k w va =
      if isDirect va then .ok { pa := directAddress va, cacheable := !va.getLsbD 29 }
      else
        (s.tlbLookup va (.tlbMissData va)).bind (fun e =>
          (tlbPermission e k va).bind (fun _ => .ok { pa := frameAddress e.pfn va, cacheable := e.c })) := by
  have huser : ¬(s.status.u && va.msb) = true := by
    rw [Bool.and_eq_true, BitVec.msb_eq_true_iff_two_mul_ge]
    rintro ⟨hu, hva⟩
    rcases hmode with h | h
    · rw [h] at hu; cases hu
    · omega
  rw [State.translateData, if_pos hm, State.mmuData, if_neg huser, alignmentOf_of_aligned _ _ _ _ halign]
  rfl

theorem tlbPermission_of_granted (e : TlbEntry) (k : Kind) (va : Word) (hr : k = .load → e.r = true)
    (hw : k = .store → e.w = true) : tlbPermission e k va = .ok () := by
  cases k
  case load => exact if_pos (hr rfl)
  case store => exact if_pos (hw rfl)
  case flushda | initda => rfl

/-- Settles O16: the two partitions that bypass the TLB, and the frame of the one matching entry. -/
theorem mmuTranslation : Obligations.MmuTranslation := by
  intro s k w va hm hmode halign
  rw [translateData_of_mmu s k w va hm hmode halign]
  refine ⟨fun hdirect => ?_, fun e hpaged hone hr hw => ?_⟩
  · rw [if_pos ((isDirect_iff va).2 hdirect), directAddress_eq, kernel_iff va hdirect, ← decide_not]
    simp only [Nat.not_le]
  · rw [if_neg (by rw [isDirect_iff]; omega), tlbLookup_of_one s va _ e hone]
    show (tlbPermission e k va).bind _ = _
    rw [tlbPermission_of_granted e k va hr hw, ← frameAddress_eq]
    rfl

/-- What the TLB says of an aligned address outside the partitions that bypass it. -/
theorem translateData_of_paged (s : State) (k : Kind) (w : Width) (va : Word) (hm : s.cfg.hasMmu = true)
    (hmode : s.status.u = false ∨ va.toNat < 2 ^ 31) (hpaged : va.toNat < 0xC0000000)
    (halign : va.toNat % w.bytes = 0) :
    (s.tlbMatches va = [] → s.translateData k w va = .exc (.tlbMissData va)) ∧
      ∀ e x, s.tlbMatches va = [e] → tlbPermission e k va = .exc x → s.translateData k w va = .exc x := by
  rw [translateData_of_mmu s k w va hm hmode halign, if_neg (by rw [isDirect_iff]; omega)]
  refine ⟨fun h => ?_, fun e x h hx => ?_⟩
  · rw [tlbLookup_of_none s va _ h]
    rfl
  · rw [tlbLookup_of_one s va _ e h]
    show (tlbPermission e k va).bind _ = _
    rw [hx]
    rfl

/-- Settles O17: the exception of the lookup, or of the permission of the entry found. -/
theorem tlbExceptionsTaken : Obligations.TlbExceptionsTaken := by
  intro s rB rA imm hm hmode hpaged
  have htaken : ∀ (i : Instr) (k : Kind) (w : Width) (x : Exc), i.dataAccess? = some ⟨k, w, rA, imm⟩ →
      i.presentIn s.cfg.implemented = true → s.translateData k w (s.effective rA imm) = .exc x →
      exec i s = .next (takeGeneral x s) := by
    intro i k w x ha hp h
    rw [exec_of_translateData_exc i s _ x ha hp h, drawn_accessDraws_of_mmu s hm]
    rfl
  refine ⟨fun hmiss => ⟨fun hp => ?_, fun f hf halign => ?_⟩,
    fun e hone => ⟨fun hr f hf halign => ?_, fun hw f hf halign => ?_⟩⟩
  · exact htaken _ .initda .byte _ rfl hp ((translateData_of_paged s _ _ _ hm hmode hpaged (Nat.mod_one _)).1 hmiss)
  · obtain ⟨k, w, ha, hw, hk⟩ := dataAccess?_of_mem_accessForms rB rA imm f hf
    rw [← hw] at halign
    exact htaken _ k w _ ha (presentIn_of_kind _ _ _ ha hk)
      ((translateData_of_paged s k w _ hm hmode hpaged halign).1 hmiss)
  · obtain ⟨w, ha, hw⟩ := dataAccess?_of_mem_loadForms rB rA imm f hf
    rw [← hw] at halign
    exact htaken _ _ w _ ha (presentIn_of_kind _ _ _ ha nofun)
      ((translateData_of_paged s _ w _ hm hmode hpaged halign).2 e _ hone (if_neg (by simp [hr])))
  · obtain ⟨w, ha, hw'⟩ := dataAccess?_of_mem_storeForms rB rA imm f hf
    rw [← hw'] at halign
    exact htaken _ _ w _ ha (presentIn_of_kind _ _ _ ha nofun)
      ((translateData_of_paged s _ w _ hm hmode hpaged halign).2 e _ hone (if_neg (by simp [hw])))

/-! ## The MPU -/

theorem isFor_of_limit (c : Config) (r : MpuRegion) (a : Word) (ha : a.toNat < 2 ^ 31) (h : c.mpuUseLimit = true) :
    r.isFor c a = true ↔ r.base.toNat * 64 ≤ a.toNat ∧ a.toNat < r.extent.toNat * 64 := by
  rw [MpuRegion.isFor, if_pos h, Bool.and_eq_true, decide_eq_true_eq, decide_eq_true_eq, BitVec.le_def, BitVec.lt_def,
    BitVec.toNat_setWidth, BitVec.extractLsb'_toNat, Nat.shiftRight_eq_div_pow]
  omega

theorem isFor_of_mask (c : Config) (r : MpuRegion) (a : Word) (h : c.mpuUseLimit = false) :
    r.isFor c a = true ↔ a.extractLsb' 6 25 &&& r.extent.extractLsb' 0 25 = r.base := by
  rw [MpuRegion.isFor, if_neg (by simp [h]), beq_iff_eq, BitVec.setWidth_eq_extractLsb' (by decide)]

/-- With no region write pending an access sees the current regions (70_reset_and_hazards.md rule R501). -/
theorem regionsSeen_of_settled (s : State) (isData : Bool) (h : s.mpuOld = []) :
    s.regionsSeen isData = if isData then s.mpuData else s.mpuInstr := by
  have hcurrent : ∀ r : MpuRegion × Nat, s.regionSeen isData r.2 r.1 s.draws = r.1 := by
    intro r
    simp [State.regionSeen, h]
  simp only [State.regionsSeen, hcurrent, List.zipIdx_map_fst]

theorem regionFor_of_settled (s : State) (isData : Bool) (a : Word) (h : s.mpuOld = []) :
    s.regionFor isData a = (if isData then s.mpuData else s.mpuInstr).find? (fun r => r.isFor s.cfg a) := by
  rw [State.regionFor, regionsSeen_of_settled s isData h]

/-- Settles O18: regions by limit and by mask, the lowest index, and the tables of PERM. -/
theorem mpuRegionDecides : Obligations.MpuRegionDecides :=
  ⟨fun c r a ha => ⟨isFor_of_limit c r a ha, isFor_of_mask c r a⟩,
    fun s a h => ⟨regionFor_of_settled s true a h, regionFor_of_settled s false a h⟩, rfl, rfl, rfl⟩

theorem mayRead_isSome_iff (perm : BitVec 3) (u : Bool) : (mayRead perm u).isSome = (mayWrite perm u).isSome := by
  revert perm u
  decide

theorem permissionCheck_of_granted (perm : BitVec 3) (u : Bool) (k : Kind) (va : Word)
    (hr : k ≠ .store → mayRead perm u = some true) (hw : k ≠ .load → mayWrite perm u = some true) :
    permissionCheck perm u k va = .ok () := by
  have hsome := mayRead_isSome_iff perm u
  cases k
  case load =>
    rw [hr nofun] at hsome
    obtain ⟨w, hw⟩ := Option.isSome_iff_exists.1 hsome.symm
    simp [permissionCheck, hr, hw]
  case store =>
    rw [hw nofun] at hsome
    obtain ⟨r, hr⟩ := Option.isSome_iff_exists.1 hsome
    simp [permissionCheck, hr, hw]
  case flushda | initda => simp [permissionCheck, hr, hw]

/-- What a region that forbids the access makes of it (rule R150, D37). -/
theorem permissionCheck_of_denied (perm : BitVec 3) (u : Bool) (va : Word) :
    (mayRead perm u = some false → permissionCheck perm u .load va = .exc (.mpuData va)) ∧
      (mayWrite perm u = some false → permissionCheck perm u .store va = .exc (.mpuData va)) ∧
      (mayRead perm u = some false ∨ mayWrite perm u = some false →
        permissionCheck perm u .flushda va = .refused .mpuFlushPermission ∧
          permissionCheck perm u .initda va = .refused .mpuFlushPermission) := by
  have hsome := mayRead_isSome_iff perm u
  unfold permissionCheck
  cases hr : mayRead perm u with
  | none => simp_all
  | some r =>
    cases hw : mayWrite perm u with
    | none => simp_all
    | some w => cases r <;> cases w <;> simp

/-! ## Without an MMU -/

theorem plainAddress_eq (c : Config) (va : Word) : c.plainAddress va = va.toNat % 2 ^ 31 % 2 ^ c.addrBits := by
  rw [Config.plainAddress, BitVec.extractLsb'_toNat, Nat.shiftRight_zero]

theorem plainCacheable_eq (c : Config) (va : Word) :
    plainCacheable c va = !(c.bit31Bypass && decide (2 ^ 31 ≤ va.toNat)) := by
  rw [plainCacheable, BitVec.msb_eq_decide]

/-- An aligned address without an MMU and with no MPU check always passes (rules R92 and R108). -/
theorem translateData_of_plain (s : State) (k : Kind) (w : Width) (va : Word) (hm : s.cfg.hasMmu = false)
    (halign : va.toNat % w.bytes = 0) (hoff : s.mpuOn = false) :
    s.translateData k w va =
      .ok { pa := va.toNat % 2 ^ 31 % 2 ^ s.cfg.addrBits
            cacheable := !(s.cfg.bit31Bypass && decide (2 ^ 31 ≤ va.toNat)) } := by
  rw [State.translateData, if_neg (by simp [hm]), alignmentOf_of_aligned _ _ _ _ halign, ← plainAddress_eq,
    ← plainCacheable_eq]
  exact if_neg (by simp [hoff])

/-- With the MPU enabled the deciding region has its say (rule R150). -/
theorem translateData_of_mpu (s : State) (k : Kind) (w : Width) (va : Word) (hm : s.cfg.hasMmu = false)
    (halign : va.toNat % w.bytes = 0) (hon : s.mpuOn = true) :
    s.translateData k w va =
      (s.mpuDataCheck k va).bind (fun c =>
        .ok { pa := s.cfg.plainAddress va, cacheable := c && plainCacheable s.cfg va }) := by
  rw [State.translateData, if_neg (by simp [hm]), alignmentOf_of_aligned _ _ _ _ halign]
  exact if_pos hon

theorem mpuDataCheck_of_region (s : State) (k : Kind) (va : Word) (r : MpuRegion) (hold : s.mpuOld = [])
    (hin : inSpace s.cfg (mpuAddress s.cfg va) = true)
    (hr : s.mpuData.find? (fun r => r.isFor s.cfg (mpuAddress s.cfg va)) = some r) :
    s.mpuDataCheck k va = (permissionCheck r.perm s.status.u k va).bind (fun _ => .ok r.c) := by
  have hfor : s.regionFor true (mpuAddress s.cfg va) = some r := (regionFor_of_settled s true _ hold).trans hr
  simp only [State.mpuDataCheck, hin, hfor]
  rfl

theorem mpuDataCheck_of_none (s : State) (k : Kind) (va : Word) (hold : s.mpuOld = [])
    (h : inSpace s.cfg (mpuAddress s.cfg va) = false ∨
      s.mpuData.find? (fun r => r.isFor s.cfg (mpuAddress s.cfg va)) = none) :
    s.mpuDataCheck k va = .exc (.mpuData va) := by
  rcases h with hout | hnone
  · simp [State.mpuDataCheck, hout]
  · have hfor : s.regionFor true (mpuAddress s.cfg va) = none := (regionFor_of_settled s true _ hold).trans hnone
    simp [State.mpuDataCheck, hfor]

/-- Settles O12: the address checks without an MMU, then what the physical address is connected to. -/
theorem dataAccessPaths : Obligations.DataAccessPaths := by
  refine ⟨fun s k w va hm halign => ⟨translateData_of_plain s k w va hm halign,
      fun r hon hold hin hr hread hwrite => ?_⟩,
    fun s k w io va p hp => ?_⟩
  · rw [translateData_of_mpu s k w va hm halign hon, mpuDataCheck_of_region s k va r hold hin hr,
      permissionCheck_of_granted _ _ _ _ hread hwrite, ← plainAddress_eq, ← plainCacheable_eq]
    rfl
  · have hline : (if p.cacheable && !io then s.cfg.dIndex va else none) =
        if io = true ∨ p.cacheable = false then none else s.cfg.dIndex va := by
      cases io <;> cases p.cacheable <;> simp
    rw [State.dataPath, hp]
    refine ⟨fun h => ?_, fun h => ?_, fun h => ?_, fun h => ?_⟩
    all_goals simp only [Check.bind, h]
    · rw [← hline]; rfl
    · rw [← hline]; rfl

theorem accessDraws_of_mpu (s : State) (hm : s.cfg.hasMmu = false) (hon : s.mpuOn = true) : s.accessDraws = 1 := by
  simp [State.accessDraws, hm, hon]

theorem Check.run_refused {α : Type} (c : Check α) (s : State) (k : α → Result) (r : Refusal) (h : c = .refused r) :
    c.run s k = .refused r := by
  subst h
  rfl

/-- Settles O19: no region, or what the permission of the deciding one makes of the access. -/
theorem mpuViolationTaken : Obligations.MpuViolationTaken := by
  intro s rB rA imm hm hon hold
  have htaken : ∀ (i : Instr) (k : Kind) (w : Width), i.dataAccess? = some ⟨k, w, rA, imm⟩ →
      i.presentIn s.cfg.implemented = true → (s.effective rA imm).toNat % w.bytes = 0 →
      s.mpuDataCheck k (s.effective rA imm) = .exc (.mpuData (s.effective rA imm)) →
      exec i s = .next (takeGeneral (.mpuData (s.effective rA imm)) (s.drawn 1)) := by
    intro i k w ha hp halign h
    have htranslate : s.translateData k w (s.effective rA imm) = .exc (.mpuData (s.effective rA imm)) := by
      rw [translateData_of_mpu s k w _ hm halign hon, h]
      rfl
    rw [exec_of_translateData_exc i s _ _ ha hp htranslate, accessDraws_of_mpu s hm hon]
    rfl
  refine ⟨fun hnone => ⟨fun hp => ?_, fun f hf halign => ?_⟩, fun r hin hr => ⟨fun hread f hf halign => ?_,
    fun hwrite f hf halign => ?_, fun hdenied => ?_⟩⟩
  · exact htaken _ .initda .byte rfl hp (Nat.mod_one _) (mpuDataCheck_of_none s _ _ hold hnone)
  · obtain ⟨k, w, ha, hw, hk⟩ := dataAccess?_of_mem_accessForms rB rA imm f hf
    exact htaken _ k w ha (presentIn_of_kind _ _ _ ha hk) (hw ▸ halign) (mpuDataCheck_of_none s _ _ hold hnone)
  · obtain ⟨w, ha, hw⟩ := dataAccess?_of_mem_loadForms rB rA imm f hf
    refine htaken _ _ w ha (presentIn_of_kind _ _ _ ha nofun) (hw ▸ halign) ?_
    rw [mpuDataCheck_of_region s _ _ r hold hin hr, (permissionCheck_of_denied _ _ _).1 hread]
    rfl
  · obtain ⟨w, ha, hw⟩ := dataAccess?_of_mem_storeForms rB rA imm f hf
    refine htaken _ _ w ha (presentIn_of_kind _ _ _ ha nofun) (hw ▸ halign) ?_
    rw [mpuDataCheck_of_region s _ _ r hold hin hr, (permissionCheck_of_denied _ _ _).2.1 hwrite]
    rfl
  · obtain ⟨hflushda, hinitda⟩ := (permissionCheck_of_denied r.perm s.status.u (s.effective rA imm)).2.2 hdenied
    have hrefused : ∀ k, permissionCheck r.perm s.status.u k (s.effective rA imm) = .refused .mpuFlushPermission →
        s.translateData k .byte (s.effective rA imm) = .refused .mpuFlushPermission := by
      intro k h
      rw [translateData_of_mpu s k .byte _ hm (Nat.mod_one _) hon, mpuDataCheck_of_region s k _ r hold hin hr, h]
      rfl
    exact ⟨Check.run_refused _ _ _ _ (hrefused _ hflushda),
      fun hp => (if_pos hp).trans (Check.run_refused _ _ _ _ (hrefused _ hinitda))⟩

end Sys2Proof.Machine
end

section
/-! PROOFS. The boundary, the fetch and the instruction that a step runs (70_reset_and_hazards.md rules R510 and R511,
20_memory.md rules R131, R150 and R158). -/

namespace Sys2Proof.Machine

/-! ## A step -/

theorem step_of_no_event (s : State) (h : s.boundary.event = none) : step s = runInstruction s.boundary := by
  rw [step, h]

theorem boundary_of_no_inputs (s : State) (h : s.inputs = []) :
    s.boundary = { s with pins := { s.pins with recognise := true } } := by
  rw [State.boundary, h]

theorem boundary_of_recognised (s : State) (h : s.inputs = []) (hr : s.pins.recognise = true) : s.boundary = s := by
  have hpins : { s.pins with recognise := true } = s.pins := by rw [← hr]
  rw [boundary_of_no_inputs s h, hpins]

theorem runInstruction_of_exc (s : State) (e : Exc) (h : s.fetchPath = .exc e) :
    runInstruction s = .next (takeGeneral e (s.drawn s.accessDraws)) :=
  Check.run_exc _ _ _ e h

theorem runInstruction_of_ok (s : State) (p : DataPath) (i : Instr) (h : s.fetchPath = .ok p)
    (hi : decodeWord (s.instrWord p) = .ok i) : runInstruction s = exec i (s.fetched p) := by
  rw [runInstruction, h, Check.run_ok, hi]

theorem runInstruction_of_illegal (s : State) (p : DataPath) (e : DecodeError) (h : s.fetchPath = .ok p)
    (he : decodeWord (s.instrWord p) = .error e) : runInstruction s = illegalInstruction (s.fetched p) := by
  rw [runInstruction, h, Check.run_ok, he]

theorem fetched_frame (s : State) (p : DataPath) : { s.fetched p with icache := s.icache, draws := s.draws } = s := by
  unfold State.fetched
  dsimp only
  split
  · split <;> rfl
  · rfl

/-! ## The inputs -/

/-- What memory holds after other masters wrote cells, a later one over an earlier. -/
theorem Memory.read_writeCells (m : Memory) (cells : List Host.Cell) (a : Nat) :
    (m.writeCells cells).read a =
      ((cells.reverse.find? (fun cell => cell.1 == a)).map (·.2)).getD (m.read a) := by
  unfold Memory.writeCells
  induction cells generalizing m with
  | nil => rfl
  | cons c rest ih =>
    rw [List.foldl_cons, ih, List.reverse_cons, List.find?_append]
    cases rest.reverse.find? (fun cell => cell.1 == a) with
    | some d => rfl
    | none =>
      rw [Memory.read_write]
      by_cases hc : c.1 = a
      · simp [hc]
      · simp [hc, Ne.symm hc]

/-- The state after the bytes of other masters are written and the named lines have left, before the debug module
acts. -/
def State.afterBus (s : State) (b : Boundary) : State :=
  (({ s with mem := s.mem.writeCells b.busWrites }).flushLines (·.isNamed b.evictData)).dropInstrLines
    (·.isNamed b.evictInstr)

theorem boundary_cons (s : State) (b : Boundary) (rest : List Boundary) (h : s.inputs = b :: rest) :
    s.boundary = { (s.afterBus b).debuggerActs b.debugger with pins := b.pins, inputs := rest } := by
  unfold State.boundary
  split
  next hnil => exact absurd (h.symm.trans hnil) (List.cons_ne_nil _ _)
  next b' rest' hcons =>
    obtain ⟨rfl, rfl⟩ := List.cons.inj (h.symm.trans hcons)
    rfl

theorem CacheLine.isNamed_iff (l : CacheLine) (names : List (Nat × Nat)) :
    l.isNamed names = true ↔ (l.index, l.base) ∈ names := by
  rw [CacheLine.isNamed, List.contains_iff_mem]

/-- What a debug module leaves in the registers, where there is one (60_exceptions.md rule R442). -/
theorem debuggerActs_of_writes (s : State) (d : DebugWrites) (h : s.cfg.hasDebug = true) :
    s.debuggerActs (some d) = s.debugged d := if_pos h

theorem debuggerActs_of_none (s : State) (d : Option DebugWrites) (h : d = none ∨ s.cfg.hasDebug = false) :
    s.debuggerActs d = s := by
  cases d with
  | none => rfl
  | some w => exact if_neg (by simpa using h)

/-- Memory after the named lines are written back, byte by byte. -/
theorem read_writeBack_named (s : State) (m : Memory) (names : List (Nat × Nat)) (a : Nat) :
    ((s.cfg.isDevice a = true ∨ ∀ l ∈ s.dcache, (l.index, l.base) ∈ names → l.dirty = true →
        ¬(l.base ≤ a ∧ a < l.base + s.cfg.dcacheLine)) →
      ((s.dcache.filter (·.isNamed names)).foldl (CacheLine.writeBack s.cfg) m).read a = m.read a) ∧
    (s.cfg.isDevice a = false → ∀ l ∈ s.dcache, (l.index, l.base) ∈ names → l.dirty = true → l.base ≤ a →
      a < l.base + s.cfg.dcacheLine →
      (∀ k ∈ s.dcache, (k.index, k.base) ∈ names → k.dirty = true →
        (k.base ≤ a ∧ a < k.base + s.cfg.dcacheLine) → k = l) →
      ((s.dcache.filter (·.isNamed names)).foldl (CacheLine.writeBack s.cfg) m).read a = l.data.read a) := by
  have hmem : ∀ l, l ∈ s.dcache.filter (·.isNamed names) ↔ l ∈ s.dcache ∧ (l.index, l.base) ∈ names := by
    intro l
    rw [List.mem_filter, CacheLine.isNamed_iff]
  refine ⟨fun h => read_writeBack_out _ _ _ _ (h.imp_right fun hno l hl => ?_),
    fun hdev l hl hname hdirty hlo hhi hone =>
      read_writeBack_in _ _ _ _ l ((hmem l).2 ⟨hl, hname⟩) hdirty ⟨hlo, hhi⟩ hdev
      (fun k hk => ?_)⟩
  · obtain ⟨hin, hname⟩ := (hmem l).1 hl
    exact hno l hin hname
  · obtain ⟨hin, hname⟩ := (hmem k).1 hk
    exact hone k hin hname

/-- Settles O5: the instruction that the fetched word decodes to; then an entry of the inputs, operation by operation.
-/
theorem stepRunsDecoded : Obligations.StepRunsDecoded := by
  refine ⟨fun s p i hevent hpath hi => ⟨?_, fetched_frame _ p, boundary_of_no_inputs s⟩, ?_⟩
  · rw [step_of_no_event s hevent, runInstruction_of_ok _ p i hpath hi]
  · rintro s t b rest hin rfl
    rw [boundary_cons s b rest hin]
    have hread := read_writeBack_named s (s.mem.writeCells b.busWrites) b.evictData
    refine ⟨rfl, rfl, fun a ha => ?_, fun a hdev l hl hname hdirty hlo hhi hone => ?_, State.debuggerActs_dcache _ _,
      State.debuggerActs_icache _ _, fun d hd hdebug => ?_, fun hno => ?_, ?_⟩
    · rw [← Memory.read_writeCells]
      exact (congrArg (Memory.read · a) (State.debuggerActs_mem _ _)).trans ((hread a).1 ha)
    · exact (congrArg (Memory.read · a) (State.debuggerActs_mem _ _)).trans
        ((hread a).2 hdev l hl hname hdirty hlo hhi hone)
    · rw [hd, debuggerActs_of_writes (s.afterBus b) d hdebug]
      refine ⟨?_, ?_, rfl, fun set j hj => ?_⟩
      · exact (State.debugged_get _ d 0 25).trans (if_neg (by decide))
      · exact State.debugged_get _ d 0 30
      · exact (State.debugged_get _ d set j).trans
          ((if_neg (fun k => hj ⟨k.1, .inr k.2⟩)).trans (if_neg (fun k => hj ⟨k.1, .inl k.2⟩)))
    · rw [debuggerActs_of_none (s.afterBus b) _ hno]
      exact ⟨fun _ _ => rfl, rfl⟩
    · exact (congrArg (fun u : State => { u with pins := s.pins, inputs := s.inputs, mem := s.mem, dcache := s.dcache,
                                                 icache := s.icache }) ((s.afterBus b).debuggerActs_frame b.debugger) :)

/-! ## The fetched word -/

theorem translateFetch_of_plain (s : State) (va : Word) (hm : s.cfg.hasMmu = false) (hoff : s.mpuOn = false) :
    s.translateFetch va = .ok va.toNat := by
  rw [State.translateFetch, if_neg (by simp [hm]), if_neg (by simp [hoff])]

theorem translateFetch_of_mpu (s : State) (va : Word) (hm : s.cfg.hasMmu = false) (hon : s.mpuOn = true) :
    s.translateFetch va = (s.mpuFetchCheck va).bind (fun _ => .ok va.toNat) := by
  rw [State.translateFetch, if_neg (by simp [hm]), if_pos hon]

/-- An address that the fetch master reaches lies in the physical address space (rule R92). -/
theorem lt_of_fetchRegion (c : Config) (pa : Nat) (kind : RegionKind) (h : c.fetchRegion pa = some kind) :
    pa < 2 ^ c.addrBits := by
  have h0 := regionOf_some c _ pa 4 kind h 0 (by decide)
  obtain ⟨r, hr, -⟩ := Option.map_eq_some_iff.1 h0
  have := List.find?_some hr
  simp only [Bool.and_eq_true, Config.inPhysicalSpace, decide_eq_true_eq] at this
  exact this.1.2

/-- The region that decides lets the mode execute (rules R150 and R151). -/
theorem mpuFetchCheck_of_granted (s : State) (va : Word) (r : MpuRegion) (hin : va.toNat < 2 ^ s.cfg.addrBits)
    (hold : s.mpuOld = []) (hr : s.mpuInstr.find? (fun r => r.isFor s.cfg va) = some r)
    (hx : mayExecute r.perm s.status.u = some true) : s.mpuFetchCheck va = .ok () := by
  have hfor : s.regionFor false va = some r := (regionFor_of_settled s false _ hold).trans hr
  simp [State.mpuFetchCheck, inSpace, hin, hfor, hx]

/-- An aligned pc whose address passes, in fetchable memory that no store is on its way to (rule R158). -/
theorem fetchPath_of_translated (s : State) (pa : Nat) (kind : RegionKind) (hpc : s.pc.toNat % 4 = 0)
    (ht : s.translateFetch s.pc = .ok pa) (hk : s.cfg.fetchRegion pa = some kind) (hstale : s.isStale pa = false) :
    s.fetchPath = .ok { pa := pa, line := if kind = .memory then s.cfg.iIndex s.pc else none } := by
  rw [State.fetchPath, if_neg (by simp [(and_three_eq_zero_iff _).2 hpc]), ht]
  simp [Check.bind, hk, hstale]

theorem fetchPath_of_exc (s : State) (e : Exc) (hpc : s.pc.toNat % 4 = 0) (ht : s.translateFetch s.pc = .exc e) :
    s.fetchPath = .exc e := by
  rw [State.fetchPath, if_neg (by simp [(and_three_eq_zero_iff _).2 hpc]), ht]
  rfl

theorem mmuFetch_ok (s : State) (va : Word) (pa : Nat) (h : s.mmuFetch va = .ok pa) :
    pa = directAddress va ∨ ∃ e : TlbEntry, pa = frameAddress e.pfn va := by
  unfold State.mmuFetch at h
  split at h
  · cases h
  · split at h
    · cases h; exact .inl rfl
    · rw [Check.bind_ok] at h
      obtain ⟨e, -, h⟩ := h
      split at h
      · cases h; exact .inr ⟨e, rfl⟩
      · cases h

/-- The physical address of an aligned pc is aligned. -/
theorem translateFetch_aligned (s : State) (va : Word) (pa : Nat) (hva : va.toNat % 4 = 0)
    (h : s.translateFetch va = .ok pa) : pa % 4 = 0 := by
  unfold State.translateFetch at h
  split at h
  · rcases mmuFetch_ok s va pa h with rfl | ⟨e, rfl⟩
    · rw [directAddress_eq]
      omega
    · rw [frameAddress_eq]
      omega
  · split at h
    · rw [Check.bind_ok] at h
      obtain ⟨-, -, h⟩ := h
      cases h
      exact hva
    · cases h
      exact hva

theorem fetchPath_aligned (s : State) (p : DataPath) (h : s.fetchPath = .ok p) : p.pa % 4 = 0 := by
  obtain ⟨hpc, pa, kind, hpa, -, -, rfl⟩ := fetchPath_ok s p h
  exact translateFetch_aligned s _ pa ((and_three_eq_zero_iff _).1 hpc) hpa

theorem icacheLine_mod (c : Config) (h : c.legal = true) : c.icacheLine % 4 = 0 := by
  simp only [Config.legal, Bool.and_eq_true, and_assoc, beq_iff_eq] at h
  tauto

/-- The four bytes of an aligned word lie in one line of the instruction cache. -/
theorem iBase_of_aligned (c : Config) (hc : c.legal = true) (pa j : Nat) (hpa : pa % 4 = 0) (hj : j < 4) :
    c.iBase (pa + j) = c.iBase pa := by
  unfold Config.iBase
  obtain ⟨q, hq⟩ := Nat.dvd_of_mod_eq_zero (icacheLine_mod c hc)
  have hdiv : (pa + j) / c.icacheLine = pa / c.icacheLine := by
    rw [hq, ← Nat.div_div_eq_div_mul, ← Nat.div_div_eq_div_mul]
    congr 1
    omega
  rw [hdiv]

/-- A fetched word as the little-endian word of a source of its four bytes. -/
theorem instrWord_eq (s : State) (p : DataPath) (m : Memory)
    (h : ∀ j < 4, s.instrByte p.line (p.pa + j) = m.read (p.pa + j)) : s.instrWord p = littleEndian m p.pa := by
  have h0 := h 0 (by decide)
  rw [State.instrWord, ← Nat.add_zero p.pa, h0, h 1 (by decide), h 2 (by decide), h 3 (by decide)]
  rfl

/-- Settles O6: where the fetch goes, and the word it reads by the three cases of the instruction cache. -/
theorem fetchedWord : Obligations.FetchedWord := by
  refine ⟨fun s kind hm hpc hmpu hk hstale => ?_, fun s p hc hp => ⟨fun hline => ?_, fun k l hline hl => ?_,
    fun k hline hmiss => ?_⟩⟩
  · refine fetchPath_of_translated s _ kind hpc ?_ hk hstale
    rcases hmpu with hoff | ⟨hon, hold, r, hr, hx⟩
    · exact translateFetch_of_plain s _ hm hoff
    · rw [translateFetch_of_mpu s _ hm hon, mpuFetchCheck_of_granted s _ r (lt_of_fetchRegion _ _ kind hk) hold hr hx]
      rfl
  · refine ⟨instrWord_eq s p _ (fun j _ => by rw [hline]; rfl), ?_⟩
    rw [State.fetched, hline]
    rfl
  · have hbase := fun j => iBase_of_aligned s.cfg hc p.pa j (fetchPath_aligned s p hp)
    refine ⟨instrWord_eq s p _ (fun j hj => ?_), ?_⟩
    · rw [hline, State.instrByte, hbase j hj, hl]
    · simp only [State.fetched, hline, hl]
      rfl
  · have hbase := fun j => iBase_of_aligned s.cfg hc p.pa j (fetchPath_aligned s p hp)
    refine ⟨instrWord_eq s p _ (fun j hj => ?_), newLine s.mem.read k (s.cfg.iBase p.pa) s.cfg.icacheLine, ?_, rfl, rfl,
      rfl, fun a hlo hhi => ?_⟩
    · rw [hline, State.instrByte, hbase j hj, hmiss]
    · simp only [State.fetched, hline, hmiss]
      rfl
    · exact (Memory.read_copy _ _ _ _ _).trans (if_pos ⟨hlo, hhi⟩)

/-! ## The first instruction -/

/-- After reset the fetch is from physical address 0 of the first configuration, whatever is placed there. -/
theorem fetchPath_of_placed (w : Word) : (State.reset.placeWord w).fetchPath = .ok { pa := 0, line := none } :=
  fetchPath_of_translated (State.reset.placeWord w) 0 .memory rfl rfl rfl rfl

theorem mem_of_placed (w : Word) :
    (State.reset.placeWord w).mem = Memory.writeBytes [] 0 ([0, 1, 2, 3].map (byteOfWord w)) := by
  rfl

theorem instrWord_of_placed (w : Word) : (State.reset.placeWord w).instrWord { pa := 0, line := none } = w := by
  have hbyte : ∀ k < 4, (State.reset.placeWord w).instrByte none k = byteOfWord w k := by
    intro k hk
    rw [State.instrByte, mem_of_placed, Memory.read_writeBytes]
    interval_cases k <;> rfl
  rw [State.instrWord, hbyte 0 (by decide), hbyte 1 (by decide), hbyte 2 (by decide), hbyte 3 (by decide)]
  exact wordOfBytes_byteOfWord w

/-- Settles O7: nothing is taken at the first boundary, and the word placed decodes to the instruction. -/
theorem placedInstructionRuns : Obligations.PlacedInstructionRuns := by
  intro i hi
  have hword : State.reset.withFetchWord 32 (encode i).toNat = State.reset.placeWord (encode i) := by
    rw [State.withFetchWord, Nat.mod_eq_of_lt (encode i).isLt, BitVec.ofNat_toNat, BitVec.setWidth_eq]
  have hb : (State.reset.placeWord (encode i)).boundary = State.reset.placeWord (encode i) :=
    boundary_of_recognised _ rfl rfl
  have hevent : (State.reset.placeWord (encode i)).boundary.event = none := by
    rw [hb]
    rfl
  rw [hword, step_of_no_event _ hevent, hb,
    runInstruction_of_ok _ _ i (fetchPath_of_placed _) (by rw [instrWord_of_placed]; exact decodeWord_encode i hi)]
  rfl

/-! ## The exceptions of the fetch -/

theorem step_of_settled (s : State) (hin : s.inputs = []) (hr : s.pins.recognise = true) (he : s.event = none) :
    step s = runInstruction s := by
  have hb := boundary_of_recognised s hin hr
  rw [step_of_no_event s (by rw [hb]; exact he), hb]

/-- The exception of an address check ends the step; `n` free values were drawn for the check (log 34). -/
theorem runInstruction_of_fetch_exc (s : State) (e : Exc) (n : Nat) (hpc : s.pc.toNat % 4 = 0)
    (ht : s.translateFetch s.pc = .exc e) (hn : s.drawn s.accessDraws = s.drawn n) :
    runInstruction s = .next (takeGeneral e (s.drawn n)) := by
  rw [runInstruction_of_exc s e (fetchPath_of_exc s e hpc ht), hn]

theorem translateFetch_of_upper (s : State) (va : Word) (hm : s.cfg.hasMmu = true) (hu : s.status.u = true)
    (hva : 0x80000000 ≤ va.toNat) : s.translateFetch va = .exc .supervisorOnlyInstrAddress := by
  have hmsb : va.msb = true := by
    rw [BitVec.msb_eq_true_iff_two_mul_ge]
    omega
  rw [State.translateFetch, if_pos hm, State.mmuFetch, if_pos (by rw [hu, hmsb]; rfl)]

/-- The fetch address with an MMU, where the mode may use the half of the address space (rule R131). -/
theorem translateFetch_of_mmu (s : State) (va : Word) (hm : s.cfg.hasMmu = true)
    (hmode : s.status.u = false ∨ va.toNat < 0x80000000) :
    s.translateFetch va =
      if isDirect va then .ok (directAddress va)
      else (s.tlbLookup va (.tlbMissInstr va)).bind (fun e =>
        if e.x then .ok (frameAddress e.pfn va) else .exc (.tlbExecute va)) := by
  have huser : ¬(s.status.u && va.msb) = true := by
    rw [Bool.and_eq_true, BitVec.msb_eq_true_iff_two_mul_ge]
    rintro ⟨hu, hva⟩
    rcases hmode with h | h
    · rw [h] at hu
      cases hu
    · omega
  rw [State.translateFetch, if_pos hm, State.mmuFetch, if_neg huser]

/-- A fetch address outside the partitions that bypass the TLB: a miss, or by the one matching entry (rule R131). -/
theorem translateFetch_of_paged (s : State) (va : Word) (hm : s.cfg.hasMmu = true)
    (hmode : s.status.u = false ∨ va.toNat < 0x80000000) (hpaged : va.toNat < 0xC0000000) :
    (s.tlbMatches va = [] → s.translateFetch va = .exc (.tlbMissInstr va)) ∧
      ∀ e, s.tlbMatches va = [e] →
        s.translateFetch va = if e.x then .ok (frameAddress e.pfn va) else .exc (.tlbExecute va) := by
  have hdirect : ¬isDirect va = true := by
    rw [isDirect_iff]
    omega
  rw [translateFetch_of_mmu s va hm hmode, if_neg hdirect]
  refine ⟨fun h => ?_, fun e h => ?_⟩
  · rw [tlbLookup_of_none _ _ _ h]
    rfl
  · rw [tlbLookup_of_one _ _ _ e h]
    rfl

/-- Where the MPU does not let the mode execute (rule R150). -/
theorem mpuFetchCheck_of_denied (s : State) (va : Word) (hold : s.mpuOld = [])
    (h : 2 ^ s.cfg.addrBits ≤ va.toNat ∨ s.mpuInstr.find? (fun r => r.isFor s.cfg va) = none ∨
      ∃ r, s.mpuInstr.find? (fun r => r.isFor s.cfg va) = some r ∧ mayExecute r.perm s.status.u = some false) :
    s.mpuFetchCheck va = .exc .mpuInstr := by
  have hfor : s.regionFor false va = s.mpuInstr.find? (fun r => r.isFor s.cfg va) :=
    regionFor_of_settled s false va hold
  unfold State.mpuFetchCheck
  rw [hfor]
  split
  · rfl
  · rename_i hin
    rcases h with hout | hnone | ⟨r, hr, hx⟩
    · exact absurd hout (by simpa [inSpace] using hin)
    · rw [hnone]
    · rw [hr]
      simp only [hx]

/-- Settles O8: each check of the fetch, in the order in which it is made. -/
theorem fetchExceptionsTaken : Obligations.FetchExceptionsTaken := by
  intro s hin hr he hpc
  rw [step_of_settled s hin hr he]
  have hdraws := drawn_accessDraws_of_mmu s
  refine ⟨fun hm hu hva => ?_, fun hm hmode hpaged => ⟨fun hmiss => ?_, fun e hone hx => ?_⟩,
    fun pa kind hm hmode hpa hk hstale => ?_, fun hm hon hold hdeny => ?_, fun p e hp hbad hd => ?_⟩
  · exact runInstruction_of_fetch_exc s _ 0 hpc (translateFetch_of_upper s _ hm hu hva) (hdraws hm)
  · exact runInstruction_of_fetch_exc s _ 0 hpc ((translateFetch_of_paged s _ hm hmode hpaged).1 hmiss) (hdraws hm)
  · refine runInstruction_of_fetch_exc s _ 0 hpc ?_ (hdraws hm)
    rw [(translateFetch_of_paged s _ hm hmode hpaged).2 e hone, if_neg (by simp [hx])]
  · refine ⟨_, fetchPath_of_translated s pa kind hpc ?_ hk hstale, rfl, rfl⟩
    rcases hpa with ⟨e, hpaged, hone, hx, rfl⟩ | ⟨hva, rfl⟩
    · rw [(translateFetch_of_paged s _ hm hmode hpaged).2 e hone, if_pos hx, frameAddress_eq]
    · rw [translateFetch_of_mmu s _ hm hmode, if_pos ((isDirect_iff _).2 hva), directAddress_eq]
  · refine runInstruction_of_fetch_exc s _ 1 hpc ?_ (congrArg s.drawn (accessDraws_of_mpu s hm hon))
    rw [translateFetch_of_mpu s _ hm hon, mpuFetchCheck_of_denied s _ hold hdeny]
    rfl
  · have hcfg : (s.fetched p).cfg = s.cfg := (congrArg State.cfg (fetched_frame s p) :)
    rw [runInstruction_of_illegal s p e hp hbad, illegalInstruction, if_pos (by rw [hcfg]; exact hd)]
    rfl

end Sys2Proof.Machine
end

section
/-! PROOFS. Loads and stores (40_data_transfer.md rules R200 to R219). -/

namespace Sys2Proof.Machine

/-! ## Which bytes a load reads -/

/-- A byte that no device has to supply does not depend on how many free values were drawn. -/
theorem dataByte_drawn (s : State) (n : Nat) (line : Option Nat) (a : Nat) (h : Held s line a) :
    (s.drawn n).dataByte line a = s.dataByte line a := by
  have hbus : s.cfg.isDevice a = false → (s.drawn n).busByte a = s.busByte a := by
    intro hd
    simp [State.busByte, hd]
  cases line with
  | none => exact hbus (h.resolve_right (by rintro ⟨_, _, e, -⟩; cases e))
  | some k =>
    cases hl : findLine s.dcache k (s.cfg.dBase a) with
    | some l => simp [State.dataByte, State.cachedByte, hl]
    | none =>
      have hd := hbus (h.resolve_right (by rintro ⟨_, l, e, hk⟩; cases e; rw [hl] at hk; cases hk))
      simp [State.dataByte, State.cachedByte, hl, hd]

theorem held_of_dataPath (s : State) (k : Kind) (w : Width) (io : Bool) (va : Word) (p : DataPath)
    (h : s.dataPath k w io va = .ok p) (j : Nat) (hj : j < w.bytes) (hdev : p.device = false) (line : Option Nat) :
    Held s line (p.pa + j) := by
  obtain ⟨-, -, -, hbytes⟩ := dataPath_ok s k w io va p h
  exact .inl ((hbytes j hj).trans hdev)

/-- The bytes a load reads: those of the state whose free values its address check has drawn. -/
def State.loadedByte (s : State) (p : DataPath) (k : Nat) : Byte := (s.drawn s.accessDraws).dataByte p.line (p.pa + k)

/-- The state after a load through `p` of a value. -/
def State.afterLoad (s : State) (p : DataPath) (i : RegNum) (v : Word) : State :=
  ((s.drawn s.accessDraws).fillData p).retire i v

theorem loadInto_of_dataPath (w : Width) (io : Bool) (value : State → DataPath → Word) (rB rA : RegNum)
    (imm : BitVec 16) (s : State) (p : DataPath) (h : s.dataPath .load w io (s.effective rA imm) = .ok p) :
    loadInto w io value rB rA imm s = .next (s.afterLoad p rB (value (s.drawn s.accessDraws) p)) := by
  rw [loadInto, h]
  rfl

theorem afterLoad_frame (s : State) (p : DataPath) (i : RegNum) (v : Word) :
    { s.afterLoad p i v with pc := s.pc, regs := s.regs, dcache := s.dcache, draws := s.draws } = s := by
  have h := (s.drawn s.accessDraws).fillData_frame p
  exact congrArg (fun t : State => { t with pc := s.pc, regs := s.regs, dcache := s.dcache, draws := s.draws }) h

theorem afterLoad_regs (s : State) (p : DataPath) (i : RegNum) (v : Word) :
    (s.afterLoad p i v).regs = s.regsWith i v := by
  have h := (s.drawn s.accessDraws).fillData_frame p
  exact (congrArg (fun t : State => t.regsWith i v) h :)

theorem loads_afterLoad (s : State) (w : Width) (io : Bool) (va : Word) (p : DataPath) (i : RegNum) (v : Word)
    (h : s.dataPath .load w io va = .ok p) : Loads s (s.afterLoad p i v) i v := by
  obtain ⟨-, -, hcache, -⟩ := dataPath_ok s _ w io va p h
  have hframe := afterLoad_frame s p i v
  have hpc := (congrArg State.pc ((s.drawn s.accessDraws).fillData_frame p) :)
  refine ⟨congrArg (· + 4) hpc, writesRegister_of_regs _ _ _ _ (afterLoad_regs s p i v), fun a => ?_,
    fun line a ha => ?_, hframe⟩
  · exact congrArg (Memory.read · a) ((s.drawn s.accessDraws).fillData_mem p)
  · calc (s.afterLoad p i v).dataByte line a
      _ = ((s.drawn s.accessDraws).fillData p).dataByte line a := rfl
      _ = (s.drawn s.accessDraws).dataByte line a := State.dataByte_fillData (s.drawn s.accessDraws) p hcache line a ha
      _ = s.dataByte line a := dataByte_drawn s _ line a ha

theorem supplies_afterLoad (s : State) (w : Width) (io : Bool) (va : Word) (p : DataPath) (i : RegNum) (v : Word)
    (h : s.dataPath .load w io va = .ok p) : Supplies s (s.afterLoad p i v) p w.bytes (s.loadedByte p) := by
  obtain ⟨-, -, hcache, -⟩ := dataPath_ok s _ w io va p h
  refine ⟨fun k hk hheld => ?_, fun hlegal hline k hk => ?_⟩
  · exact dataByte_drawn s _ _ _ (hheld.elim (fun hdev => held_of_dataPath s _ w io va p h k hk hdev _) id)
  · exact State.dataByte_fillData_own (s.drawn s.accessDraws) p (hcache hline) hline _
      (dataPath_one_line s _ w io va p hlegal (.inl rfl) h k hk hline)

/-- A load whose address check passes: what it does, with the bytes it reads. -/
theorem load_completes {i : Instr} {s : State} {w : Width} {io : Bool} {value : State → DataPath → Word}
    {rB rA : RegNum} {imm : BitVec 16} {p : DataPath} (hi : exec i s = loadInto w io value rB rA imm s)
    (h : s.dataPath .load w io (s.effective rA imm) = .ok p) :
    ∃ t, exec i s = .next t ∧ Loads s t rB (value (s.drawn s.accessDraws) p) ∧
      Supplies s t p w.bytes (s.loadedByte p) :=
  ⟨_, hi.trans (loadInto_of_dataPath w io value rB rA imm s p h), loads_afterLoad s w io _ p _ _ h,
    supplies_afterLoad s w io _ p _ _ h⟩

/-- Settles O9: the word of the four bytes read. -/
theorem loadWordResult : Obligations.LoadWordResult := by
  intro s rB rA imm io p h
  have hi : exec (if io then .ldwio rB rA imm else .ldw rB rA imm) s =
      loadInto .word io (fun t p => t.readWord p) rB rA imm s := by
    cases io <;> rfl
  obtain ⟨t, hexec, hloads, hsupplies⟩ := load_completes hi h
  exact ⟨t, s.loadedByte p, hexec, hloads, hsupplies⟩

/-- Settles O10: the half-word or byte read, extended as the instruction says. -/
theorem loadNarrowResult : Obligations.LoadNarrowResult := by
  intro s rB rA imm io p
  refine ⟨fun h => ⟨s.loadedByte p, ?_, ?_⟩, fun h => ⟨s.loadedByte p, ?_, ?_⟩⟩
  · exact load_completes (value := fun t p => (t.readHalf p).signExtend 32) (by cases io <;> rfl) h
  · exact load_completes (value := fun t p => (t.readHalf p).setWidth 32) (by cases io <;> rfl) h
  · exact load_completes (value := fun t p => (t.readByte p).signExtend 32) (by cases io <;> rfl) h
  · exact load_completes (value := fun t p => (t.readByte p).setWidth 32) (by cases io <;> rfl) h

/-! ## What a store leaves -/

/-- The state after a store through `p` from an address. -/
def State.afterStore (s : State) (va : Word) (p : DataPath) (bytes : List Byte) : State :=
  ((s.drawn s.accessDraws).delivered va p bytes).advance

theorem storeFrom_of_dataPath (w : Width) (io : Bool) (rB rA : RegNum) (imm : BitVec 16) (s : State) (p : DataPath)
    (h : s.dataPath .store w io (s.effective rA imm) = .ok p) :
    storeFrom w io rB rA imm s = .next (s.afterStore (s.effective rA imm) p (storedBytes w (s.x rB))) := by
  rw [storeFrom, h]
  rfl

theorem afterStore_frame (s : State) (va : Word) (p : DataPath) (bytes : List Byte) :
    { s.afterStore va p bytes with pc := s.pc, mem := s.mem, dcache := s.dcache, hazards := s.hazards,
                                   draws := s.draws } = s := by
  have h := (s.drawn s.accessDraws).delivered_frame va p bytes
  exact congrArg (fun t : State => { t with pc := s.pc, draws := s.draws }) h

theorem afterStore_dataByte (s : State) (va : Word) (p : DataPath) (bytes : List Byte) (line : Option Nat) (a : Nat) :
    (s.afterStore va p bytes).dataByte line a = ((s.drawn s.accessDraws).storeData p bytes).dataByte line a := by
  unfold State.afterStore State.delivered
  split <;> rfl

/-- A store into a data cache line leaves memory as it is. -/
theorem storeData_mem_of_line (s : State) (p : DataPath) (bytes : List Byte) (h : p.line.isSome) :
    (s.storeData p bytes).mem = s.mem := by
  obtain ⟨k, hk⟩ := Option.isSome_iff_exists.1 h
  rw [State.storeData, hk]
  exact State.fillData_mem s p

/-- No store of bytes notes a word by itself. -/
theorem storeData_hazards (s : State) (p : DataPath) (bytes : List Byte) :
    (s.storeData p bytes).hazards = s.hazards := by
  unfold State.storeData
  split
  · exact (congrArg State.hazards (s.fillData_frame p) :)
  · split <;> rfl

theorem storedBytes_length (w : Width) (v : Word) : (storedBytes w v).length = w.bytes := by
  rw [storedBytes, List.length_map, List.length_range]

/-- A store to memory or into the data cache. -/
theorem stores_afterStore (s : State) (w : Width) (io : Bool) (va : Word) (p : DataPath) (v : Word)
    (hlegal : s.cfg.legal = true) (h : s.dataPath .store w io va = .ok p)
    (hp : p.device = false ∨ p.line.isSome = true) :
    Stores s (s.afterStore va p (storedBytes w v)) p (storedBytes w v) := by
  obtain ⟨-, -, hcache, hbytes⟩ := dataPath_ok s _ w io va p h
  have hframe := (s.drawn s.accessDraws).delivered_frame va p (storedBytes w v)
  have hpc := (congrArg State.pc hframe :)
  have hregs := (congrArg State.regs hframe :)
  refine ⟨congrArg (· + 4) hpc, fun set j => congrArg (fun f : RegFile => f.get set j) hregs, fun k hk => ?_,
    fun line a ha hheld => ?_, fun hline => ?_, fun hdev => ?_, afterStore_frame s va p _⟩
  · rw [afterStore_dataByte]
    have hk' : k < w.bytes := by rw [← storedBytes_length w v]; exact hk
    refine State.dataByte_storeData_in _ p _ k hk (fun hnone => ?_) (fun hline => ?_)
    · have hdev := hp.resolve_right (by rw [hnone]; exact Bool.false_ne_true)
      exact ⟨hdev, (hbytes k hk').trans hdev⟩
    · exact dataPath_one_line s _ w io va p hlegal (.inr rfl) h k hk' hline
  · rw [afterStore_dataByte, State.dataByte_storeData_out (s.drawn s.accessDraws) p _ hcache line a ha hheld]
    exact dataByte_drawn s _ line a hheld
  · have hmem := storeData_mem_of_line (s.drawn s.accessDraws) p (storedBytes w v) hline
    unfold State.afterStore State.delivered
    split
    · exact hmem
    · exact hmem
  · rw [State.afterStore, State.delivered, if_pos hdev]
    exact storeData_hazards _ _ _

/-- A store to a device that does not go through the data cache. -/
theorem afterStore_of_device (s : State) (va : Word) (p : DataPath) (bytes : List Byte) (hdev : p.device = true)
    (hline : p.line = none) :
    s.afterStore va p bytes = { s with pc := s.pc + 4, draws := s.draws + s.accessDraws } := by
  rw [State.afterStore, State.delivered, if_pos hdev, State.storeData, hline]
  simp only [hdev, if_true]
  rfl

/-- A store whose address check passes. -/
theorem store_completes {i : Instr} {s : State} {w : Width} {io : Bool} {rB rA : RegNum} {imm : BitVec 16}
    {p : DataPath} (hi : exec i s = storeFrom w io rB rA imm s) (hlegal : s.cfg.legal = true)
    (h : s.dataPath .store w io (s.effective rA imm) = .ok p) :
    ∃ t, exec i s = .next t ∧
      (p.device = false ∨ p.line.isSome = true → Stores s t p (storedBytes w (s.x rB))) ∧
      (p.device = true → p.line = none → t = { s with pc := s.pc + 4, draws := s.draws + s.accessDraws }) :=
  ⟨_, hi.trans (storeFrom_of_dataPath w io rB rA imm s p h), stores_afterStore s w io _ p _ hlegal h,
    afterStore_of_device s _ p _⟩

/-- Settles O11: each width, plain and io. -/
theorem storeResult : Obligations.StoreResult := by
  intro s rB rA imm io p hlegal
  refine ⟨fun h => ?_, fun h => ?_, fun h => ?_⟩
  · exact store_completes (by cases io <;> rfl) hlegal h
  · exact store_completes (by cases io <;> rfl) hlegal h
  · exact store_completes (by cases io <;> rfl) hlegal h

/-! ## A load of what was stored -/

theorem x_retire_self (s : State) (i : RegNum) (v : Word) (h : i ≠ 0) : (s.retire i v).x i = v :=
  (State.regsWith_get s i v s.status.crs i).trans (if_pos ⟨rfl, rfl, h⟩)

theorem accessDraws_of_off (s : State) (hoff : s.mpuOn = false) : s.accessDraws = 0 := by
  simp [State.accessDraws, hoff]

/-- Two accesses that are translated to the same place and select the same line number go the same way. -/
theorem dataPath_congr (s t : State) (k k' : Kind) (w : Width) (io : Bool) (va va' : Word) (q : Physical)
    (hcfg : t.cfg = s.cfg) (hs : s.translateData k w va = .ok q) (ht : t.translateData k' w va' = .ok q)
    (hidx : s.cfg.dIndex va' = s.cfg.dIndex va) : t.dataPath k' w io va' = s.dataPath k w io va := by
  rw [State.dataPath, State.dataPath, hs, ht, hcfg]
  simp only [Check.bind, hidx]

theorem dataPath_ne_exc (s : State) (k : Kind) (w : Width) (io : Bool) (va : Word) (q : Physical) (e : Exc)
    (hs : s.translateData k w va = .ok q) : s.dataPath k w io va ≠ .exc e := by
  rw [State.dataPath, hs, Check.bind]
  split <;> exact nofun

theorem dIndex_congr (c : Config) (va va' : Word) (hm : c.hasMmu = false)
    (h : va'.toNat % 2 ^ 31 % 2 ^ c.addrBits = va.toNat % 2 ^ 31 % 2 ^ c.addrBits) : c.dIndex va' = c.dIndex va := by
  rw [← plainAddress_eq, ← plainAddress_eq] at h
  simp only [Config.dIndex, Config.indexAddress, hm, Bool.false_eq_true, if_false, h]

/-- Addresses of one physical address are aligned alike. -/
theorem aligned_congr (c : Config) (hc : c.legal = true) (w : Width) (va va' : Word)
    (h : va'.toNat % 2 ^ 31 % 2 ^ c.addrBits = va.toNat % 2 ^ 31 % 2 ^ c.addrBits) :
    va'.toNat % w.bytes = va.toNat % w.bytes := by
  have h4 : w.bytes ∣ 4 := by cases w <;> decide
  have hspace : w.bytes ∣ 2 ^ c.addrBits := by
    refine h4.trans (Nat.pow_dvd_pow 2 (m := 2) ?_)
    have := (legal_sizes c hc).1
    omega
  have h31 : w.bytes ∣ 2 ^ 31 := h4.trans (by decide)
  have hmod : ∀ x : Nat, x % 2 ^ 31 % 2 ^ c.addrBits % w.bytes = x % w.bytes := by
    intro x
    rw [Nat.mod_mod_of_dvd _ hspace, Nat.mod_mod_of_dvd _ h31]
  rw [← hmod va'.toNat, h, hmod]

/-- A store to memory, or to a device through a data cache line, can be read back (rule R96). -/
theorem readable_of_dataPath (s : State) (w : Width) (va : Word) (p : DataPath) (hm : s.cfg.hasMmu = false)
    (hoff : s.mpuOn = false) (halign : va.toNat % w.bytes = 0) (hp : s.dataPath .store w false va = .ok p)
    (hdev : s.cfg.dataRegion (va.toNat % 2 ^ 31 % 2 ^ s.cfg.addrBits) w.bytes = some .device →
      s.cfg.hasDcache = true ∧ (s.cfg.bit31Bypass = true → va.toNat < 2 ^ 31)) :
    p.device = false ∨ p.line.isSome = true := by
  have hq := translateData_of_plain s .store w va hm halign hoff
  obtain ⟨hmemory, hcoupled, hdevice, hnone⟩ := dataAccessPaths.2 s .store w false va _ hq
  cases hr : s.cfg.dataRegion (va.toNat % 2 ^ 31 % 2 ^ s.cfg.addrBits) w.bytes with
  | none => exact absurd ((hnone hr).symm.trans hp) (by simp)
  | some kind =>
    cases kind with
    | memory => cases (hmemory hr).symm.trans hp; exact .inl rfl
    | tightlyCoupled => cases (hcoupled hr).symm.trans hp; exact .inl rfl
    | device =>
      obtain ⟨hcache, hbit⟩ := hdev hr
      cases (hdevice hr).symm.trans hp
      refine .inr ?_
      have hcacheable : ¬(s.cfg.bit31Bypass && decide (2 ^ 31 ≤ va.toNat)) = true := by
        rw [Bool.and_eq_true, decide_eq_true_eq]
        exact fun h => Nat.not_le.2 (hbit h.1) h.2
      dsimp only
      rw [if_neg (by simpa using hcacheable), Config.dIndex, if_pos hcache]
      rfl

section
variable (s t : State) (w : Width) (rB rA rC rD : RegNum) (imm imm' : BitVec 16)

/-- The load reads, byte by byte, what the store before it wrote. -/
theorem load_after_store (value : State → DataPath → Word) (hlegal : s.cfg.legal = true) (hm : s.cfg.hasMmu = false)
    (hoff : s.mpuOn = false) (hrC : rC ≠ 0)
    (hpa : (s.effective rD imm').toNat % 2 ^ 31 % 2 ^ s.cfg.addrBits =
      (s.effective rA imm).toNat % 2 ^ 31 % 2 ^ s.cfg.addrBits)
    (hbit : s.cfg.bit31Bypass = true → (2 ^ 31 ≤ (s.effective rD imm').toNat ↔ 2 ^ 31 ≤ (s.effective rA imm).toNat))
    (hst : storeFrom w false rB rA imm s = .next t) (halign : (s.effective rA imm).toNat % w.bytes = 0)
    (hdev : s.cfg.dataRegion ((s.effective rA imm).toNat % 2 ^ 31 % 2 ^ s.cfg.addrBits) w.bytes = some .device →
      s.cfg.hasDcache = true ∧ (s.cfg.bit31Bypass = true → (s.effective rA imm).toNat < 2 ^ 31)) :
    ∃ p u, loadInto w false value rC rD imm' t = .next u ∧ u.x rC = value t p ∧
      ∀ k < w.bytes, t.dataByte p.line (p.pa + k) = byteOfWord (s.x rB) k := by
  have hq := translateData_of_plain s .store w _ hm halign hoff
  rcases storeFrom_next w false rB rA imm s t hst with ⟨p, hp, ht⟩ | ⟨e, he, -⟩
  · have hread := readable_of_dataPath s w _ p hm hoff halign hp hdev
    have hstores := stores_afterStore s w false _ p (s.x rB) hlegal hp hread
    rw [State.afterStore, ← ht] at hstores
    obtain ⟨-, -, hbytes, -, -, -, hframe⟩ := hstores
    have hcfg : t.cfg = s.cfg := (congrArg State.cfg hframe :)
    have hoff' : t.mpuOn = false := (congrArg State.mpuOn hframe :).trans hoff
    have heff : t.effective rD imm' = s.effective rD imm' :=
      (congrArg (fun u : State => u.effective rD imm') hframe :)
    have hq' := translateData_of_plain t .load w (s.effective rD imm') (hcfg ▸ hm)
      ((aligned_congr s.cfg hlegal w _ _ hpa).trans halign) hoff'
    have hsame : (s.cfg.bit31Bypass && decide (2 ^ 31 ≤ (s.effective rD imm').toNat)) =
        (s.cfg.bit31Bypass && decide (2 ^ 31 ≤ (s.effective rA imm).toNat)) := by
      cases hb : s.cfg.bit31Bypass with
      | false => rw [Bool.false_and, Bool.false_and]
      | true => rw [decide_eq_decide.2 (hbit hb)]
    rw [hcfg, hpa, hsame] at hq'
    have hp' : t.dataPath .load w false (t.effective rD imm') = .ok p := by
      rw [heff, dataPath_congr s t .store .load w false _ _ _ hcfg hq hq' (dIndex_congr s.cfg _ _ hm hpa)]
      exact hp
    have hload := loadInto_of_dataPath w false value rC rD imm' t p hp'
    rw [accessDraws_of_off t hoff'] at hload
    refine ⟨p, _, hload, x_retire_self _ rC _ hrC, fun k hk => ?_⟩
    rw [hbytes k (by rw [storedBytes_length]; exact hk)]
    simp [storedBytes]
  · exact absurd he (dataPath_ne_exc s .store w false _ _ e hq)

end

/-- Settles O13: the bytes read are those stored, put together to the width of the access. -/
theorem storeThenLoad : Obligations.StoreThenLoad := by
  intro s t rB rA rC rD imm imm' hlegal hm hoff hrC hpa hbit
  refine ⟨fun hst halign hdev => ?_, fun hst halign hdev => ?_, fun hst hdev => ?_⟩
  · obtain ⟨p, u, hload, hx, hbytes⟩ := load_after_store s t .word rB rA rC rD imm imm' (fun t p => t.readWord p)
      hlegal hm hoff hrC hpa hbit hst halign hdev
    refine ⟨u, hload, hx.trans ?_⟩
    rw [← wordOfBytes_byteOfWord (s.x rB), ← hbytes 0 (by decide), ← hbytes 1 (by decide), ← hbytes 2 (by decide),
      ← hbytes 3 (by decide)]
    rfl
  · obtain ⟨p, u, hload, hx, hbytes⟩ := load_after_store s t .half rB rA rC rD imm imm'
      (fun t p => (t.readHalf p).setWidth 32) hlegal hm hoff hrC hpa hbit hst halign hdev
    refine ⟨u, hload, hx.trans (congrArg (BitVec.setWidth 32) ?_)⟩
    have hhalf : (s.x rB).extractLsb' 0 16 = byteOfWord (s.x rB) 1 ++ byteOfWord (s.x rB) 0 := by
      rw [byteOfWord, byteOfWord, BitVec.extractLsb'_append_extractLsb'_eq_extractLsb' (by decide)]
    rw [hhalf, ← hbytes 0 (by decide), ← hbytes 1 (by decide)]
    rfl
  · obtain ⟨p, u, hload, hx, hbytes⟩ := load_after_store s t .byte rB rA rC rD imm imm'
      (fun t p => (t.readByte p).signExtend 32) hlegal hm hoff hrC hpa hbit hst (Nat.mod_one _) hdev
    exact ⟨u, hload, hx.trans (congrArg (BitVec.signExtend 32) (hbytes 0 (by decide)))⟩

end Sys2Proof.Machine
end

section
/-! PROOFS. The control registers (10_state.md section 4, 46_other_control.md rules R354 and R355). -/

namespace Sys2Proof.Machine

/-! ## rdctl and wrctl -/

theorem exec_rdctl_of_present (s : State) (rC : RegNum) (n : CtlReg) (hu : s.status.u = false)
    (hp : ctlPresent s.cfg n = true) : exec (.rdctl rC n) s = .next (s.retire rC (s.readCtl n)) :=
  (supervisorOnly_of_supervisor s _ hu).trans (if_pos hp)

theorem exec_rdctl_of_absent (s : State) (rC : RegNum) (n : CtlReg) (hu : s.status.u = false)
    (hp : ctlPresent s.cfg n = false) : exec (.rdctl rC n) s = .refused .reservedControl :=
  (supervisorOnly_of_supervisor s _ hu).trans (if_neg (by simp [hp]))

theorem exec_wrctl_of_absent (s : State) (n : CtlReg) (rA : RegNum) (hu : s.status.u = false)
    (hp : ctlPresent s.cfg n = false) : exec (.wrctl n rA) s = .refused .reservedControl :=
  (supervisorOnly_of_supervisor s _ hu).trans (if_neg (by simp [hp]))

section
variable {s u : State} {n : CtlReg} {rA : RegNum}

theorem exec_wrctl_of_ok (hu : s.status.u = false) (hp : ctlPresent s.cfg n = true)
    (hw : s.writeCtl n (s.x rA) = .ok u) : exec (.wrctl n rA) s = .next u.advance := by
  refine (supervisorOnly_of_supervisor s _ hu).trans ((if_pos hp).trans ?_)
  rw [hw]

theorem exec_wrctl_of_error {r : Refusal} (hu : s.status.u = false) (hp : ctlPresent s.cfg n = true)
    (hw : s.writeCtl n (s.x rA) = .error r) : exec (.wrctl n rA) s = .refused r := by
  refine (supervisorOnly_of_supervisor s _ hu).trans ((if_pos hp).trans ?_)
  rw [hw]

end

/-- Settles O38: a register that is there reads its word, one that is not is refused. -/
theorem rdctlReads : Obligations.RdctlReads := by
  intro s rC rA hu
  refine ⟨fun n hp => ⟨_, exec_rdctl_of_present s rC n hu hp, retires_retire _ _ _⟩,
    fun n hp => ⟨exec_rdctl_of_absent s rC n hu hp, exec_wrctl_of_absent s n rA hu hp⟩, ?_, ?_, ?_, ?_, ?_, ?_,
    rfl, fun _ => rfl, rfl, rfl, rfl, rfl, rfl, rfl, rfl, rfl, rfl, rfl, rfl, rfl, rfl, rfl⟩
  · simp [ctlPresent]
  · simp [ctlPresent]
  · simp [ctlPresent, Config.excInfo, Config.hasModes, or_assoc]
  · simp [ctlPresent]
  · simp [ctlPresent, Config.hasConfigReg, Config.hasNesting, Config.hasShadow]
  · simp [ctlPresent]

/-! ## Where the fields stand -/

theorem status_layout (t : Status) :
    t.toWord.extractLsb' 24 8 = 0 ∧ t.toWord.getLsbD 23 = t.rsie ∧ t.toWord.getLsbD 22 = t.nmi ∧
      t.toWord.extractLsb' 16 6 = t.prs ∧ t.toWord.extractLsb' 10 6 = t.crs ∧ t.toWord.extractLsb' 4 6 = t.il ∧
      t.toWord.getLsbD 3 = t.ih ∧ t.toWord.getLsbD 2 = t.eh ∧ t.toWord.getLsbD 1 = t.u ∧
      t.toWord.getLsbD 0 = t.pie := by
  refine ⟨?_, ?_, ?_, ?_, ?_, ?_, ?_, ?_, ?_, ?_⟩
  all_goals unfold Status.toWord
  all_goals simp (disch := decide) only [extract_append_high, extract_append_low, BitVec.getLsbD_append]
  all_goals simp

theorem pteaddr_layout (p : Pteaddr) :
    p.toWord.extractLsb' 22 10 = p.ptbase ∧ p.toWord.extractLsb' 2 20 = p.vpn ∧ p.toWord.extractLsb' 0 2 = 0 := by
  refine ⟨?_, ?_, ?_⟩
  all_goals unfold Pteaddr.toWord
  all_goals simp (disch := decide) only [extract_append_high, extract_append_low, extract_whole]
  all_goals simp

theorem tlbacc_layout (a : Tlbacc) :
    a.toWord.extractLsb' 25 7 = 0 ∧ a.toWord.getLsbD 24 = a.c ∧ a.toWord.getLsbD 23 = a.r ∧
      a.toWord.getLsbD 22 = a.w ∧ a.toWord.getLsbD 21 = a.x ∧ a.toWord.getLsbD 20 = a.g ∧
      a.toWord.extractLsb' 0 20 = a.pfn := by
  refine ⟨?_, ?_, ?_, ?_, ?_, ?_, ?_⟩
  all_goals unfold Tlbacc.toWord
  all_goals simp (disch := decide) only [extract_append_high, extract_append_low, extract_whole, BitVec.getLsbD_append]
  all_goals simp

theorem tlbmisc_layout (m : Tlbmisc) :
    m.toWord.extractLsb' 24 8 = 0 ∧ m.toWord.extractLsb' 20 4 = m.way ∧ m.toWord.getLsbD 19 = false ∧
      m.toWord.getLsbD 18 = m.we ∧ m.toWord.extractLsb' 4 14 = m.pid ∧ m.toWord.getLsbD 3 = m.dbl ∧
      m.toWord.getLsbD 2 = m.bad ∧ m.toWord.getLsbD 1 = m.perm ∧ m.toWord.getLsbD 0 = m.d := by
  refine ⟨?_, ?_, ?_, ?_, ?_, ?_, ?_, ?_, ?_⟩
  all_goals unfold Tlbmisc.toWord
  all_goals simp (disch := decide) only [extract_append_high, extract_append_low, BitVec.getLsbD_append]
  all_goals simp

theorem configReg_layout (r : ConfigReg) :
    r.toWord.getLsbD 0 = r.pe ∧ r.toWord.getLsbD 1 = r.ani ∧ r.toWord.extractLsb' 2 30 = 0 := by
  refine ⟨?_, ?_, ?_⟩
  all_goals unfold ConfigReg.toWord
  all_goals simp (disch := decide) only [extract_append_high, BitVec.getLsbD_append]
  all_goals simp

theorem mpubase_layout (b : Mpubase) :
    b.toWord.getLsbD 31 = false ∧ b.toWord.extractLsb' 6 25 = b.base ∧ b.toWord.extractLsb' 1 5 = b.index ∧
      b.toWord.getLsbD 0 = b.d := by
  refine ⟨?_, ?_, ?_, ?_⟩
  all_goals unfold Mpubase.toWord
  all_goals simp (disch := decide) only [extract_append_high, extract_append_low, BitVec.getLsbD_append]
  all_goals simp

theorem mpuacc_layout (a : Mpuacc) :
    a.toWord.extractLsb' 6 26 = a.extent ∧ a.toWord.getLsbD 5 = a.c ∧ a.toWord.extractLsb' 2 3 = a.perm ∧
      a.toWord.extractLsb' 0 2 = 0 := by
  refine ⟨?_, ?_, ?_, ?_⟩
  all_goals unfold Mpuacc.toWord
  all_goals simp (disch := decide) only [extract_append_high, extract_append_low, BitVec.getLsbD_append]
  all_goals simp

/-- CAUSE stands in bits 6:2 (rule R47). -/
theorem causeWord_toNat (k : BitVec 5) : (causeWord k).toNat = 4 * k.toNat := by
  have hk := k.isLt
  rw [causeWord, BitVec.toNat_append, BitVec.toNat_append]
  simp [Nat.shiftLeft_eq]
  omega

/-- Settles O39: register by register; a status word reads back as the status it was made of. -/
theorem registerLayouts : Obligations.RegisterLayouts := by
  refine ⟨fun t => ?_, pteaddr_layout, tlbacc_layout, tlbmisc_layout, causeWord_toNat, configReg_layout,
    mpubase_layout, mpuacc_layout⟩
  obtain ⟨hzero, hrsie, hnmi, hprs, hcrs, hil, hih, heh, hu, hpie⟩ := status_layout t
  refine ⟨hzero, hrsie, hnmi, hprs, hcrs, hil, hih, heh, hu, hpie, ?_⟩
  rw [Status.ofWord, hrsie, hnmi, hprs, hcrs, hil, hih, heh, hu, hpie]

/-! ## The writes that start no operation -/

/-- Settles O40: the status written, or the refusal of a PRS above the last set. -/
theorem wrctlStatus : Obligations.WrctlStatus := by
  intro s rA hu
  refine ⟨fun hset => ⟨_, exec_wrctl_of_ok hu rfl (if_pos hset), ?_⟩, fun hset =>
    exec_wrctl_of_error hu rfl (if_neg hset)⟩
  exact ⟨rfl, rfl, rfl, rfl, rfl, rfl, rfl, rfl, rfl, rfl, rfl, rfl⟩

/-- Settles O41: one write after the other. -/
theorem wrctlPlain : Obligations.WrctlPlain := by
  intro s rA hu
  refine ⟨exec_wrctl_of_ok (n := .estatus) hu rfl rfl, exec_wrctl_of_ok (n := .bstatus) hu rfl rfl,
    fun heic => exec_wrctl_of_ok (n := .ienable) hu ?_ rfl, exec_wrctl_of_ok (n := .ipending) hu rfl rfl,
    exec_wrctl_of_ok (n := .cpuid) hu rfl rfl,
    fun hx => ⟨exec_wrctl_of_ok (n := .exception) hu hx rfl, exec_wrctl_of_ok (n := .badaddr) hu hx rfl⟩,
    fun hm => exec_wrctl_of_ok (n := .pteaddr) hu hm rfl, fun hc => exec_wrctl_of_ok (n := .config) hu hc rfl,
    fun hp => exec_wrctl_of_ok (n := .mpubase) hu hp rfl⟩
  rw [ctlPresent, heic]
  rfl

/-! ## The TLB operations -/

/-- The entry of a line and way as a number (20_memory.md rule R132). -/
theorem tlbSlot_eq (c : Config) (vpn : BitVec 20) (way : BitVec 4) :
    tlbSlot c vpn way = vpn.toNat % 2 ^ c.tlbLineBits * 2 ^ c.tlbWayBits + way.toNat := by
  rw [tlbSlot, Config.lineMask, toNat_and_lowMask]

/-- The entry that a `wrctl` of `v` to tlbacc makes (20_memory.md rule R135). -/
def State.entryWritten (s : State) (v : Word) : TlbEntry :=
  (Tlbacc.ofWord s.cfg v).entry s.pteaddr.vpn s.tlbmisc.pid

theorem writeTlbacc_of_we (s : State) (v : Word) (h : s.tlbmisc.we = true) :
    s.writeTlbacc v =
      { s with
        tlbacc := Tlbacc.ofWord s.cfg v
        tlb := s.tlb.set (tlbSlot s.cfg s.pteaddr.vpn s.tlbmisc.way) (s.entryWritten v)
        tlbmisc := { s.tlbmisc with way := (s.tlbmisc.way + 1) &&& s.cfg.wayMask } } := by
  rw [State.writeTlbacc, if_pos h]
  rfl

theorem writeTlbacc_of_no_we (s : State) (v : Word) (h : s.tlbmisc.we = false) :
    s.writeTlbacc v = { s with tlbacc := Tlbacc.ofWord s.cfg v } := by
  rw [State.writeTlbacc, if_neg (by simp [h])]

theorem writeTlbmisc_of_no_rd (s : State) (v : Word) (h : v.getLsbD 19 = false) :
    s.writeTlbmisc v = { s with tlbmisc := Tlbmisc.write s.cfg s.tlbmisc v } := by
  rw [State.writeTlbmisc, tlbmiscRd, if_neg (by rw [h]; exact Bool.false_ne_true)]

/-- The entry that a `wrctl` of `v` to tlbmisc reads (20_memory.md rule R136). -/
def State.entryRead (s : State) (v : Word) : TlbEntry :=
  s.tlb.getD (tlbSlot s.cfg s.pteaddr.vpn (Tlbmisc.write s.cfg s.tlbmisc v).way) TlbEntry.unused

theorem entryRead_of_some (s : State) (v : Word) (e : TlbEntry)
    (he : s.tlb[tlbSlot s.cfg s.pteaddr.vpn (Tlbmisc.write s.cfg s.tlbmisc v).way]? = some e) : s.entryRead v = e := by
  rw [State.entryRead, List.getD_eq_getElem?_getD, he]
  rfl

theorem writeTlbmisc_of_rd (s : State) (v : Word) (h : v.getLsbD 19 = true) :
    s.writeTlbmisc v =
      { s with
        tlbmisc := { Tlbmisc.write s.cfg s.tlbmisc v with pid := (s.entryRead v).pid }
        tlbacc := (s.entryRead v).toTlbacc
        pteaddr := { s.pteaddr with vpn := (s.pteaddr.vpn &&& s.cfg.lineMask) |||
                                           ((s.entryRead v).vpn &&& ~~~s.cfg.lineMask) } } := by
  rw [State.writeTlbmisc, tlbmiscRd, if_pos h]
  rfl

/-- A page number made of the line portion of one and the rest of another (20_memory.md rule R136). -/
theorem getLsbD_vpn_merged (c : Config) (x y : BitVec 20) (j : Nat) (hj : j < 20) :
    ((x &&& c.lineMask) ||| (y &&& ~~~c.lineMask)).getLsbD j =
      if j < c.tlbLineBits then x.getLsbD j else y.getLsbD j := by
  rw [BitVec.getLsbD_or, BitVec.getLsbD_and, BitVec.getLsbD_and, BitVec.getLsbD_not, Config.lineMask, getLsbD_lowMask]
  by_cases h : j < c.tlbLineBits <;> simp [h, hj]

/-- Two page numbers of one line: the line portion of the one completes the other. -/
theorem vpn_merged_of_line (c : Config) (x y : BitVec 20)
    (h : x.toNat % 2 ^ c.tlbLineBits = y.toNat % 2 ^ c.tlbLineBits) :
    (x &&& c.lineMask) ||| (y &&& ~~~c.lineMask) = y := by
  have hline : x &&& c.lineMask = y &&& c.lineMask := by
    apply BitVec.eq_of_toNat_eq
    rw [Config.lineMask, toNat_and_lowMask, toNat_and_lowMask, h]
  rw [hline]
  ext j hj
  simp only [← BitVec.getLsbD_eq_getElem, getLsbD_vpn_merged c y y j hj, ite_self]

/-- Settles O43: with and without their operation. -/
theorem wrctlTlbRegisters : Obligations.WrctlTlbRegisters := by
  intro s rA hu hm
  constructor
  · cases hwe : s.tlbmisc.we with
    | false =>
      have hw : s.writeCtl .tlbacc (s.x rA) = .ok (State.flushPipeline _) :=
        congrArg (fun u : State => Except.ok u.flushPipeline) (writeTlbacc_of_no_we s _ hwe)
      exact ⟨_, exec_wrctl_of_ok hu hm hw, rfl, fun _ _ => rfl, rfl, rfl, rfl, rfl, fun _ => ⟨rfl, rfl⟩, nofun⟩
    | true =>
      have hw : s.writeCtl .tlbacc (s.x rA) = .ok (State.flushPipeline _) :=
        congrArg (fun u : State => Except.ok u.flushPipeline) (writeTlbacc_of_we s _ hwe)
      refine ⟨_, exec_wrctl_of_ok hu hm hw, rfl, fun _ _ => rfl, rfl, rfl, rfl, rfl, nofun, fun _ => ⟨?_, ?_⟩⟩
      · simp [hwe]
      · rw [← tlbSlot_eq]
        rfl
  · cases hrd : (s.x rA).getLsbD 19 with
    | false =>
      have hw : s.writeCtl .tlbmisc (s.x rA) = .ok (State.flushPipeline _) :=
        congrArg (fun u : State => Except.ok u.flushPipeline) (writeTlbmisc_of_no_rd s _ hrd)
      exact ⟨_, exec_wrctl_of_ok hu hm hw, rfl, fun _ _ => rfl, rfl, rfl, rfl, rfl, rfl, rfl, rfl, rfl, rfl,
        fun _ => ⟨rfl, rfl, rfl⟩, nofun⟩
    | true =>
      have hw : s.writeCtl .tlbmisc (s.x rA) = .ok (State.flushPipeline _) :=
        congrArg (fun u : State => Except.ok u.flushPipeline) (writeTlbmisc_of_rd s _ hrd)
      refine ⟨_, exec_wrctl_of_ok hu hm hw, rfl, fun _ _ => rfl, rfl, rfl, rfl, rfl, rfl, rfl, rfl, rfl, rfl,
        nofun, fun e _ he => ?_⟩
      rw [← tlbSlot_eq] at he
      obtain rfl := entryRead_of_some s _ e he
      exact ⟨rfl, rfl, rfl, getLsbD_vpn_merged s.cfg _ _⟩

/-- The entry of a line and way lies in the TLB. -/
theorem tlbSlot_lt (s : State) (hs : Inv s) : tlbSlot s.cfg s.pteaddr.vpn s.tlbmisc.way < s.tlb.length := by
  have hway : s.tlbmisc.way.toNat < 2 ^ s.cfg.tlbWayBits := by
    rw [← hs.way_significant, Config.wayMask, toNat_and_lowMask]
    exact Nat.mod_lt _ (Nat.two_pow_pos _)
  have hline : s.pteaddr.vpn.toNat % 2 ^ s.cfg.tlbLineBits + 1 ≤ 2 ^ s.cfg.tlbLineBits :=
    Nat.mod_lt _ (Nat.two_pow_pos _)
  rw [tlbSlot_eq, hs.tlb_size, Nat.pow_add]
  calc s.pteaddr.vpn.toNat % 2 ^ s.cfg.tlbLineBits * 2 ^ s.cfg.tlbWayBits + s.tlbmisc.way.toNat
    _ < (s.pteaddr.vpn.toNat % 2 ^ s.cfg.tlbLineBits + 1) * 2 ^ s.cfg.tlbWayBits := by
      rw [Nat.add_mul, Nat.one_mul]
      exact Nat.add_lt_add_left hway _
    _ ≤ 2 ^ s.cfg.tlbLineBits * 2 ^ s.cfg.tlbWayBits := Nat.mul_le_mul_right _ hline

/-- WAY goes on to the next way and wraps after the last (20_memory.md rule R135). -/
theorem nextWay_toNat (c : Config) (hc : c.legal = true) (way : BitVec 4) :
    ((way + 1) &&& c.wayMask).toNat = (way.toNat + 1) % 2 ^ c.tlbWayBits := by
  have hbits : c.tlbWayBits ≤ 4 := by
    simp only [Config.legal, Bool.and_eq_true, decide_eq_true_eq, and_assoc] at hc
    tauto
  rw [Config.wayMask, toNat_and_lowMask, BitVec.toNat_add]
  exact Nat.mod_mod_of_dvd _ (Nat.pow_dvd_pow 2 hbits)

/-- Settles O42: the entry set is the one a read of the same line and way finds. -/
theorem tlbWriteThenRead : Obligations.TlbWriteThenRead := by
  intro s t rA hs hu hm hwe hexec
  have hw : s.writeCtl .tlbacc (s.x rA) = .ok (State.flushPipeline _) :=
    congrArg (fun u : State => Except.ok u.flushPipeline) (writeTlbacc_of_we s _ hwe)
  cases hexec.symm.trans (exec_wrctl_of_ok (n := .tlbacc) hu hm hw)
  refine ⟨rfl, nextWay_toNat s.cfg hs.config_legal _, fun k => ?_, fun later rB hcfg htlb hu' hline hrd hway => ?_⟩
  · rw [← tlbSlot_eq]
    change (s.tlb.set _ _)[k]? = _
    rw [List.getElem?_set]
    by_cases hk : k = tlbSlot s.cfg s.pteaddr.vpn s.tlbmisc.way
    · rw [if_pos hk.symm, if_pos hk, if_pos (tlbSlot_lt s hs)]
      rfl
    · rw [if_neg (Ne.symm hk), if_neg hk]
  · have hway' : (Tlbmisc.write later.cfg later.tlbmisc (later.x rB)).way = s.tlbmisc.way := by
      rw [Tlbmisc.write, hway, hcfg]
      exact hs.way_significant
    have hslot : tlbSlot later.cfg later.pteaddr.vpn (Tlbmisc.write later.cfg later.tlbmisc (later.x rB)).way =
        tlbSlot s.cfg s.pteaddr.vpn s.tlbmisc.way := by
      rw [hway', tlbSlot_eq, tlbSlot_eq, hcfg, hline]
    have he : later.entryRead (later.x rB) = s.entryWritten (s.x rA) := by
      refine entryRead_of_some later _ _ ?_
      rw [hslot, htlb]
      exact List.getElem?_set_self (tlbSlot_lt s hs)
    have hw' := writeTlbmisc_of_rd later (later.x rB) hrd
    rw [he] at hw'
    have hctl : later.writeCtl .tlbmisc (later.x rB) = .ok (State.flushPipeline _) :=
      congrArg (fun u : State => Except.ok u.flushPipeline) hw'
    refine ⟨_, exec_wrctl_of_ok (n := .tlbmisc) hu' (hcfg ▸ hm) hctl, rfl, rfl, ?_⟩
    exact congrArg (fun vpn => { later.pteaddr with vpn := vpn })
      (vpn_merged_of_line later.cfg later.pteaddr.vpn s.pteaddr.vpn (by rw [hcfg]; exact hline))

/-! ## The MPU region operations -/

section
variable (s : State) (v : Word)

theorem writeMpuacc_plain (hrd : v.getLsbD 1 = false) (hwr : v.getLsbD 0 = false) :
    s.writeMpuacc v = .ok { s with mpuacc := Mpuacc.ofWord s.cfg v } := by
  rw [State.writeMpuacc, mpuaccRd, mpuaccWr, hrd, hwr]
  rfl

theorem writeMpuacc_of_wr (old : MpuRegion) (hrd : v.getLsbD 1 = false) (hwr : v.getLsbD 0 = true)
    (hold : s.selectedRegion = some old) :
    s.writeMpuacc v = .ok (s.writeRegion old (Mpuacc.ofWord s.cfg v)) := by
  rw [State.writeMpuacc, mpuaccRd, mpuaccWr, hrd, hwr, hold]
  rfl

theorem writeMpuacc_of_rd (r : MpuRegion) (hrd : v.getLsbD 1 = true) (hwr : v.getLsbD 0 = false)
    (hr : s.selectedRegion = some r) : s.writeMpuacc v = .ok (s.readRegion r) := by
  rw [State.writeMpuacc, mpuaccRd, mpuaccWr, hrd, hwr, hr]
  rfl

theorem writeMpuacc_of_both (hrd : v.getLsbD 1 = true) (hwr : v.getLsbD 0 = true) :
    s.writeMpuacc v = .error .mpuReadAndWrite := by
  rw [State.writeMpuacc, mpuaccRd, mpuaccWr, hrd, hwr]
  rfl

end

/-- A region write of the data side changes the selected region only. -/
theorem writeRegion_of_data (s : State) (old : MpuRegion) (a : Mpuacc) (hd : s.mpubase.d = true) :
    s.writeRegion old a =
      { s with
        mpuacc := a
        mpuData := s.mpuData.set s.mpubase.index.toNat
                     { base := s.mpubase.base, extent := a.extent, c := a.c, perm := a.perm }
        mpuOld := { isData := true, index := s.mpubase.index.toNat, attrs := old } :: s.mpuOld } := by
  simp [State.writeRegion, State.regionWritten, hd]

/-- A region write of the instruction side: C is never set. -/
theorem writeRegion_of_instr (s : State) (old : MpuRegion) (a : Mpuacc) (hd : s.mpubase.d = false) :
    s.writeRegion old a =
      { s with
        mpuacc := a
        mpuInstr := s.mpuInstr.set s.mpubase.index.toNat
                      { base := s.mpubase.base, extent := a.extent, c := false, perm := a.perm }
        mpuOld := { isData := false, index := s.mpubase.index.toNat, attrs := old } :: s.mpuOld } := by
  simp [State.writeRegion, State.regionWritten, hd]

theorem selectedRegion_of_data (s : State) (hd : s.mpubase.d = true) (h : s.mpubase.index.toNat < s.mpuData.length) :
    s.selectedRegion = some s.mpuData[s.mpubase.index.toNat] := by
  rw [State.selectedRegion, hd, if_pos rfl, List.getElem?_eq_getElem h]

theorem selectedRegion_of_instr (s : State) (hd : s.mpubase.d = false)
    (h : s.mpubase.index.toNat < s.mpuInstr.length) :
    s.selectedRegion = some s.mpuInstr[s.mpubase.index.toNat] := by
  rw [State.selectedRegion, hd, if_neg Bool.false_ne_true, List.getElem?_eq_getElem h]

/-- Settles O44: the four combinations of RD and WR, a region write on either side. -/
theorem mpuRegionOperations : Obligations.MpuRegionOperations := by
  intro s rA hu hp
  refine ⟨fun hrd hwr => exec_wrctl_of_ok (n := .mpuacc) hu hp (writeMpuacc_plain s _ hrd hwr),
    fun hrd hwr hd hlt => ?_, fun hrd hwr hd hlt => ?_,
    fun r hrd hwr hr => exec_wrctl_of_ok (n := .mpuacc) hu hp (writeMpuacc_of_rd s _ r hrd hwr hr),
    fun hrd hwr => exec_wrctl_of_error hu hp (writeMpuacc_of_both s _ hrd hwr)⟩
  · have hw := writeMpuacc_of_wr s (s.x rA) _ hrd hwr (selectedRegion_of_data s hd hlt)
    rw [writeRegion_of_data s _ _ hd] at hw
    exact ⟨_, exec_wrctl_of_ok (n := .mpuacc) hu hp hw, rfl, rfl, rfl, rfl, List.getElem?_set_self hlt,
      fun k hk => List.getElem?_set_ne (Ne.symm hk), rfl⟩
  · have hw := writeMpuacc_of_wr s (s.x rA) _ hrd hwr (selectedRegion_of_instr s hd hlt)
    rw [writeRegion_of_instr s _ _ hd] at hw
    refine ⟨_, exec_wrctl_of_ok (n := .mpuacc) hu hp hw, rfl, rfl, rfl, ?_, List.getElem?_set_self hlt,
      fun k hk => List.getElem?_set_ne (Ne.symm hk), rfl⟩
    refine (mpuacc_layout _).2.1.trans ?_
    exact (congrArg _ hd).trans (Bool.and_false _)

end Sys2Proof.Machine
end

section
/-! PROOFS. The cache instructions and the barriers (20_memory.md rules R115 to R117, 46_other_control.md rules R360 to
R367), the shadow register sets (rules R380 and R381) and custom logic (47_custom_nop_unimplemented.md rule R390). -/

namespace Sys2Proof.Machine

/-! ## The cache instructions -/

theorem exec_flushda_of_ok (s : State) (rA : RegNum) (imm : BitVec 16) (p : Physical)
    (h : s.translateData .flushda .byte (s.effective rA imm) = .ok p) :
    exec (.flushda rA imm) s =
      .next ((s.drawn s.accessDraws).flushAddress (s.cfg.dIndex (s.effective rA imm)) p.pa).advance := by
  change execFlushda rA imm s = _
  rw [execFlushda, h]
  rfl

theorem exec_initda_of_ok (s : State) (rA : RegNum) (imm : BitVec 16) (p : Physical)
    (hi : s.cfg.implemented.initda = true) (h : s.translateData .initda .byte (s.effective rA imm) = .ok p) :
    exec (.initda rA imm) s =
      .next ((s.drawn s.accessDraws).dropAddress (s.cfg.dIndex (s.effective rA imm)) p.pa).advance := by
  change execInitda rA imm s = _
  rw [execInitda, ifImplemented_of_present _ _ _ hi, h]
  rfl

theorem exec_initd_of_supervisor (s : State) (rA : RegNum) (imm : BitVec 16) (hu : s.status.u = false) :
    exec (.initd rA imm) s = .next (s.dropIndex (s.cfg.dIndex (s.effective rA imm))).advance :=
  supervisorOnly_of_supervisor s _ hu

theorem exec_initi_of_supervisor (s : State) (rA : RegNum) (hu : s.status.u = false) :
    exec (.initi rA) s = .next (s.invalidateInstr (s.x rA)).advance :=
  supervisorOnly_of_supervisor s _ hu

theorem dIndex_of_no_dcache (c : Config) (va : Word) (h : c.hasDcache = false) : c.dIndex va = none := by
  rw [Config.dIndex, if_neg (by simp [h])]

theorem iIndex_of_no_icache (c : Config) (va : Word) (h : c.hasIcache = false) : c.iIndex va = none := by
  rw [Config.iIndex, if_neg (by simp [h])]

theorem invalidateInstr_of_no_line (s : State) (va : Word) (h : s.cfg.iIndex va = none) :
    s.invalidateInstr va = { s with hazards := hazardsAfterInvalidate s.hazards (s.cfg.flushNumber va) } := by
  unfold State.invalidateInstr
  simp only [h]

theorem invalidateInstr_of_line (s : State) (va : Word) (k : Nat) (h : s.cfg.iIndex va = some k) :
    s.invalidateInstr va =
      { s with hazards := hazardsAfterInvalidate s.hazards (s.cfg.flushNumber va)
               icache := s.icache.filter (fun l => l.index != k) } := by
  unfold State.invalidateInstr
  simp only [h]
  rfl

/-- Settles O45: without a line number each operation leaves the state alone. -/
theorem cachelessOps : Obligations.CachelessOps := by
  intro s rA imm hd hi
  have hline := dIndex_of_no_dcache s.cfg (s.effective rA imm) hd
  have hinval := invalidateInstr_of_no_line s _ (iIndex_of_no_icache s.cfg (s.x rA) hi)
  refine ⟨?_, ?_, fun hu => ⟨?_, ?_⟩, fun p hp => ?_, fun p himpl hp => ?_⟩
  · change execFlushd rA imm s = _
    rw [execFlushd, hline]
    rfl
  · change execFlushi rA s = _
    rw [execFlushi, hinval]
    rfl
  · rw [exec_initd_of_supervisor s rA imm hu, hline]
    rfl
  · rw [exec_initi_of_supervisor s rA hu, hinval]
    rfl
  · rw [exec_flushda_of_ok s rA imm p hp, hline]
    rfl
  · rw [exec_initda_of_ok s rA imm p himpl hp, hline]
    rfl

/-- Memory after the lines of one number that satisfy a test are flushed, by the line found for each address. -/
theorem read_flushLines (s : State) (hs : Inv s) (hd : s.cfg.hasDcache = true) (k : Nat) (test : CacheLine → Bool)
    (htest : ∀ l, test l = true → l.index = k) (a : Nat) :
    (∀ l, findLine s.dcache k (s.cfg.dBase a) = some l → test l = true → l.dirty = true → s.cfg.isDevice a = false →
      (s.flushLines test).mem.read a = l.data.read a) ∧
    ((s.cfg.isDevice a = true ∨
        ∀ l, findLine s.dcache k (s.cfg.dBase a) = some l → test l = true → l.dirty = false) →
      (s.flushLines test).mem.read a = s.mem.read a) := by
  have hpos := dcacheLine_pos s.cfg hd
  have hfound : ∀ l ∈ s.dcache.filter test, (l.base ≤ a ∧ a < l.base + s.cfg.dcacheLine) →
      findLine s.dcache k (s.cfg.dBase a) = some l ∧ test l = true := by
    intro l hl hr
    obtain ⟨hmem, ht⟩ := List.mem_filter.1 hl
    have := findLine_of_mem s hpos hs.dcache_lines.1 hs.dcache_lines.2 l hmem a hr
    rw [htest l ht] at this
    exact ⟨this, ht⟩
  refine ⟨fun l hl ht hdirty hdev => ?_, fun h => ?_⟩
  · have hmem : l ∈ s.dcache.filter test := List.mem_filter.2 ⟨List.mem_of_find?_eq_some hl, ht⟩
    have hr : l.base ≤ a ∧ a < l.base + s.cfg.dcacheLine := by
      rw [(findLine_spec _ _ _ _ hl).2]
      exact dBase_le s.cfg a hpos
    refine read_writeBack_in s.cfg _ s.mem a l hmem hdirty hr hdev (fun j hj _ hjr => ?_)
    exact Option.some.inj ((hfound j hj hjr).1.symm.trans hl)
  · refine read_writeBack_out s.cfg _ s.mem a (h.imp_right fun h l hl hdirty hr => ?_)
    obtain ⟨hl', ht⟩ := hfound l hl hr
    rw [h l hl' ht] at hdirty
    cases hdirty

theorem hasDcache_of_dIndex (c : Config) (va : Word) (k : Nat) (h : c.dIndex va = some k) : c.hasDcache = true := by
  unfold Config.dIndex at h
  split at h
  · assumption
  · cases h

/-- `flushd` where there is a data cache (rule R360). -/
theorem exec_flushd_of_line (s : State) (rA : RegNum) (imm : BitVec 16) (k : Nat)
    (hk : s.cfg.dIndex (s.effective rA imm) = some k) :
    exec (.flushd rA imm) s =
      .next { s with pc := s.pc + 4, mem := (s.flushLines (·.hasIndex k)).mem,
                     dcache := s.dcache.filter (fun l => l.index != k),
                     hazards := hazardsAfterFlush s.cfg s.hazards k none } := by
  change execFlushd rA imm s = _
  rw [execFlushd, hk]
  rfl

/-- `flushda` where there is a data cache and the address passes (rule R361). -/
theorem exec_flushda_of_line (s : State) (rA : RegNum) (imm : BitVec 16) (k : Nat) (p : Physical)
    (hk : s.cfg.dIndex (s.effective rA imm) = some k)
    (hp : s.translateData .flushda .byte (s.effective rA imm) = .ok p) :
    exec (.flushda rA imm) s =
      .next { s with pc := s.pc + 4, mem := (s.flushLines (·.isAt k (s.cfg.dBase p.pa))).mem,
                     dcache := s.dcache.filter (fun l => !(l.index == k && l.base == s.cfg.dBase p.pa)),
                     hazards := hazardsAfterFlush s.cfg s.hazards k (some (s.cfg.dBase p.pa)),
                     draws := s.draws + s.accessDraws } := by
  rw [exec_flushda_of_ok s rA imm p hp, hk]
  rfl

/-- Settles O46: the lines flushed are those of one number, or the one of them that holds the address. -/
theorem flushWritesBack : Obligations.FlushWritesBack := by
  intro s rA imm k hs hk
  have hd := hasDcache_of_dIndex s.cfg _ k hk
  constructor
  · have hexec := exec_flushd_of_line s rA imm k hk
    have hread := fun a => read_flushLines s hs hd k (·.hasIndex k) (fun l h => by simpa [CacheLine.hasIndex] using h) a
    refine ⟨_, hexec, rfl, rfl, fun a l hl hdirty hdev => ?_, fun a ha => ?_, rfl⟩
    · refine (hread a).1 l hl ?_ hdirty hdev
      rw [CacheLine.hasIndex, (findLine_spec _ _ _ _ hl).1]
      exact beq_self_eq_true k
    · exact (hread a).2 (ha.imp_right fun h l hl _ => h l hl)
  · intro p hp
    have hexec := exec_flushda_of_line s rA imm k p hk hp
    have hread := fun a => read_flushLines s hs hd k (·.isAt k (s.cfg.dBase p.pa))
      (fun l h => by simp only [CacheLine.isAt, Bool.and_eq_true, beq_iff_eq] at h; exact h.1) a
    refine ⟨_, hexec, rfl, rfl, fun a l hbase hl hdirty hdev => ?_, fun a ha => ?_, rfl⟩
    · refine (hread a).1 l hl ?_ hdirty hdev
      obtain ⟨hindex, hlbase⟩ := findLine_spec _ _ _ _ hl
      rw [CacheLine.isAt, hindex, hlbase, hbase, beq_self_eq_true, beq_self_eq_true]
      rfl
    · refine (hread a).2 (ha.imp_right fun h l hl ht => ?_)
      obtain ⟨-, hlbase⟩ := findLine_spec _ _ _ _ hl
      simp only [CacheLine.isAt, Bool.and_eq_true, beq_iff_eq] at ht
      exact h.elim (fun hne => absurd (hlbase.symm.trans ht.2) hne) (fun h => h l hl)

/-- Settles O47: each operation as the lines that stay. -/
theorem linesDropped : Obligations.LinesDropped := by
  intro s rA imm k
  refine ⟨fun hu hk => ?_, fun p hi hk hp => ?_, fun hk i hi hmode => ?_⟩
  · rw [exec_initd_of_supervisor s rA imm hu, hk]
    rfl
  · rw [exec_initda_of_ok s rA imm p hi hp, hk]
    rfl
  · have hexec : exec i s = .next (s.invalidateInstr (s.x rA)).advance := by
      rcases List.mem_pair.1 hi with rfl | rfl
      · rfl
      · exact exec_initi_of_supervisor s rA (hmode.resolve_right nofun)
    rw [invalidateInstr_of_line s _ k hk] at hexec
    exact ⟨_, hexec, rfl, rfl, rfl⟩

/-! ## Barriers and the code update sequence -/

theorem hazardsAfterFlushp_eq (hs : List CodeHazard) :
    hazardsAfterFlushp hs = hs.filter (fun h => h.dLine != none || h.iLine != none) := by
  have hne : ∀ o : Option Nat, o.isSome = (o != none) := by
    intro o
    cases o <;> rfl
  simp only [hazardsAfterFlushp, hne]

/-- Settles O49: the definitions of the two instructions. -/
theorem pipelineOps : Obligations.PipelineOps := by
  intro s
  refine ⟨?_, rfl⟩
  rw [← hazardsAfterFlushp_eq]
  rfl

theorem effective_zero (s : State) (rA : RegNum) : s.effective rA 0 = s.x rA := BitVec.add_zero _

/-- The hazards after a store of a word of memory where there were none (rule R115). -/
theorem afterStore_hazards (s : State) (va : Word) (p : DataPath) (bytes : List Byte) (h : s.hazards = [])
    (hdev : p.device = false) :
    (s.afterStore va p bytes).hazards =
      [{ word := p.pa / 4, dLine := p.line, iLine := some (s.cfg.flushNumber va) }] := by
  have hstored : ((s.drawn s.accessDraws).storeData p bytes).hazards = [] :=
    (storeData_hazards (s.drawn s.accessDraws) p bytes).trans h
  have hframe := afterStore_frame s va p bytes
  have hcfg : ((s.drawn s.accessDraws).storeData p bytes).cfg = s.cfg := by
    rw [State.afterStore, State.delivered, if_neg (by simp [hdev])] at hframe
    exact (congrArg State.cfg hframe :)
  rw [State.afterStore, State.delivered, if_neg (by simp [hdev])]
  unfold State.noteStore
  dsimp only [State.advance]
  rw [hstored, hcfg]
  rfl

/-- What `flushd` leaves of a stored word's record: its data cache line is no longer waited for (rule R503). -/
theorem flushIndex_hazards (s : State) (index : Option Nat) (word : Nat) (dLine iLine : Option Nat)
    (h : s.hazards = [{ word := word, dLine := dLine, iLine := iLine }]) (hline : dLine = none ∨ dLine = index) :
    (s.flushIndex index).hazards = [{ word := word, dLine := none, iLine := iLine }] := by
  cases index with
  | none =>
    obtain rfl : dLine = none := hline.elim id id
    exact h
  | some k =>
    change hazardsAfterFlush s.cfg s.hazards k none = _
    rw [h]
    rcases hline with rfl | rfl <;> simp [hazardsAfterFlush]

theorem flushIndex_x (s : State) (index : Option Nat) (r : RegNum) : (s.flushIndex index).x r = s.x r := by
  cases index <;> rfl

theorem invalidateInstr_hazards (s : State) (va : Word) :
    (s.invalidateInstr va).hazards = hazardsAfterInvalidate s.hazards (s.cfg.flushNumber va) := by
  unfold State.invalidateInstr
  dsimp only
  split <;> rfl

theorem isStale_of_hazards (s : State) (pa : Nat) (dLine iLine : Option Nat)
    (h : s.hazards = [{ word := pa / 4, dLine := dLine, iLine := iLine }]) : s.isStale pa = true := by
  simp [State.isStale, h]

/-- `flushp` does not end the record of a word for which `flushi` has not run (rule R503). -/
theorem isStale_flushp (s u : State) (pa n : Nat) (dLine : Option Nat)
    (h : s.hazards = [{ word := pa / 4, dLine := dLine, iLine := some n }]) (hu : exec .flushp s = .next u) :
    u.isStale pa = true := by
  cases hu
  refine isStale_of_hazards _ pa dLine (some n) ?_
  change hazardsAfterFlushp s.hazards = _
  rw [h]
  simp [hazardsAfterFlushp]

/-- Settles O48: the record of the one stored word, instruction by instruction. -/
theorem codeUpdateSequence : Obligations.CodeUpdateSequence := by
  intro s t1 t2 t3 t4 rX rA pa line hs _ _ hp h1 h2 h3 h4
  obtain ⟨-, hline, -, -⟩ := dataPath_ok s _ _ _ _ _ hp
  rw [← effective_zero] at hp
  have hst := storeFrom_of_dataPath .word false rX rA 0 s _ hp
  rw [effective_zero] at hst
  have ht1 : t1 = s.afterStore (s.x rA) { pa := pa, line := line } (storedBytes .word (s.x rX)) :=
    Host.Outcome.next.inj (h1.symm.trans hst)
  have hframe : { t1 with pc := s.pc, mem := s.mem, dcache := s.dcache, hazards := s.hazards,
                           draws := s.draws } = s := by
    rw [ht1]
    exact afterStore_frame ..
  have hcfg1 : t1.cfg = s.cfg := (congrArg State.cfg hframe :)
  have hx1 : t1.x rA = s.x rA := (congrArg (fun u : State => u.x rA) hframe :)
  have hz1 : t1.hazards = [{ word := pa / 4, dLine := line, iLine := some (s.cfg.flushNumber (s.x rA)) }] := by
    rw [ht1]
    exact afterStore_hazards s _ _ _ hs rfl
  have hz2 : t2.hazards = [{ word := pa / 4, dLine := none, iLine := some (s.cfg.flushNumber (s.x rA)) }] := by
    cases h2
    refine flushIndex_hazards t1 _ _ line _ hz1 (hline.imp_right fun h => ?_)
    rw [effective_zero, hx1, hcfg1]
    exact h.2
  have hcfg2 : t2.cfg = s.cfg := (memoryWriters t1 t2 _ h2).1.trans hcfg1
  have hx2 : t2.x rA = s.x rA := by
    cases h2
    exact (flushIndex_x t1 _ rA).trans hx1
  have hz3 : t3.hazards = [{ word := pa / 4, dLine := none, iLine := none }] := by
    cases h3
    change (t2.invalidateInstr (t2.x rA)).hazards = _
    rw [invalidateInstr_hazards, hz2, hx2, hcfg2]
    simp [hazardsAfterInvalidate]
  refine ⟨isStale_of_hazards _ pa _ _ hz1, isStale_of_hazards _ pa _ _ hz2, isStale_of_hazards _ pa _ _ hz3, ?_,
    fun u hu => isStale_flushp t1 u pa _ _ hz1 hu, fun u hu => isStale_flushp t2 u pa _ _ hz2 hu⟩
  cases h4
  change hazardsAfterFlushp t3.hazards = []
  rw [hz3]
  rfl

/-! ## The previous register set -/

theorem needsShadow_of_shadow (s : State) (k : Result) (h : s.cfg.numShadow ≠ 0) : needsShadow s k = k := by
  rw [needsShadow, if_pos (by simpa [Config.hasShadow] using h)]

theorem needsShadow_of_none (s : State) (k : Result) (h : s.cfg.numShadow = 0) (hd : s.cfg.illegalInsn = true) :
    needsShadow s k = .next (takeGeneral .illegalInstr s) := by
  rw [needsShadow, if_neg (by simp [Config.hasShadow, h]), if_pos hd]
  rfl

/-- Settles O50: with shadow sets through PRS, without them the illegal instruction. -/
theorem shadowAccess : Obligations.ShadowAccess := by
  intro s rB rA rC imm hu
  have hsuper := fun k => supervisorOnly_of_supervisor s k hu
  refine ⟨fun hshadow hprs => ⟨?_, ?_⟩, fun hnone hd => ⟨?_, ?_⟩⟩
  · refine ⟨_, (hsuper _).trans ((needsShadow_of_shadow s _ hshadow).trans (if_pos hprs)), ?_⟩
    exact retires_retire s rB _
  · refine ⟨_, (hsuper _).trans ((needsShadow_of_shadow s _ hshadow).trans (if_pos hprs)), rfl, rfl,
      fun hreg set j => ?_, fun hreg set j => ?_⟩
    · refine (RegFile.get_put s.regs s.status.prs set rC j (s.x rA)).trans ?_
      exact if_congr ⟨fun h => ⟨h.1, h.2.1⟩, fun h => ⟨h.1, h.2, hreg⟩⟩ rfl rfl
    · exact (RegFile.get_put s.regs s.status.prs set rC j (s.x rA)).trans (if_neg fun h => h.2.2 hreg)
  · exact (hsuper _).trans (needsShadow_of_none s _ hnone hd)
  · exact (hsuper _).trans (needsShadow_of_none s _ hnone hd)

/-! ## Custom logic -/

/-- A `custom` whose logic is attached and whose form names a result register (rule R390). -/
theorem exec_custom_of_register (s : State) (n : BitVec 8) (k : RegNum) (a b : CustomReg) (logic : CustomRange)
    (h : s.cfg.customLogic n = some logic) :
    exec (.custom n (.r k) a b) s =
      .next ((s.drawn (if usesHistory logic (.r k) a b then 1 else 0)).retire k
        (s.customValue logic n (.r k) a b)) := by
  change execCustom n (.r k) a b s = _
  rw [execCustom, h]

/-- A `custom` whose result stays with the logic. -/
theorem exec_custom_of_internal (s : State) (n : BitVec 8) (k : BitVec 5) (a b : CustomReg) (logic : CustomRange)
    (h : s.cfg.customLogic n = some logic) :
    exec (.custom n (.c k) a b) s = .next (s.drawn (if usesHistory logic (.c k) a b then 1 else 0)).advance := by
  change execCustom n (.c k) a b s = _
  rw [execCustom, h]

/-- Settles O51: by the form of the result; pure logic of registers draws no free value. -/
theorem customOutcomes : Obligations.CustomOutcomes := by
  intro s n c a b
  refine ⟨fun logic hlogic => ?_, fun hnone => ?_⟩
  · cases c with
    | c k =>
      exact ⟨_, 0, exec_custom_of_internal s n k a b logic hlogic, rfl, nofun, fun _ _ _ _ => rfl, rfl, nofun⟩
    | r k =>
      refine ⟨_, s.customValue logic n (.r k) a b, exec_custom_of_register s n k a b logic hlogic, rfl,
        fun k' hk' => ?_, nofun, rfl, fun rC rA rB hpure hc ha hb => ?_⟩
      · cases hk'
        exact writesRegister_of_regs _ _ _ _ rfl
      · cases hc
        cases ha
        cases hb
        have hhist : usesHistory logic (.r k) (.r rA) (.r rB) = false := by
          rw [usesHistory, hpure]
          rfl
        rw [State.customValue, hhist]
        exact ⟨rfl, rfl⟩
  · change execCustom n c a b s = _
    rw [execCustom, hnone]

end Sys2Proof.Machine
end

section
/-! PROOFS. The events at an instruction boundary (60_exceptions.md rules R401, R404 and R421 to R428), and reset
(70_reset_and_hazards.md rules R480 to R485, 10_state.md rules R80 to R83). -/

namespace Sys2Proof.Machine

/-! ## Which event is taken -/

/-- The interrupt taken at a boundary where neither a reset nor a break is. -/
def State.interruptTaken (s : State) : Option Result :=
  if s.pins.recognise && s.internalPending then some (raise .internalInterrupt s)
  else if s.pins.recognise then s.externalPending.map (fun q => takeRequest q s)
  else none

theorem event_of_no_break (s : State) (hreset : s.pins.reset = false)
    (hdebug : s.pins.debugRequest = false ∨ s.paused = true)
    (hcpu : s.pins.cpuResetRequest = false ∨ s.paused = true) : s.event = s.interruptTaken := by
  have hdebug' : ¬(s.cfg.hasDebug && s.pins.debugRequest && !s.paused) = true := by
    rcases hdebug with h | h <;> simp [h]
  have hcpu' : ¬(s.cfg.hasResetRequest && s.pins.cpuResetRequest && !s.paused) = true := by
    rcases hcpu with h | h <;> simp [h]
  rw [State.event, if_neg (by simp [hreset]), if_neg hdebug', if_neg hcpu']
  rfl

theorem and_ne_zero_iff (a b : Word) :
    (a &&& b != 0) = true ↔ ∃ n < 32, a.getLsbD n = true ∧ b.getLsbD n = true := by
  rw [bne_iff_ne]
  constructor
  · intro h
    by_contra hno
    refine h (BitVec.eq_of_getLsbD_eq fun n hn => ?_)
    rw [BitVec.ofNat_eq_ofNat, BitVec.getLsbD_and, BitVec.getLsbD_zero, Bool.and_eq_false_iff]
    by_contra hbits
    rw [not_or, Bool.not_eq_false, Bool.not_eq_false] at hbits
    exact hno ⟨n, hn, hbits⟩
  · rintro ⟨n, -, ha, hb⟩ h
    have := congrArg (fun x : Word => x.getLsbD n) h
    simp [ha, hb] at this

/-- When an internal interrupt may be taken (rule R422). -/
theorem internalPending_iff (s : State) (h : s.cfg.hasEic = false) :
    s.internalPending = true ↔
      s.status.pie = true ∧ ∃ n < 32, s.pins.irq.getLsbD n = true ∧ s.ienable.getLsbD n = true := by
  rw [State.internalPending, h, Bool.and_eq_true, and_ne_zero_iff]
  simp

theorem externalPending_of_no_eic (s : State) (h : s.cfg.hasEic = false) : s.externalPending = none := by
  rw [State.externalPending, if_neg (by simp [h])]

theorem interruptTaken_of_internal (s : State) (hr : s.pins.recognise = true) (h : s.internalPending = true) :
    s.interruptTaken = some (.next (takeGeneral .internalInterrupt s)) := by
  rw [State.interruptTaken, if_pos (by simp [hr, h])]
  rfl

theorem interruptTaken_of_none (s : State) (hi : s.internalPending = false) (he : s.externalPending = none) :
    s.interruptTaken = none := by
  rw [State.interruptTaken, if_neg (by simp [hi]), he]
  split <;> rfl

/-- Settles O52: by whether the interrupt is pending; with no inputs left every boundary recognises it. -/
theorem internalInterruptTaken : Obligations.InternalInterruptTaken := by
  intro s heic hreset hdebug hcpu
  have hpending := internalPending_iff s heic
  refine ⟨fun hr => ?_, fun hin hpie hirq => ?_⟩
  · have htaken := interruptTaken_of_internal s hr
    have hnone := fun h => interruptTaken_of_none s h (externalPending_of_no_eic s heic)
    rw [event_of_no_break s hreset (.inl hdebug) (.inl hcpu), ← hpending]
    cases hp : s.internalPending with
    | true => simp [htaken hp]
    | false => simp [hnone hp]
  · have hevent : s.boundary.event = some (.next (takeGeneral .internalInterrupt s.boundary)) := by
      rw [boundary_of_no_inputs s hin]
      exact (event_of_no_break { s with pins := { s.pins with recognise := true } } hreset (.inl hdebug)
        (.inl hcpu)).trans (interruptTaken_of_internal _ rfl (hpending.2 ⟨hpie, hirq⟩))
    rw [step, hevent, boundary_of_no_inputs s hin]

/-! ## External interrupts -/

/-- The conditions of table 53 (rules R425 and R426). -/
theorem mayTake_iff (s : State) (q : EicRequest) :
    s.mayTake q = true ↔ (q.rnmi = true ∧ s.status.nmi = false) ∨
      (q.rnmi = false ∧ s.status.pie = true ∧ s.status.il.toNat < q.ril.toNat ∧
        (s.cfg.numShadow = 0 ∨ q.rrs ≠ s.status.crs ∨ s.status.rsie = true)) := by
  unfold State.mayTake
  cases hn : q.rnmi with
  | true => simp
  | false => simp [Config.hasShadow, BitVec.lt_def, and_assoc, or_assoc]

theorem externalPending_of_request (s : State) (q : EicRequest) (heic : s.cfg.hasEic = true)
    (hq : s.pins.eic = some q) : s.externalPending = if s.mayTake q then some q else none := by
  rw [State.externalPending, if_pos heic, hq]
  rfl

theorem internalPending_of_eic (s : State) (heic : s.cfg.hasEic = true) : s.internalPending = false := by
  simp [State.internalPending, heic]

theorem interruptTaken_of_external (s : State) (q : EicRequest) (hr : s.pins.recognise = true)
    (heic : s.cfg.hasEic = true) (he : s.externalPending = some q) (hset : q.rrs ≤ s.cfg.numShadow) :
    s.interruptTaken = some (.next (takeExternal q s)) := by
  rw [State.interruptTaken, if_neg (by simp [internalPending_of_eic s heic]), if_pos hr, he]
  exact congrArg some (if_pos hset)

/-- A register set of the core has only significant bits (10_state.md rule R37). -/
theorem and_setMask_of_le (c : Config) (x : SetNum) (h : x ≤ c.numShadow) : x &&& c.setMask = x := by
  apply BitVec.eq_of_toNat_eq
  rw [Config.setMask, toNat_and_lowMask]
  refine Nat.mod_eq_of_lt (Nat.lt_of_le_of_lt (BitVec.le_def.1 h) ?_)
  unfold bitsFor
  split
  · rename_i hz
    rw [hz]
    decide
  · exact Nat.lt_log2_self

/-- What an external interrupt taken with no exception active leaves in every register (rule R428). -/
theorem interruptRegs_get (s : State) (q : EicRequest) (set : SetNum) (j : RegNum) :
    (s.interruptRegs q).get set j =
      if set = q.rrs ∧ j = 29 then s.pc + 4
      else if q.rrs ≠ 0 ∧ set = q.rrs ∧ j = 30 then s.status.toSstatus (q.rrs != s.status.crs)
      else s.regs.get set j := by
  unfold State.interruptRegs
  by_cases hz : q.rrs = 0#6
  · simp [hz, RegFile.get_put]
  · simp [hz, RegFile.get_put]

/-- sstatus is status with SRS in bit 31 (10_state.md rule R70). -/
theorem toSstatus_eq (t : Status) (srs : Bool) :
    t.toSstatus srs = BitVec.ofBool srs ++ t.toWord.extractLsb' 0 31 := by
  have htop : t.toWord[31] = false := by
    have h := congrArg (fun x : BitVec 8 => x.getLsbD 7) (status_layout t).1
    simpa using h
  have hbit : (if srs then 0x80000000 else 0 : Word) = if srs then BitVec.twoPow 32 31 else 0 := rfl
  apply BitVec.eq_of_getLsbD_eq
  intro i hi
  rw [Status.toSstatus, hbit, BitVec.getLsbD_or, BitVec.getLsbD_append]
  by_cases h31 : i < 31
  · cases srs <;> simp [h31, BitVec.getLsbD_twoPow, Nat.ne_of_gt h31]
  · obtain rfl : i = 31 := by omega
    cases srs
    · simp [htop]
    · simp

/-- Settles O53: table 53 decides; the status and registers entered, field by field. -/
theorem externalInterruptTaken : Obligations.ExternalInterruptTaken := by
  refine ⟨fun s q heic hreset hdebug hcpu hr hq hset => ?_, fun s t q hs heic hset ht => ?_⟩
  · rw [event_of_no_break s hreset (.inl hdebug) (.inl hcpu), ← mayTake_iff]
    have hpending := externalPending_of_request s q heic hq
    refine ⟨fun h => ?_, fun h => ?_⟩
    · rw [if_pos h] at hpending
      exact interruptTaken_of_external s q hr heic hpending hset
    · rw [if_neg h] at hpending
      exact interruptTaken_of_none s (internalPending_of_eic s heic) hpending
  · subst ht
    obtain ⟨himpl, hcrs, hprs⟩ := (legal_iff _ _).1 hs.status_legal
    obtain ⟨-, -, hprs', hcrs', -, -, heh, -, -⟩ := (implement_eq_iff _ _ _).1 himpl
    have hxs : ∀ set j, (takeExternal q s).xs set j =
        if s.status.eh = true then s.xs set j else (s.interruptRegs q).get set j := by
      intro set j
      rw [State.xs, takeExternal]
      dsimp only
      split <;> rfl
    refine ⟨rfl, and_setMask_of_le s.cfg q.rrs hset, heic, ?_, ?_, rfl, heh, fun hshadow => ?_, ?_, rfl, rfl,
      fun heh1 => ⟨fun set j => (hxs set j).trans (if_pos heh1), ?_, ?_⟩,
      fun heh0 => ⟨?_, fun hz => ⟨?_, fun set j => ?_⟩,
        fun hnz => ⟨?_, ?_, ?_, fun set j hno => ?_⟩⟩⟩
    · exact (congrArg (q.rnmi && ·) heic).trans (Bool.and_true _)
    · exact if_pos heic
    · simpa [takeExternal, Status.implement, Status.inInterrupt, Config.hasNesting, Config.hasShadow, heic]
        using hshadow
    · change (s.status.pie && !(q.rnmi || !s.config.ani)) = _
      rw [Bool.not_or, Bool.not_not, Bool.and_assoc]
    · simp [takeExternal, heh1]
    · change (if s.status.eh then s.status.prs else s.status.crs) &&& s.cfg.setMask = _
      rw [if_pos heh1, hprs']
    · change (if s.status.eh then s.status.prs else s.status.crs) &&& s.cfg.setMask = _
      rw [if_neg (by simp [heh0]), hcrs']
    · simp [takeExternal, heh0, hz]
    · rw [hxs, if_neg (by simp [heh0]), interruptRegs_get, hz]
      exact if_congr Iff.rfl rfl (if_neg fun h => h.1 rfl)
    · simpa [takeExternal] using fun _ h => absurd h hnz
    · rw [hxs, if_neg (by simp [heh0]), interruptRegs_get, if_pos ⟨rfl, rfl⟩]
    · rw [hxs, if_neg (by simp [heh0]), interruptRegs_get, if_neg fun h => absurd h.2 (by decide),
        if_pos ⟨hnz, rfl, rfl⟩, toSstatus_eq]
      by_cases hc : q.rrs = s.status.crs
      · rw [if_pos hc, hc, bne_self_eq_false]
        rfl
      · rw [if_neg hc, bne_iff_ne.2 hc]
        rfl
    · rw [hxs, if_neg (by simp [heh0]), interruptRegs_get, if_neg fun h => hno ⟨h.1, .inl h.2⟩,
        if_neg fun h => hno ⟨h.2.1, .inr h.2.2⟩]
      rfl

/-! ## Reset -/

/-- What is taken while the debug module is in control, but for a reset, leaves it in control (log 30). -/
theorem interruptTaken_paused (s t : State) (hp : s.paused = true) (h : s.interruptTaken = some (.next t)) :
    t.paused = true := by
  unfold State.interruptTaken at h
  split at h
  · cases h
    exact hp
  · split at h
    · obtain ⟨q, -, hq⟩ := Option.map_eq_some_iff.1 h
      unfold takeRequest at hq
      split at hq
      · cases hq
        exact hp
      · cases hq
    · cases h

/-- The instruction cache after a reset has no line where the reset vector is (20_memory.md rule R118). -/
theorem takeReset_icache (cause : BitVec 5) (s : State) (k : Nat)
    (hk : s.cfg.iIndex (takeReset cause s).pc = some k) : ∀ l ∈ (takeReset cause s).icache, l.index ≠ k := by
  intro l hl
  have hicache : (takeReset cause s).icache = s.icache.filter (fun l => !l.hasIndex k) := by
    change s.cfg.iIndex (State.resetOf s.cfg).pc = some k at hk
    rw [takeReset]
    dsimp only
    rw [hk]
  rw [hicache] at hl
  simpa [CacheLine.hasIndex] using (List.mem_filter.1 hl).2

theorem Status.afterReset_toWord : Status.afterReset.toWord = 0x00800000 := by decide

theorem causeWord_zero : causeWord 0 = 0 := by decide

/-- The control registers that are 0 after every reset (10_state.md rule R82). -/
theorem resetOf_words (c : Config) :
    (State.resetOf c).estatus.toWord = 0 ∧ (State.resetOf c).bstatus.toWord = 0 ∧
      (State.resetOf c).config.toWord = 0 ∧ (State.resetOf c).pteaddr.toWord = 0 ∧
      (State.resetOf c).tlbacc.toWord = 0 ∧ (State.resetOf c).tlbmisc.toWord = 0 ∧
      (State.resetOf c).mpubase.toWord = 0 ∧ (State.resetOf c).mpuacc.toWord = 0 := by
  have hstatus : Status.zero.toWord = 0 := by decide
  refine ⟨hstatus, hstatus, ?_, ?_, ?_, ?_, ?_, ?_⟩
  · simp [State.resetOf, ConfigReg.toWord]
  · simp [State.resetOf, Pteaddr.toWord]
  · simp [State.resetOf, Tlbacc.toWord]
  · simp [State.resetOf, Tlbmisc.toWord]
  · simp [State.resetOf, Mpubase.toWord]
  · simp [State.resetOf, Mpuacc.toWord]

/-- Settles O54: the order of the events, and the state a reset leaves. -/
theorem resetTaken : Obligations.ResetTaken := by
  refine ⟨event_of_reset, fun s hreset hdebug hhas hcpu hp => ?_, fun s hreset hp => ?_, fun s t k ht => ?_⟩
  · rw [State.event, if_neg (by simp [hreset]), if_neg (by simp [hdebug]), if_pos (by simp [hhas, hcpu, hp])]
  · rw [event_of_no_break s hreset (.inr hp) (.inr hp)]
    refine ⟨fun hr => ?_, fun t h => ?_⟩
    · rw [State.interruptTaken, hr]
      rfl
    · have ht := interruptTaken_paused s t hp h
      refine ⟨ht, fun k heq => ?_⟩
      rw [heq] at ht
      cases ht
  · subst ht
    obtain ⟨hestatus, hbstatus, hconfig, hpteaddr, htlbacc, htlbmisc, hmpubase, hmpuacc⟩ := resetOf_words s.cfg
    exact ⟨rfl, Status.afterReset_toWord, rfl, hestatus, hbstatus, hconfig, rfl, fun hx => if_pos hx, hpteaddr,
      htlbacc, htlbmisc, hmpubase, hmpuacc, fun _ _ => rfl, rfl, rfl, rfl, rfl, rfl, rfl, takeReset_icache k s⟩

/-- Settles O55: each value of the state right after reset. -/
theorem resetValues : Obligations.ResetValues := by
  intro c
  obtain ⟨hestatus, hbstatus, hconfig, hpteaddr, htlbacc, htlbmisc, hmpubase, hmpuacc⟩ := resetOf_words c
  refine ⟨rfl, Status.afterReset_toWord, RegFile.get_zero _, Bool.and_false _, ?_, rfl, rfl, fun k hk => ?_⟩
  · simp only [List.forall_mem_cons]
    exact ⟨hestatus, hbstatus, causeWord_zero, rfl, hpteaddr, htlbacc, htlbmisc, rfl, hconfig, hmpubase, hmpuacc, nofun⟩
  · rw [List.find?_eq_none]
    intro l hl hindex
    have hkeep := (List.mem_filter.1 hl).2
    rw [beq_iff_eq] at hindex
    simp [hk, hindex] at hkeep

end Sys2Proof.Machine
end
